-- ==== Sys2Proof/Word.lean ====
section
/-! DEFINITION. The machine words of SUDSP-1: the 64-bit pattern every register and data-memory word holds
(spec/00_scope.md R8, spec/20_memory.md R60), the byte of a host bridge's lane (R68), and the same pattern
under the name it has where a rule reads it as an IEEE 754 binary64 value. -/

namespace Sys2Proof

/-- A 64-bit register, command word or DMEM word (R8: "a 64-bit register or memory word holds a bit pattern"). -/
abbrev Word := BitVec 64

/-- The same 64-bit pattern where a rule reads it as binary64 (R8: `b64`). -/
abbrev B64 := BitVec 64

/-- One byte lane of a word (R68). -/
abbrev Byte := BitVec 8

end Sys2Proof
end

