-- ==== Sys2Proof/Config.lean ====
section
/-! DEFINITION. What an instance of CORE fixes (spec/00_scope.md R6, R7; spec/92_eei_decisions.md D2, D9) and what its
platform does. The parameters are plain data that `State` carries and no step changes, so that a statement about every
state is a statement about every legal instance. -/

namespace Sys2Proof.Config

/-- The implementation parameters of R6, and the platform's `BASE` (R21, D9). -/
structure Params where
  /-- log2 of the largest transform size, in points. -/
  nmaxLog2 : Nat
  /-- log2 of the data-memory size, in 64-bit words. -/
  dmemLog2 : Nat
  /-- Number of overlap-add channel contexts. -/
  nch : Nat
  /-- Number of terms of the Bessel0 power series. -/
  besselTerms : Nat
  /-- Smallest accepted comb delay, in samples, a positive binary64; no register reports it (R7). -/
  combDelayMin : B64
  /-- The host address of register offset 0 (D9, OPEN). -/
  base : Nat
  /-- How many bytes past the DMEM window the platform routes to CORE as well: R64 leaves the size of the host window it
  decodes to the platform (log entry 8). -/
  hostExtra : Nat
  deriving DecidableEq, Repr

/-- NMAX = 2^NMAX_LOG2 (R6). -/
def Params.nmax (p : Params) : Nat := 2 ^ p.nmaxLog2

/-- DMEM_WORDS = 2^DMEM_LOG2 (R6). -/
def Params.dmemWords (p : Params) : Nat := 2 ^ p.dmemLog2

/-- The size of the host window the platform decodes, in bytes from BASE (R64, D9): the register window, the DMEM window, and
what the platform adds to them. -/
def Params.hostBytes (p : Params) : Nat := 0x100000 + 8 * p.dmemWords + p.hostExtra

/-- The legal values of R6; BASE is a multiple of 8 (D9). -/
def Params.legal (p : Params) : Bool :=
  decide (2 ≤ p.nmaxLog2 ∧ p.nmaxLog2 ≤ 24) &&
  decide (3 ≤ p.dmemLog2 ∧ p.dmemLog2 ≤ 28 ∧ p.nmaxLog2 + 1 ≤ p.dmemLog2) &&
  decide (2 ≤ p.nch ∧ p.nch ≤ 16) &&
  decide (1 ≤ p.besselTerms ∧ p.besselTerms ≤ 255) &&
  decide (0 < p.combDelayMin.toNat ∧ p.combDelayMin.toNat < 0x7FF0000000000000) &&
  decide (p.base % 8 = 0)

/-- The reference configuration: the defaults of R6, and the host window D9 has the platform decode. BASE has no default in the
spec (DESIGN CHOICE 0, log entry 1). -/
def reference : Params where
  nmaxLog2 := 16
  dmemLog2 := 18
  nch := 2
  besselTerms := 64
  combDelayMin := 0x3EF0000000000000#64
  base := 0
  hostExtra := 0

end Sys2Proof.Config
end

