-- ==== Sys2Proof/Machine/Binary64.lean ====
section
/-! DEFINITION. IEEE 754 binary64 on bit patterns, rounded to nearest with ties to even, subnormals kept, one canonical
NaN (spec/00_scope.md R11, R12, R15; spec/20_memory.md R68). Every finite binary64 is an integer multiple of 2^-1074, the
unit used throughout: operands become integers, the exact result is a ratio of integers, and one rounding
(`roundUnits`) narrows it. -/

namespace Sys2Proof.Machine

/-! ## The fields of a pattern (R68) -/

/-- Bit 63, the sign. -/
def fsign (x : B64) : Bool := decide (2 ^ 63 ≤ x.toNat)

/-- The 63 bits below the sign: they order the magnitudes. -/
def fmagBits (x : B64) : Nat := x.toNat % 2 ^ 63

/-- Bits 62:52, the biased exponent. -/
def fexpField (x : B64) : Nat := fmagBits x / 2 ^ 52

/-- Bits 51:0, the fraction. -/
def ffracField (x : B64) : Nat := x.toNat % 2 ^ 52

/-- The magnitude bits of an infinity. -/
def infMag : Nat := 0x7FF0000000000000

def isNaN (x : B64) : Bool := decide (infMag < fmagBits x)
def isInf (x : B64) : Bool := decide (fmagBits x = infMag)
def isFin (x : B64) : Bool := decide (fmagBits x < infMag)
/-- A zero of either sign. -/
def isZero (x : B64) : Bool := decide (fmagBits x = 0)

/-- The magnitude of a finite pattern in units of 2^-1074. -/
def funits (x : B64) : Nat :=
  if fexpField x = 0 then ffracField x else (2 ^ 52 + ffracField x) * 2 ^ (fexpField x - 1)

/-- The value of a finite pattern in units of 2^-1074. -/
def fvalue (x : B64) : Int := if fsign x then -(funits x : Int) else (funits x : Int)

/-- A pattern from its sign and its magnitude bits. -/
def fpack (neg : Bool) (mag : Nat) : B64 := BitVec.ofNat 64 (if neg then 2 ^ 63 + mag else mag)

/-! ## Constants (R12, R15) -/

def canonicalNaN : B64 := 0x7FF8000000000000#64
def plusZero : B64 := 0#64
def ONE : B64 := 0x3FF0000000000000#64
def HALF : B64 := 0x3FE0000000000000#64
def TWO : B64 := 0x4000000000000000#64
def PI64 : B64 := 0x400921FB54442D18#64
def TWO_PI : B64 := 0x401921FB54442D18#64
def C31 : B64 := 0x4008CCCCCCCCCCCD#64

/-! ## Rounding (R11: RN; R13: `RNq`) -/

/-- The first level b, from b on, with n < 2^(2^b). -/
def log2Level (n : Nat) : Nat → Nat → Nat
  | 0, b => b
  | fuel + 1, b => if n < 2 ^ (2 ^ b) then b else log2Level n fuel (b + 1)

/-- The base-2 logarithm of n < 2^(2^b), rounded down, by halving the range b times. -/
def log2Below : Nat → Nat → Nat
  | 0, _ => 0
  | b + 1, n => if 2 ^ (2 ^ b) ≤ n then 2 ^ b + log2Below b (n / 2 ^ (2 ^ b)) else log2Below b n

/-- `Nat.log2` in a number of steps that grows with the logarithm's own length; Laws/Binary64.lean proves them equal. -/
def flog2 (n : Nat) : Nat := log2Below (log2Level n n 0) n

/-- The integer nearest to n/d, ties to even. -/
def roundHalfEven (n d : Nat) : Nat :=
  let q := n / d
  let r := n % d
  if 2 * r < d then q else if d < 2 * r then q + 1 else q + q % 2

/-- The magnitude bits of the binary64 nearest to n/d units of 2^-1074, ties to even, an infinity on overflow.
With 2^(52+k) ≤ n/d < 2^(53+k) the candidates are the multiples of 2^k (k = 0 covers the subnormals), and the
pattern of m·2^k units is k·2^52 + m, the carry into the exponent included. -/
def roundUnits (n d : Nat) : Nat :=
  let k := flog2 (n / d) - 52
  Nat.min (k * 2 ^ 52 + roundHalfEven n (d * 2 ^ k)) infMag

/-- `RNq(n/d)`: an exact rational rounded to nearest, ties to even, +0 for zero (R13). -/
def rnq (n : Int) (d : Nat) : B64 :=
  if n = 0 then plusZero else fpack (decide (n < 0)) (roundUnits (n.natAbs * 2 ^ 1074) d)

/-- `b64(i)` of a non-negative integer (R11). -/
def fofNat (i : Nat) : B64 := rnq (i : Int) 1

/-! ## The operations of R11 -/

/-- `-x` flips the sign bit, also of a zero and of a NaN (R11; DEDUCED for a stored NaN, log entry 3). -/
def fneg (x : B64) : B64 := x ^^^ 0x8000000000000000#64

/-- `|x|` clears the sign bit (R11). -/
def fabs (x : B64) : B64 := x &&& 0x7FFFFFFFFFFFFFFF#64

def fadd (x y : B64) : B64 :=
  if isNaN x || isNaN y then canonicalNaN
  else if isInf x then (if isInf y && (fsign x != fsign y) then canonicalNaN else x)
  else if isInf y then y
  else
    let u := fvalue x + fvalue y
    if u = 0 then fpack (fsign x && fsign y) 0
    else fpack (decide (u < 0)) (roundUnits u.natAbs 1)

/-- x - y is x + (-y), as IEEE 754 has it; a NaN result is canonical either way. -/
def fsub (x y : B64) : B64 := fadd x (fneg y)

def fmul (x y : B64) : B64 :=
  if isNaN x || isNaN y then canonicalNaN
  else if isInf x || isInf y then
    (if isZero x || isZero y then canonicalNaN else fpack (fsign x != fsign y) infMag)
  else fpack (fsign x != fsign y) (roundUnits (funits x * funits y) (2 ^ 1074))

def fdiv (x y : B64) : B64 :=
  if isNaN x || isNaN y then canonicalNaN
  else if isInf x then (if isInf y then canonicalNaN else fpack (fsign x != fsign y) infMag)
  else if isInf y then fpack (fsign x != fsign y) 0
  else if isZero y then (if isZero x then canonicalNaN else fpack (fsign x != fsign y) infMag)
  else fpack (fsign x != fsign y) (roundUnits (funits x * 2 ^ 1074) (funits y))

/-! ## Comparisons and integers -/

/-- A number's place in the order of all non-NaN values: both zeros stand at 0. -/
def forder (x : B64) : Int := if fsign x then -(fmagBits x : Int) else (fmagBits x : Int)

/-- x < y; false when either is a NaN. -/
def flt (x y : B64) : Bool := !isNaN x && !isNaN y && decide (forder x < forder y)

/-- `pos(x)`: not NaN, x > 0 and x ≠ +∞ (spec/42_impulse_response.md R147). -/
def fpos (x : B64) : Bool := isFin x && flt plusZero x

/-- `roundEven(x)` of a finite non-negative x: the nearest integer, ties to even (R13). -/
def froundEven (x : B64) : Nat := roundHalfEven (funits x) (2 ^ 1074)

/-- `floor(x)` of a finite non-negative x (R13). -/
def ffloor (x : B64) : Nat := funits x / 2 ^ 1074

end Sys2Proof.Machine
end

