-- ==== Sys2Proof/Syntax.lean ====
section
/-! DEFINITION. The commands of SUDSP-1, one constructor per row of spec/opcode_table.json (spec/30_encoding.md R84).
The only operands in a command word are INV and CH (R82); every other operand is read from ARG0..ARG7 when the command
executes. -/

namespace Sys2Proof

/-- The INV field (R80, R82): the direction of a transform. -/
inductive Direction where
  /-- INV = 0. -/
  | fwd
  /-- INV = 1. -/
  | inv
  deriving DecidableEq, Repr

/-- The CH field (R80, R82): a channel number, 0 to 15. -/
abbrev Channel := Fin 16

/-- The 31 commands of R84. -/
inductive Instr where
  | nop
  | fftCfg
  | fftCplx (d : Direction)
  | fftCplxSplit (d : Direction)
  | fftReal (d : Direction)
  | sinc
  | bessel0
  | getFilterSize
  | getDelta
  | winHanning
  | winHamming
  | winBartlett
  | winNuttall
  | winBlackman
  | winBlackmanHarris
  | winBlackmanNuttall
  | winFlattop
  | winWelch
  | winKaiser
  | irLowpass
  | irHighpass
  | irBandpass
  | irBandelim
  | irComb
  | irResonator
  | olaCfg (c : Channel)
  | olaSetfilter (c : Channel)
  | olaApply (c : Channel)
  | pipeCfg
  | pipeSetfilter
  | pipeFilter
  deriving DecidableEq, Repr

end Sys2Proof
end

