-- ==== Sys2Proof/WellFormed.lean ====
section
/-! DEFINITION. Which commands an instance of CORE has: a format C command names a channel context that exists
(spec/30_encoding.md R83, spec/92_eei_decisions.md D45). -/

namespace Sys2Proof

/-- The CH operand of a format C command (R81). -/
def Instr.channel? : Instr → Option Channel
  | .olaCfg c => some c
  | .olaSetfilter c => some c
  | .olaApply c => some c
  | .nop | .fftCfg | .fftCplx _ | .fftCplxSplit _ | .fftReal _ | .sinc | .bessel0 | .getFilterSize | .getDelta
  | .winHanning | .winHamming | .winBartlett | .winNuttall | .winBlackman | .winBlackmanHarris | .winBlackmanNuttall
  | .winFlattop | .winWelch | .winKaiser | .irLowpass | .irHighpass | .irBandpass | .irBandelim | .irComb
  | .irResonator | .pipeCfg | .pipeSetfilter | .pipeFilter => none

/-- R83: a format C command whose CH is at or above NCH is not a command of this instance. -/
def Instr.wellFormed (p : Config.Params) (i : Instr) : Bool :=
  match i.channel? with
  | some c => decide (c.val < p.nch)
  | none => true

end Sys2Proof
end

