-- ==== Sys2Proof/Decode.lean ====
section
/-! DEFINITION. The decoder of spec/30_encoding.md R80 to R85, written as the opcode table's rows of mask and match, and
after it the encoder, written from the field layout of R80. The CH ≥ NCH rejection of R83 is the well-formedness of the
decoded command (WellFormed.lean), because NCH is a parameter of the instance. -/

namespace Sys2Proof

/-- The three formats of R81. -/
inductive Format where
  | P
  | T
  | C
  deriving DecidableEq, Repr

/-- The mask of a format (R81): the bits it fixes. -/
def Format.mask : Format → Word
  | .P => 0xFFFFFFFFFFFFFFFF#64
  | .T => 0xFFFFFFFFFFFFFEFF#64
  | .C => 0xFFFFFFFFFFFF0FFF#64

/-- Why a word is no command (R83, R85). -/
inductive Reject where
  /-- OP is not in R84. -/
  | unassignedOpcode
  /-- A reserved bit, 11:9 or 63:16, is set. -/
  | reservedBitSet
  /-- INV or CH is not 0 in a format that fixes it. -/
  | fixedFieldNotZero
  /-- The bytes given are not one 64-bit word. -/
  | notOneWord
  deriving DecidableEq, Repr

/-- `OP`, bits 7:0 (R80). -/
def opField (v : Word) : BitVec 8 := v.extractLsb' 0 8

/-- `INV`, bit 8 (R80). -/
def invField (v : Word) : Direction := if v.getLsbD 8 then .inv else .fwd

/-- `CH`, bits 15:12 (R80). -/
def chField (v : Word) : Channel := (v.extractLsb' 12 4).toFin

/-- One row of the opcode map: its format, its match and the command it selects. -/
structure Row where
  format : Format
  code : Word
  build : Direction → Channel → Instr

/-- The rows of R84. -/
def opcodeRows : List Row := [
  ⟨.P, 0x00#64, fun _ _ => .nop⟩,
  ⟨.P, 0x01#64, fun _ _ => .fftCfg⟩,
  ⟨.T, 0x02#64, fun d _ => .fftCplx d⟩,
  ⟨.T, 0x03#64, fun d _ => .fftCplxSplit d⟩,
  ⟨.T, 0x04#64, fun d _ => .fftReal d⟩,
  ⟨.P, 0x08#64, fun _ _ => .sinc⟩,
  ⟨.P, 0x09#64, fun _ _ => .bessel0⟩,
  ⟨.P, 0x0A#64, fun _ _ => .getFilterSize⟩,
  ⟨.P, 0x0B#64, fun _ _ => .getDelta⟩,
  ⟨.P, 0x10#64, fun _ _ => .winHanning⟩,
  ⟨.P, 0x11#64, fun _ _ => .winHamming⟩,
  ⟨.P, 0x12#64, fun _ _ => .winBartlett⟩,
  ⟨.P, 0x13#64, fun _ _ => .winNuttall⟩,
  ⟨.P, 0x14#64, fun _ _ => .winBlackman⟩,
  ⟨.P, 0x15#64, fun _ _ => .winBlackmanHarris⟩,
  ⟨.P, 0x16#64, fun _ _ => .winBlackmanNuttall⟩,
  ⟨.P, 0x17#64, fun _ _ => .winFlattop⟩,
  ⟨.P, 0x18#64, fun _ _ => .winWelch⟩,
  ⟨.P, 0x19#64, fun _ _ => .winKaiser⟩,
  ⟨.P, 0x20#64, fun _ _ => .irLowpass⟩,
  ⟨.P, 0x21#64, fun _ _ => .irHighpass⟩,
  ⟨.P, 0x22#64, fun _ _ => .irBandpass⟩,
  ⟨.P, 0x23#64, fun _ _ => .irBandelim⟩,
  ⟨.P, 0x24#64, fun _ _ => .irComb⟩,
  ⟨.P, 0x25#64, fun _ _ => .irResonator⟩,
  ⟨.C, 0x30#64, fun _ c => .olaCfg c⟩,
  ⟨.C, 0x31#64, fun _ c => .olaSetfilter c⟩,
  ⟨.C, 0x32#64, fun _ c => .olaApply c⟩,
  ⟨.P, 0x38#64, fun _ _ => .pipeCfg⟩,
  ⟨.P, 0x39#64, fun _ _ => .pipeSetfilter⟩,
  ⟨.P, 0x3A#64, fun _ _ => .pipeFilter⟩]

/-- R81: a word selects a row when its masked bits are the row's match. -/
def Row.accepts (r : Row) (v : Word) : Bool := v &&& r.format.mask == r.code

/-- The name of the reason no row accepts v (R83). -/
def rejectReason (v : Word) : Reject :=
  if v.extractLsb' 9 3 ≠ 0#3 ∨ v.extractLsb' 16 48 ≠ 0#48 then .reservedBitSet
  else if opcodeRows.any (fun r => r.code == (opField v).setWidth 64) then .fixedFieldNotZero
  else .unassignedOpcode

/-- The command a word selects, or the reason it selects none (R83). -/
def decode (v : Word) : Except Reject Instr :=
  match opcodeRows.find? (fun r => r.accepts v) with
  | some r => .ok (r.build (invField v) (chField v))
  | none => .error (rejectReason v)

/-- The word eight byte lanes present: byte j holds bits 8j+7:8j (spec/20_memory.md R68). -/
def wordOfBytes : List Byte → Word
  | [] => 0#64
  | b :: bs => b.setWidth 64 ||| (wordOfBytes bs <<< 8)

/-- Byte lane j of a word (R68). -/
def byteLane (v : Word) (j : Nat) : Byte := v.extractLsb' (8 * j) 8

/-- The eight byte lanes of a word, lane 0 first (R68). -/
def bytesOfWord (v : Word) : List Byte :=
  [byteLane v 0, byteLane v 1, byteLane v 2, byteLane v 3, byteLane v 4, byteLane v 5, byteLane v 6, byteLane v 7]

/-- The decoder over the bytes a host bridge presents for one CMD write; anything but eight bytes is no word. -/
def decodeBytes (bs : List Byte) : Except Reject Instr :=
  if bs.length = 8 then decode (wordOfBytes bs) else .error .notOneWord

/-- The command word whose low nbits bits are those of w and whose other bits are 0. -/
def tableWord (nbits w : Nat) : Word := BitVec.ofNat 64 (w % 2 ^ nbits)

/-- The command the decoder reads from an opcode-table word, laid out as the bytes of a CMD write. -/
def decodeTableWord (nbits w : Nat) : Option Instr :=
  (decodeBytes (bytesOfWord (tableWord nbits w))).toOption

/-! ## The encoder -/

/-- OP of a command (R84). -/
def opcode : Instr → BitVec 8
  | .nop => 0x00#8
  | .fftCfg => 0x01#8
  | .fftCplx _ => 0x02#8
  | .fftCplxSplit _ => 0x03#8
  | .fftReal _ => 0x04#8
  | .sinc => 0x08#8
  | .bessel0 => 0x09#8
  | .getFilterSize => 0x0A#8
  | .getDelta => 0x0B#8
  | .winHanning => 0x10#8
  | .winHamming => 0x11#8
  | .winBartlett => 0x12#8
  | .winNuttall => 0x13#8
  | .winBlackman => 0x14#8
  | .winBlackmanHarris => 0x15#8
  | .winBlackmanNuttall => 0x16#8
  | .winFlattop => 0x17#8
  | .winWelch => 0x18#8
  | .winKaiser => 0x19#8
  | .irLowpass => 0x20#8
  | .irHighpass => 0x21#8
  | .irBandpass => 0x22#8
  | .irBandelim => 0x23#8
  | .irComb => 0x24#8
  | .irResonator => 0x25#8
  | .olaCfg _ => 0x30#8
  | .olaSetfilter _ => 0x31#8
  | .olaApply _ => 0x32#8
  | .pipeCfg => 0x38#8
  | .pipeSetfilter => 0x39#8
  | .pipeFilter => 0x3A#8

/-- The INV bit of a direction. -/
def invBit : Direction → Word
  | .fwd => 0#64
  | .inv => 1#64

/-- The INV and CH fields of a command in their places (R80); 0 where the format fixes them. -/
def freeFields : Instr → Word
  | .fftCplx d => invBit d <<< 8
  | .fftCplxSplit d => invBit d <<< 8
  | .fftReal d => invBit d <<< 8
  | .olaCfg c => BitVec.ofNat 64 c.val <<< 12
  | .olaSetfilter c => BitVec.ofNat 64 c.val <<< 12
  | .olaApply c => BitVec.ofNat 64 c.val <<< 12
  | .nop | .fftCfg | .sinc | .bessel0 | .getFilterSize | .getDelta | .winHanning | .winHamming | .winBartlett
  | .winNuttall | .winBlackman | .winBlackmanHarris | .winBlackmanNuttall | .winFlattop | .winWelch | .winKaiser
  | .irLowpass | .irHighpass | .irBandpass | .irBandelim | .irComb | .irResonator | .pipeCfg | .pipeSetfilter
  | .pipeFilter => 0#64

/-- The command word of a command (R80): OP, the free fields, every other bit 0. -/
def encode (i : Instr) : Word := (opcode i).setWidth 64 ||| freeFields i

end Sys2Proof
end

