-- ==== Sys2Proof/Machine/State.lean ====
section
/-! DEFINITION. The state of CORE (spec/10_state.md R20 to R47) as plain data, the reasons a step can stop, and the state
after a power-on reset. The last six fields of `State` are the model's own: they hold the host's side of the bus, which the
spec puts outside CORE (log entries 4, 5). -/

namespace Sys2Proof.Machine

/-- The error codes STATUS.ERR can hold (spec/60_exceptions.md R250); codes 4 to 7 are never written. -/
inductive ErrCode where
  /-- 0: every check passed. -/
  | none
  /-- 1: a bad length, region or scalar parameter. -/
  | invalidArgument
  /-- 2: a configuration that breaks the construction rules, or an engine not configured. -/
  | invalidConfiguration
  /-- 3: the command word does not decode. -/
  | illegalCommand
  deriving DecidableEq, Repr

/-- STATUS (R29): its four fields; every other bit reads 0 and cannot be written. -/
structure Status where
  busy : Bool
  done : Bool
  err : ErrCode
  lastOp : BitVec 8
  deriving DecidableEq, Repr

/-- PIPEMODE (R33): 0, 1 and 2. -/
inductive PipeMode where
  | off
  | mono
  | stereo
  deriving DecidableEq, Repr

/-- An overlap-add channel context `CH[c]` (R36). -/
structure ChanCtx where
  /-- `cfg`: the channel has been configured. -/
  cfg : Bool
  /-- `seg`, the segmentSize. -/
  seg : Nat
  /-- `F`, the fftSize. -/
  fft : Nat
  /-- `buf`, the bufferSize of the channel. -/
  buf : Nat
  /-- `filt`: a filter spectrum has been set. -/
  filt : Bool
  /-- `H[0..F-1]`, the filter's packed real spectrum; no words while `filt` is 0. -/
  spectrum : List B64
  /-- `TAIL[0..F-seg-1]`, the overlap state; no words while `cfg` is 0. -/
  tail : List B64
  deriving DecidableEq, Repr

/-- An unconfigured channel (R37, R47): every field 0, no words. -/
def unconfigured : ChanCtx where
  cfg := false
  seg := 0
  fft := 0
  buf := 0
  filt := false
  spectrum := []
  tail := []

/-- DMEM as (byte address, byte) pairs, byte 8·w + j being lane j of word w (spec/20_memory.md R60, R68), addresses strictly
rising. An address not listed holds no defined value (R67). -/
abbrev Memory := List Host.Cell

/-- One host access: a host byte address, a width in bytes, and for a write the value (R65). -/
inductive HostAccess where
  | read (addr size : Nat)
  | write (addr size : Nat) (value : Word)
  deriving DecidableEq, Repr

/-- What can arrive at CORE from outside. -/
inductive HostEvent where
  /-- A host access on the bus. -/
  | access (a : HostAccess)
  /-- The platform asserts CORE's reset input (spec/70_reset_and_hazards.md R290). -/
  | resetInput
  deriving DecidableEq, Repr

/-- What the host bus answered last. -/
inductive BusResponse where
  /-- No access has been performed since the last power-on reset. -/
  | idle
  /-- A read returned this value. -/
  | data (v : Word)
  /-- A write was performed. -/
  | written
  /-- An error response: the access changed nothing, and a read returned no data (R65). -/
  | error
  deriving DecidableEq, Repr

/-- The state of CORE. ID and CAPS are functions of `params` (R26, R27), `irq` of `status` and `ie` (R41), the channel
registers of `chans` (R35), the twiddle store of `twSize` (R38); the coefficient ROM is constant (R39). -/
structure State where
  /-- The instance's parameters, which no step changes (R7). -/
  params : Config.Params
  /-- CTRL.IE (R28). -/
  ie : Bool
  /-- STATUS (R29). -/
  status : Status
  /-- CMD (R25). -/
  cmd : Word
  /-- RESULT (R30). -/
  result : Word
  /-- ARG0..ARG7 (R24). -/
  args : Vector Word 8
  /-- TWSIZE, the number of entries of the twiddle store (R31). -/
  twSize : Nat
  /-- FFTN (R32). -/
  fftN : Nat
  /-- PIPEMODE (R33). -/
  pipeMode : PipeMode
  /-- PIPEBUF (R34). -/
  pipeBuf : Nat
  /-- CH[0..NCH-1] (R36). -/
  chans : List ChanCtx
  /-- DMEM (R60). -/
  dmem : Memory
  /-- The model's own: how many host events the running command still lets pass before it completes. -/
  timeLeft : Nat
  /-- The model's own: the accesses the bus holds (R70), oldest first. -/
  held : List HostAccess
  /-- The model's own: the host events still to arrive, in order. -/
  hostIn : List HostEvent
  /-- The model's own: for each command to come, how many host events arrive while it is busy; 0 once the list ends. -/
  latency : List Nat
  /-- The model's own: the bus's answer to the last access performed. -/
  resp : BusResponse
  deriving DecidableEq, Repr

/-- Why the machine stops. -/
inductive Fault where
  /-- A host read or a command read of the DMEM word `word`, which nothing has written since power-on or since an abort
  made it unspecified (R67, spec/93_implementation_defined.md U1, U2). Raised by the host port and by every command that
  reads DMEM. Safe: the hardware goes on with an unspecified pattern, so nothing is proved of such a run. -/
  | neverWritten (word : Nat)
  deriving DecidableEq, Repr

/-- Why the model gives no meaning. -/
inductive Refusal where
  /-- An instruction with no meaning yet, by its mnemonic. Raised by no arm: every command has its meaning. Safe. -/
  | notModelled (mnemonic : String)
  deriving DecidableEq, Repr

/-- The outcome of a step. -/
abbrev Result := Host.Outcome State Fault Refusal

/-- An instance with parameters p right after a power-on reset (R47, R290). -/
def State.initial (p : Config.Params) : State where
  params := p
  ie := false
  status := ⟨false, false, .none, 0#8⟩
  cmd := 0#64
  result := 0#64
  args := Vector.replicate 8 0#64
  twSize := 0
  fftN := 0
  pipeMode := .off
  pipeBuf := 0
  chans := List.replicate p.nch unconfigured
  dmem := []
  timeLeft := 0
  held := []
  hostIn := []
  latency := []
  resp := .idle

/-- The reference instance right after a power-on reset (R47). -/
def State.reset : State := State.initial Config.reference

end Sys2Proof.Machine
end

