-- ==== Sys2Proof/Machine/Flags.lean ====
section
/-! DEFINITION. The status flags: STATUS as a word (spec/10_state.md R29), the flags every completion writes
(spec/40_control.md R96), and the interrupt output (spec/60_exceptions.md R262). -/

namespace Sys2Proof.Machine

/-- The value of ERR (R29, R250). -/
def errBits : ErrCode → Nat
  | .none => 0
  | .invalidArgument => 1
  | .invalidConfiguration => 2
  | .illegalCommand => 3

/-- STATUS as the host reads it (R29): BUSY bit 0, DONE bit 1, ERR bits 10:8, LASTOP bits 23:16. -/
def statusWord (f : Status) : Word :=
  BitVec.ofNat 64 (f.busy.toNat + 2 * f.done.toNat + 2 ^ 8 * errBits f.err + 2 ^ 16 * f.lastOp.toNat)

/-- The flags of a command that starts (R95): BUSY set, DONE cleared, ERR and LASTOP still the last command's (R295). -/
def startFlags (f : Status) : Status := { f with busy := true, done := false }

/-- The flags of the completion of command word v with a code (R96). -/
def completionFlags (v : Word) (code : ErrCode) : Status := ⟨false, true, code, opField v⟩

/-- A host write of v to STATUS (R29): it clears DONE when bit 1 of v is 1, and changes nothing else. -/
def ackFlags (v : Word) (f : Status) : Status := if v.getLsbD 1 then { f with done := false } else f

/-- The interrupt output, `STATUS.DONE AND CTRL.IE` (R262). -/
def irq (s : State) : Bool := s.status.done && s.ie

end Sys2Proof.Machine
end

