-- ==== Sys2Proof/Machine/Operands.lean ====
section
/-! DEFINITION. How a command reads its operands: a whole ARG register, as u64 or as b64 (spec/30_encoding.md R82,
spec/10_state.md R24), and a region of DMEM named by two of them (spec/20_memory.md R66). -/

namespace Sys2Proof.Machine

/-- `u(ARG[i])`: ARGi as an unsigned integer. -/
def argU (s : State) (i : Fin 8) : Nat := (s.args.get i).toNat

/-- `f(ARG[i])`: ARGi as a binary64 pattern. -/
def argF (s : State) (i : Fin 8) : B64 := s.args.get i

/-- A region of n words at word index b is in range (R66): b + n ≤ DMEM_WORDS, computed exactly. -/
def inRange (s : State) (b n : Nat) : Bool := decide (b + n ≤ s.params.dmemWords)

/-- Two regions share no word (spec/42_impulse_response.md R156). -/
def disjoint (b n b' n' : Nat) : Bool := decide (b + n ≤ b' ∨ b' + n' ≤ b ∨ n = 0 ∨ n' = 0)

/-- N is a transform size of this instance (spec/41_fft.md R104, R120): a power of two, 4 ≤ N ≤ NMAX. -/
def transformSize (p : Config.Params) (n : Nat) : Bool := decide (4 ≤ n ∧ n ≤ p.nmax ∧ 2 ^ Nat.log2 n = n)

end Sys2Proof.Machine
end

