-- ==== Sys2Proof/Machine/Ops.lean ====
section
/-! DEFINITION. The named operations the commands share: DMEM access (spec/20_memory.md), channel contexts and the twiddle
store (spec/10_state.md), and the life cycle of a command, with the one way an error is reported (spec/40_control.md R95,
R96; spec/60_exceptions.md R252). CORE has no trap entry and no trap return (R258, R259): ending a command with an error
code is all that an exception is here. -/

namespace Sys2Proof.Machine

/-! ## DMEM -/

/-- The byte at a DMEM byte address; none where nothing has been written (R67). -/
def readByte : Memory → Nat → Option Byte
  | [], _ => none
  | (k, b) :: m, a => if k = a then some b else readByte m a

/-- Store one byte, keeping the addresses strictly rising. -/
def writeByte : Memory → Nat → Byte → Memory
  | [], a, b => [(a, b)]
  | (k, c) :: m, a, b =>
    if a < k then (a, b) :: (k, c) :: m
    else if a = k then (a, b) :: m
    else (k, c) :: writeByte m a b

/-- Store bytes at rising addresses from a. -/
def writeBytes (m : Memory) (a : Nat) : List Byte → Memory
  | [] => m
  | b :: bs => writeBytes (writeByte m a b) (a + 1) bs

/-- The n bytes from address a on; none where one of them was never written. -/
def readBytes (m : Memory) (a : Nat) : Nat → Option (List Byte)
  | 0 => some []
  | n + 1 =>
    match readByte m a, readBytes m (a + 1) n with
    | some b, some bs => some (b :: bs)
    | _, _ => none

/-- `MemRead(w, 1)` (R61): DMEM word w, byte j of it in lane j (R68); none where it was never written. -/
def readWord (m : Memory) (w : Nat) : Option Word := (readBytes m (8 * w) 8).map wordOfBytes

/-- `MemWrite(w, 1, v)` (R61). -/
def writeWord (m : Memory) (w : Nat) (v : Word) : Memory := writeBytes m (8 * w) (bytesOfWord v)

/-- The words of the region (b, n) in ascending order; a fault at the first one never written (R67). -/
def readWords (m : Memory) (b : Nat) : Nat → Except Fault (List Word)
  | 0 => .ok []
  | n + 1 =>
    match readWord m b with
    | none => .error (.neverWritten b)
    | some v =>
      match readWords m (b + 1) n with
      | .error e => .error e
      | .ok vs => .ok (v :: vs)

/-- Store words at rising word indices from b. -/
def writeWords (m : Memory) (b : Nat) : List Word → Memory
  | [] => m
  | v :: vs => writeWords (writeWord m b v) (b + 1) vs

/-- The words of the region (b, n) become never written (spec/70_reset_and_hazards.md R293). -/
def forgetWords (m : Memory) (b n : Nat) : Memory := m.filter (fun c => !decide (8 * b ≤ c.1 ∧ c.1 < 8 * (b + n)))

/-- All eight lanes of word w are listed. -/
def wholeWord (m : Memory) (w : Nat) : Bool := (readWord m w).isSome

/-- The canonical form of a DMEM of `words` words: addresses strictly rising, inside DMEM, and every listed byte part of a
whole word (R61: "a word is read and written whole"). An unlisted address reads as no value, so no entry equals it. -/
def Memory.wf (words : Nat) (m : Memory) : Bool :=
  decide (m.Pairwise (fun a b => a.1 < b.1)) && m.all (fun c => decide (c.1 < 8 * words) && wholeWord m (c.1 / 8))

/-! ## Channel contexts and the twiddle store -/

/-- `CH[c]`; a channel the instance does not have reads as unconfigured. -/
def chan (s : State) (c : Nat) : ChanCtx := s.chans.getD c unconfigured

/-- `CH[c] <- x`. -/
def setChan (s : State) (c : Nat) (x : ChanCtx) : State := { s with chans := s.chans.set c x }

/-- Twiddle-store growth (spec/41_fft.md R118): TWSIZE <- N when TWSIZE < N. -/
def growTwiddle (n : Nat) (s : State) : State := if s.twSize < n then { s with twSize := n } else s

/-- DMEM replaced. -/
def setDmem (s : State) (m : Memory) : State := { s with dmem := m }

/-- `RESULT <- v` (R30). -/
def setResult (s : State) (v : Word) : State := { s with result := v }

/-! ## The life cycle of a command -/

/-- Completion of the command in CMD with a code (R96): STATUS alone changes. -/
def complete (code : ErrCode) (s : State) : State := { s with status := completionFlags s.cmd code }

/-- `raise Error(code)` (spec/00_scope.md R9; R252): the command ends with the code and no state but STATUS changes. This is
the one way a command reports an error; nothing else is saved and control goes nowhere (R258). -/
def raiseError (code : ErrCode) (s : State) : State := complete code s

/-- One check of a command: whether it passes, and the code of its failure. -/
abbrev Check := Bool × ErrCode

/-- The code of the first failing check, in the order listed (R253). -/
def firstFailing : List Check → Option ErrCode
  | [] => none
  | (ok, code) :: cs => if ok then firstFailing cs else some code

/-- A command (R95): every check in order before any effect (R252); the first failing one ends it with its code; otherwise
the effect is performed and the command completes with code 0. -/
def runCommand (checks : List Check) (effect : State → Except Fault State) (s : State) : Result :=
  match firstFailing checks with
  | some code => .next (raiseError code s)
  | none =>
    match effect s with
    | .ok t => .next (complete .none t)
    | .error e => .fault e

/-! ## Loops of the pseudocode -/

/-- `for i in 0..n-1: a <- f(i, a)`, in ascending order (spec/00_scope.md R9). -/
def loop {α : Type} : Nat → (Nat → α → α) → α → α
  | 0, _, a => a
  | n + 1, f, a => f n (loop n f a)

end Sys2Proof.Machine
end

