-- ==== Sys2Proof/Machine/Control.lean ====
section
/-! DEFINITION. NOP (spec/40_control.md R97). -/

namespace Sys2Proof.Machine

/-- NOP checks nothing (spec/60_exceptions.md R254). -/
def nopChecks (_ : State) : List Check := []

/-- NOP (R97): nothing but the completion. -/
def execNop (s : State) : Result := runCommand (nopChecks s) (fun s => .ok s) s

end Sys2Proof.Machine
end

