-- ==== Sys2Proof/Machine/Elementary.lean ====
section
/-! DEFINITION. The elementary functions of spec/00_scope.md R13, each the binary64 nearest to the exact value. `sqrt64` is
exact integer arithmetic. The transcendental ones enclose the exact value between two rationals over 2^P, in integer
arithmetic that rounds each lower end down and each upper end up, and double the precision until both ends round to the
same binary64: rounding is monotone, so that binary64 is the one nearest to the exact value. Laws/Elementary.lean proves that
the ends enclose the exact value and that for every argument some precision settles (the exact value is irrational, or one
of the exact cases treated first), so each function is defined for every argument, as R13 has it. -/

namespace Sys2Proof.Machine

/-! ## Square root -/

/-- The integer square root of n, found bit by bit from bit b-1 down, on top of r. -/
def isqrtFrom (n : Nat) : Nat → Nat → Nat
  | 0, r => r
  | b + 1, r => isqrtFrom n b (if (r + 2 ^ b) * (r + 2 ^ b) ≤ n then r + 2 ^ b else r)

/-- `sqrt64` (R13): √x correctly rounded, √(-0) = -0, NaN for x < 0. With x = a·2^s units² (s even) the root is
√(a·2^120)·2^(s/2 - 60) units; the half unit added to an inexact integer root stands for the part below it. -/
def sqrt64 (x : B64) : B64 :=
  if isNaN x then canonicalNaN
  else if isZero x then x
  else if fsign x then canonicalNaN
  else if isInf x then x
  else
    let sh := (if fexpField x = 0 then 0 else fexpField x - 1) + 1074
    let mant := if fexpField x = 0 then ffracField x else 2 ^ 52 + ffracField x
    let a := (if sh % 2 = 0 then mant else 2 * mant) * 2 ^ 120
    let r := isqrtFrom a 88 0
    let sticky := if r * r = a then 0 else 1
    fpack false (roundUnits ((2 * r + sticky) * 2 ^ (sh / 2)) (2 ^ 61))

/-! ## Enclosures -/

/-- A value v between two ends at scale 2^P: lo ≤ v·2^P ≤ hi. -/
structure Encl where
  lo : Int
  hi : Int
  deriving DecidableEq, Repr

/-- The sum of two enclosures. -/
def enclAdd (a b : Encl) : Encl := ⟨a.lo + b.lo, a.hi + b.hi⟩

/-- The difference of two enclosures. -/
def enclSub (a b : Encl) : Encl := ⟨a.lo - b.hi, a.hi - b.lo⟩

/-- An enclosure widened by r on both sides. -/
def enclWiden (a : Encl) (r : Int) : Encl := ⟨a.lo - r, a.hi + r⟩

/-- The product of two enclosures at scale 2^P, brought back to scale 2^P. -/
def enclMul (P : Nat) (a b : Encl) : Encl :=
  let w := a.lo * b.lo
  let x := a.lo * b.hi
  let y := a.hi * b.lo
  let z := a.hi * b.hi
  ⟨min (min w x) (min y z) / 2 ^ P, max (max w x) (max y z) / 2 ^ P + 1⟩

/-- The four sums of the terms tⁿ/n! by n mod 4, and the upper end of the first term left out. -/
structure TaylorSums where
  s0 : Encl
  s1 : Encl
  s2 : Encl
  s3 : Encl
  rest : Int
  deriving DecidableEq, Repr

/-- The sums after adding the term number n, rotated so that s0 is where the next term goes. -/
def TaylorSums.push (s : TaylorSums) (term : Encl) : TaylorSums :=
  ⟨s.s1, s.s2, s.s3, enclAdd s.s0 term, s.rest⟩

/-- The Taylor terms tⁿ/n! at scale 2^P for t in [tlo, thi]/2^P ⊆ [0, 1], from term number n whose enclosure is [lo, hi],
until a term is at most one unit; s0 is the sum the current term belongs to. The answer is rotated back so that s0 holds
the terms with n mod 4 = 0. -/
def taylorFrom (P tlo thi : Nat) : Nat → Nat → Nat → Nat → TaylorSums → TaylorSums
  | 0, n, _, hi, s => taylorDone n hi s
  | fuel + 1, n, lo, hi, s =>
    if hi ≤ 1 then taylorDone n hi s
    else
      taylorFrom P tlo thi fuel (n + 1) (lo * tlo / (2 ^ P * (n + 1))) (hi * thi / (2 ^ P * (n + 1)) + 1)
        (s.push ⟨lo, hi⟩)
where
  /-- Undo the rotation after n terms; the first term left out is at most hi. -/
  taylorDone (n hi : Nat) (s : TaylorSums) : TaylorSums :=
    match n % 4 with
    | 0 => ⟨s.s0, s.s1, s.s2, s.s3, hi⟩
    | 1 => ⟨s.s3, s.s0, s.s1, s.s2, hi⟩
    | 2 => ⟨s.s2, s.s3, s.s0, s.s1, hi⟩
    | _ => ⟨s.s1, s.s2, s.s3, s.s0, hi⟩

/-- The Taylor sums of t in [tlo, thi]/2^P, 0 ≤ t ≤ 1. -/
def taylor (P tlo thi : Nat) : TaylorSums :=
  taylorFrom P tlo thi P 0 (2 ^ P) (2 ^ P) ⟨⟨0, 0⟩, ⟨0, 0⟩, ⟨0, 0⟩, ⟨0, 0⟩, 0⟩

/-- sin t and cos t: the sums with alternating signs. For t ≤ 1 all the terms left out are together at most twice the
first of them. -/
def sinCosTaylor (P tlo thi : Nat) : Encl × Encl :=
  let s := taylor P tlo thi
  (enclWiden (enclSub s.s1 s.s3) (2 * s.rest), enclWiden (enclSub s.s0 s.s2) (2 * s.rest))

/-- e^t: the sum of all the terms. -/
def expTaylor (P tlo thi : Nat) : Encl :=
  let s := taylor P tlo thi
  enclWiden (enclAdd (enclAdd s.s0 s.s1) (enclAdd s.s2 s.s3)) (2 * s.rest)

/-- k angle doublings of (sin t, cos t): sin 2t = 2 sin t cos t, cos 2t = 2 cos² t - 1. -/
def doubleAngle (P : Nat) : Nat → Encl × Encl → Encl × Encl
  | 0, sc => sc
  | k + 1, (s, c) =>
    let sc := enclMul P s c
    let cc := enclMul P c c
    doubleAngle P k (⟨2 * sc.lo, 2 * sc.hi⟩, ⟨2 * cc.lo - 2 ^ P, 2 * cc.hi - 2 ^ P⟩)

/-- k squarings. -/
def squareUp (P : Nat) : Nat → Encl → Encl
  | 0, e => e
  | k + 1, e => squareUp P k (enclMul P e e)

/-- The sum of 1/((2j+1)·m^(2j+1)) at scale 2^P over the terms j, j+2, ... until a term is 0; each counted term may lose
less than one unit, and the terms left out are together less than two. -/
def arctanInvSum (P m : Nat) : Nat → Nat → Encl → Encl
  | 0, _, e => ⟨e.lo, e.hi + 2⟩
  | fuel + 1, j, e =>
    let t := 2 ^ P / ((2 * j + 1) * m ^ (2 * j + 1))
    if t = 0 then ⟨e.lo, e.hi + 2⟩ else arctanInvSum P m fuel (j + 2) ⟨e.lo + t, e.hi + t + 1⟩

/-- arctan(1/m) at scale 2^P, by its alternating series. -/
def arctanInv (P m : Nat) : Encl :=
  enclSub (arctanInvSum P m P 0 ⟨0, 0⟩) (arctanInvSum P m P 1 ⟨0, 0⟩)

/-- π at scale 2^P by Machin's formula, 16·arctan(1/5) - 4·arctan(1/239). -/
def piEncl (P : Nat) : Encl :=
  let a := arctanInv P 5
  let b := arctanInv P 239
  ⟨16 * a.lo - 4 * b.hi, 16 * a.hi - 4 * b.lo⟩

/-! ## Settling -/

/-- The precisions tried, in bits: 80, 160, 320, ... -/
def precisionAt (n : Nat) : Nat := 80 * 2 ^ n

/-- The binary64 both ends agree on at the first of the precisions n, n+1, ... at which they agree. -/
def settleFrom (ends : Nat → B64 × B64) (n : Nat) : B64 :=
  if (ends (precisionAt n)).1 = (ends (precisionAt n)).2 then (ends (precisionAt n)).1 else settleFrom ends (n + 1)
partial_fixpoint

/-- `settleFrom` with its first turns by structural recursion, so that Lean's kernel evaluates them
(`Laws.settleUpTo_eq`). -/
def settleUpTo (ends : Nat → B64 × B64) : Nat → Nat → B64
  | 0, n => settleFrom ends n
  | fuel + 1, n =>
    let e := ends (precisionAt n)
    if e.1 = e.2 then e.1 else settleUpTo ends fuel (n + 1)

/-- The binary64 both ends of the enclosures agree on at the first precision at which they agree. -/
def settle (ends : Nat → B64 × B64) : B64 := settleUpTo ends 5 0

/-- The binary64 values nearest to the two ends of an enclosure at scale 2^P. -/
def enclEnds (P : Nat) (e : Encl) : B64 × B64 := (rnq e.lo (2 ^ P), rnq e.hi (2 ^ P))

/-! ## sin64, cos64, exp64 -/

/-- The number of halvings that bring u units of 2^-1074 below 1/2. -/
def halvings (u : Nat) : Nat := flog2 u + 2 - 1074

/-- The working precision for an argument of u units when p bits of the result are wanted: room for a small result and
for the loss of the doublings. -/
def workingPrec (p u : Nat) : Nat := p + (1074 - flog2 u) + 2 * halvings u + 16

/-- (sin x, cos x) for x = u units, u > 0. -/
def sinCosEncl (P u : Nat) : Encl × Encl :=
  let k := halvings u
  let t := u * 2 ^ P / 2 ^ (1074 + k)
  doubleAngle P k (sinCosTaylor P t (t + 1))

/-- sin of a positive finite pattern. -/
def sinPos (x : B64) : B64 :=
  let u := funits x
  settle (fun p => let P := workingPrec p u; enclEnds P (sinCosEncl P u).1)

/-- cos of a positive finite pattern. -/
def cosPos (x : B64) : B64 :=
  let u := funits x
  settle (fun p => let P := workingPrec p u; enclEnds P (sinCosEncl P u).2)

/-- `sin64` (R13): odd, `sin64(±0)` is its argument, NaN for an infinity or a NaN. -/
def sin64 (x : B64) : B64 :=
  if !isFin x then canonicalNaN
  else if isZero x then x
  else if fsign x then fneg (sinPos (fneg x)) else sinPos x

/-- `cos64` (R13): even, NaN for an infinity or a NaN. -/
def cos64 (x : B64) : B64 :=
  if !isFin x then canonicalNaN
  else if isZero x then ONE
  else cosPos (fabs x)

/-- e^|x| for |x| = u units, 0 < u, |x| < 2048. -/
def expEncl (P u : Nat) : Encl :=
  let k := halvings u
  let t := u * 2 ^ P / 2 ^ (1074 + k)
  squareUp P k (expTaylor P t (t + 1))

/-- The binary64 values nearest to the two ends of e^x; for a negative x the ends are the reciprocals 2^P/hi, 2^P/lo, the
upper one 1 where lo is not positive. -/
def expEnds (neg : Bool) (P u : Nat) : B64 × B64 :=
  let e := expEncl P u
  if neg then (rnq (2 ^ P) e.hi.toNat, if 0 < e.lo then rnq (2 ^ P) e.lo.toNat else ONE) else enclEnds P e

/-- `exp64` (R13). e^x overflows for every x ≥ 1024 and rounds to +0 for every x ≤ -1024. -/
def exp64 (x : B64) : B64 :=
  if isNaN x then canonicalNaN
  else if isZero x then ONE
  else if 2 ^ 1084 ≤ funits x then (if fsign x then plusZero else fpack false infMag)
  else
    let u := funits x
    settle (fun p => expEnds (fsign x) (workingPrec p u) u)

/-! ## cos2pi, sin2pi -/

/-- (sin(2πp/q), cos(2πp/q)) for 0 < p/q ≤ 1/2: the angle πp/(4q) < 1/2, doubled three times. -/
def turnEncl (P p q : Nat) : Encl × Encl :=
  let w := piEncl P
  doubleAngle P 3 (sinCosTaylor P (w.lo.toNat * p / (4 * q)) (w.hi.toNat * p / (4 * q) + 1))

/-- The working precision for a fraction with denominator q. -/
def turnPrec (prec q : Nat) : Nat := prec + flog2 q + 24

/-- cos(2πp/q) for a reduced fraction 0 ≤ p/q ≤ 1/2, the exact values first (an exact zero is +0, R13). -/
def cosTurn (p q : Nat) : B64 :=
  if p = 0 then ONE
  else if 2 * p = q then fneg ONE
  else if 4 * p = q then plusZero
  else if 6 * p = q then HALF
  else if 3 * p = q then fneg HALF
  else settle (fun prec => let P := turnPrec prec q; enclEnds P (turnEncl P p q).2)

/-- sin(2πp/q) for a reduced fraction 0 ≤ p/q ≤ 1/2, the exact values first. -/
def sinTurn (p q : Nat) : B64 :=
  if p = 0 then plusZero
  else if 2 * p = q then plusZero
  else if 4 * p = q then ONE
  else if 12 * p = q then HALF
  else if 12 * p = 5 * q then HALF
  else settle (fun prec => let P := turnPrec prec q; enclEnds P (turnEncl P p q).1)

/-- `cos2pi(p, q)` (R13): the fraction is reduced, taken modulo one turn, and folded, cos(2π(1 - f)) = cos(2πf). -/
def cos2pi (p q : Nat) : B64 :=
  let g := Nat.gcd (p % q) q
  let n := p % q / g
  let d := q / g
  if 2 * n ≤ d then cosTurn n d else cosTurn (d - n) d

/-- `sin2pi(p, q)` (R13), folded by sin(2π(1 - f)) = -sin(2πf); an exact zero is +0. -/
def sin2pi (p q : Nat) : B64 :=
  let g := Nat.gcd (p % q) q
  let n := p % q / g
  let d := q / g
  if 2 * n ≤ d then sinTurn n d else fneg (sinTurn (d - n) d)

end Sys2Proof.Machine
end

