-- ==== Sys2Proof/Machine/Fft.lean ====
section
/-! DEFINITION. The FFT engine (spec/41_fft.md): the datapath primitives, the mixed-radix complex transform, the packed
real transforms, and the commands FFT_CFG, FFT_CPLX, FFT_CPLX_SPLIT and FFT_REAL. Every operation stands in the order of the
rules' pseudocode. -/

namespace Sys2Proof.Machine

/-! ## Complex values (R100 to R102) -/

/-- A complex value (R100). -/
structure Cplx where
  re : B64
  im : B64
  deriving DecidableEq, Repr

/-- x + y (R101). -/
def cadd (x y : Cplx) : Cplx := ⟨fadd x.re y.re, fadd x.im y.im⟩

/-- x - y (R101). -/
def csub (x y : Cplx) : Cplx := ⟨fsub x.re y.re, fsub x.im y.im⟩

/-- cmul(w, x) (R101): six roundings, always performed. -/
def cmul (w x : Cplx) : Cplx :=
  ⟨fsub (fmul w.re x.re) (fmul w.im x.im), fadd (fmul w.re x.im) (fmul w.im x.re)⟩

/-- Multiplication by -i (forward) or i (inverse), exact (R102). -/
def rotq (d : Direction) (t : Cplx) : Cplx :=
  match d with
  | .fwd => ⟨t.im, fneg t.re⟩
  | .inv => ⟨fneg t.im, t.re⟩

/-- z[i]. -/
def cget (z : List Cplx) (i : Nat) : Cplx := z.getD i ⟨plusZero, plusZero⟩

/-! ## Twiddle factors (R105, R106) -/

/-- sin(2πk/N) is exactly 0. -/
def sinIsZero (k n : Nat) : Bool := decide (2 * k % n = 0)

/-- TWd(k, N) (R105): TW(k, N) forward, TWI(k, N) inverse, each component correctly rounded, an exact zero +0. -/
def twiddle (d : Direction) (k n : Nat) : Cplx :=
  match d with
  | .fwd => ⟨cos2pi k n, if sinIsZero k n then plusZero else fneg (sin2pi k n)⟩
  | .inv => ⟨cos2pi k n, sin2pi k n⟩

/-- Entry k of the twiddle store of size T, TW(k, T) (spec/10_state.md R38); the store is a function of TWSIZE. -/
def storeEntry (T k : Nat) : Cplx := twiddle .fwd k T

/-- The datapath's read of TWd(k, L) from a store of size T (R106): entry k·(T/L), the imaginary part of a nonzero entry
negated for an inverse transform. -/
def storeRead (T : Nat) (d : Direction) (k L : Nat) : Cplx :=
  let e := storeEntry T (k * (T / L))
  match d with
  | .fwd => e
  | .inv => ⟨e.re, if sinIsZero (k * (T / L)) T then e.im else fneg e.im⟩

/-! ## The complex transform (R103, R107 to R109) -/

/-- rev_m(i): the m low bits of i in reverse order (R103). -/
def revBits : Nat → Nat → Nat
  | 0, _ => 0
  | m + 1, i => (i % 2) * 2 ^ m + revBits m (i / 2)

/-- Swap z[i] and z[j], a move. -/
def swapAt (z : List Cplx) (i j : Nat) : List Cplx := (z.set i (cget z j)).set j (cget z i)

/-- BITREV(z, 2^m) (R103). -/
def bitrev (m : Nat) (z : List Cplx) : List Cplx :=
  loop (2 ^ m) (fun i z => if i < revBits m i then swapAt z i (revBits m i) else z) z

/-- BF4(z, i0, h, j, dir) (R107). -/
def bf4 (d : Direction) (i0 h j : Nat) (z : List Cplx) : List Cplx :=
  let i1 := i0 + h
  let i2 := i0 + 2 * h
  let i3 := i0 + 3 * h
  let L := 4 * h
  let A := cget z i0
  let B := cmul (twiddle d j L) (cget z i2)
  let C := cmul (twiddle d (2 * j) L) (cget z i1)
  let D := cmul (twiddle d (3 * j) L) (cget z i3)
  let T0 := cadd A C
  let T1 := csub A C
  let T2 := cadd B D
  let J := rotq d (csub B D)
  (((z.set i0 (cadd T0 T2)).set i2 (csub T0 T2)).set i1 (cadd T1 J)).set i3 (csub T1 J)

/-- BF2(z, i0, h, j, dir) (R108). -/
def bf2 (d : Direction) (i0 h j : Nat) (z : List Cplx) : List Cplx :=
  let u := cget z i0
  let v := cmul (twiddle d j (2 * h)) (cget z (i0 + h))
  (z.set i0 (cadd u v)).set (i0 + h) (csub u v)

/-- One radix-4 stage over n points (R109): the blocks s = 0, 4h, 8h, ..., and j in 0..h-1 in each. -/
def radix4Stage (d : Direction) (n h : Nat) (z : List Cplx) : List Cplx :=
  loop (n / (4 * h)) (fun b z => loop h (fun j z => bf4 d (4 * h * b + j) h j z) z) z

/-- The radix-4 main stages still to run, h growing fourfold (R109). -/
def radix4Stages (d : Direction) (n : Nat) : Nat → Nat → List Cplx → List Cplx
  | 0, _, z => z
  | k + 1, h, z => radix4Stages d n k (4 * h) (radix4Stage d n h z)

/-- CFFT(z, 2^m, dir) (R109): bit reversal, m div 2 radix-4 stages, and the radix-2 tail when m is odd. -/
def cfft (d : Direction) (m : Nat) (z : List Cplx) : List Cplx :=
  let n := 2 ^ m
  let z := radix4Stages d n (m / 2) 1 (bitrev m z)
  if m % 2 = 1 then loop (n / 2) (fun j z => bf2 d j (n / 2) j z) z else z

/-- The scale of an inverse transform of a buffer of L words, RNq(2/L) (R112). -/
def inverseScale (L : Nat) : B64 := rnq 2 L

/-! ## The real transforms (R113 to R115) -/

/-- a[i]. -/
def fget (a : List B64) (i : Nat) : B64 := a.getD i plusZero

/-- RFFT_F(a, N), N = 2^m (R113). -/
def rfftF (m : Nat) (a : List B64) : List B64 :=
  let N := 2 ^ m
  let n := N / 2
  let z := cfft .fwd (m - 1) ((List.range n).map (fun j => ⟨fget a (2 * j), fget a (2 * j + 1)⟩))
  let z0 := cget z 0
  let zh := cget z (n / 2)
  let a := (a.set 0 (fadd z0.re z0.im)).set 1 (fsub z0.re z0.im)
  let a := loop (n / 2 - 1) (fun i a =>
    let k := i + 1
    let Ar := (cget z k).re
    let Ai := (cget z k).im
    let Br := (cget z (n - k)).re
    let Bi := fneg (cget z (n - k)).im
    let Er := fmul HALF (fadd Ar Br)
    let Ei := fmul HALF (fadd Ai Bi)
    let Dr := fsub Ar Br
    let Di := fsub Ai Bi
    let P := cmul (twiddle .fwd k N) ⟨fmul HALF Di, fneg (fmul HALF Dr)⟩
    (((a.set (2 * k) (fadd Er P.re)).set (2 * k + 1) (fadd Ei P.im)).set
      (2 * (n - k)) (fsub Er P.re)).set (2 * (n - k) + 1) (fneg (fsub Ei P.im))) a
  (a.set n zh.re).set (n + 1) (fneg zh.im)

/-- The words of complex values in interleaved order (R100). -/
def interleave (z : List Cplx) : List B64 := z.flatMap (fun c => [c.re, c.im])

/-- The complex values of an interleaved buffer (R100). -/
def deinterleave : List B64 → List Cplx
  | x :: y :: rest => ⟨x, y⟩ :: deinterleave rest
  | _ => []

/-- Every component times s. -/
def cscale (s : B64) (z : List Cplx) : List Cplx := z.map (fun c => ⟨fmul c.re s, fmul c.im s⟩)

/-- RFFT_I(a, N), N = 2^m (R114). -/
def rfftI (m : Nat) (a : List B64) : List B64 :=
  let N := 2 ^ m
  let n := N / 2
  let z : List Cplx := List.replicate n ⟨plusZero, plusZero⟩
  let z := z.set 0 ⟨fmul HALF (fadd (fget a 0) (fget a 1)), fmul HALF (fsub (fget a 0) (fget a 1))⟩
  let z := loop (n / 2 - 1) (fun i z =>
    let k := i + 1
    let Ar := fget a (2 * k)
    let Ai := fget a (2 * k + 1)
    let Br := fget a (2 * (n - k))
    let Bi := fneg (fget a (2 * (n - k) + 1))
    let Er := fmul HALF (fadd Ar Br)
    let Ei := fmul HALF (fadd Ai Bi)
    let Dr := fsub Ar Br
    let Di := fsub Ai Bi
    let Q := cmul (twiddle .inv k N) ⟨Dr, Di⟩
    let Or := fmul HALF Q.re
    let Oi := fmul HALF Q.im
    (z.set k ⟨fsub Er Oi, fadd Ei Or⟩).set (n - k) ⟨fadd Er Oi, fneg (fsub Ei Or)⟩) z
  let z := z.set (n / 2) ⟨fget a n, fneg (fget a (n + 1))⟩
  interleave (cscale (inverseScale N) (cfft .inv (m - 1) z))

/-- A complex transform of N points with the inverse's scale (R121, R122). -/
def complexTransform (d : Direction) (n : Nat) (z : List Cplx) : List Cplx :=
  let z := cfft d (Nat.log2 n) z
  match d with
  | .fwd => z
  | .inv => cscale (inverseScale (2 * n)) z

/-- A real transform of N samples (R123). -/
def realTransform (d : Direction) (n : Nat) (a : List B64) : List B64 :=
  match d with
  | .fwd => rfftF (Nat.log2 n) a
  | .inv => rfftI (Nat.log2 n) a

/-! ## The commands -/

def fftCfgChecks (s : State) : List Check := [(transformSize s.params (argU s 0), .invalidConfiguration)]

/-- FFT_CFG (R120): FFTN <- N. -/
def execFftCfg (s : State) : Result :=
  runCommand (fftCfgChecks s) (fun s => .ok { s with fftN := argU s 0 }) s

def fftCplxChecks (s : State) : List Check :=
  [(decide (s.fftN ≠ 0), .invalidConfiguration),
   (decide (argU s 1 = 2 * s.fftN), .invalidArgument),
   (inRange s (argU s 0) (argU s 1), .invalidArgument)]

/-- FFT_CPLX (R121): the in-place transform of an interleaved buffer. -/
def execFftCplx (d : Direction) (s : State) : Result :=
  runCommand (fftCplxChecks s) (fun s => do
    let ws ← readWords s.dmem (argU s 0) (2 * s.fftN)
    let out := interleave (complexTransform d s.fftN (deinterleave ws))
    .ok (setDmem (growTwiddle s.fftN s) (writeWords s.dmem (argU s 0) out))) s

def fftCplxSplitChecks (s : State) : List Check :=
  [(decide (s.fftN ≠ 0), .invalidConfiguration),
   (decide (argU s 2 = s.fftN), .invalidArgument),
   (decide (argU s 3 = s.fftN), .invalidArgument),
   (inRange s (argU s 0) (argU s 2), .invalidArgument),
   (inRange s (argU s 1) (argU s 3), .invalidArgument)]

/-- FFT_CPLX_SPLIT (R122): every read before any write; the imaginary part is written last. -/
def execFftCplxSplit (d : Direction) (s : State) : Result :=
  runCommand (fftCplxSplitChecks s) (fun s => do
    let re ← readWords s.dmem (argU s 0) s.fftN
    let im ← readWords s.dmem (argU s 1) s.fftN
    let z := complexTransform d s.fftN (List.zipWith Cplx.mk re im)
    let m := writeWords s.dmem (argU s 0) (z.map Cplx.re)
    .ok (setDmem (growTwiddle s.fftN s) (writeWords m (argU s 1) (z.map Cplx.im)))) s

def fftRealChecks (s : State) : List Check :=
  [(decide (s.fftN ≠ 0), .invalidConfiguration),
   (decide (argU s 1 = s.fftN), .invalidArgument),
   (inRange s (argU s 0) (argU s 1), .invalidArgument)]

/-- FFT_REAL (R123): the in-place real transform, packed spectrum (R115). -/
def execFftReal (d : Direction) (s : State) : Result :=
  runCommand (fftRealChecks s) (fun s => do
    let a ← readWords s.dmem (argU s 0) s.fftN
    .ok (setDmem (growTwiddle s.fftN s) (writeWords s.dmem (argU s 0) (realTransform d s.fftN a)))) s

end Sys2Proof.Machine
end

