-- ==== Sys2Proof/Machine/ImpulseResponse.lean ====
section
/-! DEFINITION. The impulse-response generator (spec/42_impulse_response.md): the sinc unit, the filter-size and delta
converters, the windowed-sinc taps, the comb and the resonator. -/

namespace Sys2Proof.Machine

/-! ## Sinc and the scalar converters (R140 to R143) -/

/-- sinc64(x) (R140). -/
def sinc64 (x : B64) : B64 := if isZero x then ONE else fdiv (sin64 x) x

def sincChecks (_ : State) : List Check := []

/-- SINC (R141). -/
def execSinc (s : State) : Result := runCommand (sincChecks s) (fun s => .ok (setResult s (sinc64 (argF s 0)))) s

/-- r = C31 / (δ / fs) (R142). -/
def filterRatio (fs delta : B64) : B64 := fdiv C31 (fdiv delta fs)

/-- r is finite and below 2^63 (R142 check 3). -/
def filterRatioOk (r : B64) : Bool := isFin r && flt r 0x43E0000000000000#64

/-- The filter length of a ratio (R142): rounded, ties to even, an odd result moved up. -/
def filterSize (r : B64) : Nat :=
  let D := froundEven r
  if D % 2 = 1 then D + 1 else D

def getFilterSizeChecks (s : State) : List Check :=
  [(fpos (argF s 0), .invalidArgument),
   (fpos (argF s 1), .invalidArgument),
   (filterRatioOk (filterRatio (argF s 0) (argF s 1)), .invalidArgument)]

/-- GET_FILTER_SIZE (R142). -/
def execGetFilterSize (s : State) : Result :=
  runCommand (getFilterSizeChecks s)
    (fun s => .ok (setResult s (BitVec.ofNat 64 (filterSize (filterRatio (argF s 0) (argF s 1)))))) s

/-- The transition width of a delayer d ≥ 1 (R143), d moved down to odd. -/
def deltaOf (fs : B64) (d : Nat) : B64 :=
  let n := if d % 2 = 1 then d else d - 1
  fmul (fdiv C31 (fofNat n)) fs

def getDeltaChecks (s : State) : List Check :=
  [(fpos (argF s 0), .invalidArgument),
   (decide (1 ≤ argU s 1), .invalidArgument)]

/-- GET_DELTA (R143). -/
def execGetDelta (s : State) : Result :=
  runCommand (getDeltaChecks s) (fun s => .ok (setResult s (deltaOf (argF s 0) (argU s 1)))) s

/-! ## Windowed-sinc taps (R145 to R153) -/

/-- m_i = b64(i) - (size - 1)/2 (R145). -/
def tapPos (size i : Nat) : B64 := fsub (fofNat i) (rnq ((size : Int) - 1) 2)

/-- lpk(ν, m) (R146). -/
def lpk (nu m : B64) : B64 := fmul (fmul TWO nu) (sinc64 (fmul (fmul TWO_PI nu) m))

/-- The all-pass term of R151 and R153. -/
def allPass (m : B64) : B64 := sinc64 (fmul PI64 m)

/-- FrequencyLow (R148). -/
def freqLow (fc bw : B64) : B64 := fsub fc (fmul bw HALF)

/-- FrequencyHigh (R148). -/
def freqHigh (fc bw : B64) : B64 := fadd fc (fmul bw HALF)

/-- A low-pass tap (R150). -/
def lowpassTap (fs f : B64) (size i : Nat) : B64 := lpk (fdiv f fs) (tapPos size i)

/-- A high-pass tap (R151). -/
def highpassTap (fs f : B64) (size i : Nat) : B64 :=
  fsub (allPass (tapPos size i)) (lpk (fdiv f fs) (tapPos size i))

/-- A band-pass tap (R152). -/
def bandpassTap (fs fc bw : B64) (size i : Nat) : B64 :=
  fsub (lpk (fdiv (freqHigh fc bw) fs) (tapPos size i)) (lpk (fdiv (freqLow fc bw) fs) (tapPos size i))

/-- A band-elimination tap (R153). -/
def bandelimTap (fs fc bw : B64) (size i : Nat) : B64 :=
  fadd (fsub (allPass (tapPos size i)) (lpk (fdiv (freqHigh fc bw) fs) (tapPos size i)))
    (lpk (fdiv (freqLow fc bw) fs) (tapPos size i))

/-- Every word of the output region (ARG0, ARG1) gets its tap (R149). -/
def writeTaps (tap : Nat → Nat → B64) (s : State) : Except Fault State :=
  .ok (setDmem s (writeWords s.dmem (argU s 0) ((List.range (argU s 1)).map (tap (argU s 1)))))

def irLowpassChecks (s : State) : List Check :=
  [(fpos (argF s 2), .invalidArgument),
   (fpos (argF s 3), .invalidArgument),
   (inRange s (argU s 0) (argU s 1), .invalidArgument)]

/-- IR_LOWPASS (R150). -/
def execIrLowpass (s : State) : Result :=
  runCommand (irLowpassChecks s) (fun s => writeTaps (lowpassTap (argF s 2) (argF s 3)) s) s

def irHighpassChecks (s : State) : List Check :=
  [(fpos (argF s 2), .invalidArgument),
   (fpos (argF s 3), .invalidArgument),
   (inRange s (argU s 0) (argU s 1), .invalidArgument)]

/-- IR_HIGHPASS (R151). -/
def execIrHighpass (s : State) : Result :=
  runCommand (irHighpassChecks s) (fun s => writeTaps (highpassTap (argF s 2) (argF s 3)) s) s

/-- The checks of the band commands (R152, R153): the derived low edge must not be negative. -/
def bandChecks (s : State) : List Check :=
  [(fpos (argF s 2), .invalidArgument),
   (fpos (argF s 3), .invalidArgument),
   (fpos (argF s 4), .invalidArgument),
   (!flt (freqLow (argF s 3) (argF s 4)) plusZero, .invalidArgument),
   (inRange s (argU s 0) (argU s 1), .invalidArgument)]

def irBandpassChecks (s : State) : List Check := bandChecks s

/-- IR_BANDPASS (R152). -/
def execIrBandpass (s : State) : Result :=
  runCommand (irBandpassChecks s) (fun s => writeTaps (bandpassTap (argF s 2) (argF s 3) (argF s 4)) s) s

def irBandelimChecks (s : State) : List Check := bandChecks s

/-- IR_BANDELIM (R153). -/
def execIrBandelim (s : State) : Result :=
  runCommand (irBandelimChecks s) (fun s => writeTaps (bandelimTap (argF s 2) (argF s 3) (argF s 4)) s) s

/-! ## The closed-form syntheses (R155, R156) -/

/-- The echo loop of R155 from echo k with weight a, on the S output words d. -/
def combLoop (S : Nat) (delay amp : B64) : Nat → Nat → B64 → List B64 → List B64
  | 0, _, _, d => d
  | fuel + 1, k, a, d =>
    let p := fmul (fofNat k) delay
    if flt p (fofNat S) then
      let j := ffloor p
      let fr := fsub p (fofNat j)
      let d := d.set j (fadd (d.getD j plusZero) (fmul a (fsub ONE fr)))
      let d := if j + 1 < S then d.set (j + 1) (fadd (d.getD (j + 1) plusZero) (fmul a fr)) else d
      combLoop S delay amp fuel (k + 1) (fmul a amp) d
    else d

/-- More turns than the loop of R155 can take: it stops by its own test after at most ceil(S/Delay) + 1 of them. -/
def combFuel (S : Nat) (delay : B64) : Nat := 2 * (S * 2 ^ 1074 / funits delay + 2)

/-- The taps of R155. -/
def combTaps (S : Nat) (delay amp : B64) : List B64 :=
  combLoop S delay amp (combFuel S delay) 0 ONE (List.replicate S plusZero)

def irCombChecks (s : State) : List Check :=
  [(isFin (argF s 2) && !flt (argF s 2) s.params.combDelayMin, .invalidArgument),
   (inRange s (argU s 0) (argU s 1), .invalidArgument)]

/-- IR_COMB (R155). -/
def execIrComb (s : State) : Result :=
  runCommand (irCombChecks s) (fun s =>
    .ok (setDmem s (writeWords s.dmem (argU s 0) (combTaps (argU s 1) (argF s 2) (argF s 3))))) s

/-- The envelope of R156 at tap i: exp64(-((x·x)/σσ)). -/
def resonatorEnvelope (sigma : B64) (i : Nat) : B64 :=
  exp64 (fneg (fdiv (fmul (fofNat i) (fofNat i)) (fmul sigma sigma)))

/-- A tap of R156: the sum over the frequencies in order. -/
def resonatorTap (fs sigma : B64) (freqs : List B64) (i : Nat) : B64 :=
  let g := resonatorEnvelope sigma i
  freqs.foldl (fun acc f => fadd acc (fmul g (cos64 (fmul (fmul TWO_PI (fdiv f fs)) (fofNat i))))) plusZero

/-- The unit impulse of S words (R156, σ = 0). -/
def unitImpulse (S : Nat) : List B64 := (List.range S).map (fun i => if i = 0 then ONE else plusZero)

def irResonatorChecks (s : State) : List Check :=
  [(fpos (argF s 2), .invalidArgument),
   (decide (1 ≤ argU s 5), .invalidArgument),
   (inRange s (argU s 0) (argU s 1), .invalidArgument),
   (inRange s (argU s 4) (argU s 5), .invalidArgument),
   (decide (argU s 1 = 0) || disjoint (argU s 0) (argU s 1) (argU s 4) (argU s 5), .invalidArgument)]

/-- IR_RESONATOR (R156). The frequencies are read only where a tap needs them: not when σ is a zero, not when S = 0. -/
def execIrResonator (s : State) : Result :=
  runCommand (irResonatorChecks s) (fun s =>
    if isZero (argF s 3) then .ok (setDmem s (writeWords s.dmem (argU s 0) (unitImpulse (argU s 1))))
    else if argU s 1 = 0 then .ok s
    else do
      let freqs ← readWords s.dmem (argU s 4) (argU s 5)
      .ok (setDmem s (writeWords s.dmem (argU s 0)
        ((List.range (argU s 1)).map (resonatorTap (argF s 2) (argF s 3) freqs))))) s

end Sys2Proof.Machine
end

