-- ==== Sys2Proof/Machine/OverlapAdd.lean ====
section
/-! DEFINITION. The overlap-add convolution engine (spec/44_overlap_add.md): channel configuration, the per-segment
datapath, and the commands OLA_CFG, OLA_SETFILTER and OLA_APPLY. -/

namespace Sys2Proof.Machine

/-! ## Configuration (R200, R203) -/

/-- The conditions of R200 on (seg, F, buf), in order. -/
def configChecks (p : Config.Params) (seg fft buf : Nat) : List Check :=
  [(transformSize p fft, .invalidConfiguration),
   (decide (1 ≤ seg ∧ seg < fft), .invalidConfiguration),
   (decide (1 ≤ buf ∧ buf ≤ p.dmemWords), .invalidConfiguration),
   (decide (buf % seg = 0), .invalidConfiguration)]

/-- A freshly configured channel (R203): no filter, a zero tail. -/
def configured (seg fft buf : Nat) : ChanCtx where
  cfg := true
  seg := seg
  fft := fft
  buf := buf
  filt := false
  spectrum := []
  tail := List.replicate (fft - seg) plusZero

/-- The pipeline uses channel c (R203). -/
def pipelineUses (mode : PipeMode) (c : Nat) : Bool := decide (c = 0) || (decide (c = 1) && decide (mode = .stereo))

/-- The end of the pipeline when one of its channels is configured on its own (R203, spec/90_conflicts.md C9). -/
def endPipeline (c : Nat) (s : State) : State :=
  if pipelineUses s.pipeMode c then { s with pipeMode := .off, pipeBuf := 0 } else s

/-! ## The datapath (R202, R204, R205) -/

/-- SPMUL(H, X) over F words (R202). -/
def spmul (fft : Nat) (H X : List B64) : List B64 :=
  (List.range (fft / 2)).flatMap (fun k =>
    if k = 0 then [fmul (fget H 0) (fget X 0), fmul (fget H 1) (fget X 1)]
    else
      let fr := fget H (2 * k)
      let fi := fget H (2 * k + 1)
      let xr := fget X (2 * k)
      let xi := fget X (2 * k + 1)
      [fsub (fmul fr xr) (fmul fi xi), fadd (fmul fr xi) (fmul fi xr)])

/-- The first F words of a list, with +0 for those it does not have. -/
def padTo (fft : Nat) (xs : List B64) : List B64 := (List.range fft).map (fun i => xs.getD i plusZero)

/-- A channel with the filter of an impulse response set (R204), its tail zeroed. -/
def withFilter (taps : List B64) (ch : ChanCtx) : ChanCtx :=
  { ch with
    spectrum := rfftF (Nat.log2 ch.fft) (padTo ch.fft taps)
    tail := List.replicate (ch.fft - ch.seg) plusZero
    filt := true }

/-- T of R205 after the tail is added, for the segment of the first seg words of xs. -/
def segmentBlock (ch : ChanCtx) (xs : List B64) : List B64 :=
  let m := Nat.log2 ch.fft
  let T := rfftI m (spmul ch.fft ch.spectrum (rfftF m (padTo ch.fft (xs.take ch.seg))))
  T.mapIdx (fun i x => if i < ch.fft - ch.seg then fadd x (fget ch.tail i) else x)

/-- One segment (R205): its output words, and the channel with the new tail. -/
def olaSegment (ch : ChanCtx) (xs : List B64) : List B64 × ChanCtx :=
  let T := segmentBlock ch xs
  (T.take ch.seg, { ch with tail := (List.range (ch.fft - ch.seg)).map (fun i => fget T (ch.seg + i)) })

/-- The per-segment loop of R205 over n segments of a buffer: the output words, and the channel after it. -/
def olaRun : Nat → ChanCtx → List B64 → List B64 × ChanCtx
  | 0, ch, _ => ([], ch)
  | n + 1, ch, xs =>
    let r := olaSegment ch xs
    let rest := olaRun n r.2 (xs.drop ch.seg)
    (r.1 ++ rest.1, rest.2)

/-- The per-segment loop of a channel over a whole buffer (R205): buf div seg segments. -/
def olaBuffer (ch : ChanCtx) (xs : List B64) : List B64 × ChanCtx := olaRun (ch.buf / ch.seg) ch xs

/-- The effect of OLA_SETFILTER on channel c with the region (b, n) (R204): only the first F words of it are read. -/
def setFilterEffect (c b n : Nat) (s : State) : Except Fault State := do
  let ch := chan s c
  let taps ← readWords s.dmem b (min n ch.fft)
  .ok (setChan (growTwiddle ch.fft s) c (withFilter taps ch))

/-- The effect of OLA_APPLY on channel c with the region at b (R205). -/
def applyEffect (c b : Nat) (s : State) : Except Fault State := do
  let ch := chan s c
  let xs ← readWords s.dmem b ch.buf
  let r := olaBuffer ch xs
  .ok (setChan (setDmem (growTwiddle ch.fft s) (writeWords s.dmem b r.1)) c r.2)

/-! ## The commands -/

/-- R83: CH < NCH, before every other check of a format C command. -/
def channelCheck (c : Channel) (s : State) : Check := (decide (c.val < s.params.nch), .illegalCommand)

def olaCfgChecks (c : Channel) (s : State) : List Check :=
  channelCheck c s :: configChecks s.params (argU s 0) (argU s 1) (argU s 2)

/-- OLA_CFG (R203). -/
def execOlaCfg (c : Channel) (s : State) : Result :=
  runCommand (olaCfgChecks c s) (fun s =>
    .ok (endPipeline c.val (setChan s c.val (configured (argU s 0) (argU s 1) (argU s 2))))) s

def olaSetfilterChecks (c : Channel) (s : State) : List Check :=
  [channelCheck c s,
   ((chan s c.val).cfg, .invalidConfiguration),
   (inRange s (argU s 0) (argU s 1), .invalidArgument)]

/-- OLA_SETFILTER (R204). -/
def execOlaSetfilter (c : Channel) (s : State) : Result :=
  runCommand (olaSetfilterChecks c s) (fun s => setFilterEffect c.val (argU s 0) (argU s 1) s) s

def olaApplyChecks (c : Channel) (s : State) : List Check :=
  [channelCheck c s,
   ((chan s c.val).cfg, .invalidConfiguration),
   ((chan s c.val).filt, .invalidConfiguration),
   (decide (argU s 1 = (chan s c.val).buf), .invalidArgument),
   (inRange s (argU s 0) (argU s 1), .invalidArgument)]

/-- OLA_APPLY (R205). -/
def execOlaApply (c : Channel) (s : State) : Result :=
  runCommand (olaApplyChecks c s) (fun s => applyEffect c.val (argU s 0) s) s

end Sys2Proof.Machine
end

