-- ==== Sys2Proof/Machine/Pipeline.lean ====
section
/-! DEFINITION. The mono/stereo pipeline over channels 0 and 1 (spec/45_pipeline.md): PIPE_CFG, PIPE_SETFILTER and
PIPE_FILTER. -/

namespace Sys2Proof.Machine

/-- The mode operand of PIPE_CFG (R230): 0 mono, 1 stereo. -/
def pipeModeOf (mode : Nat) : PipeMode := if mode = 0 then .mono else .stereo

/-- P, the per-channel buffer size of an interleaved total B (R230). -/
def perChannel (mode : PipeMode) (total : Nat) : Nat :=
  match mode with
  | .stereo => total / 2
  | .mono => total
  | .off => total

def pipeCfgChecks (s : State) : List Check :=
  (decide (argU s 0 ≤ 1), .invalidConfiguration) ::
  (decide (argU s 3 % 2 = 0), .invalidConfiguration) ::
  configChecks s.params (argU s 1) (argU s 2) (perChannel (pipeModeOf (argU s 0)) (argU s 3))

/-- PIPE_CFG (R230): channel 0, and channel 1 in stereo. -/
def execPipeCfg (s : State) : Result :=
  runCommand (pipeCfgChecks s) (fun s =>
    let mode := pipeModeOf (argU s 0)
    let ch := configured (argU s 1) (argU s 2) (perChannel mode (argU s 3))
    let s0 := setChan s 0 ch
    let s1 := if mode = .stereo then setChan s0 1 ch else s0
    .ok { s1 with pipeMode := mode, pipeBuf := argU s 3 }) s

def pipeSetfilterChecks (s : State) : List Check :=
  [(decide (s.pipeMode ≠ .off), .invalidConfiguration),
   (inRange s (argU s 0) (argU s 1), .invalidArgument)]

/-- PIPE_SETFILTER (R231): the effect of OLA_SETFILTER on channel 0, then on channel 1 in stereo. -/
def execPipeSetfilter (s : State) : Result :=
  runCommand (pipeSetfilterChecks s) (fun s => do
    let t ← setFilterEffect 0 (argU s 0) (argU s 1) s
    if s.pipeMode = .stereo then setFilterEffect 1 (argU s 0) (argU s 1) t else .ok t) s

/-- The even-indexed words, the left channel (R232). -/
def evens : List B64 → List B64
  | x :: _ :: rest => x :: evens rest
  | [x] => [x]
  | [] => []

/-- The odd-indexed words, the right channel (R232). -/
def odds : List B64 → List B64
  | _ :: y :: rest => y :: odds rest
  | _ => []

/-- Left and right words alternating (R232). -/
def merge : List B64 → List B64 → List B64
  | x :: xs, y :: ys => x :: y :: merge xs ys
  | xs, [] => xs
  | [], ys => ys

/-- The stereo effect of PIPE_FILTER at b (R232). -/
def stereoEffect (b : Nat) (s : State) : Except Fault State := do
  let left := chan s 0
  let right := chan s 1
  let xs ← readWords s.dmem b s.pipeBuf
  let l := olaRun (s.pipeBuf / 2 / left.seg) left (evens xs)
  let r := olaRun (s.pipeBuf / 2 / right.seg) right (odds xs)
  let t := growTwiddle right.fft (growTwiddle left.fft s)
  .ok (setChan (setChan (setDmem t (writeWords s.dmem b (merge l.1 r.1))) 0 l.2) 1 r.2)

/-- Every channel of the pipeline has a filter (R232 check 2). -/
def pipeFiltered (s : State) : Bool :=
  (chan s 0).filt && (decide (s.pipeMode ≠ .stereo) || (chan s 1).filt)

def pipeFilterChecks (s : State) : List Check :=
  [(decide (s.pipeMode ≠ .off), .invalidConfiguration),
   (pipeFiltered s, .invalidConfiguration),
   (decide (argU s 1 = s.pipeBuf), .invalidArgument),
   (inRange s (argU s 0) (argU s 1), .invalidArgument)]

/-- PIPE_FILTER (R232): mono filters directly, stereo deinterleaves, filters each channel and re-interleaves. -/
def execPipeFilter (s : State) : Result :=
  runCommand (pipeFilterChecks s) (fun s =>
    if s.pipeMode = .stereo then stereoEffect (argU s 0) s else applyEffect 0 (argU s 0) s) s

end Sys2Proof.Machine
end

