-- ==== Sys2Proof/Machine/Window.lean ====
section
/-! DEFINITION. The window LUT and tapering datapath (spec/43_window.md): the window position, the coefficient ROM, the
envelopes, the Bessel-series unit, and the commands BESSEL0 and WIN_*. -/

namespace Sys2Proof.Machine

/-! ## Geometry (R171) -/

/-- p_i of the window position x_i = p_i/q. -/
def winNum (L i : Nat) : Nat := if L % 2 = 0 then i else 2 * i + 1

/-- q of the window position. -/
def winDen (L : Nat) : Nat := if L % 2 = 0 then L - 1 else 2 * L

/-! ## The coefficient ROM (R172; state by spec/10_state.md R39, constant) -/

def romHanning : List B64 := [rnq 5 10, rnq 5 10]
def romHamming : List B64 := [rnq 54 100, rnq 46 100]
def romBlackman : List B64 := [rnq 42 100, rnq 5 10, rnq 8 100]
def romNuttall : List B64 := [rnq 355768 1000000, rnq 487396 1000000, rnq 144232 1000000, rnq 12604 1000000]
def romBlackmanHarris : List B64 := [rnq 35875 100000, rnq 48829 100000, rnq 14128 100000, rnq 1168 100000]
def romBlackmanNuttall : List B64 :=
  [rnq 3635819 10000000, rnq 4891775 10000000, rnq 1365995 10000000, rnq 106411 10000000]
def romFlattop : List B64 :=
  [rnq 21557895 100000000, rnq 41663158 100000000, rnq 277263158 1000000000, rnq 83578947 1000000000,
   rnq 6947368 1000000000]

/-! ## The envelopes (R173 to R177) -/

/-- The cosine-sum terms m, m+1, ... added to w in order, subtracted for odd m (R173). -/
def cosineSumFrom (p q : Nat) : Nat → List B64 → B64 → B64
  | _, [], w => w
  | m, a :: as, w =>
    let t := fmul a (cos2pi (m * p) q)
    cosineSumFrom p q (m + 1) as (if m % 2 = 1 then fsub w t else fadd w t)

/-- The cosine-sum envelope of a ROM row at p/q (R173). -/
def cosineSum (rom : List B64) (p q : Nat) : B64 :=
  match rom with
  | [] => plusZero
  | a :: as => cosineSumFrom p q 1 as a

/-- The Bartlett envelope (R174). -/
def bartlett (p q : Nat) : B64 := rnq ((q : Int) - (2 * (p : Int) - q).natAbs) q

/-- The Welch envelope (R174). -/
def welch (p q : Nat) : B64 := rnq ((q : Int) * q - (2 * (p : Int) - q) * (2 * (p : Int) - q)) (q * q)

/-- The series loop of R175 after terms 0..i-1: n more terms, t the last power term, acc the sum. -/
def besselLoop (hx : B64) : Nat → Nat → B64 → B64 → B64
  | 0, _, _, acc => acc
  | n + 1, i, t, acc =>
    let t := fdiv (fmul t hx) (fofNat i)
    besselLoop hx n (i + 1) t (fadd acc (fmul t t))

/-- bessel0(x), the first `terms` terms of the series (R175). -/
def besselSeries (terms : Nat) (x : B64) : B64 := besselLoop (fmul x HALF) (terms - 1) 1 ONE ONE

/-- The Kaiser envelope (R177). -/
def kaiser (terms : Nat) (alpha : B64) (p q : Nat) : B64 :=
  let u := rnq (2 * (p : Int) - q) q
  let r := sqrt64 (fsub ONE (fmul u u))
  let beta := fmul PI64 alpha
  fdiv (besselSeries terms (fmul beta r)) (besselSeries terms beta)

/-- w(i, L): an envelope at the window position (R170, R171). -/
def windowValue (env : Nat → Nat → B64) (L i : Nat) : B64 := env (winNum L i) (winDen L)

/-! ## The commands -/

def bessel0Checks (_ : State) : List Check := []

/-- BESSEL0 (R176). -/
def execBessel0 (s : State) : Result :=
  runCommand (bessel0Checks s) (fun s => .ok (setResult s (besselSeries s.params.besselTerms (argF s 0)))) s

/-- The region check of every window command (R179). -/
def windowChecks (s : State) : List Check := [(inRange s (argU s 0) (argU s 1), .invalidArgument)]

/-- The tapering of R170: each word of the region times its window value, in place. -/
def taper (env : Nat → Nat → B64) (s : State) : Except Fault State := do
  let ws ← readWords s.dmem (argU s 0) (argU s 1)
  .ok (setDmem s (writeWords s.dmem (argU s 0) (ws.mapIdx (fun i x => fmul x (windowValue env (argU s 1) i)))))

def winHanningChecks (s : State) : List Check := windowChecks s
/-- WIN_HANNING (R180). -/
def execWinHanning (s : State) : Result := runCommand (winHanningChecks s) (taper (cosineSum romHanning)) s

def winHammingChecks (s : State) : List Check := windowChecks s
/-- WIN_HAMMING (R181). -/
def execWinHamming (s : State) : Result := runCommand (winHammingChecks s) (taper (cosineSum romHamming)) s

def winBartlettChecks (s : State) : List Check := windowChecks s
/-- WIN_BARTLETT (R182). -/
def execWinBartlett (s : State) : Result := runCommand (winBartlettChecks s) (taper bartlett) s

def winNuttallChecks (s : State) : List Check := windowChecks s
/-- WIN_NUTTALL (R183). -/
def execWinNuttall (s : State) : Result := runCommand (winNuttallChecks s) (taper (cosineSum romNuttall)) s

def winBlackmanChecks (s : State) : List Check := windowChecks s
/-- WIN_BLACKMAN (R184). -/
def execWinBlackman (s : State) : Result := runCommand (winBlackmanChecks s) (taper (cosineSum romBlackman)) s

def winBlackmanHarrisChecks (s : State) : List Check := windowChecks s
/-- WIN_BLACKMAN_HARRIS (R185). -/
def execWinBlackmanHarris (s : State) : Result :=
  runCommand (winBlackmanHarrisChecks s) (taper (cosineSum romBlackmanHarris)) s

def winBlackmanNuttallChecks (s : State) : List Check := windowChecks s
/-- WIN_BLACKMAN_NUTTALL (R186). -/
def execWinBlackmanNuttall (s : State) : Result :=
  runCommand (winBlackmanNuttallChecks s) (taper (cosineSum romBlackmanNuttall)) s

def winFlattopChecks (s : State) : List Check := windowChecks s
/-- WIN_FLATTOP (R187). -/
def execWinFlattop (s : State) : Result := runCommand (winFlattopChecks s) (taper (cosineSum romFlattop)) s

def winWelchChecks (s : State) : List Check := windowChecks s
/-- WIN_WELCH (R188). -/
def execWinWelch (s : State) : Result := runCommand (winWelchChecks s) (taper welch) s

def winKaiserChecks (s : State) : List Check := windowChecks s
/-- WIN_KAISER (R189): a zero α of either sign zeroes the region without reading it. -/
def execWinKaiser (s : State) : Result :=
  runCommand (winKaiserChecks s) (fun s =>
    if isZero (argF s 2) then
      .ok (setDmem s (writeWords s.dmem (argU s 0) (List.replicate (argU s 1) plusZero)))
    else taper (kaiser s.params.besselTerms (argF s 2)) s) s

end Sys2Proof.Machine
end

