-- ==== Sys2Proof/Machine/Abort.lean ====
section
/-! DEFINITION. What a reset does to a running command and to the machine: the checks of every command as one table
(spec/60_exceptions.md R254), the regions each command may write, the abort (spec/70_reset_and_hazards.md R293), the soft
reset (R292) and the power-on reset (R290, R291). -/

namespace Sys2Proof.Machine

/-- The checks of every command, in order, with the code each failure reports (R254). -/
def checksOf (i : Instr) (s : State) : List Check :=
  match i with
  | .nop => nopChecks s
  | .fftCfg => fftCfgChecks s
  | .fftCplx _ => fftCplxChecks s
  | .fftCplxSplit _ => fftCplxSplitChecks s
  | .fftReal _ => fftRealChecks s
  | .sinc => sincChecks s
  | .bessel0 => bessel0Checks s
  | .getFilterSize => getFilterSizeChecks s
  | .getDelta => getDeltaChecks s
  | .winHanning => winHanningChecks s
  | .winHamming => winHammingChecks s
  | .winBartlett => winBartlettChecks s
  | .winNuttall => winNuttallChecks s
  | .winBlackman => winBlackmanChecks s
  | .winBlackmanHarris => winBlackmanHarrisChecks s
  | .winBlackmanNuttall => winBlackmanNuttallChecks s
  | .winFlattop => winFlattopChecks s
  | .winWelch => winWelchChecks s
  | .winKaiser => winKaiserChecks s
  | .irLowpass => irLowpassChecks s
  | .irHighpass => irHighpassChecks s
  | .irBandpass => irBandpassChecks s
  | .irBandelim => irBandelimChecks s
  | .irComb => irCombChecks s
  | .irResonator => irResonatorChecks s
  | .olaCfg c => olaCfgChecks c s
  | .olaSetfilter c => olaSetfilterChecks c s
  | .olaApply c => olaApplyChecks c s
  | .pipeCfg => pipeCfgChecks s
  | .pipeSetfilter => pipeSetfilterChecks s
  | .pipeFilter => pipeFilterChecks s

/-- The DMEM regions (base, length) a command's rule may write (R293). -/
def outputRegions (i : Instr) (s : State) : List (Nat × Nat) :=
  match i with
  | .fftCplx _ => [(argU s 0, argU s 1)]
  | .fftCplxSplit _ => [(argU s 0, argU s 2), (argU s 1, argU s 3)]
  | .fftReal _ => [(argU s 0, argU s 1)]
  | .winHanning => [(argU s 0, argU s 1)]
  | .winHamming => [(argU s 0, argU s 1)]
  | .winBartlett => [(argU s 0, argU s 1)]
  | .winNuttall => [(argU s 0, argU s 1)]
  | .winBlackman => [(argU s 0, argU s 1)]
  | .winBlackmanHarris => [(argU s 0, argU s 1)]
  | .winBlackmanNuttall => [(argU s 0, argU s 1)]
  | .winFlattop => [(argU s 0, argU s 1)]
  | .winWelch => [(argU s 0, argU s 1)]
  | .winKaiser => [(argU s 0, argU s 1)]
  | .irLowpass => [(argU s 0, argU s 1)]
  | .irHighpass => [(argU s 0, argU s 1)]
  | .irBandpass => [(argU s 0, argU s 1)]
  | .irBandelim => [(argU s 0, argU s 1)]
  | .irComb => [(argU s 0, argU s 1)]
  | .irResonator => [(argU s 0, argU s 1)]
  | .olaApply _ => [(argU s 0, argU s 1)]
  | .pipeFilter => [(argU s 0, argU s 1)]
  | .nop | .fftCfg | .sinc | .bessel0 | .getFilterSize | .getDelta | .olaCfg _ | .olaSetfilter _ | .pipeCfg | .pipeSetfilter => []

/-- The regions the command in CMD may write. One that does not decode, names no channel of this instance or fails a check
writes no DMEM word (R251, R252). -/
def abortRegions (s : State) : List (Nat × Nat) :=
  match decode s.cmd with
  | .error _ => []
  | .ok i => if i.wellFormed s.params && decide (firstFailing (checksOf i s) = none) then outputRegions i s else []

/-- DMEM after an abort (R293): every word the running command may write becomes never written, every other word keeps its
value. -/
def abortDmem (s : State) : Memory := (abortRegions s).foldl (fun m r => forgetWords m r.1 r.2) s.dmem

/-- A soft reset (R292): every register, channel context and the twiddle store at its reset value, a running command
aborted, DMEM otherwise kept; the held accesses and the host's events stay, to be performed after it, in their order. -/
def softReset (s : State) : State :=
  { State.initial s.params with
    dmem := if s.status.busy then abortDmem s else s.dmem
    held := s.held
    hostIn := s.hostIn
    latency := s.latency
    resp := s.resp }

/-- The reset input (R290, R291): as at power-on, DMEM unspecified as a whole. The host's own side, outside CORE, goes on
(DESIGN CHOICE for the held accesses, log entry 6). -/
def powerOnReset (s : State) : State :=
  { State.initial s.params with
    held := s.held
    hostIn := s.hostIn
    latency := s.latency }

end Sys2Proof.Machine
end

