-- ==== Sys2Proof/Machine/Dispatch.lean ====
section
/-! DEFINITION. One arm per command: the meaning each has (spec/30_encoding.md R84). -/

namespace Sys2Proof.Machine

/-- The whole command, its checks, its effect and its completion, on a state whose CMD holds its word. -/
def exec (i : Instr) (s : State) : Host.Outcome State Fault Refusal :=
  match i with
  | .nop => Sys2Proof.Machine.execNop s
  | .fftCfg => Sys2Proof.Machine.execFftCfg s
  | .fftCplx d => Sys2Proof.Machine.execFftCplx d s
  | .fftCplxSplit d => Sys2Proof.Machine.execFftCplxSplit d s
  | .fftReal d => Sys2Proof.Machine.execFftReal d s
  | .sinc => Sys2Proof.Machine.execSinc s
  | .bessel0 => Sys2Proof.Machine.execBessel0 s
  | .getFilterSize => Sys2Proof.Machine.execGetFilterSize s
  | .getDelta => Sys2Proof.Machine.execGetDelta s
  | .winHanning => Sys2Proof.Machine.execWinHanning s
  | .winHamming => Sys2Proof.Machine.execWinHamming s
  | .winBartlett => Sys2Proof.Machine.execWinBartlett s
  | .winNuttall => Sys2Proof.Machine.execWinNuttall s
  | .winBlackman => Sys2Proof.Machine.execWinBlackman s
  | .winBlackmanHarris => Sys2Proof.Machine.execWinBlackmanHarris s
  | .winBlackmanNuttall => Sys2Proof.Machine.execWinBlackmanNuttall s
  | .winFlattop => Sys2Proof.Machine.execWinFlattop s
  | .winWelch => Sys2Proof.Machine.execWinWelch s
  | .winKaiser => Sys2Proof.Machine.execWinKaiser s
  | .irLowpass => Sys2Proof.Machine.execIrLowpass s
  | .irHighpass => Sys2Proof.Machine.execIrHighpass s
  | .irBandpass => Sys2Proof.Machine.execIrBandpass s
  | .irBandelim => Sys2Proof.Machine.execIrBandelim s
  | .irComb => Sys2Proof.Machine.execIrComb s
  | .irResonator => Sys2Proof.Machine.execIrResonator s
  | .olaCfg c => Sys2Proof.Machine.execOlaCfg c s
  | .olaSetfilter c => Sys2Proof.Machine.execOlaSetfilter c s
  | .olaApply c => Sys2Proof.Machine.execOlaApply c s
  | .pipeCfg => Sys2Proof.Machine.execPipeCfg s
  | .pipeSetfilter => Sys2Proof.Machine.execPipeSetfilter s
  | .pipeFilter => Sys2Proof.Machine.execPipeFilter s

end Sys2Proof.Machine
end

