-- ==== Sys2Proof/Machine/HostPort.lean ====
section
/-! DEFINITION. The host port: the register map (spec/10_state.md R21 to R35), the DMEM window, the accesses that are
defined and those the bus holds while a command runs (spec/20_memory.md R62, R65, R67, R70), and the start and the
completion of a command (spec/40_control.md R95, R96). -/

namespace Sys2Proof.Machine

/-! ## The register map -/

/-- What a 64-bit aligned offset from BASE names (R22, R23, R62). -/
inductive Target where
  | id
  | caps
  | ctrl
  | status
  | cmd
  | result
  | twsize
  | fftn
  | pipemode
  | pipebuf
  | arg (i : Fin 8)
  | chSeg (c : Nat)
  | chFft (c : Nat)
  | chBuf (c : Nat)
  | chFlags (c : Nat)
  /-- A word of the DMEM window. -/
  | dmem (w : Nat)
  /-- No register and no DMEM word. -/
  | unmapped
  deriving DecidableEq, Repr

/-- The byte offset of the DMEM window (R62). -/
def dmemWindow : Nat := 0x100000

/-- The offset of CMD (R23). -/
def cmdOffset : Nat := 0x020

/-- The channel registers at an offset (R23): 0x100 + 0x20·c for c < NCH. -/
def locateChannel (p : Config.Params) (off : Nat) : Target :=
  let c := (off - 0x100) / 0x20
  if p.nch ≤ c then .unmapped
  else
    match (off - 0x100) % 0x20 / 8 with
    | 0 => .chSeg c
    | 1 => .chFft c
    | 2 => .chBuf c
    | _ => .chFlags c

/-- The register map (R23), the DMEM window (R62), and nothing anywhere else: an offset past the DMEM window that the platform
routes to CORE reads 0 and ignores writes (R22, R62). -/
def locate (p : Config.Params) (off : Nat) : Target :=
  if dmemWindow ≤ off then
    (if (off - dmemWindow) / 8 < p.dmemWords then .dmem ((off - dmemWindow) / 8) else .unmapped)
  else if 0x100 ≤ off then locateChannel p off
  else if 0x080 ≤ off ∧ off < 0x0C0 then .arg (Fin.ofNat 8 ((off - 0x080) / 8))
  else
    match off with
    | 0x000 => .id
    | 0x008 => .caps
    | 0x010 => .ctrl
    | 0x018 => .status
    | 0x020 => .cmd
    | 0x028 => .result
    | 0x030 => .twsize
    | 0x038 => .fftn
    | 0x040 => .pipemode
    | 0x048 => .pipebuf
    | _ => .unmapped

/-- ID (R26): "SUDP" and version 1. -/
def idWord : Word := 0x0000000153554450#64

/-- CAPS (R27). -/
def capsWord (p : Config.Params) : Word :=
  BitVec.ofNat 64 (p.nmaxLog2 % 2 ^ 8 + 2 ^ 8 * (p.dmemLog2 % 2 ^ 8) + 2 ^ 16 * (p.nch % 2 ^ 4)
    + 2 ^ 24 * (p.besselTerms % 2 ^ 8))

/-- PIPEMODE as the host reads it (R33). -/
def pipeModeWord : PipeMode → Word
  | .off => 0#64
  | .mono => 1#64
  | .stereo => 2#64

/-- CHc_FLAGS (R35). -/
def chanFlags (ch : ChanCtx) : Word := BitVec.ofNat 64 (ch.cfg.toNat + 2 * ch.filt.toNat)

/-- The value a host read returns (R22 to R35, R62); a fault for a DMEM word never written (R67). -/
def readTarget (s : State) : Target → Except Fault Word
  | .id => .ok idWord
  | .caps => .ok (capsWord s.params)
  | .ctrl => .ok (BitVec.ofNat 64 s.ie.toNat)
  | .status => .ok (statusWord s.status)
  | .cmd => .ok s.cmd
  | .result => .ok s.result
  | .twsize => .ok (BitVec.ofNat 64 s.twSize)
  | .fftn => .ok (BitVec.ofNat 64 s.fftN)
  | .pipemode => .ok (pipeModeWord s.pipeMode)
  | .pipebuf => .ok (BitVec.ofNat 64 s.pipeBuf)
  | .arg i => .ok (s.args.get i)
  | .chSeg c => .ok (BitVec.ofNat 64 (chan s c).seg)
  | .chFft c => .ok (BitVec.ofNat 64 (chan s c).fft)
  | .chBuf c => .ok (BitVec.ofNat 64 (chan s c).buf)
  | .chFlags c => .ok (chanFlags (chan s c))
  | .dmem w =>
    match readWord s.dmem w with
    | some v => .ok v
    | none => .error (.neverWritten w)
  | .unmapped => .ok 0#64

/-! ## Commands -/

/-- The command in CMD runs to its completion: it is decoded (R83), and either ends with IllegalCommand (R251) or is
executed. -/
def finishCommand (s : State) : Result :=
  match decode s.cmd with
  | .error _ => .next (raiseError .illegalCommand s)
  | .ok i => if i.wellFormed s.params then exec i s else .next (raiseError .illegalCommand s)

/-- CMD <- v ; BUSY <- 1 ; DONE <- 0 (R95). -/
def latchCommand (v : Word) (s : State) : State := { s with cmd := v, status := startFlags s.status }

/-- A CMD write (R95). The command completes in this same step (spec/70_reset_and_hazards.md R301), unless the model's
`latency` lets host events arrive while it is busy. -/
def startCommand (v : Word) (s : State) : Result :=
  match s.latency with
  | [] => finishCommand (latchCommand v s)
  | d :: ds =>
    let t := { latchCommand v s with latency := ds }
    if d = 0 then finishCommand t else .next { t with timeLeft := d }

/-! ## Host accesses -/

/-- A host write of v (R22 to R29, R62): CMD starts a command, CTRL sets IE or performs the soft reset, STATUS acknowledges
DONE, ARGi and DMEM words are stored; a write of anything else is ignored. -/
def writeTarget (s : State) (v : Word) : Target → Result
  | .cmd => startCommand v s
  | .ctrl => .next (if v.getLsbD 1 then softReset s else { s with ie := v.getLsbD 0 })
  | .status => .next { s with status := ackFlags v s.status }
  | .arg i => .next { s with args := s.args.set i.val v i.isLt }
  | .dmem w => .next (setDmem s (writeWord s.dmem w v))
  | .id | .caps | .result | .twsize | .fftn | .pipemode | .pipebuf | .chSeg _ | .chFft _ | .chBuf _ | .chFlags _
  | .unmapped => .next s

/-- An access is defined when it is 64 bits wide at an offset from BASE that is a multiple of 8 (R65). An address outside the
host window the platform decodes is not routed to CORE, and is refused like one that is not (spec/93_implementation_defined.md
U6, U4); for an address below BASE, of which U6 does not speak, that is the model's choice (DEDUCED, log entry 8). -/
def definedAccess (p : Config.Params) (addr size : Nat) : Bool :=
  decide (size = 8 ∧ p.base ≤ addr ∧ addr - p.base < p.hostBytes ∧ (addr - p.base) % 8 = 0)

/-- A host access is performed: an error response without effect where it is not defined (R65, R257). -/
def performAccess (a : HostAccess) (s : State) : Result :=
  match a with
  | .read addr size =>
    if definedAccess s.params addr size then
      match readTarget s (locate s.params (addr - s.params.base)) with
      | .ok v => .next { s with resp := .data v }
      | .error e => .fault e
    else .next { s with resp := .error }
  | .write addr size v =>
    if definedAccess s.params addr size then
      writeTarget { s with resp := .written } v (locate s.params (addr - s.params.base))
    else .next { s with resp := .error }

/-- The accesses performed at once while BUSY = 1 (R70): a read of STATUS, ID or CAPS and a write of CTRL. -/
def performedAtOnce (p : Config.Params) : HostAccess → Bool
  | .read addr size =>
    definedAccess p addr size &&
      (match locate p (addr - p.base) with
        | .status => true
        | .id => true
        | .caps => true
        | _ => false)
  | .write addr size _ => definedAccess p addr size && decide (locate p (addr - p.base) = .ctrl)

/-- A host event arrives while a command runs: an access is performed at once or held (R70); the reset input abandons the
command (R291). -/
def arriveBusy (e : HostEvent) (s : State) : Result :=
  match e with
  | .resetInput => .next (powerOnReset s)
  | .access a => if performedAtOnce s.params a then performAccess a s else .next { s with held := s.held ++ [a] }

/-- A host event arrives while CORE is idle. -/
def arriveIdle (e : HostEvent) (s : State) : Result :=
  match e with
  | .resetInput => .next (powerOnReset s)
  | .access a => performAccess a s

/-- One step of CORE and its bus. While a command runs, the next host event arrives as long as `timeLeft` lets one, and then
the command completes. While CORE is idle, the held accesses are performed first, in order (R70), then the host's events. With
nothing to do the state stays.

DESIGN CHOICE (log entry 6): a reset input that comes while CORE is idle and accesses are still held arrives after all of them.
R70 orders accesses only, and R290 has the platform assert the reset input whenever it likes. -/
def advance (s : State) : Result :=
  if s.status.busy then
    match s.timeLeft, s.hostIn with
    | n + 1, e :: rest => arriveBusy e { s with timeLeft := n, hostIn := rest }
    | _, _ => finishCommand { s with timeLeft := 0 }
  else
    match s.held, s.hostIn with
    | a :: rest, _ => performAccess a { s with held := rest }
    | [], e :: rest => arriveIdle e { s with hostIn := rest }
    | [], [] => .next s

end Sys2Proof.Machine
end

