-- ==== Sys2Proof/Machine/Step.lean ====
section
/-! DEFINITION. The step of the machine, and the state in which the very next step runs a given command word. CORE fetches
nothing (spec/00_scope.md R14): a command runs because the host writes its word to CMD. -/

namespace Sys2Proof.Machine

/-- One step. -/
def step (s : State) : Host.Outcome State Fault Refusal := advance s

/-- s with CORE idle and a CMD write of the command word first in the bus's order, to complete within one step. Nothing else
changes; from State.reset the host's program comes to run the same way, as host accesses from outside (log entry 4). -/
def State.withFetchWord (s : State) (nbits w : Nat) : State :=
  { s with
    status := { s.status with busy := false }
    timeLeft := 0
    latency := 0 :: s.latency
    held := .write (s.params.base + cmdOffset) 8 (tableWord nbits w) :: s.held }

end Sys2Proof.Machine
end

