-- ==== Sys2Proof/Safety.lean ====
section
/-! DEFINITION. What counts as a legal state and a safe run, in the terms the claims use: the invariants the spec states
for the channel contexts (spec/10_state.md R37), the registers (R31 to R34), the pipeline (R40) and DMEM
(spec/20_memory.md R60, R61). -/

namespace Sys2Proof.Machine

/-- The invariants of a channel context (R37), with the numbers of words H and TAIL hold (R36). -/
def ChanCtx.wf (p : Config.Params) (ch : ChanCtx) : Prop :=
  (ch.cfg = true →
    transformSize p ch.fft = true ∧ 1 ≤ ch.seg ∧ ch.seg < ch.fft ∧ 1 ≤ ch.buf ∧ ch.buf ≤ p.dmemWords ∧
    ch.buf % ch.seg = 0 ∧ ch.tail.length = ch.fft - ch.seg) ∧
  (ch.filt = true → ch.cfg = true ∧ ch.spectrum.length = ch.fft) ∧
  (ch.filt = false → ch.spectrum = []) ∧
  (ch.cfg = false → ch = unconfigured)

/-- TWSIZE is 0 or a power of two 2^k with 2 ≤ k ≤ NMAX_LOG2 (R31). -/
def twSizeLegal (p : Config.Params) (n : Nat) : Prop := n = 0 ∨ transformSize p n = true

/-- FFTN is 0 or a transform size (R32). -/
def fftNLegal (p : Config.Params) (n : Nat) : Prop := n = 0 ∨ transformSize p n = true

/-- The pipeline state (R33, R34, R40): off with PIPEBUF = 0, or the channels it uses configured with one segment size, one
FFT size and the per-channel share of an even PIPEBUF. -/
def pipelineWf (s : State) : Prop :=
  match s.pipeMode with
  | .off => s.pipeBuf = 0
  | .mono => s.pipeBuf % 2 = 0 ∧ (chan s 0).cfg = true ∧ (chan s 0).buf = s.pipeBuf
  | .stereo =>
    s.pipeBuf % 2 = 0 ∧ (chan s 0).cfg = true ∧ (chan s 1).cfg = true ∧ (chan s 0).buf = s.pipeBuf / 2 ∧
    (chan s 1).buf = s.pipeBuf / 2 ∧ (chan s 0).seg = (chan s 1).seg ∧ (chan s 0).fft = (chan s 1).fft

/-- A legal state: every invariant the spec states, and a time left only while a command runs. -/
structure State.Inv (s : State) : Prop where
  params : s.params.legal = true
  channels : s.chans.length = s.params.nch
  channel : ∀ ch ∈ s.chans, ch.wf s.params
  twSize : twSizeLegal s.params s.twSize
  fftN : fftNLegal s.params s.fftN
  pipeline : pipelineWf s
  dmem : Memory.wf s.params.dmemWords s.dmem = true
  idle : s.status.busy = false → s.timeLeft = 0

/-- No command runs and the bus holds nothing: the next host event is performed at once. -/
def quiet (s : State) : Prop := s.status.busy = false ∧ s.held = []

/-- A safe step: it does not stop. -/
def safeStep (s : State) : Prop := ∃ t, step s = .next t

/-! ## DMEM -/

/-- Every word of the region (b, n) has been written. -/
abbrev written (m : Memory) (b n : Nat) : Prop := ∀ k, k < n → (readWord m (b + k)).isSome = true

/-- The words of the region (b, n), +0 for one never written. -/
def wordsAt (m : Memory) (b n : Nat) : List Word := (List.range n).map (fun k => (readWord m (b + k)).getD 0#64)

/-- Every byte outside the region (b, n) reads in m' as in m. -/
def unchangedOutside (m m' : Memory) (b n : Nat) : Prop :=
  ∀ a, a < 8 * b ∨ 8 * (b + n) ≤ a → readByte m' a = readByte m a

/-- m' is m with the words vs stored from word b on: each reads as stored, every byte outside them as before. -/
def stored (m m' : Memory) (b : Nat) (vs : List Word) : Prop :=
  (∀ k, k < vs.length → readWord m' (b + k) = vs[k]?) ∧ unchangedOutside m m' b vs.length

/-- The DMEM regions (base, length) a command reads when its checks pass (R170, R177, R121 to R123, R156, R204, R205, R231, R232):
an in-place region, the frequencies of a resonator of nonzero strength with a tap to compute, the part of a response that fits
its channel's transform. -/
def inputRegions (i : Instr) (s : State) : List (Nat × Nat) :=
  match i with
  | .fftCplx _ | .fftReal _ | .winHanning | .winHamming | .winBartlett | .winNuttall | .winBlackman | .winBlackmanHarris
  | .winBlackmanNuttall | .winFlattop | .winWelch | .olaApply _ | .pipeFilter => [(argU s 0, argU s 1)]
  | .fftCplxSplit _ => [(argU s 0, argU s 2), (argU s 1, argU s 3)]
  | .winKaiser => if isZero (argF s 2) then [] else [(argU s 0, argU s 1)]
  | .irResonator => if isZero (argF s 3) ∨ argU s 1 = 0 then [] else [(argU s 4, argU s 5)]
  | .olaSetfilter c => [(argU s 0, min (argU s 1) (chan s c.val).fft)]
  | .pipeSetfilter => [(argU s 0, min (argU s 1) (chan s 0).fft)]
  | .nop | .fftCfg | .sinc | .bessel0 | .getFilterSize | .getDelta | .irLowpass | .irHighpass | .irBandpass | .irBandelim
  | .irComb | .olaCfg _ | .pipeCfg => []

/-! ## Outcomes -/

/-- The outcome with a function applied to its next state. -/
def onNext (f : State → State) : Result → Result
  | .next t => .next (f t)
  | .fault e => .fault e
  | .refused r => .refused r

/-- The command ends with an error code and STATUS alone changes (R252). -/
def failsWith (i : Instr) (s : State) (code : ErrCode) : Prop :=
  exec i s = .next { s with status := completionFlags s.cmd code }

/-- The state after a CMD write of v has been latched and answered, as the command sees it (R95). -/
def latched (v : Word) (s : State) : State :=
  { s with latency := s.latency.tail, resp := .written, cmd := v, status := startFlags s.status }

/-- k successive OLA_APPLY commands on channel c over buffers of B words from word b on (R207). -/
def streamed (c : Channel) (b B : Nat) : Nat → State → Result
  | 0, s => .next s
  | k + 1, s =>
    match streamed c b B k s with
    | .next t =>
      exec (.olaApply c)
        { t with args := (t.args.set 0 (BitVec.ofNat 64 (b + k * B))).set 1 (BitVec.ofNat 64 B) }
    | o => o

/-! ## Numbers -/

/-- The rational a finite pattern stands for. -/
def fval (x : B64) : ℚ := (fvalue x : ℚ) / 2 ^ 1074

/-- v is the binary64 nearest to r, ties to even: below the overflow threshold 2^1024 - 2^970 a finite pattern with no
finite one closer, its last bit 0 when another value is as close; from there on the infinity of r's sign. -/
def IsNearest (r : ℝ) (v : B64) : Prop :=
  (|r| < 2 ^ 1024 - 2 ^ 970 →
    isFin v = true ∧
    ∀ y, isFin y = true →
      |(fval v : ℝ) - r| ≤ |(fval y : ℝ) - r| ∧
      (fval y ≠ fval v → |(fval y : ℝ) - r| = |(fval v : ℝ) - r| → v.getLsbD 0 = false)) ∧
  (2 ^ 1024 - 2 ^ 970 ≤ r → v = fpack false infMag) ∧
  (r ≤ -(2 ^ 1024 - 2 ^ 970) → v = fpack true infMag)

/-! ## Syntheses -/

/-- One turn of the echo loop of R155 on (k, a, D): echo k of weight a is added to the S words D. -/
def combEcho (S : Nat) (delay amp : B64) (x : Nat × B64 × List B64) : Nat × B64 × List B64 :=
  let p := fmul (fofNat x.1) delay
  let j := ffloor p
  let fr := fsub p (fofNat j)
  let d := x.2.2.set j (fadd (x.2.2.getD j plusZero) (fmul x.2.1 (fsub ONE fr)))
  let d := if j + 1 < S then d.set (j + 1) (fadd (d.getD (j + 1) plusZero) (fmul x.2.1 fr)) else d
  (x.1 + 1, fmul x.2.1 amp, d)

/-- The alternating cosine sums of R173, written out. -/
def cosSum1 (a0 a1 : B64) (p q : Nat) : B64 := fsub a0 (fmul a1 (cos2pi p q))
def cosSum2 (a0 a1 a2 : B64) (p q : Nat) : B64 := fadd (cosSum1 a0 a1 p q) (fmul a2 (cos2pi (2 * p) q))
def cosSum3 (a0 a1 a2 a3 : B64) (p q : Nat) : B64 := fsub (cosSum2 a0 a1 a2 p q) (fmul a3 (cos2pi (3 * p) q))
def cosSum4 (a0 a1 a2 a3 a4 : B64) (p q : Nat) : B64 :=
  fadd (cosSum3 a0 a1 a2 a3 p q) (fmul a4 (cos2pi (4 * p) q))

/-- The window commands without a parameter and the envelope each has at p/q (R172, R173, R174, R180 to R188). -/
def windowTable : List (Instr × (Nat → Nat → B64)) := [
  (.winHanning, cosSum1 (rnq 5 10) (rnq 5 10)),
  (.winHamming, cosSum1 (rnq 54 100) (rnq 46 100)),
  (.winBartlett, fun p q => rnq ((q : Int) - |2 * (p : Int) - q|) q),
  (.winNuttall, cosSum3 (rnq 355768 1000000) (rnq 487396 1000000) (rnq 144232 1000000) (rnq 12604 1000000)),
  (.winBlackman, cosSum2 (rnq 42 100) (rnq 5 10) (rnq 8 100)),
  (.winBlackmanHarris, cosSum3 (rnq 35875 100000) (rnq 48829 100000) (rnq 14128 100000) (rnq 1168 100000)),
  (.winBlackmanNuttall,
    cosSum3 (rnq 3635819 10000000) (rnq 4891775 10000000) (rnq 1365995 10000000) (rnq 106411 10000000)),
  (.winFlattop,
    cosSum4 (rnq 21557895 100000000) (rnq 41663158 100000000) (rnq 277263158 1000000000)
      (rnq 83578947 1000000000) (rnq 6947368 1000000000)),
  (.winWelch, fun p q => rnq ((q : Int) * q - (2 * (p : Int) - q) * (2 * (p : Int) - q)) (q * q))]

/-- The envelope of a Kaiser window of shape alpha at p/q (R177). -/
def kaiserEnvelope (terms : Nat) (alpha : B64) (p q : Nat) : B64 :=
  let u := rnq (2 * (p : Int) - q) q
  let r := sqrt64 (fsub ONE (fmul u u))
  fdiv (besselSeries terms (fmul (fmul PI64 alpha) r)) (besselSeries terms (fmul PI64 alpha))

/-- The value of a window at position i of L (R171). -/
def valueAt (env : Nat → Nat → B64) (L i : Nat) : B64 := if L % 2 = 0 then env i (L - 1) else env (2 * i + 1) (2 * L)

end Sys2Proof.Machine
end

