-- ==== Sys2Proof/Certificates/Slice0/Obligations.lean ====
section
/-! DEFINITION. The statements for the provers. Each docstring names the rules of spec/ it formalises; a clause that rests on
a choice of the model names the log entry. -/

open Sys2Proof Sys2Proof.Machine

/-! ## Encoding -/

/-- Decode and encode agree (R80 to R84): a word selects a command exactly when it is that command's word. -/
def Obligations.DecodeIffEncode : Prop := ∀ (v : Word) (i : Instr), decode v = .ok i ↔ v = encode i

/-- R83: at most one row of the opcode map accepts any word. -/
def Obligations.AtMostOneRowAccepts : Prop :=
  opcodeRows.Pairwise (fun r r' => ∀ v : Word, ¬(r.accepts v = true ∧ r'.accepts v = true))

/-- R86 and the encoding lines of R97, R120, R121, R203 and R232: words written out from the spec, and what they select. -/
def Obligations.WorkedEncodings : Prop :=
  (decode 0x0000000000000102#64).toOption = some (.fftCplx .inv) ∧
  (decode 0x0000000000001032#64).toOption = some (.olaApply 1) ∧
  (decode 0x0000000000001002#64).toOption = none ∧
  (decode 0x0000000000000000#64).toOption = some .nop ∧
  (decode 0x0000000000000001#64).toOption = some .fftCfg ∧
  (decode 0x0000000000001030#64).toOption = some (.olaCfg 1) ∧
  (decode 0x000000000000003A#64).toOption = some .pipeFilter ∧
  (decode 0x000000000000013A#64).toOption = none ∧
  (decode 0x0000000000000005#64).toOption = none ∧
  (decode 0x0000000000000200#64).toOption = none ∧
  (decode 0x0000000000010000#64).toOption = none

/-! ## Reset -/

/-- R47: every piece of state after a power-on reset of an instance with parameters p. The model's own fields (log entry 5)
are not stated here. -/
def Obligations.ResetState : Prop :=
  State.reset = State.initial Config.reference ∧
  ∀ p : Config.Params,
    (State.initial p).params = p ∧ (State.initial p).ie = false ∧ statusWord (State.initial p).status = 0#64 ∧
    (State.initial p).cmd = 0#64 ∧ (State.initial p).result = 0#64 ∧
    (∀ i : Fin 8, (State.initial p).args.get i = 0#64) ∧ (State.initial p).twSize = 0 ∧ (State.initial p).fftN = 0 ∧
    (State.initial p).pipeMode = .off ∧ (State.initial p).pipeBuf = 0 ∧
    (∀ c, (chan (State.initial p) c).cfg = false ∧ (chan (State.initial p) c).filt = false ∧
      (chan (State.initial p) c).seg = 0 ∧ (chan (State.initial p) c).fft = 0 ∧ (chan (State.initial p) c).buf = 0 ∧
      (chan (State.initial p) c).spectrum = [] ∧ (chan (State.initial p) c).tail = []) ∧
    irq (State.initial p) = false ∧ (∀ w, readWord (State.initial p).dmem w = none)

/-- The state after a power-on reset of a legal instance meets the invariant (R37, R47); the reference instance is legal
(R6; its BASE is the model's choice, log entry 1). -/
def Obligations.ResetMeetsInvariant : Prop :=
  (∀ p : Config.Params, p.legal = true → (State.initial p).Inv) ∧ State.reset.Inv

/-- R291 and R290: the reset input, at any time at which the model lets it arrive, gives every piece of state its power-on
value and makes every DMEM word never written. That the held accesses and the host's further events stay is the model's
choice (log entry 6). -/
def Obligations.ResetInput : Prop :=
  ∀ (s : State) (rest : List HostEvent), s.hostIn = .resetInput :: rest →
    (s.status.busy = false → s.held = [] →
      step s = .next { State.initial s.params with held := s.held, hostIn := rest, latency := s.latency }) ∧
    (s.status.busy = true → s.timeLeft ≠ 0 →
      step s = .next { State.initial s.params with held := s.held, hostIn := rest, latency := s.latency })

/-! ## Every step -/

/-- R37, R31, R32, R33, R34, R40, R61: every step keeps the invariant; and no step changes a parameter (R7). -/
def Obligations.StepKeepsInvariant : Prop :=
  ∀ s t : State, step s = .next t → t.params = s.params ∧ (s.Inv → t.Inv)

/-- R31: no command decreases TWSIZE, and a step that decreases it leaves it 0 (a reset). -/
def Obligations.TwiddleStoreNeverShrinks : Prop :=
  (∀ (i : Instr) (s t : State), exec i s = .next t → s.twSize ≤ t.twSize) ∧
  (∀ s t : State, step s = .next t → s.twSize ≤ t.twSize ∨ t.twSize = 0)

/-- R95, R83: a CMD write whose word decodes to a well-formed command runs that command in this step. The three ways the write
comes to be next: as the host's next event, as the first access the bus holds, and as the model's own word placed for the
next step (log entries 4, 5). -/
def Obligations.StepRunsDecodedCommand : Prop :=
  ∀ (s : State) (v : Word) (i : Instr), decode v = .ok i → i.wellFormed s.params = true →
    (∀ rest, s.status.busy = false → s.held = [] → s.latency.headD 0 = 0 →
      s.hostIn = .access (.write (s.params.base + 0x020) 8 v) :: rest →
      step s = exec i (latched v { s with hostIn := rest })) ∧
    (∀ rest, s.status.busy = false → s.latency.headD 0 = 0 →
      s.held = .write (s.params.base + 0x020) 8 v :: rest →
      step s = exec i (latched v { s with held := rest })) ∧
    (∀ nbits w, v = tableWord nbits w →
      step (s.withFetchWord nbits w) = exec i { latched v s with timeLeft := 0, latency := s.latency })

/-- R251: a CMD write of a word that decodes to no command of this instance ends with code 3 and LASTOP = bits 7:0 of the word;
CMD apart (R95), it changes nothing but STATUS. The three ways such a word comes to be the running command: the host's next
event, the first access the bus holds, and a command already busy when the last event of its time has arrived (log entry 5). -/
def Obligations.IllegalWordIsReported : Prop :=
  ∀ (s : State) (v : Word), (∀ i, decode v = .ok i → i.wellFormed s.params = false) →
    (∀ rest, s.status.busy = false → s.held = [] → s.latency.headD 0 = 0 →
      s.hostIn = .access (.write (s.params.base + 0x020) 8 v) :: rest →
      step s = .next { s with
        hostIn := rest, latency := s.latency.tail, resp := .written, cmd := v
        status := ⟨false, true, .illegalCommand, v.extractLsb' 0 8⟩ }) ∧
    (∀ rest, s.status.busy = false → s.latency.headD 0 = 0 →
      s.held = .write (s.params.base + 0x020) 8 v :: rest →
      step s = .next { s with
        held := rest, latency := s.latency.tail, resp := .written, cmd := v
        status := ⟨false, true, .illegalCommand, v.extractLsb' 0 8⟩ }) ∧
    (s.status.busy = true → (s.timeLeft = 0 ∨ s.hostIn = []) → s.cmd = v →
      step s = .next { s with
        timeLeft := 0, status := ⟨false, true, .illegalCommand, v.extractLsb' 0 8⟩ })

/-- R95, R96, R98: when the model lets host events arrive while a command runs (log entry 5), its CMD write leaves BUSY = 1,
DONE = 0 and ERR and LASTOP of the last command; the command later runs to its completion, which leaves BUSY = 0, DONE = 1
and LASTOP = bits 7:0 of the word. -/
def Obligations.BusyUntilCompletion : Prop :=
  (∀ (s : State) (v : Word) (rest : List HostEvent) (d : Nat) (ds : List Nat),
    s.status.busy = false → s.held = [] → s.latency = (d + 1) :: ds →
    s.hostIn = .access (.write (s.params.base + 0x020) 8 v) :: rest →
    step s = .next { s with
      hostIn := rest, latency := ds, resp := .written, cmd := v, timeLeft := d + 1
      status := { s.status with busy := true, done := false } }) ∧
  (∀ (s : State) (i : Instr), s.status.busy = true → (s.timeLeft = 0 ∨ s.hostIn = []) →
    decode s.cmd = .ok i → i.wellFormed s.params = true → step s = exec i { s with timeLeft := 0 }) ∧
  (∀ (i : Instr) (s t : State), exec i s = .next t →
    t.status.busy = false ∧ t.status.done = true ∧ t.status.lastOp = s.cmd.extractLsb' 0 8)

/-! ## The host port -/

/-- R70: while BUSY = 1 a read of STATUS, ID or CAPS and a write of CTRL are performed at once and every other access is held
behind those held before it; while BUSY = 0 the held accesses are performed first, in their order. -/
def Obligations.HeldAccesses : Prop :=
  ∀ (s : State) (a : HostAccess),
    (∀ n rest, s.status.busy = true → s.timeLeft = n + 1 → s.hostIn = .access a :: rest →
      ((a = .read (s.params.base + 0x018) 8 ∨ a = .read s.params.base 8 ∨ a = .read (s.params.base + 0x008) 8 ∨
          ∃ v, a = .write (s.params.base + 0x010) 8 v) →
        step s = performAccess a { s with timeLeft := n, hostIn := rest }) ∧
      (¬(a = .read (s.params.base + 0x018) 8 ∨ a = .read s.params.base 8 ∨ a = .read (s.params.base + 0x008) 8 ∨
          ∃ v, a = .write (s.params.base + 0x010) 8 v) →
        step s = .next { s with timeLeft := n, hostIn := rest, held := s.held ++ [a] })) ∧
    (∀ rest, s.status.busy = false → s.held = a :: rest → step s = performAccess a { s with held := rest }) ∧
    (∀ rest, s.status.busy = false → s.held = [] → s.hostIn = .access a :: rest →
      step s = performAccess a { s with hostIn := rest })

/-- R65, R257: an access that is not 64 bits wide at an offset that is a multiple of 8 gets an error response, and no state
of CORE changes. An address outside the host window the platform decodes is answered so too: past its end this is U6, and how
far it reaches past the DMEM window is a parameter of the model; below BASE it is the model's choice, for U6 does not speak of
such an address (DEDUCED, log entry 8). -/
def Obligations.UndefinedAccess : Prop :=
  ∀ (s : State) (addr size : Nat),
    (size ≠ 8 ∨ addr < s.params.base ∨ s.params.base + s.params.hostBytes ≤ addr ∨ (addr - s.params.base) % 8 ≠ 0) →
    performAccess (.read addr size) s = .next { s with resp := .error } ∧
    ∀ v, performAccess (.write addr size v) s = .next { s with resp := .error }

/-- R23 to R35, R69: what a host read of each register returns, the state otherwise as before. -/
def Obligations.RegisterReads : Prop :=
  ∀ s : State, s.params.legal = true →
    performAccess (.read s.params.base 8) s = .next { s with resp := .data 0x0000000153554450#64 } ∧
    (∃ v, performAccess (.read (s.params.base + 0x008) 8) s = .next { s with resp := .data v } ∧
      (v.extractLsb' 0 8).toNat = s.params.nmaxLog2 ∧ (v.extractLsb' 8 8).toNat = s.params.dmemLog2 ∧
      (v.extractLsb' 16 4).toNat = s.params.nch % 16 ∧ v.extractLsb' 20 4 = 0#4 ∧
      (v.extractLsb' 24 8).toNat = s.params.besselTerms ∧ v.extractLsb' 32 32 = 0#32) ∧
    performAccess (.read (s.params.base + 0x010) 8) s =
      .next { s with resp := .data (if s.ie then 1#64 else 0#64) } ∧
    (∃ v, performAccess (.read (s.params.base + 0x018) 8) s = .next { s with resp := .data v } ∧
      v.getLsbD 0 = s.status.busy ∧ v.getLsbD 1 = s.status.done ∧ v.extractLsb' 2 6 = 0#6 ∧
      (v.extractLsb' 8 3).toNat = errBits s.status.err ∧ v.extractLsb' 11 5 = 0#5 ∧
      v.extractLsb' 16 8 = s.status.lastOp ∧ v.extractLsb' 24 40 = 0#40) ∧
    performAccess (.read (s.params.base + 0x020) 8) s = .next { s with resp := .data s.cmd } ∧
    performAccess (.read (s.params.base + 0x028) 8) s = .next { s with resp := .data s.result } ∧
    performAccess (.read (s.params.base + 0x030) 8) s = .next { s with resp := .data (BitVec.ofNat 64 s.twSize) } ∧
    performAccess (.read (s.params.base + 0x038) 8) s = .next { s with resp := .data (BitVec.ofNat 64 s.fftN) } ∧
    performAccess (.read (s.params.base + 0x040) 8) s =
      .next { s with resp := .data (if s.pipeMode = .off then 0#64 else if s.pipeMode = .mono then 1#64 else 2#64) } ∧
    performAccess (.read (s.params.base + 0x048) 8) s = .next { s with resp := .data (BitVec.ofNat 64 s.pipeBuf) } ∧
    (∀ i : Fin 8, performAccess (.read (s.params.base + (0x080 + 8 * i.val)) 8) s =
      .next { s with resp := .data (s.args.get i) }) ∧
    (∀ c, c < s.params.nch →
      performAccess (.read (s.params.base + (0x100 + 0x20 * c)) 8) s =
        .next { s with resp := .data (BitVec.ofNat 64 (chan s c).seg) } ∧
      performAccess (.read (s.params.base + (0x108 + 0x20 * c)) 8) s =
        .next { s with resp := .data (BitVec.ofNat 64 (chan s c).fft) } ∧
      performAccess (.read (s.params.base + (0x110 + 0x20 * c)) 8) s =
        .next { s with resp := .data (BitVec.ofNat 64 (chan s c).buf) } ∧
      ∃ v, performAccess (.read (s.params.base + (0x118 + 0x20 * c)) 8) s = .next { s with resp := .data v } ∧
        v.getLsbD 0 = (chan s c).cfg ∧ v.getLsbD 1 = (chan s c).filt ∧ v.extractLsb' 2 62 = 0#62)

/-- R22: an offset below 0x10_0000 that no register occupies, a channel register of a channel c ≥ NCH included, reads 0 and
ignores writes. -/
def Obligations.UnmappedOffsets : Prop :=
  ∀ (s : State) (off : Nat), s.params.legal = true → off < 0x100000 → off % 8 = 0 →
    (0x050 ≤ off ∧ off < 0x080 ∨ 0x0C0 ≤ off ∧ off < 0x100 ∨ 0x100 + 0x20 * s.params.nch ≤ off) →
    performAccess (.read (s.params.base + off) 8) s = .next { s with resp := .data 0#64 } ∧
    ∀ v, performAccess (.write (s.params.base + off) 8 v) s = .next { s with resp := .written }

/-- R22 to R24, R26 to R30, R35, R69: a host write stores an ARG register, sets CTRL.IE where bit 1 is 0, clears DONE where bit 1
is 1, and is ignored by every read-only register. A write of CMD starts a command (`StepRunsDecodedCommand`,
`IllegalWordIsReported`, `BusyUntilCompletion`) and a CTRL write with bit 1 = 1 is the soft reset (`SoftResetIdle`,
`SoftResetAborts`): neither is stated here. -/
def Obligations.RegisterWrites : Prop :=
  ∀ (s : State) (v : Word), s.params.legal = true →
    (∀ i : Fin 8, ∃ t, performAccess (.write (s.params.base + (0x080 + 8 * i.val)) 8 v) s = .next t ∧
      t.args.get i = v ∧ (∀ j, j ≠ i → t.args.get j = s.args.get j) ∧
      t = { s with resp := .written, args := t.args }) ∧
    (v.getLsbD 1 = false →
      performAccess (.write (s.params.base + 0x010) 8 v) s =
        .next { s with resp := .written, ie := v.getLsbD 0 }) ∧
    (v.getLsbD 1 = true →
      performAccess (.write (s.params.base + 0x018) 8 v) s =
        .next { s with resp := .written, status := { s.status with done := false } }) ∧
    (v.getLsbD 1 = false →
      performAccess (.write (s.params.base + 0x018) 8 v) s = .next { s with resp := .written }) ∧
    (∀ off, off % 8 = 0 → (off < 0x010 ∨ 0x028 ≤ off ∧ off < 0x080 ∨ 0x0C0 ≤ off ∧ off < 0x100000) →
      performAccess (.write (s.params.base + off) 8 v) s = .next { s with resp := .written })

/-- R62, R67: the DMEM window. A written word reads back, one never written stops the model (U1), and a write stores the word and
no other byte. At and past the end of the window an access that the platform routes to CORE reads 0 or is ignored (R62), and
one outside the host window the platform decodes is refused by a bus error (U6, U4): that both rules hold, each on its side of
a parameter of the model, is the model's choice (DEDUCED, log entry 8). -/
def Obligations.DmemWindow : Prop :=
  ∀ (s : State) (w : Nat) (v : Word),
    (w < s.params.dmemWords →
      (∀ x, readWord s.dmem w = some x →
        performAccess (.read (s.params.base + (0x100000 + 8 * w)) 8) s = .next { s with resp := .data x }) ∧
      (readWord s.dmem w = none →
        performAccess (.read (s.params.base + (0x100000 + 8 * w)) 8) s = .fault (.neverWritten w)) ∧
      ∃ m, performAccess (.write (s.params.base + (0x100000 + 8 * w)) 8 v) s =
          .next { s with resp := .written, dmem := m } ∧ stored s.dmem m w [v]) ∧
    (s.params.dmemWords ≤ w → 8 * w < 8 * s.params.dmemWords + s.params.hostExtra →
      performAccess (.read (s.params.base + (0x100000 + 8 * w)) 8) s = .next { s with resp := .data 0#64 } ∧
      performAccess (.write (s.params.base + (0x100000 + 8 * w)) 8 v) s = .next { s with resp := .written }) ∧
    (8 * s.params.dmemWords + s.params.hostExtra ≤ 8 * w →
      performAccess (.read (s.params.base + (0x100000 + 8 * w)) 8) s = .next { s with resp := .error } ∧
      performAccess (.write (s.params.base + (0x100000 + 8 * w)) 8 v) s = .next { s with resp := .error })

/-- R262: irq is DONE and IE; every completion raises it when IE = 1, and the acknowledging STATUS write drops it. -/
def Obligations.InterruptOutput : Prop :=
  (∀ (i : Instr) (s t : State), exec i s = .next t → irq t = s.ie) ∧
  (∀ (s t : State) (v : Word), v.getLsbD 1 = true →
    performAccess (.write (s.params.base + 0x018) 8 v) s = .next t → irq t = false) ∧
  (∀ s : State, irq s = (s.status.done && s.ie))

/-- R292: a CTRL write with bit 1 = 1 while BUSY = 0 gives every register, channel context and the twiddle store its power-on
value and keeps DMEM; the held accesses stay, to be performed after it. -/
def Obligations.SoftResetIdle : Prop :=
  ∀ (s : State) (v : Word), s.status.busy = false → v.getLsbD 1 = true →
    performAccess (.write (s.params.base + 0x010) 8 v) s =
      .next { State.initial s.params with
        dmem := s.dmem, held := s.held, hostIn := s.hostIn, latency := s.latency, resp := .written }

/-- R292, R293: the same write while a command runs makes every word that the command's rule may write never written, and no
other byte changes. A command whose word is illegal or that fails a check writes no word (R251, R252; DEDUCED, log entry
14). -/
def Obligations.SoftResetAborts : Prop :=
  ∀ (s : State) (v : Word), s.status.busy = true → v.getLsbD 1 = true →
    ∃ m, performAccess (.write (s.params.base + 0x010) 8 v) s =
        .next { State.initial s.params with
          dmem := m, held := s.held, hostIn := s.hostIn, latency := s.latency, resp := .written } ∧
      (∀ i, decode s.cmd = .ok i → i.wellFormed s.params = true → firstFailing (checksOf i s) = none →
        (∀ r, r ∈ outputRegions i s → ∀ k, k < r.2 → readWord m (r.1 + k) = none) ∧
        ∀ a, (∀ r, r ∈ outputRegions i s → a < 8 * r.1 ∨ 8 * (r.1 + r.2) ≤ a) → readByte m a = readByte s.dmem a) ∧
      ((∀ i, decode s.cmd = .ok i → i.wellFormed s.params = true → firstFailing (checksOf i s) ≠ none) → m = s.dmem)

/-! ## Every command -/

/-- R252, R253: a command whose checks fail ends with the code of the first failing one and changes nothing but STATUS; one
whose checks all pass completes, if at all, with code 0. -/
def Obligations.ChecksBeforeEffect : Prop :=
  ∀ (i : Instr) (s : State),
    (∀ code, firstFailing (checksOf i s) = some code → failsWith i s code) ∧
    (firstFailing (checksOf i s) = none → ∀ t, exec i s = .next t → t.status.err = .none)

/-- R254: when each command of the FFT engine fails, and with which code. -/
def Obligations.FftErrors : Prop :=
  ∀ (s : State) (d : Direction),
    ((¬∃ k, 2 ≤ k ∧ k ≤ s.params.nmaxLog2 ∧ argU s 0 = 2 ^ k) → failsWith .fftCfg s .invalidConfiguration) ∧
    (s.fftN = 0 →
      failsWith (.fftCplx d) s .invalidConfiguration ∧ failsWith (.fftCplxSplit d) s .invalidConfiguration ∧
      failsWith (.fftReal d) s .invalidConfiguration) ∧
    (s.fftN ≠ 0 →
      (argU s 1 ≠ 2 * s.fftN ∨ s.params.dmemWords < argU s 0 + argU s 1 →
        failsWith (.fftCplx d) s .invalidArgument) ∧
      (argU s 2 ≠ s.fftN ∨ argU s 3 ≠ s.fftN ∨ s.params.dmemWords < argU s 0 + argU s 2 ∨
          s.params.dmemWords < argU s 1 + argU s 3 →
        failsWith (.fftCplxSplit d) s .invalidArgument) ∧
      (argU s 1 ≠ s.fftN ∨ s.params.dmemWords < argU s 0 + argU s 1 → failsWith (.fftReal d) s .invalidArgument))

/-- R254, R147, R148: when each scalar, window and impulse-response command fails; every such failure is InvalidArgument. -/
def Obligations.GeneratorErrors : Prop :=
  ∀ s : State,
    (fpos (argF s 0) = false ∨ fpos (argF s 1) = false ∨
        isFin (fdiv C31 (fdiv (argF s 1) (argF s 0))) = false ∨
        flt (fdiv C31 (fdiv (argF s 1) (argF s 0))) (fofNat (2 ^ 63)) = false →
      failsWith .getFilterSize s .invalidArgument) ∧
    (fpos (argF s 0) = false ∨ argU s 1 = 0 → failsWith .getDelta s .invalidArgument) ∧
    (s.params.dmemWords < argU s 0 + argU s 1 →
      (∀ w, w ∈ windowTable → failsWith w.1 s .invalidArgument) ∧ failsWith .winKaiser s .invalidArgument ∧
      failsWith .irLowpass s .invalidArgument ∧ failsWith .irHighpass s .invalidArgument ∧
      failsWith .irBandpass s .invalidArgument ∧ failsWith .irBandelim s .invalidArgument ∧
      failsWith .irComb s .invalidArgument ∧ failsWith .irResonator s .invalidArgument) ∧
    (fpos (argF s 2) = false ∨ fpos (argF s 3) = false →
      failsWith .irLowpass s .invalidArgument ∧ failsWith .irHighpass s .invalidArgument ∧
      failsWith .irBandpass s .invalidArgument ∧ failsWith .irBandelim s .invalidArgument) ∧
    (fpos (argF s 4) = false ∨ flt (fsub (argF s 3) (fmul (argF s 4) HALF)) plusZero = true →
      failsWith .irBandpass s .invalidArgument ∧ failsWith .irBandelim s .invalidArgument) ∧
    (isFin (argF s 2) = false ∨ flt (argF s 2) s.params.combDelayMin = true → failsWith .irComb s .invalidArgument) ∧
    (fpos (argF s 2) = false ∨ argU s 5 = 0 ∨ s.params.dmemWords < argU s 4 + argU s 5 ∨
        (1 ≤ argU s 1 ∧ argU s 0 < argU s 4 + argU s 5 ∧ argU s 4 < argU s 0 + argU s 1) →
      failsWith .irResonator s .invalidArgument)

/-- R254: when each overlap-add and pipeline command fails, and with which code. The failures of one command exclude each other
by their order: a later one is stated where the earlier checks pass. -/
def Obligations.FilterErrors : Prop :=
  ∀ (s : State) (c : Channel),
    (s.params.nch ≤ c.val →
      failsWith (.olaCfg c) s .illegalCommand ∧ failsWith (.olaSetfilter c) s .illegalCommand ∧
      failsWith (.olaApply c) s .illegalCommand) ∧
    (c.val < s.params.nch →
      ((¬∃ k, 2 ≤ k ∧ k ≤ s.params.nmaxLog2 ∧ argU s 1 = 2 ^ k) ∨ argU s 0 = 0 ∨ argU s 1 ≤ argU s 0 ∨ argU s 2 = 0 ∨
          s.params.dmemWords < argU s 2 ∨ argU s 2 % argU s 0 ≠ 0 →
        failsWith (.olaCfg c) s .invalidConfiguration) ∧
      ((chan s c.val).cfg = false →
        failsWith (.olaSetfilter c) s .invalidConfiguration ∧ failsWith (.olaApply c) s .invalidConfiguration) ∧
      ((chan s c.val).filt = false → failsWith (.olaApply c) s .invalidConfiguration) ∧
      ((chan s c.val).cfg = true → s.params.dmemWords < argU s 0 + argU s 1 →
        failsWith (.olaSetfilter c) s .invalidArgument) ∧
      ((chan s c.val).cfg = true → (chan s c.val).filt = true →
        (argU s 1 ≠ (chan s c.val).buf ∨ s.params.dmemWords < argU s 0 + argU s 1) →
        failsWith (.olaApply c) s .invalidArgument)) ∧
    (2 ≤ argU s 0 ∨ argU s 3 % 2 = 1 ∨ (¬∃ k, 2 ≤ k ∧ k ≤ s.params.nmaxLog2 ∧ argU s 2 = 2 ^ k) ∨ argU s 1 = 0 ∨
        argU s 2 ≤ argU s 1 ∨ argU s 3 = 0 ∨
        (argU s 0 = 0 ∧ (s.params.dmemWords < argU s 3 ∨ argU s 3 % argU s 1 ≠ 0)) ∨
        (argU s 0 = 1 ∧ (s.params.dmemWords < argU s 3 / 2 ∨ argU s 3 / 2 % argU s 1 ≠ 0)) →
      failsWith .pipeCfg s .invalidConfiguration) ∧
    (s.pipeMode = .off →
      failsWith .pipeSetfilter s .invalidConfiguration ∧ failsWith .pipeFilter s .invalidConfiguration) ∧
    (s.pipeMode ≠ .off → s.params.dmemWords < argU s 0 + argU s 1 → failsWith .pipeSetfilter s .invalidArgument) ∧
    ((chan s 0).filt = false ∨ (s.pipeMode = .stereo ∧ (chan s 1).filt = false) →
      failsWith .pipeFilter s .invalidConfiguration) ∧
    (s.pipeMode ≠ .off → (chan s 0).filt = true → (s.pipeMode = .stereo → (chan s 1).filt = true) →
      (argU s 1 ≠ s.pipeBuf ∨ s.params.dmemWords < argU s 0 + argU s 1) → failsWith .pipeFilter s .invalidArgument)

/-- R99, R30, R149, R61: what no command changes. CTRL, CMD and the ARG registers; RESULT, but for the four scalar commands; FFTN,
but for FFT_CFG; the pipeline registers, but for OLA_CFG and PIPE_CFG; the channels, but for the overlap-add and pipeline
commands; and every byte of DMEM outside the regions the command may write. -/
def Obligations.CommandFrame : Prop :=
  ∀ (i : Instr) (s t : State), s.Inv → exec i s = .next t →
    t.params = s.params ∧ t.ie = s.ie ∧ t.cmd = s.cmd ∧ t.args = s.args ∧ t.timeLeft = s.timeLeft ∧ t.held = s.held ∧
    t.hostIn = s.hostIn ∧ t.latency = s.latency ∧ t.resp = s.resp ∧
    (i ∉ [Instr.sinc, .bessel0, .getFilterSize, .getDelta] → t.result = s.result) ∧
    (i ≠ .fftCfg → t.fftN = s.fftN) ∧
    (i ≠ .pipeCfg → (∀ c, i ≠ .olaCfg c) → t.pipeMode = s.pipeMode ∧ t.pipeBuf = s.pipeBuf) ∧
    (i.channel? = none → i ∉ [Instr.pipeCfg, .pipeSetfilter, .pipeFilter] → t.chans = s.chans) ∧
    ∀ a, (∀ r, r ∈ outputRegions i s → a < 8 * r.1 ∨ 8 * (r.1 + r.2) ≤ a) → readByte t.dmem a = readByte s.dmem a

/-- R98, R67: in a legal state in which every DMEM word the command reads has been written every command completes; and a command
stops the model only at a DMEM word that it reads and that was never written (U1). No command is refused. -/
def Obligations.EveryCommandCompletes : Prop :=
  (∀ (i : Instr) (s : State), s.Inv → (∀ r, r ∈ inputRegions i s → written s.dmem r.1 r.2) → ∃ t, exec i s = .next t) ∧
  (∀ (i : Instr) (s : State) (f : Fault), s.Inv → exec i s = .fault f →
    ∃ w r, f = .neverWritten w ∧ r ∈ inputRegions i s ∧ r.1 ≤ w ∧ w < r.1 + r.2 ∧ w < s.params.dmemWords ∧
      readWord s.dmem w = none) ∧
  (∀ (i : Instr) (s : State) (r : Refusal), exec i s ≠ .refused r)

/-! ## The commands: control and FFT -/

/-- R97, R96: NOP sets STATUS and nothing else. -/
def Obligations.NopResult : Prop :=
  ∀ s : State, exec .nop s = .next { s with status := ⟨false, true, .none, s.cmd.extractLsb' 0 8⟩ }

/-- R120: FFT_CFG sets FFTN to a legal transform size, and TWSIZE stays. -/
def Obligations.FftCfgResult : Prop :=
  ∀ (s : State) (k : Nat), 2 ≤ k → k ≤ s.params.nmaxLog2 → argU s 0 = 2 ^ k →
    exec .fftCfg s = .next { s with fftN := argU s 0, status := completionFlags s.cmd .none }

/-- R121: FFT_CPLX replaces the interleaved buffer by its transform and grows the twiddle store. -/
def Obligations.FftCplxResult : Prop :=
  ∀ (s : State) (d : Direction), s.fftN ≠ 0 → argU s 1 = 2 * s.fftN → argU s 0 + argU s 1 ≤ s.params.dmemWords →
    written s.dmem (argU s 0) (argU s 1) →
    ∃ m, exec (.fftCplx d) s =
        .next { s with dmem := m, twSize := max s.twSize s.fftN, status := completionFlags s.cmd .none } ∧
      unchangedOutside s.dmem m (argU s 0) (argU s 1) ∧
      ∀ k, k < s.fftN →
        readWord m (argU s 0 + 2 * k) =
          some (cget (complexTransform d s.fftN (deinterleave (wordsAt s.dmem (argU s 0) (argU s 1)))) k).re ∧
        readWord m (argU s 0 + 2 * k + 1) =
          some (cget (complexTransform d s.fftN (deinterleave (wordsAt s.dmem (argU s 0) (argU s 1)))) k).im

/-- R122: FFT_CPLX_SPLIT reads both regions before it writes either; the real parts go to the first, the imaginary parts to the
second, which wins where they overlap. -/
def Obligations.FftCplxSplitResult : Prop :=
  ∀ (s : State) (d : Direction) (z : List Cplx), s.fftN ≠ 0 → argU s 2 = s.fftN → argU s 3 = s.fftN →
    argU s 0 + argU s 2 ≤ s.params.dmemWords → argU s 1 + argU s 3 ≤ s.params.dmemWords →
    written s.dmem (argU s 0) (argU s 2) → written s.dmem (argU s 1) (argU s 3) →
    z = complexTransform d s.fftN ((List.range s.fftN).map (fun i =>
      ⟨(readWord s.dmem (argU s 0 + i)).getD 0#64, (readWord s.dmem (argU s 1 + i)).getD 0#64⟩)) →
    ∃ m, exec (.fftCplxSplit d) s =
        .next { s with dmem := m, twSize := max s.twSize s.fftN, status := completionFlags s.cmd .none } ∧
      (∀ k, k < s.fftN → readWord m (argU s 1 + k) = some (cget z k).im) ∧
      (∀ k, k < s.fftN → (argU s 0 + k < argU s 1 ∨ argU s 1 + s.fftN ≤ argU s 0 + k) →
        readWord m (argU s 0 + k) = some (cget z k).re) ∧
      ∀ a, (a < 8 * argU s 0 ∨ 8 * (argU s 0 + s.fftN) ≤ a) → (a < 8 * argU s 1 ∨ 8 * (argU s 1 + s.fftN) ≤ a) →
        readByte m a = readByte s.dmem a

/-- R123: FFT_REAL replaces the N words of its region by the packed spectrum of R113, or by the samples of R114. With n = N/2
and z the half-size transform, R113 is word 0, word 1, and words n and n + 1 from z[0] and z[n/2], and from z[j] and z[n-j] the
words 2j, 2j + 1, 2(n-j) and 2(n-j) + 1; R114 builds z from the words the same way and scales its inverse transform by
RNq(2/N). -/
def Obligations.FftRealResult : Prop :=
  (∀ s : State, ∀ k, 2 ≤ k → s.fftN = 2 ^ k → argU s 1 = s.fftN → argU s 0 + argU s 1 ≤ s.params.dmemWords →
    written s.dmem (argU s 0) (argU s 1) →
    (∃ m, exec (.fftReal .fwd) s =
        .next { s with dmem := m, twSize := max s.twSize s.fftN, status := completionFlags s.cmd .none } ∧
      stored s.dmem m (argU s 0) (rfftF k (wordsAt s.dmem (argU s 0) (argU s 1))) ∧
      (rfftF k (wordsAt s.dmem (argU s 0) (argU s 1))).length = argU s 1) ∧
    (∃ m, exec (.fftReal .inv) s =
        .next { s with dmem := m, twSize := max s.twSize s.fftN, status := completionFlags s.cmd .none } ∧
      stored s.dmem m (argU s 0) (rfftI k (wordsAt s.dmem (argU s 0) (argU s 1))) ∧
      (rfftI k (wordsAt s.dmem (argU s 0) (argU s 1))).length = argU s 1)) ∧
  (∀ (k n : Nat) (a : List B64) (z : List Cplx), 2 ≤ k → a.length = 2 ^ k → 2 * n = 2 ^ k →
    z = cfft .fwd (k - 1) ((List.range n).map (fun j => ⟨fget a (2 * j), fget a (2 * j + 1)⟩)) →
    fget (rfftF k a) 0 = fadd (cget z 0).re (cget z 0).im ∧
    fget (rfftF k a) 1 = fsub (cget z 0).re (cget z 0).im ∧
    fget (rfftF k a) n = (cget z (n / 2)).re ∧ fget (rfftF k a) (n + 1) = fneg (cget z (n / 2)).im ∧
    ∀ j, 1 ≤ j → j < n / 2 → ∀ Ar Ai Br Bi Er Ei P,
      Ar = (cget z j).re → Ai = (cget z j).im → Br = (cget z (n - j)).re → Bi = fneg (cget z (n - j)).im →
      Er = fmul HALF (fadd Ar Br) → Ei = fmul HALF (fadd Ai Bi) →
      P = cmul (twiddle .fwd j (2 ^ k)) ⟨fmul HALF (fsub Ai Bi), fneg (fmul HALF (fsub Ar Br))⟩ →
      fget (rfftF k a) (2 * j) = fadd Er P.re ∧ fget (rfftF k a) (2 * j + 1) = fadd Ei P.im ∧
      fget (rfftF k a) (2 * (n - j)) = fsub Er P.re ∧ fget (rfftF k a) (2 * (n - j) + 1) = fneg (fsub Ei P.im)) ∧
  (∀ (k n : Nat) (a : List B64) (z : List Cplx), 2 ≤ k → a.length = 2 ^ k → 2 * n = 2 ^ k → z.length = n →
    cget z 0 = ⟨fmul HALF (fadd (fget a 0) (fget a 1)), fmul HALF (fsub (fget a 0) (fget a 1))⟩ →
    cget z (n / 2) = ⟨fget a n, fneg (fget a (n + 1))⟩ →
    (∀ j, 1 ≤ j → j < n / 2 → ∃ Ar Ai Br Bi Er Ei Q,
      Ar = fget a (2 * j) ∧ Ai = fget a (2 * j + 1) ∧ Br = fget a (2 * (n - j)) ∧ Bi = fneg (fget a (2 * (n - j) + 1)) ∧
      Er = fmul HALF (fadd Ar Br) ∧ Ei = fmul HALF (fadd Ai Bi) ∧
      Q = cmul (twiddle .inv j (2 ^ k)) ⟨fsub Ar Br, fsub Ai Bi⟩ ∧
      cget z j = ⟨fsub Er (fmul HALF Q.im), fadd Ei (fmul HALF Q.re)⟩ ∧
      cget z (n - j) = ⟨fadd Er (fmul HALF Q.im), fneg (fsub Ei (fmul HALF Q.re))⟩) →
    ∀ j, j < n →
      fget (rfftI k a) (2 * j) = fmul (cget (cfft .inv (k - 1) z) j).re (rnq 2 (2 ^ k)) ∧
      fget (rfftI k a) (2 * j + 1) = fmul (cget (cfft .inv (k - 1) z) j).im (rnq 2 (2 ^ k)))

/-- R103: the bit-reversal unit moves element rev_m(i) to place i, and rev_m reads the m bits of i in reverse order. -/
def Obligations.BitReversal : Prop :=
  (∀ (m : Nat) (z : List Cplx), z.length = 2 ^ m → ∀ i, i < 2 ^ m → cget (bitrev m z) i = cget z (revBits m i)) ∧
  (∀ m i, i < 2 ^ m → revBits m i < 2 ^ m ∧ ∀ b, b < m → (revBits m i).testBit b = i.testBit (m - 1 - b)) ∧
  (List.range 8).map (revBits 3) = [0, 4, 2, 6, 1, 5, 3, 7]

/-- R107 to R109, R112: the complex transform. A radix-4 stage of quarter span h applies the butterfly to each block of 4h points, at
each j below h; CFFT is the bit reversal, the stages h = 1, 4, 16, ... and, where the number of points is an odd power of two,
the radix-2 butterflies of the whole span; and an inverse transform of N points multiplies both parts of every point by
RNq(2/(2N)), which is 1/N exactly. -/
def Obligations.ComplexTransformStages : Prop :=
  (∀ (d : Direction) (h blocks : Nat) (z : List Cplx), z.length = 4 * h * blocks → ∀ b, b < blocks → ∀ j, j < h →
    ∀ i0 A B C D J, i0 = 4 * h * b + j →
      A = cget z i0 → B = cmul (twiddle d j (4 * h)) (cget z (i0 + 2 * h)) →
      C = cmul (twiddle d (2 * j) (4 * h)) (cget z (i0 + h)) →
      D = cmul (twiddle d (3 * j) (4 * h)) (cget z (i0 + 3 * h)) → J = rotq d (csub B D) →
      cget (radix4Stage d z.length h z) i0 = cadd (cadd A C) (cadd B D) ∧
      cget (radix4Stage d z.length h z) (i0 + 2 * h) = csub (cadd A C) (cadd B D) ∧
      cget (radix4Stage d z.length h z) (i0 + h) = cadd (csub A C) J ∧
      cget (radix4Stage d z.length h z) (i0 + 3 * h) = csub (csub A C) J) ∧
  (∀ (d : Direction) (m : Nat) (z W : List Cplx), z.length = 2 ^ m →
    W = (List.range (m / 2)).foldl (fun w i => radix4Stage d (2 ^ m) (4 ^ i) w) (bitrev m z) →
    (cfft d m z).length = 2 ^ m ∧ (m % 2 = 0 → cfft d m z = W) ∧
    (m % 2 = 1 → ∀ h j, 2 * h = 2 ^ m → j < h → ∀ u v, u = cget W j → v = cmul (twiddle d j (2 * h)) (cget W (j + h)) →
      cget (cfft d m z) j = cadd u v ∧ cget (cfft d m z) (j + h) = csub u v)) ∧
  (∀ (m : Nat) (z : List Cplx), z.length = 2 ^ m →
    complexTransform .fwd (2 ^ m) z = cfft .fwd m z ∧
    ∀ j, j < 2 ^ m → cget (complexTransform .inv (2 ^ m) z) j =
      ⟨fmul (cget (cfft .inv m z) j).re (rnq 2 (2 * 2 ^ m)), fmul (cget (cfft .inv m z) j).im (rnq 2 (2 * 2 ^ m))⟩) ∧
  ∀ m : Nat, m ≤ 24 → isFin (rnq 2 (2 * 2 ^ m)) = true ∧ fval (rnq 2 (2 * 2 ^ m)) = 1 / 2 ^ m

/-- R106, R38: the twiddle store of any size T that is a multiple of the span L gives the stage's factor, so that no transform
depends on TWSIZE. -/
def Obligations.TwiddleMemo : Prop :=
  ∀ (T : Nat) (d : Direction) (k L : Nat), 0 < T → L ∣ T → k < L → storeRead T d k L = twiddle d k L

/-! ## The commands: scalars and impulse responses -/

/-- R140, R141: SINC writes sinc64(x) to RESULT and changes nothing else but STATUS; the unit is 1 at both zeros, NaN at the
infinities and at a NaN, and even. -/
def Obligations.SincResult : Prop :=
  (∀ s : State, exec .sinc s = .next { s with
    result := if isZero (argF s 0) then ONE else fdiv (sin64 (argF s 0)) (argF s 0)
    status := completionFlags s.cmd .none }) ∧
  sinc64 0x0000000000000000#64 = ONE ∧ sinc64 0x8000000000000000#64 = ONE ∧
  (∀ x, isInf x = true ∨ isNaN x = true → sinc64 x = canonicalNaN) ∧
  ∀ x, sinc64 (fneg x) = sinc64 x

/-- R142: GET_FILTER_SIZE writes the rounded ratio, moved up to even; the integer fits RESULT. -/
def Obligations.GetFilterSizeResult : Prop :=
  ∀ (s : State) (r : B64), fpos (argF s 0) = true → fpos (argF s 1) = true →
    r = fdiv C31 (fdiv (argF s 1) (argF s 0)) → isFin r = true → flt r (fofNat (2 ^ 63)) = true →
    ∃ v : Word, exec .getFilterSize s = .next { s with result := v, status := completionFlags s.cmd .none } ∧
      v.toNat = if froundEven r % 2 = 1 then froundEven r + 1 else froundEven r

/-- R143: GET_DELTA writes (C31 / n) · fs for the delayer moved down to odd. -/
def Obligations.GetDeltaResult : Prop :=
  ∀ (s : State), fpos (argF s 0) = true → 1 ≤ argU s 1 →
    exec .getDelta s = .next { s with
      result := fmul (fdiv C31 (fofNat (if argU s 1 % 2 = 1 then argU s 1 else argU s 1 - 1))) (argF s 0)
      status := completionFlags s.cmd .none }

/-- R145, R146, R150, R151: the taps of IR_LOWPASS and IR_HIGHPASS. -/
def Obligations.LowpassHighpassTaps : Prop :=
  ∀ (s : State) (nu : B64) (pos : Nat → B64), fpos (argF s 2) = true → fpos (argF s 3) = true →
    argU s 0 + argU s 1 ≤ s.params.dmemWords → nu = fdiv (argF s 3) (argF s 2) →
    (∀ i, pos i = fsub (fofNat i) (rnq ((argU s 1 : Int) - 1) 2)) →
    (∃ m, exec .irLowpass s = .next { s with dmem := m, status := completionFlags s.cmd .none } ∧
      stored s.dmem m (argU s 0) ((List.range (argU s 1)).map (fun i =>
        fmul (fmul TWO nu) (sinc64 (fmul (fmul TWO_PI nu) (pos i)))))) ∧
    (∃ m, exec .irHighpass s = .next { s with dmem := m, status := completionFlags s.cmd .none } ∧
      stored s.dmem m (argU s 0) ((List.range (argU s 1)).map (fun i =>
        fsub (sinc64 (fmul PI64 (pos i))) (fmul (fmul TWO nu) (sinc64 (fmul (fmul TWO_PI nu) (pos i)))))))

/-- R145, R146, R148, R152, R153: the taps of IR_BANDPASS and IR_BANDELIM. -/
def Obligations.BandTaps : Prop :=
  ∀ (s : State) (fL fH nuL nuH : B64) (pos : Nat → B64) (lp : B64 → Nat → B64),
    fpos (argF s 2) = true → fpos (argF s 3) = true → fpos (argF s 4) = true →
    fL = fsub (argF s 3) (fmul (argF s 4) HALF) → fH = fadd (argF s 3) (fmul (argF s 4) HALF) →
    flt fL plusZero = false → argU s 0 + argU s 1 ≤ s.params.dmemWords →
    nuL = fdiv fL (argF s 2) → nuH = fdiv fH (argF s 2) →
    (∀ i, pos i = fsub (fofNat i) (rnq ((argU s 1 : Int) - 1) 2)) →
    (∀ nu i, lp nu i = fmul (fmul TWO nu) (sinc64 (fmul (fmul TWO_PI nu) (pos i)))) →
    (∃ m, exec .irBandpass s = .next { s with dmem := m, status := completionFlags s.cmd .none } ∧
      stored s.dmem m (argU s 0) ((List.range (argU s 1)).map (fun i => fsub (lp nuH i) (lp nuL i)))) ∧
    (∃ m, exec .irBandelim s = .next { s with dmem := m, status := completionFlags s.cmd .none } ∧
      stored s.dmem m (argU s 0) ((List.range (argU s 1)).map (fun i =>
        fadd (fsub (sinc64 (fmul PI64 (pos i))) (lp nuH i)) (lp nuL i))))

/-- R155, R98: IR_COMB runs the echo loop until the first echo past the end, stores what it leaves, and the loop stops: after
at most ceil(S/Delay) echoes wherever that quotient is below 2^53. -/
def Obligations.CombResult : Prop :=
  ∀ s : State, s.params.legal = true → isFin (argF s 2) = true → flt (argF s 2) s.params.combDelayMin = false →
    argU s 0 + argU s 1 ≤ s.params.dmemWords →
    ∃ m n, exec .irComb s = .next { s with dmem := m, status := completionFlags s.cmd .none } ∧
      (∀ k, k < n → flt (fmul (fofNat k) (argF s 2)) (fofNat (argU s 1)) = true) ∧
      flt (fmul (fofNat n) (argF s 2)) (fofNat (argU s 1)) = false ∧
      stored s.dmem m (argU s 0)
        ((combEcho (argU s 1) (argF s 2) (argF s 3))^[n] (0, ONE, List.replicate (argU s 1) plusZero)).2.2 ∧
      ((combEcho (argU s 1) (argF s 2) (argF s 3))^[n] (0, ONE, List.replicate (argU s 1) plusZero)).2.2.length =
        argU s 1 ∧
      (argU s 1 * 2 ^ 1074 < funits (argF s 2) * 2 ^ 53 → n ≤ ⌈((argU s 1 : ℚ) / fval (argF s 2))⌉₊)

/-- R156: the taps of IR_RESONATOR, the frequencies summed in order; a zero strength leaves a unit impulse. -/
def Obligations.ResonatorResult : Prop :=
  ∀ s : State, fpos (argF s 2) = true → 1 ≤ argU s 5 → argU s 0 + argU s 1 ≤ s.params.dmemWords →
    argU s 4 + argU s 5 ≤ s.params.dmemWords →
    (argU s 1 = 0 ∨ argU s 0 + argU s 1 ≤ argU s 4 ∨ argU s 4 + argU s 5 ≤ argU s 0) →
    (isZero (argF s 3) = true →
      ∃ m, exec .irResonator s = .next { s with dmem := m, status := completionFlags s.cmd .none } ∧
        stored s.dmem m (argU s 0) ((List.range (argU s 1)).map (fun i => if i = 0 then ONE else plusZero))) ∧
    (isZero (argF s 3) = false → written s.dmem (argU s 4) (argU s 5) →
      ∃ m, exec .irResonator s = .next { s with dmem := m, status := completionFlags s.cmd .none } ∧
        stored s.dmem m (argU s 0) ((List.range (argU s 1)).map (fun i =>
          (wordsAt s.dmem (argU s 4) (argU s 5)).foldl (fun acc f =>
            fadd acc (fmul
              (exp64 (fneg (fdiv (fmul (fofNat i) (fofNat i)) (fmul (argF s 3) (argF s 3)))))
              (cos64 (fmul (fmul TWO_PI (fdiv f (argF s 2))) (fofNat i))))) plusZero)))

/-! ## The commands: windows -/

/-- R176, R175: BESSEL0 writes the last partial sum of the power series. With BESSEL_TERMS = 1 that is 1 at a NaN and at an
infinity too, where the last sentence of R175 and the corner cases of R176 say otherwise: the pseudocode is followed there,
the model's choice (DEDUCED, log entry 13). -/
def Obligations.Bessel0Result : Prop :=
  ∀ (s : State) (t sum : Nat → B64),
    t 0 = ONE → sum 0 = ONE →
    (∀ i, t (i + 1) = fdiv (fmul (t i) (fmul (argF s 0) HALF)) (fofNat (i + 1))) →
    (∀ i, sum (i + 1) = fadd (sum i) (fmul (t (i + 1)) (t (i + 1)))) →
    exec .bessel0 s = .next { s with
      result := sum (s.params.besselTerms - 1), status := completionFlags s.cmd .none }

/-- R175: bessel0(0) = 1, bessel0 is even, and from two terms on an infinity gives +∞ and a NaN gives NaN (with one term the
pseudocode never reads x: log entry 13). -/
def Obligations.BesselProperties : Prop :=
  ∀ n, 1 ≤ n → n ≤ 255 →
    besselSeries n 0x0000000000000000#64 = ONE ∧ besselSeries n 0x8000000000000000#64 = ONE ∧
    (∀ x, besselSeries n (fneg x) = besselSeries n x) ∧
    (2 ≤ n → ∀ x, isInf x = true → besselSeries n x = 0x7FF0000000000000#64) ∧
    (2 ≤ n → ∀ x, isNaN x = true → besselSeries n x = canonicalNaN)

/-- R170 to R174, R180 to R188: each of the nine windows without a parameter (winHanning, winHamming, winBartlett, winNuttall,
winBlackman, winBlackmanHarris, winBlackmanNuttall, winFlattop, winWelch: the rows of `windowTable`) completes and multiplies
every word of its region by its envelope at the word's position. -/
def Obligations.WindowResults : Prop :=
  ∀ (w : Instr × (Nat → Nat → B64)) (s : State), w ∈ windowTable → argU s 0 + argU s 1 ≤ s.params.dmemWords →
    written s.dmem (argU s 0) (argU s 1) →
    ∃ m, exec w.1 s = .next { s with dmem := m, status := completionFlags s.cmd .none } ∧
      stored s.dmem m (argU s 0) ((wordsAt s.dmem (argU s 0) (argU s 1)).mapIdx (fun i x =>
        fmul x (valueAt w.2 (argU s 1) i)))

/-- R177, R189: WIN_KAISER tapers by the Kaiser envelope; with a zero α of either sign it stores +0 whatever the words held,
words never written included. -/
def Obligations.KaiserResult : Prop :=
  ∀ s : State, argU s 0 + argU s 1 ≤ s.params.dmemWords →
    (isZero (argF s 2) = true →
      ∃ m, exec .winKaiser s = .next { s with dmem := m, status := completionFlags s.cmd .none } ∧
        stored s.dmem m (argU s 0) (List.replicate (argU s 1) 0#64)) ∧
    (isZero (argF s 2) = false → written s.dmem (argU s 0) (argU s 1) →
      ∃ m, exec .winKaiser s = .next { s with dmem := m, status := completionFlags s.cmd .none } ∧
        stored s.dmem m (argU s 0) ((wordsAt s.dmem (argU s 0) (argU s 1)).mapIdx (fun i x =>
          fmul x (valueAt (kaiserEnvelope s.params.besselTerms (argF s 2)) (argU s 1) i))))

/-- R178: every window is symmetric bit for bit, for every length and shape. -/
def Obligations.WindowSymmetry : Prop :=
  ∀ L i, i < L →
    (∀ w, w ∈ windowTable → valueAt w.2 L i = valueAt w.2 L (L - 1 - i)) ∧
    ∀ terms alpha, valueAt (kaiserEnvelope terms alpha) L i = valueAt (kaiserEnvelope terms alpha) L (L - 1 - i)

/-! ## The commands: overlap-add and pipeline -/

/-- R203: OLA_CFG configures its channel, without filter and with a zero tail, and ends a pipeline that uses the channel. -/
def Obligations.OlaCfgResult : Prop :=
  ∀ (s : State) (c : Channel) (k : Nat), c.val < s.params.nch → 2 ≤ k → k ≤ s.params.nmaxLog2 → argU s 1 = 2 ^ k →
    1 ≤ argU s 0 → argU s 0 < argU s 1 → 1 ≤ argU s 2 → argU s 2 ≤ s.params.dmemWords → argU s 2 % argU s 0 = 0 →
    exec (.olaCfg c) s = .next { s with
      chans := s.chans.set c.val
        ⟨true, argU s 0, argU s 1, argU s 2, false, [], List.replicate (argU s 1 - argU s 0) 0#64⟩
      pipeMode := if c.val = 0 ∨ (c.val = 1 ∧ s.pipeMode = .stereo) then .off else s.pipeMode
      pipeBuf := if c.val = 0 ∨ (c.val = 1 ∧ s.pipeMode = .stereo) then 0 else s.pipeBuf
      status := completionFlags s.cmd .none }

/-- R204: OLA_SETFILTER stores the packed spectrum of the response, padded or cut to F words, zeroes the tail and grows the twiddle
store; only the words it uses need to have been written. -/
def Obligations.OlaSetfilterResult : Prop :=
  ∀ (s : State) (c : Channel) (ch : ChanCtx), c.val < s.params.nch → ch = chan s c.val → ch.cfg = true →
    argU s 0 + argU s 1 ≤ s.params.dmemWords → written s.dmem (argU s 0) (min (argU s 1) ch.fft) →
    exec (.olaSetfilter c) s = .next { s with
      chans := s.chans.set c.val { ch with
        filt := true
        spectrum := rfftF (Nat.log2 ch.fft) ((List.range ch.fft).map (fun i =>
          if i < argU s 1 then (readWord s.dmem (argU s 0 + i)).getD 0#64 else 0#64))
        tail := List.replicate (ch.fft - ch.seg) 0#64 }
      twSize := max s.twSize ch.fft
      status := completionFlags s.cmd .none }

/-- R205: OLA_APPLY replaces its buffer by the output of the per-segment loop, keeps the channel but for its tail, and grows the
twiddle store. -/
def Obligations.OlaApplyResult : Prop :=
  ∀ (s : State) (c : Channel) (ch : ChanCtx), s.Inv → c.val < s.params.nch → ch = chan s c.val → ch.cfg = true →
    ch.filt = true → argU s 1 = ch.buf → argU s 0 + argU s 1 ≤ s.params.dmemWords →
    written s.dmem (argU s 0) (argU s 1) →
    ∃ m tail, exec (.olaApply c) s = .next { s with
        dmem := m, twSize := max s.twSize ch.fft, chans := s.chans.set c.val { ch with tail := tail }
        status := completionFlags s.cmd .none } ∧
      (olaBuffer ch (wordsAt s.dmem (argU s 0) (argU s 1))).2.tail = tail ∧
      stored s.dmem m (argU s 0) (olaBuffer ch (wordsAt s.dmem (argU s 0) (argU s 1))).1 ∧
      (olaBuffer ch (wordsAt s.dmem (argU s 0) (argU s 1))).1.length = argU s 1

/-- R205, R202: the per-segment loop, segment by segment. Y is the product of the two spectra, words 0 and 1 multiplied as reals
and words 2k, 2k + 1 as the parts of a complex product; word i of segment q is word i of the inverse transform of Y plus word i
of the tail before the segment (where it has one), and the tail after the segment holds the sums from word seg on. -/
def Obligations.OlaSegmentRule : Prop :=
  ∀ (ch : ChanCtx) (n : Nat) (xs X Y T : List B64), 1 ≤ ch.seg → ch.seg < ch.fft → ch.seg * (n + 1) = xs.length →
    X = rfftF (Nat.log2 ch.fft) ((List.range ch.fft).map (fun i => if i < ch.seg then xs.getD i 0#64 else 0#64)) →
    Y.length = ch.fft → fget Y 0 = fmul (fget ch.spectrum 0) (fget X 0) → fget Y 1 = fmul (fget ch.spectrum 1) (fget X 1) →
    (∀ k, 1 ≤ k → k < ch.fft / 2 →
      fget Y (2 * k) = fsub (fmul (fget ch.spectrum (2 * k)) (fget X (2 * k)))
        (fmul (fget ch.spectrum (2 * k + 1)) (fget X (2 * k + 1))) ∧
      fget Y (2 * k + 1) = fadd (fmul (fget ch.spectrum (2 * k)) (fget X (2 * k + 1)))
        (fmul (fget ch.spectrum (2 * k + 1)) (fget X (2 * k)))) →
    T = rfftI (Nat.log2 ch.fft) Y → T.length = ch.fft →
    (∀ i, i < ch.seg → (olaRun (n + 1) ch xs).1[i]? =
      some (if i < ch.fft - ch.seg then fadd (fget T i) (fget ch.tail i) else fget T i)) ∧
    ∃ ch', ch' = { ch with tail := (List.range (ch.fft - ch.seg)).map (fun i =>
        if ch.seg + i < ch.fft - ch.seg then fadd (fget T (ch.seg + i)) (fget ch.tail (ch.seg + i))
        else fget T (ch.seg + i)) } ∧
      (olaRun (n + 1) ch xs).2 = (olaRun n ch' (xs.drop ch.seg)).2 ∧
      (olaRun (n + 1) ch xs).1.drop ch.seg = (olaRun n ch' (xs.drop ch.seg)).1

/-- R206: a command on one channel commutes with any change of another channel's context: it neither reads nor writes it. -/
def Obligations.ChannelsIndependent : Prop :=
  ∀ (i : Instr) (s : State) (c : Channel) (c' : Nat) (x : ChanCtx), i.channel? = some c → c.val ≠ c' →
    exec i (setChan s c' x) = onNext (fun t => setChan t c' x) (exec i s)

/-- R207: one OLA_APPLY over k·B words leaves the same DMEM words, the same tail and the same TWSIZE as k successive ones over B
words each on a channel that differs in its buffer size alone. -/
def Obligations.StreamingEquivalence : Prop :=
  ∀ (s : State) (c : Channel) (ch : ChanCtx) (k B : Nat), s.Inv → c.val < s.params.nch → ch = chan s c.val →
    ch.cfg = true → ch.filt = true → 1 ≤ k → ch.buf = k * B → B % ch.seg = 0 → argU s 1 = ch.buf →
    argU s 0 + argU s 1 ≤ s.params.dmemWords → written s.dmem (argU s 0) (argU s 1) →
    ∃ t u, exec (.olaApply c) s = .next t ∧
      streamed c (argU s 0) B k (setChan s c.val { ch with buf := B }) = .next u ∧
      (∀ a, readByte u.dmem a = readByte t.dmem a) ∧ (chan u c.val).tail = (chan t c.val).tail ∧ u.twSize = t.twSize

/-- R230: PIPE_CFG configures channel 0, and in stereo channel 1, and sets PIPEMODE and PIPEBUF. -/
def Obligations.PipeCfgResult : Prop :=
  ∀ (s : State) (k : Nat), argU s 3 % 2 = 0 → 2 ≤ k → k ≤ s.params.nmaxLog2 → argU s 2 = 2 ^ k → 1 ≤ argU s 1 →
    argU s 1 < argU s 2 →
    (argU s 0 = 0 → 1 ≤ argU s 3 → argU s 3 ≤ s.params.dmemWords → argU s 3 % argU s 1 = 0 →
      exec .pipeCfg s = .next { s with
        chans := s.chans.set 0
          ⟨true, argU s 1, argU s 2, argU s 3, false, [], List.replicate (argU s 2 - argU s 1) 0#64⟩
        pipeMode := .mono, pipeBuf := argU s 3, status := completionFlags s.cmd .none }) ∧
    (argU s 0 = 1 → 1 ≤ argU s 3 / 2 → argU s 3 / 2 ≤ s.params.dmemWords → argU s 3 / 2 % argU s 1 = 0 →
      exec .pipeCfg s = .next { s with
        chans := (s.chans.set 0
            ⟨true, argU s 1, argU s 2, argU s 3 / 2, false, [], List.replicate (argU s 2 - argU s 1) 0#64⟩).set 1
          ⟨true, argU s 1, argU s 2, argU s 3 / 2, false, [], List.replicate (argU s 2 - argU s 1) 0#64⟩
        pipeMode := .stereo, pipeBuf := argU s 3, status := completionFlags s.cmd .none })

/-- R231: PIPE_SETFILTER gives each channel of the pipeline the same spectrum and a zero tail. -/
def Obligations.PipeSetfilterResult : Prop :=
  ∀ (s : State) (H : List B64), s.Inv → s.pipeMode ≠ .off → argU s 0 + argU s 1 ≤ s.params.dmemWords →
    written s.dmem (argU s 0) (min (argU s 1) (chan s 0).fft) →
    H = rfftF (Nat.log2 (chan s 0).fft) ((List.range (chan s 0).fft).map (fun i =>
      if i < argU s 1 then (readWord s.dmem (argU s 0 + i)).getD 0#64 else 0#64)) →
    ∃ t, exec .pipeSetfilter s = .next t ∧
      t = { s with
        chans := t.chans, twSize := max s.twSize (chan s 0).fft, status := completionFlags s.cmd .none } ∧
      chan t 0 = { chan s 0 with
        filt := true, spectrum := H, tail := List.replicate ((chan s 0).fft - (chan s 0).seg) 0#64 } ∧
      (s.pipeMode = .stereo → chan t 1 = { chan s 1 with
        filt := true, spectrum := H, tail := List.replicate ((chan s 1).fft - (chan s 1).seg) 0#64 }) ∧
      (s.pipeMode = .mono → chan t 1 = chan s 1) ∧ ∀ c, 2 ≤ c → chan t c = chan s c

/-- R232: PIPE_FILTER runs channel 0 over the buffer in mono, and in stereo channel 0 over the even-indexed words and channel 1
over the odd-indexed ones. -/
def Obligations.PipeFilterResult : Prop :=
  ∀ s : State, s.Inv → s.pipeMode ≠ .off → (chan s 0).filt = true →
    (s.pipeMode = .stereo → (chan s 1).filt = true) → argU s 1 = s.pipeBuf →
    argU s 0 + argU s 1 ≤ s.params.dmemWords → written s.dmem (argU s 0) (argU s 1) →
    (s.pipeMode = .mono → ∀ r, r = olaBuffer (chan s 0) (wordsAt s.dmem (argU s 0) (argU s 1)) →
      ∃ m, exec .pipeFilter s = .next { s with
          dmem := m, twSize := max s.twSize (chan s 0).fft
          chans := s.chans.set 0 { chan s 0 with tail := r.2.tail }, status := completionFlags s.cmd .none } ∧
        stored s.dmem m (argU s 0) r.1 ∧ r.1.length = argU s 1) ∧
    (s.pipeMode = .stereo → ∀ l r,
      l = olaBuffer (chan s 0) ((List.range (argU s 1 / 2)).map (fun k =>
        (readWord s.dmem (argU s 0 + 2 * k)).getD 0#64)) →
      r = olaBuffer (chan s 1) ((List.range (argU s 1 / 2)).map (fun k =>
        (readWord s.dmem (argU s 0 + 2 * k + 1)).getD 0#64)) →
      ∃ m, exec .pipeFilter s = .next { s with
          dmem := m, twSize := max s.twSize (chan s 0).fft
          chans := (s.chans.set 0 { chan s 0 with tail := l.2.tail }).set 1 { chan s 1 with tail := r.2.tail }
          status := completionFlags s.cmd .none } ∧
        (∀ k, k < argU s 1 / 2 →
          readWord m (argU s 0 + 2 * k) = l.1[k]? ∧ readWord m (argU s 0 + 2 * k + 1) = r.1[k]?) ∧
        l.1.length = argU s 1 / 2 ∧ r.1.length = argU s 1 / 2 ∧
        unchangedOutside s.dmem m (argU s 0) (argU s 1))

/-- R232: no sample and no filter of one stereo channel reaches the other. Two legal states that agree on the left channel and on
the even-indexed words leave the same even-indexed words and the same left channel, and the same of the right. -/
def Obligations.StereoNoCoupling : Prop :=
  ∀ (s s' t t' : State), s.Inv → s'.Inv → s.params = s'.params → s.args = s'.args → s.pipeMode = .stereo →
    s'.pipeMode = .stereo → s.pipeBuf = s'.pipeBuf → (chan s 0).filt = true → (chan s' 0).filt = true →
    (chan s 1).filt = true → (chan s' 1).filt = true →
    exec .pipeFilter s = .next t → exec .pipeFilter s' = .next t' →
    (chan s 0 = chan s' 0 →
      (∀ k, 2 * k < argU s 1 → readWord s.dmem (argU s 0 + 2 * k) = readWord s'.dmem (argU s 0 + 2 * k)) →
      chan t 0 = chan t' 0 ∧
      ∀ k, 2 * k < argU s 1 → readWord t.dmem (argU s 0 + 2 * k) = readWord t'.dmem (argU s 0 + 2 * k)) ∧
    (chan s 1 = chan s' 1 →
      (∀ k, 2 * k < argU s 1 → readWord s.dmem (argU s 0 + 2 * k + 1) = readWord s'.dmem (argU s 0 + 2 * k + 1)) →
      chan t 1 = chan t' 1 ∧
      ∀ k, 2 * k < argU s 1 → readWord t.dmem (argU s 0 + 2 * k + 1) = readWord t'.dmem (argU s 0 + 2 * k + 1))

/-- R233: re-interleaving the deinterleaved halves of an even-length buffer gives it back bit for bit. -/
def Obligations.InterleaveRoundTrip : Prop :=
  ∀ xs : List B64, xs.length % 2 = 0 →
    merge (evens xs) (odds xs) = xs ∧
    ∀ k, 2 * k < xs.length → (evens xs)[k]? = xs[2 * k]? ∧ (odds xs)[k]? = xs[2 * k + 1]?

/-! ## Arithmetic -/

/-- R13: `RNq` is rounding of the exact rational to nearest, ties to even, +0 for zero, and otherwise keeps the sign. -/
def Obligations.RationalRounding : Prop :=
  ∀ (n : Int) (d : Nat), 0 < d →
    IsNearest ((n : ℝ) / d) (rnq n d) ∧ (n = 0 → rnq n d = 0x0000000000000000#64) ∧
    (n ≠ 0 → fsign (rnq n d) = decide (n < 0))

/-- R11: each of the four operations on finite operands is the exact result rounded to nearest, ties to even, with the sign IEEE 754
gives a zero; an infinity gives what IEEE 754 gives it, ∞ - ∞, ∞ · 0, ∞ / ∞ and 0 / 0 being NaNs; a NaN operand and a NaN
result give the canonical NaN (R12). -/
def Obligations.ArithmeticRounding : Prop :=
  (∀ x y, isFin x = true → isFin y = true →
    IsNearest ((fval x : ℝ) + fval y) (fadd x y) ∧ IsNearest ((fval x : ℝ) - fval y) (fsub x y) ∧
    IsNearest ((fval x : ℝ) * fval y) (fmul x y) ∧
    (isZero y = false → IsNearest ((fval x : ℝ) / fval y) (fdiv x y)) ∧
    fsign (fmul x y) = (fsign x != fsign y) ∧
    (isZero x = true → isZero y = true →
      fadd x y = (if fsign x && fsign y then 0x8000000000000000#64 else 0#64) ∧ fdiv x y = canonicalNaN) ∧
    (isZero x = false → fadd x (fneg x) = 0#64) ∧
    (isZero x = false → isZero y = true → fdiv x y = fpack (fsign x != fsign y) infMag)) ∧
  (∀ x y, isInf x = true → isInf y = true →
    fadd x y = (if fsign x = fsign y then x else canonicalNaN) ∧
    fsub x y = (if fsign x = fsign y then canonicalNaN else x) ∧
    fmul x y = fpack (fsign x != fsign y) infMag ∧ fdiv x y = canonicalNaN) ∧
  (∀ x y, isInf x = true → isFin y = true →
    fadd x y = x ∧ fadd y x = x ∧ fsub x y = x ∧ fsub y x = fneg x ∧
    fmul x y = (if isZero y then canonicalNaN else fpack (fsign x != fsign y) infMag) ∧ fmul y x = fmul x y ∧
    fdiv x y = fpack (fsign x != fsign y) infMag ∧ fdiv y x = fpack (fsign x != fsign y) 0) ∧
  (∀ x y, isNaN x = true ∨ isNaN y = true →
    fadd x y = canonicalNaN ∧ fsub x y = canonicalNaN ∧ fmul x y = canonicalNaN ∧ fdiv x y = canonicalNaN)

/-- R13: each elementary function is the exact value of the real function rounded to nearest, ties to even, at every argument
where R13 gives one, and the special values are those of R13. -/
def Obligations.ElementaryFunctions : Prop :=
  ((∀ x, isFin x = true → fsign x = false → IsNearest (Real.sqrt (fval x)) (sqrt64 x)) ∧
    sqrt64 0x8000000000000000#64 = 0x8000000000000000#64 ∧
    (∀ x, isZero x = false → fsign x = true → sqrt64 x = canonicalNaN) ∧
    sqrt64 0x7FF0000000000000#64 = 0x7FF0000000000000#64 ∧ ∀ x, isNaN x = true → sqrt64 x = canonicalNaN) ∧
  (∀ x, isFin x = true →
    IsNearest (Real.sin (fval x)) (sin64 x) ∧ IsNearest (Real.cos (fval x)) (cos64 x) ∧
    IsNearest (Real.exp (fval x)) (exp64 x)) ∧
  (∀ x, isZero x = true → sin64 x = x) ∧
  (∀ x, isInf x = true ∨ isNaN x = true → sin64 x = canonicalNaN ∧ cos64 x = canonicalNaN) ∧
  exp64 0x7FF0000000000000#64 = 0x7FF0000000000000#64 ∧ exp64 0xFFF0000000000000#64 = 0#64 ∧
  (∀ x, isNaN x = true → exp64 x = canonicalNaN) ∧
  ∀ p q : Nat, 0 < q →
    IsNearest (Real.cos (2 * Real.pi * p / q)) (cos2pi p q) ∧ IsNearest (Real.sin (2 * Real.pi * p / q)) (sin2pi p q) ∧
    (Real.cos (2 * Real.pi * p / q) = 0 → cos2pi p q = 0#64) ∧ (Real.sin (2 * Real.pi * p / q) = 0 → sin2pi p q = 0#64)
end

