-- ==== Sys2Proof/Laws/Binary64.lean ====
section
/-! SUPPORT. The rounding's logarithm is `Nat.log2`, the half-even quotient is a nearest integer, and sign changes of
patterns: what proofs about the arithmetic start from. -/

namespace Sys2Proof.Laws

open Sys2Proof.Machine

/-! ## The logarithm -/

theorem log2Below_eq (b n : Nat) (h : n < 2 ^ (2 ^ b)) : log2Below b n = Nat.log2 n := by
  induction b generalizing n with
  | zero =>
    have : n = 0 ∨ n = 1 := by omega
    rcases this with rfl | rfl <;> decide
  | succ b ih =>
    simp only [log2Below]
    split
    · next hge =>
      have h2 : (2 : Nat) ^ 2 ^ (b + 1) = 2 ^ 2 ^ b * 2 ^ 2 ^ b := by rw [← pow_add]; congr 1; ring
      have hq : n / 2 ^ 2 ^ b < 2 ^ 2 ^ b := Nat.div_lt_of_lt_mul (by rw [← h2]; exact h)
      rw [ih _ hq]
      have hn : n ≠ 0 := by have : 0 < 2 ^ 2 ^ b := Nat.pow_pos (by norm_num); omega
      have hq0 : n / 2 ^ 2 ^ b ≠ 0 := by
        have := Nat.div_pos hge (Nat.pow_pos (by norm_num)); omega
      symm
      rw [Nat.log2_eq_iff hn]
      have e1 := Nat.log2_self_le hq0
      have e2 := Nat.lt_log2_self (n := n / 2 ^ 2 ^ b)
      have e3 := Nat.div_add_mod n (2 ^ 2 ^ b)
      have e4 := Nat.mod_lt n (Nat.pow_pos (n := 2 ^ b) (show 0 < 2 by norm_num))
      constructor
      · calc 2 ^ (2 ^ b + (n / 2 ^ 2 ^ b).log2) = 2 ^ 2 ^ b * 2 ^ (n / 2 ^ 2 ^ b).log2 := pow_add _ _ _
          _ ≤ 2 ^ 2 ^ b * (n / 2 ^ 2 ^ b) := Nat.mul_le_mul_left _ e1
          _ ≤ n := Nat.mul_div_le _ _
      · have e5 : n < 2 ^ 2 ^ b * (n / 2 ^ 2 ^ b + 1) := by rw [Nat.mul_add]; omega
        have e6 : 2 ^ 2 ^ b * 2 ^ ((n / 2 ^ 2 ^ b).log2 + 1) = 2 ^ (2 ^ b + (n / 2 ^ 2 ^ b).log2 + 1) := by
          rw [← pow_add, Nat.add_assoc]
        exact lt_of_lt_of_le e5 (le_trans (Nat.mul_le_mul_left _ e2) (le_of_eq e6))
    · next hlt => exact ih n (by omega)

theorem log2Level_spec (n fuel b : Nat) (h : n < 2 ^ (2 ^ (b + fuel))) : n < 2 ^ (2 ^ log2Level n fuel b) := by
  induction fuel generalizing b with
  | zero => simpa [log2Level] using h
  | succ fuel ih =>
    simp only [log2Level]
    split
    · assumption
    · exact ih (b + 1) (by rw [show b + 1 + fuel = b + (fuel + 1) by omega]; exact h)

/-- The model's logarithm is `Nat.log2`. -/
@[simp] theorem flog2_eq (n : Nat) : flog2 n = Nat.log2 n := by
  apply log2Below_eq
  apply log2Level_spec
  have h1 : n < 2 ^ n := Nat.lt_two_pow_self
  have h2 : 2 ^ n ≤ 2 ^ 2 ^ (0 + n) := by
    rw [Nat.zero_add]; exact Nat.pow_le_pow_right (by norm_num) (Nat.le_of_lt h1)
  omega

/-! ## The half-even quotient -/

/-- `roundHalfEven n d` is at most half a unit from n/d, and even where two integers are equally near. -/
theorem roundHalfEven_spec (n d : Nat) (hd : 0 < d) :
    2 * (d * roundHalfEven n d) ≤ 2 * n + d ∧ 2 * n ≤ 2 * (d * roundHalfEven n d) + d ∧
    ((2 * (d * roundHalfEven n d) = 2 * n + d ∨ 2 * n = 2 * (d * roundHalfEven n d) + d) →
      roundHalfEven n d % 2 = 0) := by
  have h1 := Nat.div_add_mod n d
  have h2 := Nat.mod_lt n hd
  simp only [roundHalfEven]
  generalize n / d = q at *
  generalize n % d = r at *
  have h3 : d * (q + 1) = d * q + d := by ring
  split
  · refine ⟨by omega, by omega, fun h => by omega⟩
  · split
    · rw [h3]; refine ⟨by omega, by omega, fun h => by omega⟩
    · rcases Nat.mod_two_eq_zero_or_one q with hq | hq
      · rw [hq, Nat.add_zero]; exact ⟨by omega, by omega, fun _ => hq⟩
      · rw [hq, h3]; exact ⟨by omega, by omega, fun _ => by omega⟩

/-! ## Signs -/

@[simp] theorem fneg_fneg (x : B64) : fneg (fneg x) = x := by simp [fneg]

end Sys2Proof.Laws
end

