-- ==== Sys2Proof/Laws/Memory.lean ====
section
/-! SUPPORT. The laws of DMEM: what a read gives after a write, at the byte, word and region level, and that every memory
operation keeps the canonical form. -/

namespace Sys2Proof.Laws

open Sys2Proof.Machine

/-! ## Bytes -/

@[simp] theorem readByte_nil (a : Nat) : readByte [] a = none := rfl

theorem readByte_writeByte (m : Memory) (a a' : Nat) (b : Byte) :
    readByte (writeByte m a b) a' = if a = a' then some b else readByte m a' := by
  induction m with
  | nil => simp [writeByte, readByte]
  | cons c m ih =>
    obtain ⟨k, v⟩ := c
    simp only [writeByte]
    split
    · simp only [readByte]
    · split
      · next h => subst h; simp only [readByte]; split <;> rfl
      · simp only [readByte, ih]
        split
        · split
          · omega
          · rfl
        · rfl

@[simp] theorem readByte_writeByte_same (m : Memory) (a : Nat) (b : Byte) : readByte (writeByte m a b) a = some b := by
  simp [readByte_writeByte]

theorem readByte_writeByte_other (m : Memory) (b : Byte) {a a' : Nat} (h : a ≠ a') :
    readByte (writeByte m a b) a' = readByte m a' := by simp [readByte_writeByte, h]

/-- What a byte reads as after a run of bytes is stored. -/
theorem readByte_writeBytes (m : Memory) (a a' : Nat) (bs : List Byte) :
    readByte (writeBytes m a bs) a' = if a ≤ a' ∧ a' < a + bs.length then bs[a' - a]? else readByte m a' := by
  induction bs generalizing m a with
  | nil => simp [writeBytes]
  | cons b bs ih =>
    simp only [writeBytes, ih, List.length_cons, readByte_writeByte]
    by_cases h : a = a'
    · subst h; simp
    · by_cases h1 : a + 1 ≤ a' ∧ a' < a + 1 + bs.length
      · have e : a' - a = (a' - (a + 1)) + 1 := by omega
        rw [if_pos h1, if_pos (by omega), e, List.getElem?_cons_succ]
      · rw [if_neg h1, if_neg h, if_neg (by omega)]

theorem readByte_writeBytes_outside (m : Memory) (bs : List Byte) {a a' : Nat} (h : a' < a ∨ a + bs.length ≤ a') :
    readByte (writeBytes m a bs) a' = readByte m a' := by
  rw [readByte_writeBytes, if_neg (by omega)]

/-! ## Words -/

@[simp] theorem bytesOfWord_length (v : Word) : (bytesOfWord v).length = 8 := rfl

/-- The eight lanes of a word put together again. -/
@[simp] theorem wordOfBytes_bytesOfWord (v : Word) : wordOfBytes (bytesOfWord v) = v := by
  apply BitVec.eq_of_getLsbD_eq
  intro i hi
  simp only [wordOfBytes, bytesOfWord, byteLane, BitVec.getLsbD_or, BitVec.getLsbD_setWidth, BitVec.getLsbD_shiftLeft,
    BitVec.getLsbD_extractLsb', BitVec.getLsbD_zero]
  interval_cases i <;> simp

theorem readBytes_congr {m m' : Memory} {a n : Nat} (h : ∀ k, a ≤ k → k < a + n → readByte m k = readByte m' k) :
    readBytes m a n = readBytes m' a n := by
  induction n generalizing a with
  | zero => rfl
  | succ n ih =>
    simp only [readBytes]
    rw [h a (by omega) (by omega), ih (fun k h1 h2 => h k (by omega) (by omega))]

theorem readBytes_writeBytes_same (m : Memory) (a : Nat) (bs : List Byte) :
    readBytes (writeBytes m a bs) a bs.length = some bs := by
  induction bs generalizing m a with
  | nil => rfl
  | cons b bs ih =>
    simp only [writeBytes, List.length_cons, readBytes, ih]
    rw [readByte_writeBytes_outside _ _ (by omega), readByte_writeByte_same]

@[simp] theorem readWord_writeWord_same (m : Memory) (w : Nat) (v : Word) : readWord (writeWord m w v) w = some v := by
  have h := readBytes_writeBytes_same m (8 * w) (bytesOfWord v)
  simp only [bytesOfWord_length] at h
  simp [readWord, writeWord, h]

theorem readByte_writeWord_outside (m : Memory) (v : Word) {w a : Nat} (h : a < 8 * w ∨ 8 * w + 8 ≤ a) :
    readByte (writeWord m w v) a = readByte m a := readByte_writeBytes_outside _ _ (by simpa using h)

theorem readWord_writeWord_other (m : Memory) (v : Word) {w w' : Nat} (h : w ≠ w') :
    readWord (writeWord m w v) w' = readWord m w' := by
  unfold readWord
  rw [readBytes_congr (m' := m)]
  intro k h1 h2
  exact readByte_writeWord_outside m v (by omega)

theorem readWord_writeWord (m : Memory) (w w' : Nat) (v : Word) :
    readWord (writeWord m w v) w' = if w = w' then some v else readWord m w' := by
  split
  · next h => subst h; simp
  · next h => exact readWord_writeWord_other m v h

@[simp] theorem readWord_nil (w : Nat) : readWord [] w = none := rfl

/-! ## Regions -/

/-- What a byte reads as after a region is stored: unchanged outside the region. -/
theorem readByte_writeWords_outside (m : Memory) {b : Nat} (vs : List Word) {a : Nat}
    (h : a < 8 * b ∨ 8 * (b + vs.length) ≤ a) : readByte (writeWords m b vs) a = readByte m a := by
  induction vs generalizing m b with
  | nil => rfl
  | cons v vs ih =>
    simp only [List.length_cons] at h
    rw [writeWords, ih _ (by omega), readByte_writeWord_outside _ _ (by omega)]

/-- What a word reads as after a region is stored. -/
theorem readWord_writeWords (m : Memory) (b w : Nat) (vs : List Word) :
    readWord (writeWords m b vs) w = if b ≤ w ∧ w < b + vs.length then vs[w - b]? else readWord m w := by
  induction vs generalizing m b with
  | nil => simp [writeWords]
  | cons v vs ih =>
    simp only [writeWords, ih, List.length_cons, readWord_writeWord]
    by_cases h : b = w
    · subst h; simp
    · by_cases h1 : b + 1 ≤ w ∧ w < b + 1 + vs.length
      · have e : w - b = (w - (b + 1)) + 1 := by omega
        rw [if_pos h1, if_pos (by omega), e, List.getElem?_cons_succ]
      · rw [if_neg h1, if_neg h, if_neg (by omega)]

theorem readWord_writeWords_inside (m : Memory) {b k : Nat} (vs : List Word) (h : k < vs.length) :
    readWord (writeWords m b vs) (b + k) = some vs[k] := by
  rw [readWord_writeWords, if_pos (by omega)]
  simp [h]

theorem readWord_writeWords_outside (m : Memory) {b w : Nat} (vs : List Word) (h : w < b ∨ b + vs.length ≤ w) :
    readWord (writeWords m b vs) w = readWord m w := by
  rw [readWord_writeWords, if_neg (by omega)]

/-- Everything a region read can do: the words in order, or a fault at a word of the region never written. -/
theorem readWords_spec (m : Memory) (b n : Nat) :
    (∃ vs, readWords m b n = .ok vs ∧ vs.length = n ∧ ∀ k (h : k < vs.length), readWord m (b + k) = some vs[k]) ∨
    (∃ w, readWords m b n = .error (.neverWritten w) ∧ b ≤ w ∧ w < b + n ∧ readWord m w = none) := by
  induction n generalizing b with
  | zero => exact .inl ⟨[], rfl, rfl, fun k h => absurd h (by simp)⟩
  | succ n ih =>
    cases hb : readWord m b with
    | none => exact .inr ⟨b, by simp [readWords, hb], by omega, by omega, hb⟩
    | some v =>
      obtain ⟨vs, h1, h2, h3⟩ | ⟨w, h1, h2, h3, h4⟩ := ih (b + 1)
      · refine .inl ⟨v :: vs, by simp [readWords, hb, h1], by simp [h2], ?_⟩
        intro k hk
        cases k with
        | zero => simpa using hb
        | succ k =>
          simp only [List.length_cons, Nat.succ_lt_succ_iff] at hk
          have := h3 k hk
          rw [show b + 1 + k = b + (k + 1) by omega] at this
          simpa using this
      · exact .inr ⟨w, by simp [readWords, hb, h1], by omega, by omega, h4⟩

theorem readWords_length {m : Memory} {b n : Nat} {vs : List Word} (h : readWords m b n = .ok vs) : vs.length = n := by
  obtain ⟨vs', h1, h2, -⟩ | ⟨w, h1, -⟩ := readWords_spec m b n
  · simp_all
  · simp_all

theorem readWords_getElem {m : Memory} {b n : Nat} {vs : List Word} (h : readWords m b n = .ok vs) (k : Nat)
    (hk : k < vs.length) : readWord m (b + k) = some vs[k] := by
  obtain ⟨vs', h1, -, h3⟩ | ⟨w, h1, -⟩ := readWords_spec m b n
  · rw [h] at h1; cases h1; exact h3 k hk
  · rw [h] at h1; cases h1

/-- A region whose words have all been written reads without a fault. -/
theorem readWords_ok {m : Memory} {b n : Nat} (h : ∀ w, b ≤ w → w < b + n → (readWord m w).isSome = true) :
    ∃ vs, readWords m b n = .ok vs := by
  obtain ⟨vs, h1, -⟩ | ⟨w, -, h2, h3, h4⟩ := readWords_spec m b n
  · exact ⟨vs, h1⟩
  · have := h w h2 h3; simp [h4] at this

/-- A region read depends on the words of the region alone. -/
theorem readWords_congr {m m' : Memory} {b n : Nat} (h : ∀ w, b ≤ w → w < b + n → readWord m w = readWord m' w) :
    readWords m b n = readWords m' b n := by
  induction n generalizing b with
  | zero => rfl
  | succ n ih =>
    simp only [readWords]
    rw [h b (by omega) (by omega), ih (fun w h1 h2 => h w (by omega) (by omega))]

/-- A region reads back as it was stored. -/
theorem readWords_writeWords_same (m : Memory) (b : Nat) (vs : List Word) :
    readWords (writeWords m b vs) b vs.length = .ok vs := by
  obtain ⟨ws, h1, h2, h3⟩ | ⟨w, -, h2, h3, h4⟩ := readWords_spec (writeWords m b vs) b vs.length
  · rw [h1]
    congr 1
    apply List.ext_getElem h2
    intro k hk hk'
    have := h3 k hk
    rw [readWord_writeWords_inside m vs hk'] at this
    exact (Option.some.inj this).symm
  · rw [readWord_writeWords, if_pos ⟨h2, h3⟩] at h4
    simp at h4; omega

/-! ## The canonical form -/

/-- Addresses strictly rising. -/
abbrev Sorted (m : Memory) : Prop := m.Pairwise (fun a b => a.1 < b.1)

theorem mem_writeByte {m : Memory} {a : Nat} {b : Byte} {c : Host.Cell} (h : c ∈ writeByte m a b) :
    c = (a, b) ∨ c ∈ m := by
  induction m with
  | nil => simpa [writeByte] using h
  | cons d m ih =>
    obtain ⟨k, v⟩ := d
    simp only [writeByte] at h
    split at h
    · simpa using h
    · split at h
      · rw [List.mem_cons] at h; rw [List.mem_cons]; tauto
      · rw [List.mem_cons] at h; rw [List.mem_cons]
        rcases h with h | h
        · tauto
        · have := ih h; tauto

theorem writeByte_sorted {m : Memory} (a : Nat) (b : Byte) (h : Sorted m) : Sorted (writeByte m a b) := by
  induction m with
  | nil => simp [writeByte, Sorted]
  | cons d m ih =>
    obtain ⟨k, v⟩ := d
    obtain ⟨h1, h2⟩ := List.pairwise_cons.mp h
    simp only [writeByte]
    split
    · next hk =>
      refine List.pairwise_cons.mpr ⟨?_, h⟩
      intro c hc
      rcases List.mem_cons.mp hc with rfl | hc
      · exact hk
      · have := h1 c hc; simp only at this ⊢; omega
    · split
      · next hk => subst hk; exact List.pairwise_cons.mpr ⟨h1, h2⟩
      · next hk1 hk2 =>
        refine List.pairwise_cons.mpr ⟨?_, ih h2⟩
        intro c hc
        rcases mem_writeByte hc with rfl | hc
        · simp only; omega
        · exact h1 c hc

theorem writeBytes_sorted {m : Memory} (a : Nat) (bs : List Byte) (h : Sorted m) : Sorted (writeBytes m a bs) := by
  induction bs generalizing m a with
  | nil => exact h
  | cons b bs ih => exact ih _ (writeByte_sorted a b h)

/-- A listed byte reads as a value. -/
theorem readByte_isSome_of_mem {m : Memory} {c : Host.Cell} (h : c ∈ m) : (readByte m c.1).isSome = true := by
  induction m with
  | nil => simp at h
  | cons d m ih =>
    obtain ⟨k, v⟩ := d
    simp only [readByte]
    split
    · rfl
    · next hk =>
      rcases List.mem_cons.mp h with rfl | h
      · exact absurd rfl hk
      · exact ih h

/-- A byte that reads as a value is listed. -/
theorem mem_of_readByte {m : Memory} {a : Nat} {b : Byte} (h : readByte m a = some b) : (a, b) ∈ m := by
  induction m with
  | nil => simp at h
  | cons d m ih =>
    obtain ⟨k, v⟩ := d
    simp only [readByte] at h
    split at h
    · next hk => subst hk; cases h; exact List.mem_cons_self
    · exact List.mem_cons_of_mem _ (ih h)

/-- A run of bytes reads exactly when each of them does. -/
theorem readBytes_isSome {m : Memory} {a n : Nat} :
    (readBytes m a n).isSome = true ↔ ∀ k, a ≤ k → k < a + n → (readByte m k).isSome = true := by
  induction n generalizing a with
  | zero => exact ⟨fun _ k h1 h2 => by omega, fun _ => rfl⟩
  | succ n ih =>
    simp only [readBytes]
    constructor
    · intro h k h1 h2
      cases h3 : readByte m a with
      | none => simp [h3] at h
      | some b =>
        cases h4 : readBytes m (a + 1) n with
        | none => simp [h3, h4] at h
        | some bs =>
          by_cases hk : k = a
          · subst hk; simp [h3]
          · exact (ih (a := a + 1)).mp (by simp [h4]) k (by omega) (by omega)
    · intro h
      obtain ⟨b, hb⟩ := Option.isSome_iff_exists.mp (h a (by omega) (by omega))
      obtain ⟨bs, hbs⟩ := Option.isSome_iff_exists.mp
        ((ih (a := a + 1)).mpr (fun k h1 h2 => h k (by omega) (by omega)))
      simp [hb, hbs]

theorem wholeWord_iff {m : Memory} {w : Nat} :
    wholeWord m w = true ↔ ∀ k, 8 * w ≤ k → k < 8 * w + 8 → (readByte m k).isSome = true := by
  rw [← readBytes_isSome]
  simp [wholeWord, readWord]

/-- The canonical form in terms of byte reads. -/
theorem wf_iff {words : Nat} {m : Memory} :
    Memory.wf words m = true ↔
      Sorted m ∧ ∀ a, (readByte m a).isSome = true → a < 8 * words ∧ wholeWord m (a / 8) = true := by
  simp only [Memory.wf, Bool.and_eq_true, decide_eq_true_eq, List.all_eq_true]
  refine and_congr_right fun _ => ⟨fun h a ha => ?_, fun h c hc => h c.1 (readByte_isSome_of_mem hc)⟩
  obtain ⟨b, hb⟩ := Option.isSome_iff_exists.mp ha
  exact h _ (mem_of_readByte hb)

theorem wf_nil (words : Nat) : Memory.wf words [] = true := by simp [Memory.wf]

theorem wf_writeWord {words : Nat} {m : Memory} {w : Nat} (v : Word) (hw : w < words)
    (h : Memory.wf words m = true) : Memory.wf words (writeWord m w v) = true := by
  rw [wf_iff] at h ⊢
  refine ⟨writeBytes_sorted _ _ h.1, fun a ha => ?_⟩
  by_cases hin : 8 * w ≤ a ∧ a < 8 * w + 8
  · refine ⟨by omega, ?_⟩
    rw [show a / 8 = w by omega]
    simp [wholeWord]
  · rw [readByte_writeWord_outside _ _ (by omega)] at ha
    obtain ⟨h1, h2⟩ := h.2 a ha
    refine ⟨h1, ?_⟩
    rw [wholeWord_iff] at h2 ⊢
    intro k k1 k2
    rw [readByte_writeWord_outside _ _ (by omega)]
    exact h2 k k1 k2

theorem wf_writeWords {words : Nat} {m : Memory} {b : Nat} (vs : List Word) (hb : b + vs.length ≤ words)
    (h : Memory.wf words m = true) : Memory.wf words (writeWords m b vs) = true := by
  induction vs generalizing m b with
  | nil => exact h
  | cons v vs ih =>
    simp only [List.length_cons] at hb
    exact ih (by omega) (wf_writeWord v (by omega) h)

theorem readByte_forgetWords (m : Memory) (b n a : Nat) :
    readByte (forgetWords m b n) a = if 8 * b ≤ a ∧ a < 8 * (b + n) then none else readByte m a := by
  induction m with
  | nil => simp [forgetWords]
  | cons c m ih =>
    obtain ⟨k, v⟩ := c
    have hf : forgetWords ((k, v) :: m) b n =
        if 8 * b ≤ k ∧ k < 8 * (b + n) then forgetWords m b n else (k, v) :: forgetWords m b n := by
      simp only [forgetWords, List.filter_cons]
      by_cases h : 8 * b ≤ k ∧ k < 8 * (b + n) <;> simp [h]
    rw [hf]
    split
    · next hk =>
      rw [ih]; simp only [readByte]
      split
      · rfl
      · rw [if_neg (by omega)]
    · simp only [readByte, ih]
      split
      · rw [if_neg (by omega)]
      · rfl

/-- A word of a forgotten region reads as never written; every other word as before. -/
theorem readWord_forgetWords (m : Memory) (b n w : Nat) :
    readWord (forgetWords m b n) w = if b ≤ w ∧ w < b + n then none else readWord m w := by
  split
  · unfold readWord readBytes
    rw [readByte_forgetWords, if_pos (by omega)]
    simp
  · unfold readWord
    rw [readBytes_congr (m' := m)]
    intro k h1 h2
    rw [readByte_forgetWords, if_neg (by omega)]

theorem wf_forgetWords {words : Nat} {m : Memory} (b n : Nat) (h : Memory.wf words m = true) :
    Memory.wf words (forgetWords m b n) = true := by
  rw [wf_iff] at h ⊢
  refine ⟨h.1.filter _, fun a ha => ?_⟩
  rw [readByte_forgetWords] at ha
  split at ha
  · simp at ha
  · obtain ⟨h1, h2⟩ := h.2 a ha
    refine ⟨h1, ?_⟩
    rw [wholeWord_iff] at h2 ⊢
    intro k k1 k2
    rw [readByte_forgetWords, if_neg (by omega)]
    exact h2 k k1 k2

end Sys2Proof.Laws
end

