-- ==== Sys2Proof/Laws/State.lean ====
section
/-! SUPPORT. What each named update of the state leaves in each field, true by unfolding, so that no later proof unfolds a
record update; and once what `runCommand` can answer. -/

namespace Sys2Proof.Laws

open Sys2Proof.Machine

variable (s : State) (code : ErrCode) (v : Word) (m : Memory) (n c : Nat) (x : ChanCtx)

/-! ## complete, raiseError -/

@[simp] theorem raiseError_eq : raiseError code s = complete code s := rfl
@[simp] theorem complete_status : (complete code s).status = completionFlags s.cmd code := rfl
@[simp] theorem complete_params : (complete code s).params = s.params := rfl
@[simp] theorem complete_ie : (complete code s).ie = s.ie := rfl
@[simp] theorem complete_cmd : (complete code s).cmd = s.cmd := rfl
@[simp] theorem complete_result : (complete code s).result = s.result := rfl
@[simp] theorem complete_args : (complete code s).args = s.args := rfl
@[simp] theorem complete_twSize : (complete code s).twSize = s.twSize := rfl
@[simp] theorem complete_fftN : (complete code s).fftN = s.fftN := rfl
@[simp] theorem complete_pipeMode : (complete code s).pipeMode = s.pipeMode := rfl
@[simp] theorem complete_pipeBuf : (complete code s).pipeBuf = s.pipeBuf := rfl
@[simp] theorem complete_chans : (complete code s).chans = s.chans := rfl
@[simp] theorem complete_dmem : (complete code s).dmem = s.dmem := rfl
@[simp] theorem complete_timeLeft : (complete code s).timeLeft = s.timeLeft := rfl
@[simp] theorem complete_held : (complete code s).held = s.held := rfl
@[simp] theorem complete_hostIn : (complete code s).hostIn = s.hostIn := rfl
@[simp] theorem complete_latency : (complete code s).latency = s.latency := rfl
@[simp] theorem complete_resp : (complete code s).resp = s.resp := rfl
@[simp] theorem completionFlags_busy : (completionFlags v code).busy = false := rfl
@[simp] theorem completionFlags_done : (completionFlags v code).done = true := rfl
@[simp] theorem completionFlags_err : (completionFlags v code).err = code := rfl
@[simp] theorem completionFlags_lastOp : (completionFlags v code).lastOp = opField v := rfl

/-! ## setDmem -/

@[simp] theorem setDmem_dmem : (setDmem s m).dmem = m := rfl
@[simp] theorem setDmem_status : (setDmem s m).status = s.status := rfl
@[simp] theorem setDmem_params : (setDmem s m).params = s.params := rfl
@[simp] theorem setDmem_ie : (setDmem s m).ie = s.ie := rfl
@[simp] theorem setDmem_cmd : (setDmem s m).cmd = s.cmd := rfl
@[simp] theorem setDmem_result : (setDmem s m).result = s.result := rfl
@[simp] theorem setDmem_args : (setDmem s m).args = s.args := rfl
@[simp] theorem setDmem_twSize : (setDmem s m).twSize = s.twSize := rfl
@[simp] theorem setDmem_fftN : (setDmem s m).fftN = s.fftN := rfl
@[simp] theorem setDmem_pipeMode : (setDmem s m).pipeMode = s.pipeMode := rfl
@[simp] theorem setDmem_pipeBuf : (setDmem s m).pipeBuf = s.pipeBuf := rfl
@[simp] theorem setDmem_chans : (setDmem s m).chans = s.chans := rfl
@[simp] theorem setDmem_timeLeft : (setDmem s m).timeLeft = s.timeLeft := rfl
@[simp] theorem setDmem_held : (setDmem s m).held = s.held := rfl
@[simp] theorem setDmem_hostIn : (setDmem s m).hostIn = s.hostIn := rfl
@[simp] theorem setDmem_latency : (setDmem s m).latency = s.latency := rfl
@[simp] theorem setDmem_resp : (setDmem s m).resp = s.resp := rfl

/-! ## setResult -/

@[simp] theorem setResult_result : (setResult s v).result = v := rfl
@[simp] theorem setResult_dmem : (setResult s v).dmem = s.dmem := rfl
@[simp] theorem setResult_status : (setResult s v).status = s.status := rfl
@[simp] theorem setResult_params : (setResult s v).params = s.params := rfl
@[simp] theorem setResult_ie : (setResult s v).ie = s.ie := rfl
@[simp] theorem setResult_cmd : (setResult s v).cmd = s.cmd := rfl
@[simp] theorem setResult_args : (setResult s v).args = s.args := rfl
@[simp] theorem setResult_twSize : (setResult s v).twSize = s.twSize := rfl
@[simp] theorem setResult_fftN : (setResult s v).fftN = s.fftN := rfl
@[simp] theorem setResult_pipeMode : (setResult s v).pipeMode = s.pipeMode := rfl
@[simp] theorem setResult_pipeBuf : (setResult s v).pipeBuf = s.pipeBuf := rfl
@[simp] theorem setResult_chans : (setResult s v).chans = s.chans := rfl
@[simp] theorem setResult_timeLeft : (setResult s v).timeLeft = s.timeLeft := rfl
@[simp] theorem setResult_held : (setResult s v).held = s.held := rfl
@[simp] theorem setResult_hostIn : (setResult s v).hostIn = s.hostIn := rfl
@[simp] theorem setResult_latency : (setResult s v).latency = s.latency := rfl
@[simp] theorem setResult_resp : (setResult s v).resp = s.resp := rfl

/-! ## setChan -/

@[simp] theorem setChan_chans : (setChan s c x).chans = s.chans.set c x := rfl
@[simp] theorem setChan_dmem : (setChan s c x).dmem = s.dmem := rfl
@[simp] theorem setChan_status : (setChan s c x).status = s.status := rfl
@[simp] theorem setChan_params : (setChan s c x).params = s.params := rfl
@[simp] theorem setChan_ie : (setChan s c x).ie = s.ie := rfl
@[simp] theorem setChan_cmd : (setChan s c x).cmd = s.cmd := rfl
@[simp] theorem setChan_result : (setChan s c x).result = s.result := rfl
@[simp] theorem setChan_args : (setChan s c x).args = s.args := rfl
@[simp] theorem setChan_twSize : (setChan s c x).twSize = s.twSize := rfl
@[simp] theorem setChan_fftN : (setChan s c x).fftN = s.fftN := rfl
@[simp] theorem setChan_pipeMode : (setChan s c x).pipeMode = s.pipeMode := rfl
@[simp] theorem setChan_pipeBuf : (setChan s c x).pipeBuf = s.pipeBuf := rfl
@[simp] theorem setChan_timeLeft : (setChan s c x).timeLeft = s.timeLeft := rfl
@[simp] theorem setChan_held : (setChan s c x).held = s.held := rfl
@[simp] theorem setChan_hostIn : (setChan s c x).hostIn = s.hostIn := rfl
@[simp] theorem setChan_latency : (setChan s c x).latency = s.latency := rfl
@[simp] theorem setChan_resp : (setChan s c x).resp = s.resp := rfl

/-- `CH[c]` after a write of a channel the instance has. -/
@[simp] theorem chan_setChan_same (h : c < s.chans.length) : chan (setChan s c x) c = x := by
  simp [chan, setChan, List.getD, h]

/-- Another channel is untouched. -/
theorem chan_setChan_other {c c' : Nat} (h : c ≠ c') : chan (setChan s c x) c' = chan s c' := by
  simp [chan, setChan, List.getD, h]

@[simp] theorem chan_setDmem : chan (setDmem s m) c = chan s c := rfl
@[simp] theorem chan_setResult : chan (setResult s v) c = chan s c := rfl
@[simp] theorem chan_complete : chan (complete code s) c = chan s c := rfl

/-! ## growTwiddle -/

/-- The twiddle store grows to the larger of its size and n, and nothing else changes (R118). -/
theorem growTwiddle_eq : growTwiddle n s = { s with twSize := max s.twSize n } := by
  unfold growTwiddle
  split
  · next h => rw [Nat.max_eq_right (Nat.le_of_lt h)]
  · next h => rw [Nat.max_eq_left (Nat.le_of_not_lt h)]

@[simp] theorem growTwiddle_twSize : (growTwiddle n s).twSize = max s.twSize n := by rw [growTwiddle_eq]
@[simp] theorem growTwiddle_dmem : (growTwiddle n s).dmem = s.dmem := by rw [growTwiddle_eq]
@[simp] theorem growTwiddle_status : (growTwiddle n s).status = s.status := by rw [growTwiddle_eq]
@[simp] theorem growTwiddle_params : (growTwiddle n s).params = s.params := by rw [growTwiddle_eq]
@[simp] theorem growTwiddle_ie : (growTwiddle n s).ie = s.ie := by rw [growTwiddle_eq]
@[simp] theorem growTwiddle_cmd : (growTwiddle n s).cmd = s.cmd := by rw [growTwiddle_eq]
@[simp] theorem growTwiddle_result : (growTwiddle n s).result = s.result := by rw [growTwiddle_eq]
@[simp] theorem growTwiddle_args : (growTwiddle n s).args = s.args := by rw [growTwiddle_eq]
@[simp] theorem growTwiddle_fftN : (growTwiddle n s).fftN = s.fftN := by rw [growTwiddle_eq]
@[simp] theorem growTwiddle_pipeMode : (growTwiddle n s).pipeMode = s.pipeMode := by rw [growTwiddle_eq]
@[simp] theorem growTwiddle_pipeBuf : (growTwiddle n s).pipeBuf = s.pipeBuf := by rw [growTwiddle_eq]
@[simp] theorem growTwiddle_chans : (growTwiddle n s).chans = s.chans := by rw [growTwiddle_eq]
@[simp] theorem growTwiddle_timeLeft : (growTwiddle n s).timeLeft = s.timeLeft := by rw [growTwiddle_eq]
@[simp] theorem growTwiddle_held : (growTwiddle n s).held = s.held := by rw [growTwiddle_eq]
@[simp] theorem growTwiddle_hostIn : (growTwiddle n s).hostIn = s.hostIn := by rw [growTwiddle_eq]
@[simp] theorem growTwiddle_latency : (growTwiddle n s).latency = s.latency := by rw [growTwiddle_eq]
@[simp] theorem growTwiddle_resp : (growTwiddle n s).resp = s.resp := by rw [growTwiddle_eq]
@[simp] theorem chan_growTwiddle : chan (growTwiddle n s) c = chan s c := by rw [growTwiddle_eq]; rfl

/-! ## runCommand -/

@[simp] theorem firstFailing_nil : firstFailing [] = none := rfl
@[simp] theorem firstFailing_cons (ok : Bool) (cs : List Check) :
    firstFailing ((ok, code) :: cs) = if ok then firstFailing cs else some code := rfl

/-- Everything a command can answer: the completion with the first failing check's code, the completion of its effect, or
the fault of its effect. -/
theorem runCommand_spec (checks : List Check) (effect : State → Except Fault State) :
    (∃ k, firstFailing checks = some k ∧ runCommand checks effect s = .next (complete k s)) ∨
    (firstFailing checks = none ∧ ∃ t, effect s = .ok t ∧ runCommand checks effect s = .next (complete .none t)) ∨
    (firstFailing checks = none ∧ ∃ e, effect s = .error e ∧ runCommand checks effect s = .fault e) := by
  cases h : firstFailing checks with
  | some k => exact .inl ⟨k, rfl, by simp [runCommand, h]⟩
  | none =>
    cases he : effect s with
    | ok t => exact .inr (.inl ⟨rfl, t, rfl, by simp [runCommand, h, he]⟩)
    | error e => exact .inr (.inr ⟨rfl, e, rfl, by simp [runCommand, h, he]⟩)

/-- A command whose checks all pass and whose effect succeeds completes with code 0. -/
theorem runCommand_ok {s t : State} {checks : List Check} {effect : State → Except Fault State}
    (h : firstFailing checks = none) (he : effect s = .ok t) :
    runCommand checks effect s = .next (complete .none t) := by simp [runCommand, h, he]

/-- A command with a failing check changes STATUS alone (R252). -/
theorem runCommand_fails {s : State} {checks : List Check} {effect : State → Except Fault State} {code : ErrCode}
    (h : firstFailing checks = some code) : runCommand checks effect s = .next (complete code s) := by
  simp [runCommand, h]

/-! ## loop -/

@[simp] theorem loop_zero {α : Type} (f : Nat → α → α) (a : α) : loop 0 f a = a := rfl
theorem loop_succ {α : Type} (n : Nat) (f : Nat → α → α) (a : α) : loop (n + 1) f a = f n (loop n f a) := rfl

/-- What every turn of a loop keeps, the loop keeps. -/
theorem loop_induct {α : Type} (P : α → Prop) (n : Nat) (f : Nat → α → α) (a : α) (h0 : P a)
    (h : ∀ i b, i < n → P b → P (f i b)) : P (loop n f a) := by
  induction n with
  | zero => exact h0
  | succ n ih => exact h n _ (Nat.lt_succ_self n) (ih (fun i b hi => h i b (Nat.lt_succ_of_lt hi)))

end Sys2Proof.Laws
end

