-- ==== Sys2Proof/Laws/Commands.lean ====
section
/-! SUPPORT. Once for all commands: how a command completes; what a written region reads as; what
a run of stores leaves; and the transform sizes as powers of two. -/

namespace Sys2Proof.Laws

open Sys2Proof.Machine

/-- The transform sizes of an instance are the powers of two from 4 to NMAX (R104, R120). -/
theorem transformSize_iff (p : Config.Params) (n : Nat) :
    transformSize p n = true ↔ ∃ k, 2 ≤ k ∧ k ≤ p.nmaxLog2 ∧ n = 2 ^ k := by
  rw [transformSize, decide_eq_true_eq]
  unfold Config.Params.nmax
  constructor
  · rintro ⟨h1, h2, h3⟩
    refine ⟨Nat.log2 n, ?_, ?_, h3.symm⟩
    · by_contra h
      have := Nat.pow_le_pow_right (n := 2) (by norm_num) (show Nat.log2 n ≤ 1 by omega)
      omega
    · rw [← h3] at h2
      exact (Nat.pow_le_pow_iff_right (by norm_num)).1 h2
  · rintro ⟨k, h1, h2, rfl⟩
    exact ⟨Nat.pow_le_pow_right (n := 2) (by norm_num) h1, Nat.pow_le_pow_right (by norm_num) h2,
      by rw [Nat.log2_two_pow]⟩

/-- The words of a written region. -/
theorem readWords_written {m : Memory} {b n : Nat} (h : written m b n) : readWords m b n = .ok (wordsAt m b n) := by
  induction n generalizing b with
  | zero => rfl
  | succ n ih =>
    obtain ⟨v, hv⟩ := Option.isSome_iff_exists.1 (h 0 (by omega))
    have hr := ih (b := b + 1) (fun k hk => by
      have := h (k + 1) (by omega)
      rwa [show b + (k + 1) = b + 1 + k by omega] at this)
    simp only [Nat.add_zero] at hv
    simp only [readWords, hv, hr, wordsAt, List.range_succ_eq_map, List.map_cons, List.map_map]
    simp [hv]
    intro a ha
    simp [Nat.add_assoc, Nat.add_comm 1]

@[simp] theorem wordsAt_length (m : Memory) (b n : Nat) : (wordsAt m b n).length = n := by simp [wordsAt]

/-- A run of stores leaves the words stored and no other byte changed. -/
theorem stored_writeWords (m : Memory) (b : Nat) (vs : List Word) : stored m (writeWords m b vs) b vs :=
  ⟨fun k hk => by rw [readWord_writeWords_inside _ _ hk, List.getElem?_eq_getElem hk],
   fun _ ha => readByte_writeWords_outside _ _ (by omega)⟩

/-- A command whose effect leaves CMD alone ends with the flags of a completion (R96). -/
theorem runCommand_completes {checks : List Check} {effect : State → Except Fault State} {s t : State}
    (he : ∀ u, effect s = .ok u → u.cmd = s.cmd) (h : runCommand checks effect s = .next t) :
    ∃ code, t.status = completionFlags s.cmd code := by
  unfold runCommand at h
  split at h
  · next code _ =>
    cases h
    exact ⟨code, rfl⟩
  · split at h
    · next u hu =>
      cases h
      exact ⟨.none, by rw [complete_status, he u hu]⟩
    · cases h

end Sys2Proof.Laws
end

