-- ==== Sys2Proof/Laws/Enclosures.lean ====
section
/-! SUPPORT. Enclosures (Machine/Elementary.lean) hold what they enclose, and close in on it as the precision grows: sums, products,
angle doublings and squarings. -/

namespace Sys2Proof.Laws

open Sys2Proof.Machine Filter Topology

/-! ## Enclosures -/

/-- The enclosure e at scale 2^P holds v. -/
structure Encloses (P : ℕ) (e : Encl) (v : ℝ) : Prop where
  lo : (e.lo : ℝ) ≤ v * 2 ^ P
  hi : v * 2 ^ P ≤ e.hi

theorem Encloses.add {P e e' v v'} (h : Encloses P e v) (h' : Encloses P e' v') : Encloses P (enclAdd e e') (v + v') :=
  ⟨by simp only [enclAdd, add_mul]; push_cast; exact add_le_add h.lo h'.lo,
   by simp only [enclAdd, add_mul]; push_cast; exact add_le_add h.hi h'.hi⟩

theorem Encloses.sub {P e e' v v'} (h : Encloses P e v) (h' : Encloses P e' v') : Encloses P (enclSub e e') (v - v') :=
  ⟨by simp only [enclSub, sub_mul]; push_cast; exact sub_le_sub h.lo h'.hi,
   by simp only [enclSub, sub_mul]; push_cast; exact sub_le_sub h.hi h'.lo⟩

theorem Encloses.widen {P e v w} {r : ℤ} (h : Encloses P e v) (hr : |w - v| * 2 ^ P ≤ r) :
    Encloses P (enclWiden e r) w := by
  have h2 : (0 : ℝ) < 2 ^ P := by positivity
  obtain ⟨h3, h4⟩ : (w - v) * 2 ^ P ≤ r ∧ -(r : ℝ) ≤ (w - v) * 2 ^ P := by
    have := abs_le.1 (show |(w - v) * 2 ^ P| ≤ r by rwa [abs_mul, abs_of_pos h2])
    exact ⟨this.2, this.1⟩
  constructor
  · simp only [enclWiden]; push_cast; linarith [h.lo]
  · simp only [enclWiden]; push_cast; linarith [h.hi]

/-- A product of two numbers lies between the least and the greatest product of the ends. -/
theorem mul_between {a b c d x y : ℝ} (ha : a ≤ x) (hb : x ≤ b) (hc : c ≤ y) (hd : y ≤ d) :
    min (min (a * c) (a * d)) (min (b * c) (b * d)) ≤ x * y ∧
    x * y ≤ max (max (a * c) (a * d)) (max (b * c) (b * d)) := by
  have h1 : min (a * c) (a * d) ≤ a * y ∧ a * y ≤ max (a * c) (a * d) := by
    rcases le_total 0 a with h | h
    · exact ⟨(min_le_left _ _).trans (mul_le_mul_of_nonneg_left hc h), (mul_le_mul_of_nonneg_left hd h).trans (le_max_right _ _)⟩
    · exact ⟨(min_le_right _ _).trans (mul_le_mul_of_nonpos_left hd h), (mul_le_mul_of_nonpos_left hc h).trans (le_max_left _ _)⟩
  have h2 : min (b * c) (b * d) ≤ b * y ∧ b * y ≤ max (b * c) (b * d) := by
    rcases le_total 0 b with h | h
    · exact ⟨(min_le_left _ _).trans (mul_le_mul_of_nonneg_left hc h), (mul_le_mul_of_nonneg_left hd h).trans (le_max_right _ _)⟩
    · exact ⟨(min_le_right _ _).trans (mul_le_mul_of_nonpos_left hd h), (mul_le_mul_of_nonpos_left hc h).trans (le_max_left _ _)⟩
  rcases le_total 0 y with h | h
  · exact ⟨(min_le_left _ _).trans (h1.1.trans (mul_le_mul_of_nonneg_right ha h)),
      (mul_le_mul_of_nonneg_right hb h).trans (h2.2.trans (le_max_right _ _))⟩
  · exact ⟨(min_le_right _ _).trans (h2.1.trans (mul_le_mul_of_nonpos_right hb h)),
      (mul_le_mul_of_nonpos_right ha h).trans (h1.2.trans (le_max_left _ _))⟩

theorem cast_ediv_le (x : ℤ) (P : ℕ) : ((x / 2 ^ P : ℤ) : ℝ) * 2 ^ P ≤ x := by
  exact_mod_cast Int.ediv_mul_le x (by positivity)

theorem lt_cast_ediv (x : ℤ) (P : ℕ) : (x : ℝ) < (((x / 2 ^ P : ℤ) : ℝ) + 1) * 2 ^ P := by
  exact_mod_cast Int.lt_ediv_add_one_mul_self x (by positivity)

theorem Encloses.mul {P e e' v v'} (h : Encloses P e v) (h' : Encloses P e' v') : Encloses P (enclMul P e e') (v * v') := by
  have h2 : (0 : ℝ) < 2 ^ P := by positivity
  obtain ⟨h3, h4⟩ := mul_between h.lo h.hi h'.lo h'.hi
  have e1 : v * 2 ^ P * (v' * 2 ^ P) = v * v' * 2 ^ P * 2 ^ P := by ring
  rw [e1] at h3 h4
  constructor
  · simp only [enclMul]
    have := cast_ediv_le (min (min (e.lo * e'.lo) (e.lo * e'.hi)) (min (e.hi * e'.lo) (e.hi * e'.hi))) P
    refine le_of_mul_le_mul_right (this.trans (le_trans (le_of_eq ?_) h3)) h2
    push_cast
    rfl
  · simp only [enclMul]
    have := lt_cast_ediv (max (max (e.lo * e'.lo) (e.lo * e'.hi)) (max (e.hi * e'.lo) (e.hi * e'.hi))) P
    refine le_of_mul_le_mul_right (h4.trans (le_trans (le_of_eq ?_) (this.le.trans (le_of_eq ?_)))) h2
    · push_cast
      rfl
    · push_cast
      rfl

/-- Enclosures at growing precisions whose ends, unscaled, both tend to v. -/
structure Converges (P : ℕ → ℕ) (e : ℕ → Encl) (v : ℝ) : Prop where
  lo : Tendsto (fun n => ((e n).lo : ℝ) / 2 ^ P n) atTop (𝓝 v)
  hi : Tendsto (fun n => ((e n).hi : ℝ) / 2 ^ P n) atTop (𝓝 v)

/-- Enclosures of v whose width, unscaled, tends to 0 converge to v. -/
theorem converges_of_width {P : ℕ → ℕ} {e : ℕ → Encl} {v : ℝ} {w : ℕ → ℝ} (h : ∀ n, Encloses (P n) (e n) v)
    (hw : ∀ᶠ n in atTop, (((e n).hi - (e n).lo : ℤ) : ℝ) ≤ w n) (hlim : Tendsto (fun n => w n / 2 ^ P n) atTop (𝓝 0)) :
    Converges P e v := by
  constructor
  · refine tendsto_of_tendsto_of_tendsto_of_le_of_le' (g := fun n => v - w n / 2 ^ P n) (h := fun _ => v)
      (by simpa using tendsto_const_nhds.sub hlim) tendsto_const_nhds ?_ ?_
    · filter_upwards [hw] with n hn
      have h2 : (0 : ℝ) < 2 ^ P n := by positivity
      push_cast at hn
      rw [le_div_iff₀ h2, sub_mul, div_mul_cancel₀ _ h2.ne']
      linarith [(h n).hi]
    · refine Eventually.of_forall fun n => ?_
      rw [div_le_iff₀ (by positivity)]
      exact (h n).lo
  · refine tendsto_of_tendsto_of_tendsto_of_le_of_le' (g := fun _ => v) (h := fun n => v + w n / 2 ^ P n)
      tendsto_const_nhds (by simpa using tendsto_const_nhds.add hlim) ?_ ?_
    · refine Eventually.of_forall fun n => ?_
      rw [le_div_iff₀ (by positivity)]
      exact (h n).hi
    · filter_upwards [hw] with n hn
      have h2 : (0 : ℝ) < 2 ^ P n := by positivity
      push_cast at hn
      rw [div_le_iff₀ h2, add_mul, div_mul_cancel₀ _ h2.ne']
      linarith [(h n).lo]

theorem tendsto_inv_two_pow {P : ℕ → ℕ} (hP : Tendsto P atTop atTop) :
    Tendsto (fun n => (1 : ℝ) / 2 ^ P n) atTop (𝓝 0) := by
  have := (tendsto_pow_atTop_nhds_zero_of_lt_one (r := (1 / 2 : ℝ)) (by norm_num) (by norm_num)).comp hP
  refine this.congr fun n => ?_
  simp

/-- Bringing a product back to scale 2^P keeps its limit, rounded down or up. -/
theorem tendsto_ediv {P : ℕ → ℕ} (hP : Tendsto P atTop atTop) {m : ℕ → ℤ} {v : ℝ}
    (h : Tendsto (fun n => (m n : ℝ) / (2 ^ P n * 2 ^ P n)) atTop (𝓝 v)) :
    Tendsto (fun n => ((m n / 2 ^ P n : ℤ) : ℝ) / 2 ^ P n) atTop (𝓝 v) ∧
    Tendsto (fun n => ((m n / 2 ^ P n + 1 : ℤ) : ℝ) / 2 ^ P n) atTop (𝓝 v) := by
  have hz := tendsto_inv_two_pow hP
  have hlo : Tendsto (fun n => ((m n / 2 ^ P n : ℤ) : ℝ) / 2 ^ P n) atTop (𝓝 v) := by
    refine tendsto_of_tendsto_of_tendsto_of_le_of_le (by simpa only [sub_zero] using h.sub hz) h (fun n => ?_) (fun n => ?_)
    · have h2 : (0 : ℝ) < 2 ^ P n := by positivity
      have hb := lt_cast_ediv (m n) (P n)
      have e : ((m n / 2 ^ P n : ℤ) : ℝ) / 2 ^ P n - ((m n : ℝ) / (2 ^ P n * 2 ^ P n) - 1 / 2 ^ P n) =
          ((((m n / 2 ^ P n : ℤ) : ℝ) + 1) * 2 ^ P n - m n) / (2 ^ P n * 2 ^ P n) := by
        field_simp
        ring
      rw [← sub_nonneg, e]
      exact div_nonneg (by linarith) (by positivity)
    · have h2 : (0 : ℝ) < 2 ^ P n := by positivity
      rw [div_le_div_iff₀ h2 (by positivity)]
      nlinarith [cast_ediv_le (m n) (P n)]
  refine ⟨hlo, ?_⟩
  have := hlo.add hz
  rw [add_zero] at this
  refine this.congr fun n => ?_
  push_cast
  ring

theorem Converges.mul {P e e' v v'} (hP : Tendsto P atTop atTop) (h : Converges P e v) (h' : Converges P e' v') :
    Converges P (fun n => enclMul (P n) (e n) (e' n)) (v * v') := by
  have hmin := ((h.lo.mul h'.lo).min (h.lo.mul h'.hi)).min ((h.hi.mul h'.lo).min (h.hi.mul h'.hi))
  have hmax := ((h.lo.mul h'.lo).max (h.lo.mul h'.hi)).max ((h.hi.mul h'.lo).max (h.hi.mul h'.hi))
  simp only [min_self, max_self] at hmin hmax
  have sc : ∀ (n : ℕ) (a b : ℝ), a / 2 ^ P n * (b / 2 ^ P n) = a * b / (2 ^ P n * 2 ^ P n) := fun n a b => by
    field_simp
  have h2 : ∀ n, (0 : ℝ) ≤ 2 ^ P n * 2 ^ P n := fun n => by positivity
  refine ⟨(tendsto_ediv hP (m := fun n => min (min ((e n).lo * (e' n).lo) ((e n).lo * (e' n).hi))
      (min ((e n).hi * (e' n).lo) ((e n).hi * (e' n).hi))) (hmin.congr fun n => ?_)).1,
    (tendsto_ediv hP (m := fun n => max (max ((e n).lo * (e' n).lo) ((e n).lo * (e' n).hi))
      (max ((e n).hi * (e' n).lo) ((e n).hi * (e' n).hi))) (hmax.congr fun n => ?_)).2⟩
  · simp only [sc, min_div_div_right (h2 n)]
    push_cast
    rfl
  · simp only [sc, max_div_div_right (h2 n)]
    push_cast
    rfl

/-! ## Doublings and squarings -/

theorem doubleAngle_encloses {P : ℕ} (k : ℕ) {sc : Encl × Encl} {a : ℝ} (hs : Encloses P sc.1 (Real.sin a))
    (hc : Encloses P sc.2 (Real.cos a)) :
    Encloses P (doubleAngle P k sc).1 (Real.sin (2 ^ k * a)) ∧ Encloses P (doubleAngle P k sc).2 (Real.cos (2 ^ k * a)) := by
  induction k generalizing sc a with
  | zero => simpa [doubleAngle] using ⟨hs, hc⟩
  | succ k ih =>
    have h1 := hs.mul hc
    have h2 := hc.mul hc
    rw [show (2 : ℝ) ^ (k + 1) * a = 2 ^ k * (2 * a) by ring]
    refine ih (sc := (_, _)) ⟨?_, ?_⟩ ⟨?_, ?_⟩
    · rw [Real.sin_two_mul]; push_cast; linarith [h1.lo]
    · rw [Real.sin_two_mul]; push_cast; linarith [h1.hi]
    · rw [Real.cos_two_mul]; push_cast; linarith [h2.lo]
    · rw [Real.cos_two_mul]; push_cast; linarith [h2.hi]

theorem doubleAngle_converges {P : ℕ → ℕ} (hP : Tendsto P atTop atTop) (k : ℕ) {sc : ℕ → Encl × Encl} {a : ℝ}
    (hs : Converges P (fun n => (sc n).1) (Real.sin a)) (hc : Converges P (fun n => (sc n).2) (Real.cos a)) :
    Converges P (fun n => (doubleAngle (P n) k (sc n)).1) (Real.sin (2 ^ k * a)) ∧
    Converges P (fun n => (doubleAngle (P n) k (sc n)).2) (Real.cos (2 ^ k * a)) := by
  induction k generalizing sc a with
  | zero => simpa [doubleAngle] using ⟨hs, hc⟩
  | succ k ih =>
    have h1 := hs.mul hP hc
    have h2 := hc.mul hP hc
    rw [show (2 : ℝ) ^ (k + 1) * a = 2 ^ k * (2 * a) by ring]
    have es : Real.sin (2 * a) = 2 * (Real.sin a * Real.cos a) := by rw [Real.sin_two_mul]; ring
    have ec : Real.cos (2 * a) = 2 * (Real.cos a * Real.cos a) - 1 := by rw [Real.cos_two_mul]; ring
    have sh : ∀ n (c : ℝ), (2 * c - 2 ^ P n) / 2 ^ P n = 2 * (c / 2 ^ P n) - 1 := fun n c => by
      field_simp
    refine ih (sc := fun n => (_, _)) ⟨?_, ?_⟩ ⟨?_, ?_⟩
    · rw [es]; refine (h1.lo.const_mul 2).congr fun n => ?_; push_cast; ring
    · rw [es]; refine (h1.hi.const_mul 2).congr fun n => ?_; push_cast; ring
    · rw [ec]; refine ((h2.lo.const_mul 2).sub_const 1).congr fun n => ?_; push_cast; rw [sh]
    · rw [ec]; refine ((h2.hi.const_mul 2).sub_const 1).congr fun n => ?_; push_cast; rw [sh]

theorem squareUp_encloses {P : ℕ} (k : ℕ) {e : Encl} {a : ℝ} (h : Encloses P e (Real.exp a)) :
    Encloses P (squareUp P k e) (Real.exp (2 ^ k * a)) := by
  induction k generalizing e a with
  | zero => simpa [squareUp] using h
  | succ k ih =>
    rw [show (2 : ℝ) ^ (k + 1) * a = 2 ^ k * (a + a) by ring]
    exact ih (by rw [Real.exp_add]; exact h.mul h)

theorem squareUp_converges {P : ℕ → ℕ} (hP : Tendsto P atTop atTop) (k : ℕ) {e : ℕ → Encl} {a : ℝ}
    (h : Converges P e (Real.exp a)) : Converges P (fun n => squareUp (P n) k (e n)) (Real.exp (2 ^ k * a)) := by
  induction k generalizing e a with
  | zero => simpa [squareUp] using h
  | succ k ih =>
    rw [show (2 : ℝ) ^ (k + 1) * a = 2 ^ k * (a + a) by ring]
    exact ih (by rw [Real.exp_add]; exact h.mul hP h)

end Sys2Proof.Laws
end

