-- ==== Sys2Proof/Laws/Irrational.lean ====
section
/-! SUPPORT. The exponential, cosine and sine of a rational other than 0 are irrational (by Hermite's argument), so none
of them is a midpoint of two binary64 values. -/

namespace Sys2Proof.Laws

open Polynomial

/-- b^M · g(ia/b) is a Gaussian integer for every integer polynomial g of degree at most M. -/
theorem gaussian_aeval (a b : ℤ) (hb : b ≠ 0) (M : ℕ) (g : ℤ[X]) (hg : g.natDegree ≤ M) :
    ∃ x y : ℤ, (b : ℂ) ^ M * aeval ((a / b : ℂ) * Complex.I) g = x + y * Complex.I := by
  have hb' : (b : ℂ) ≠ 0 := by exact_mod_cast hb
  have hz : ∀ k, k ≤ M → ∃ x y : ℤ, (b : ℂ) ^ M * ((g.coeff k : ℂ) * ((a / b : ℂ) * Complex.I) ^ k) =
      x + y * Complex.I := by
    intro k hk
    have hI : ∃ x y : ℤ, Complex.I ^ k = x + y * Complex.I := by
      induction k with
      | zero => exact ⟨1, 0, by simp⟩
      | succ k ih =>
        obtain ⟨x, y, h⟩ := ih (by omega)
        refine ⟨-y, x, ?_⟩
        rw [pow_succ, h, add_mul, mul_assoc, Complex.I_mul_I]
        push_cast
        ring
    obtain ⟨x, y, h⟩ := hI
    refine ⟨b ^ (M - k) * g.coeff k * a ^ k * x, b ^ (M - k) * g.coeff k * a ^ k * y, ?_⟩
    rw [mul_pow, div_pow, h]
    obtain ⟨e, rfl⟩ := Nat.exists_eq_add_of_le hk
    rw [pow_add, Nat.add_sub_cancel_left]
    field_simp
    push_cast
    ring
  have key : ∀ n, n ≤ M + 1 → ∃ x y : ℤ, (b : ℂ) ^ M *
      ∑ k ∈ Finset.range n, (g.coeff k : ℂ) * ((a / b : ℂ) * Complex.I) ^ k = x + y * Complex.I := by
    intro n
    induction n with
    | zero => exact fun _ => ⟨0, 0, by simp⟩
    | succ n ih =>
      intro h
      obtain ⟨x, y, h1⟩ := ih (by omega)
      obtain ⟨x', y', h2⟩ := hz n (by omega)
      exact ⟨x + x', y + y', by rw [Finset.sum_range_succ, mul_add, h1, h2]; push_cast; ring⟩
  obtain ⟨x, y, h⟩ := key (M + 1) le_rfl
  refine ⟨x, y, ?_⟩
  rw [← h, aeval_eq_sum_range' (n := M + 1) (by omega)]
  congr 1
  refine Finset.sum_congr rfl fun k _ => ?_
  rw [zsmul_eq_mul]

/-- Hermite's argument: if integer polynomials take b-integral values at the combination with coefficients c, c' of two roots r, r'
of f, then the same combination of e^r and e^r' is no nonzero rational. -/
theorem exp_combination_ne (f : ℤ[X]) (hf : f.eval 0 ≠ 0) {r r' c c' : ℂ} (hr : r ∈ f.aroots ℂ) (hr' : r' ∈ f.aroots ℂ)
    {b : ℤ} (hb : b ≠ 0)
    (hint : ∀ (M : ℕ) (g : ℤ[X]), g.natDegree ≤ M → ∃ z : ℤ, (b : ℂ) ^ M * (c * aeval r g + c' * aeval r' g) = z)
    {u v : ℤ} (hu : u ≠ 0) (hv : v ≠ 0) : c * Complex.exp r + c' * Complex.exp r' ≠ u / v := by
  intro h
  obtain ⟨C, hC⟩ := LindemannWeierstrass.exp_polynomial_approx f hf
  set d := f.natDegree with hd
  -- the bound on the scaled combination tends to 0
  have hlim : Filter.Tendsto (fun n : ℕ => (|(v : ℝ)| * |(b : ℝ)| ^ d * |C| * (‖c‖ + ‖c'‖)) *
      ((|(b : ℝ)| ^ d * |C|) ^ n / (n.factorial : ℝ))) Filter.atTop (nhds 0) := by
    simpa using (FloorSemiring.tendsto_pow_div_factorial_atTop (|(b : ℝ)| ^ d * |C|)).const_mul
      (|(v : ℝ)| * |(b : ℝ)| ^ d * |C| * (‖c‖ + ‖c'‖))
  obtain ⟨N, hN⟩ := Filter.eventually_atTop.1 (hlim.eventually (gt_mem_nhds (show (0 : ℝ) < 1 by norm_num)))
  obtain ⟨p, hpN, hp⟩ := Nat.exists_infinite_primes
    (N + 2 + (f.eval 0).natAbs + u.natAbs + b.natAbs)
  obtain ⟨n, hn, g, hg, happ⟩ := hC p (by omega) hp
  obtain ⟨z, hz⟩ := hint (p * d) g (by omega)
  have hv' : (v : ℂ) ≠ 0 := by exact_mod_cast hv
  set K : ℤ := n * u * b ^ (p * d) - p * v * z with hK
  have hK0 : K ≠ 0 := by
    intro h0
    have hdiv : (p : ℤ) ∣ n * u * b ^ (p * d) := ⟨v * z, by rw [hK] at h0; linarith⟩
    have hpp : Prime (p : ℤ) := Nat.prime_iff_prime_int.1 hp
    have small : ∀ m : ℤ, m ≠ 0 → m.natAbs < p → ¬ (p : ℤ) ∣ m := fun m h0 hm hd =>
      absurd (Nat.le_of_dvd (Int.natAbs_pos.2 h0) (Int.natCast_dvd.1 hd)) (by omega)
    rcases hpp.dvd_or_dvd hdiv with h1 | h1
    · rcases hpp.dvd_or_dvd h1 with h2 | h2
      · exact hn h2
      · exact small u hu (by omega) h2
    · exact small b hb (by omega) (hpp.dvd_of_dvd_pow h1)
  have hKeq : (K : ℂ) = v * (b : ℂ) ^ (p * d) *
      (c * (n • Complex.exp r - p • aeval r g) + c' * (n • Complex.exp r' - p • aeval r' g)) := by
    have e1 : c * (n • Complex.exp r - p • aeval r g) + c' * (n • Complex.exp r' - p • aeval r' g) =
        n * (c * Complex.exp r + c' * Complex.exp r') - p * (c * aeval r g + c' * aeval r' g) := by
      simp only [zsmul_eq_mul, nsmul_eq_mul]
      ring
    rw [e1, h, mul_sub, hK]
    have e2 : (v : ℂ) * b ^ (p * d) * (p * (c * aeval r g + c' * aeval r' g)) = p * v * z := by
      rw [← hz]; ring
    rw [e2]
    push_cast
    field_simp
  have h1 : (1 : ℝ) ≤ ‖(K : ℂ)‖ := by
    rw [Complex.norm_intCast]
    exact_mod_cast Int.one_le_abs hK0
  obtain ⟨q, rfl⟩ : ∃ q, p = q + 1 := ⟨p - 1, by omega⟩
  have hb1 : ‖(K : ℂ)‖ ≤ |(v : ℝ)| * |(b : ℝ)| ^ ((q + 1) * d) * ((‖c‖ + ‖c'‖) * (|C| ^ (q + 1) / (q.factorial : ℝ))) := by
    rw [hKeq, norm_mul, norm_mul, norm_pow, Complex.norm_intCast, Complex.norm_intCast]
    refine mul_le_mul_of_nonneg_left ?_ (by positivity)
    have hc : ∀ {s}, s ∈ f.aroots ℂ → ‖n • Complex.exp s - (q + 1) • aeval s g‖ ≤ |C| ^ (q + 1) / (q.factorial : ℝ) := by
      intro s hs
      refine (happ hs).trans ?_
      rw [Nat.add_sub_cancel, ← abs_pow]
      gcongr
      exact le_abs_self _
    calc ‖c * (n • Complex.exp r - (q + 1) • aeval r g) + c' * (n • Complex.exp r' - (q + 1) • aeval r' g)‖
        ≤ ‖c‖ * ‖n • Complex.exp r - (q + 1) • aeval r g‖ + ‖c'‖ * ‖n • Complex.exp r' - (q + 1) • aeval r' g‖ := by
          rw [← norm_mul, ← norm_mul]; exact norm_add_le _ _
      _ ≤ ‖c‖ * (|C| ^ (q + 1) / (q.factorial : ℝ)) + ‖c'‖ * (|C| ^ (q + 1) / (q.factorial : ℝ)) := by
          gcongr
          · exact hc hr
          · exact hc hr'
      _ = _ := by ring
  have h2 := hN q (by omega)
  have e3 : |(v : ℝ)| * |(b : ℝ)| ^ ((q + 1) * d) * ((‖c‖ + ‖c'‖) * (|C| ^ (q + 1) / (q.factorial : ℝ))) =
      (|(v : ℝ)| * |(b : ℝ)| ^ d * |C| * (‖c‖ + ‖c'‖)) * ((|(b : ℝ)| ^ d * |C|) ^ q / (q.factorial : ℝ)) := by
    rw [mul_pow, ← pow_mul, show (q + 1) * d = d + d * q by ring, pow_add]
    ring
  rw [e3] at hb1
  linarith

/-- e^r is irrational for every rational r other than 0. -/
theorem irrational_exp_rat (r : ℚ) (hr : r ≠ 0) : Irrational (Real.exp r) := by
  rw [irrational_iff_ne_rational]
  intro u v hv h
  have hd : (r.den : ℤ) ≠ 0 := by exact_mod_cast r.den_ne_zero
  have hn : r.num ≠ 0 := Rat.num_ne_zero.2 hr
  have hu : u ≠ 0 := by
    rintro rfl
    exact absurd h (by simp [Real.exp_ne_zero])
  have hrc : (r : ℂ) = r.num / r.den := by exact_mod_cast (Rat.num_div_den r).symm
  set f : ℤ[X] := C (r.den : ℤ) * X - C r.num with hf
  have hf0 : f ≠ 0 := by
    intro h0
    have := congrArg (fun g => coeff g 0) h0
    simp [hf] at this
    exact hr this
  have hroot : (r : ℂ) ∈ f.aroots ℂ := by
    rw [mem_aroots]
    refine ⟨hf0, ?_⟩
    have hd' : (r.den : ℂ) ≠ 0 := by exact_mod_cast r.den_ne_zero
    rw [hf, hrc]
    simp
    field_simp
    ring
  refine exp_combination_ne f (by simp [hf, hr]) (c := 1) (c' := 0) hroot hroot hd ?_ hu hv ?_
  · intro M g hg
    have hd' : (r.den : ℂ) ≠ 0 := by exact_mod_cast r.den_ne_zero
    refine ⟨∑ k ∈ Finset.range (M + 1), g.coeff k * r.num ^ k * (r.den : ℤ) ^ (M - k), ?_⟩
    rw [aeval_eq_sum_range' (n := M + 1) (by omega), zero_mul, add_zero, one_mul, Finset.mul_sum]
    push_cast
    refine Finset.sum_congr rfl fun k hk => ?_
    obtain ⟨e, rfl⟩ := Nat.exists_eq_add_of_le (show k ≤ M by rw [Finset.mem_range] at hk; omega)
    rw [hrc, zsmul_eq_mul, div_pow, pow_add, Nat.add_sub_cancel_left]
    field_simp
  · have : Complex.exp (r : ℂ) = ((Real.exp r : ℝ) : ℂ) := by push_cast; rfl
    rw [this, h]
    push_cast
    ring

/-- The polynomial whose roots are ±i·a/b. -/
theorem mem_aroots_imag (a b : ℤ) (hb : b ≠ 0) {s : ℂ} (hs : s ^ 2 = -1) :
    (a / b : ℂ) * s ∈ (C (b ^ 2) * X ^ 2 + C (a ^ 2) : ℤ[X]).aroots ℂ := by
  have hb' : (b : ℂ) ≠ 0 := by exact_mod_cast hb
  rw [mem_aroots]
  constructor
  · intro h0
    have e0 := congrArg (eval 0) h0
    have e1 := congrArg (eval 1) h0
    simp at e0 e1
    exact hb (by simpa [e0] using e1)
  · have : aeval ((a / b : ℂ) * s) (C (b ^ 2) * X ^ 2 + C (a ^ 2) : ℤ[X]) = (b : ℂ) ^ 2 * ((a / b : ℂ) * s) ^ 2 + (a : ℂ) ^ 2 := by
      simp
    rw [this, mul_pow, hs, div_pow]
    field_simp
    ring

/-- Conjugating the argument of an integer polynomial conjugates its value. -/
theorem aeval_conj_imag (t : ℝ) (g : ℤ[X]) :
    aeval ((t : ℂ) * -Complex.I) g = (starRingEnd ℂ) (aeval ((t : ℂ) * Complex.I) g) := by
  rw [aeval_def, aeval_def, hom_eval₂]
  congr 1
  · ext
    simp
  · simp

/-- cos r is no nonzero rational, and sin r is no nonzero rational, for every rational r other than 0. -/
theorem cos_sin_rat_ne (r : ℚ) (hr : r ≠ 0) (u v : ℤ) (hu : u ≠ 0) (hv : v ≠ 0) :
    Real.cos r ≠ u / v ∧ Real.sin r ≠ u / v := by
  have hd : (r.den : ℤ) ≠ 0 := by exact_mod_cast r.den_ne_zero
  have hn : r.num ≠ 0 := Rat.num_ne_zero.2 hr
  have hrc : ((r.num : ℤ) / ((r.den : ℤ) : ℂ)) = ((r : ℝ) : ℂ) := by
    rw [Complex.ofReal_ratCast]
    exact_mod_cast Rat.num_div_den r
  have h1 := mem_aroots_imag r.num r.den hd (s := Complex.I) (by simp)
  have h2 := mem_aroots_imag r.num r.den hd (s := -Complex.I) (by simp)
  have hf : eval 0 (C ((r.den : ℤ) ^ 2) * X ^ 2 + C (r.num ^ 2) : ℤ[X]) ≠ 0 := by simpa using hn
  have hval : ∀ (M : ℕ) (g : ℤ[X]), g.natDegree ≤ M → ∃ x y : ℤ,
      ((r.den : ℤ) : ℂ) ^ M * aeval ((r.num / (r.den : ℤ) : ℂ) * Complex.I) g = x + y * Complex.I ∧
      ((r.den : ℤ) : ℂ) ^ M * aeval ((r.num / (r.den : ℤ) : ℂ) * -Complex.I) g = x - y * Complex.I := by
    intro M g hg
    obtain ⟨x, y, h⟩ := gaussian_aeval r.num r.den hd M g hg
    refine ⟨x, y, h, ?_⟩
    have := congrArg (starRingEnd ℂ) h
    rw [hrc] at this ⊢
    rw [aeval_conj_imag]
    simpa [sub_eq_add_neg] using this
  have hexp : Complex.exp ((r.num / (r.den : ℤ) : ℂ) * Complex.I) = Real.cos r + Real.sin r * Complex.I := by
    rw [hrc, Complex.exp_mul_I]
    simp
  have hexp' : Complex.exp ((r.num / (r.den : ℤ) : ℂ) * -Complex.I) = Real.cos r - Real.sin r * Complex.I := by
    rw [hrc, mul_neg, ← neg_mul, Complex.exp_mul_I]
    simp [sub_eq_add_neg]
  constructor
  · intro h
    refine exp_combination_ne _ hf (c := 1) (c' := 1) h1 h2 hd ?_ (u := 2 * u) (by simpa using hu) hv ?_
    · intro M g hg
      obtain ⟨x, y, ha, hb⟩ := hval M g hg
      exact ⟨2 * x, by rw [one_mul, one_mul, mul_add, ha, hb]; push_cast; ring⟩
    · rw [hexp, hexp', h]
      push_cast
      ring
  · intro h
    refine exp_combination_ne _ hf (c := -Complex.I) (c' := Complex.I) h1 h2 hd ?_ (u := 2 * u) (by simpa using hu) hv ?_
    · intro M g hg
      obtain ⟨x, y, ha, hb⟩ := hval M g hg
      refine ⟨2 * y, ?_⟩
      have : ((r.den : ℤ) : ℂ) ^ M * (-Complex.I * aeval ((r.num / (r.den : ℤ) : ℂ) * Complex.I) g +
          Complex.I * aeval ((r.num / (r.den : ℤ) : ℂ) * -Complex.I) g) =
          -Complex.I * (x + y * Complex.I) + Complex.I * (x - y * Complex.I) := by
        rw [← ha, ← hb]; ring
      rw [this]
      push_cast
      linear_combination (-2 * (y : ℂ)) * Complex.I_sq
    · rw [hexp, hexp', h]
      push_cast
      linear_combination (-2 * ((u : ℂ) / v)) * Complex.I_sq

/-- cos r is irrational for every rational r other than 0. -/
theorem irrational_cos_rat (r : ℚ) (hr : r ≠ 0) : Irrational (Real.cos r) := by
  rw [irrational_iff_ne_rational]
  intro u v hv h
  rcases eq_or_ne u 0 with rfl | hu
  · have hs := Real.sin_sq_add_cos_sq (r : ℝ)
    rw [h] at hs
    have : Real.sin r = 1 ∨ Real.sin r = -1 := by
      rw [← sq_eq_one_iff]
      simpa using hs
    rcases this with h1 | h1
    · exact (cos_sin_rat_ne r hr 1 1 (by simp) (by simp)).2 (by simpa using h1)
    · exact (cos_sin_rat_ne r hr (-1) 1 (by simp) (by simp)).2 (by simpa using h1)
  · exact (cos_sin_rat_ne r hr u v hu hv).1 h

/-- sin r is irrational for every rational r other than 0. -/
theorem irrational_sin_rat (r : ℚ) (hr : r ≠ 0) : Irrational (Real.sin r) := by
  rw [irrational_iff_ne_rational]
  intro u v hv h
  rcases eq_or_ne u 0 with rfl | hu
  · have hs := Real.sin_sq_add_cos_sq (r : ℝ)
    rw [h] at hs
    have : Real.cos r = 1 ∨ Real.cos r = -1 := by
      rw [← sq_eq_one_iff]
      simpa using hs
    rcases this with h1 | h1
    · exact (cos_sin_rat_ne r hr 1 1 (by simp) (by simp)).1 (by simpa using h1)
    · exact (cos_sin_rat_ne r hr (-1) 1 (by simp) (by simp)).1 (by simpa using h1)
  · exact (cos_sin_rat_ne r hr u v hu hv).2 h

end Sys2Proof.Laws
end

