-- ==== Sys2Proof/Laws/Rounding.lean ====
section
/-! SUPPORT. Rounding to binary64 (spec/00_scope.md R13, `RNq`) is constant near every irrational number. -/

namespace Sys2Proof.Laws

open Sys2Proof.Machine

/-- The magnitude bits of every value strictly between j and j + 1 half-units of 2^-1074. -/
def cellBits (j : Nat) : Nat :=
  let k := flog2 (j / 2) - 52
  let q := j / 2 / 2 ^ k
  Nat.min (k * 2 ^ 52 + (if j < (2 * q + 1) * 2 ^ k then q else q + 1)) infMag

/-- Rounding is constant strictly between neighbouring half-units, where no value is a midpoint. -/
theorem roundUnits_cell {n d j : Nat} (h1 : j * d < 2 * n) (h2 : 2 * n < (j + 1) * d) :
    roundUnits n d = cellBits j := by
  have hd : 0 < d := by
    rcases Nat.eq_zero_or_pos d with rfl | h
    · omega
    · exact h
  have hq : n / d = j / 2 := by
    apply Nat.div_eq_of_lt_le
    · have : 2 * (j / 2 * d) ≤ j * d := by rw [← mul_assoc]; exact Nat.mul_le_mul_right _ (by omega)
      omega
    · have : (j + 1) * d ≤ 2 * ((j / 2 + 1) * d) := by rw [← mul_assoc]; exact Nat.mul_le_mul_right _ (by omega)
      omega
  unfold roundUnits cellBits
  rw [hq]
  simp only []
  generalize flog2 (j / 2) - 52 = k
  congr 2
  have hk : 0 < 2 ^ k := Nat.two_pow_pos k
  have hqq : n / (d * 2 ^ k) = j / 2 / 2 ^ k := by rw [← Nat.div_div_eq_div_mul, hq]
  unfold roundHalfEven
  simp only []
  rw [hqq]
  generalize hQ : j / 2 / 2 ^ k = q at *
  have hmod := Nat.div_add_mod n (d * 2 ^ k)
  rw [hqq] at hmod
  have hM : 2 * (d * 2 ^ k * q) + d * 2 ^ k = (2 * q + 1) * 2 ^ k * d := by ring
  rcases Nat.lt_or_ge j ((2 * q + 1) * 2 ^ k) with hj | hj
  · have h3 : (j + 1) * d ≤ (2 * q + 1) * 2 ^ k * d := Nat.mul_le_mul_right _ hj
    rw [if_pos (by omega), if_pos hj]
  · have h3 : (2 * q + 1) * 2 ^ k * d ≤ j * d := Nat.mul_le_mul_right _ hj
    rw [if_neg (by omega), if_pos (by omega), if_neg (by omega)]

/-- Rationals close enough to one irrational number all round to the same binary64. -/
theorem rnq_locally_constant {r : ℝ} (hr : Irrational r) :
    ∃ v : B64, ∃ ε > 0, ∀ (n : ℤ) (d : ℕ), 0 < d → |(n : ℝ) / d - r| < ε → rnq n d = v := by
  have key : ∀ s : ℝ, 0 < s → Irrational s → ∃ j : ℕ, ∃ ε > 0, ∀ (n d : ℕ), 0 < d → |(n : ℝ) / d - s| < ε →
      0 < n ∧ roundUnits (n * 2 ^ 1074) d = cellBits j := by
    intro s hs hi
    set x : ℝ := s * 2 ^ 1075 with hx
    have hx0 : 0 ≤ x := by positivity
    have hf1 : (⌊x⌋₊ : ℝ) ≤ x := Nat.floor_le hx0
    have hf2 : x < ⌊x⌋₊ + 1 := Nat.lt_floor_add_one x
    have hne : (⌊x⌋₊ : ℝ) ≠ x := by
      intro h
      have h2 : Irrational x := by
        rw [hx, show (2 : ℝ) ^ 1075 = ((2 ^ 1075 : ℚ) : ℝ) by push_cast; rfl]
        exact hi.mul_ratCast (pow_ne_zero _ two_ne_zero)
      exact h2.ne_nat _ h.symm
    have hf1' : (⌊x⌋₊ : ℝ) < x := lt_of_le_of_ne hf1 hne
    refine ⟨⌊x⌋₊, min ((x - ⌊x⌋₊) / 2 ^ 1075) ((⌊x⌋₊ + 1 - x) / 2 ^ 1075), ?_, ?_⟩
    · exact lt_min (div_pos (sub_pos.2 hf1') (by positivity)) (div_pos (sub_pos.2 hf2) (by positivity))
    · intro n d hd h
      have hd' : (0 : ℝ) < d := by exact_mod_cast hd
      obtain ⟨ha, hb⟩ := abs_lt.1 h
      have h1 := lt_of_lt_of_le (neg_lt.1 ha) (min_le_left _ _)
      have h2 := lt_of_lt_of_le hb (min_le_right _ _)
      rw [lt_div_iff₀ (by positivity)] at h1 h2
      have e1 : (⌊x⌋₊ : ℝ) < (n : ℝ) / d * 2 ^ 1075 := by
        have : (s - (n : ℝ) / d) * 2 ^ 1075 = x - (n : ℝ) / d * 2 ^ 1075 := by rw [hx, sub_mul]
        rw [neg_sub] at h1
        rw [this] at h1
        exact (sub_lt_sub_iff_left x).1 h1
      have e2 : (n : ℝ) / d * 2 ^ 1075 < ⌊x⌋₊ + 1 := by
        have : ((n : ℝ) / d - s) * 2 ^ 1075 = (n : ℝ) / d * 2 ^ 1075 - x := by rw [hx, sub_mul]
        rw [this] at h2
        exact (sub_lt_sub_iff_right x).1 h2
      have e3 : (n : ℝ) / d * 2 ^ 1075 = 2 * ((n : ℝ) * 2 ^ 1074) / d := by
        rw [pow_succ (2 : ℝ) 1074]
        generalize (2 : ℝ) ^ 1074 = c
        ring
      rw [e3, lt_div_iff₀ hd'] at e1
      rw [e3, div_lt_iff₀ hd'] at e2
      have e1' : ⌊x⌋₊ * d < 2 * (n * 2 ^ 1074) := by exact_mod_cast e1
      have e2' : 2 * (n * 2 ^ 1074) < (⌊x⌋₊ + 1) * d := by exact_mod_cast e2
      refine ⟨?_, roundUnits_cell e1' e2'⟩
      rcases Nat.eq_zero_or_pos n with rfl | h
      · rw [Nat.zero_mul, Nat.mul_zero] at e1'
        exact absurd e1' (Nat.not_lt_zero _)
      · exact h
  have hr0 : r ≠ 0 := by
    rintro rfl
    exact not_irrational_zero hr
  rcases lt_or_gt_of_ne hr0 with hneg | hpos
  · obtain ⟨j, ε, hε, hk⟩ := key (-r) (by linarith) (hr.neg)
    refine ⟨fpack true (cellBits j), min ε (-r), lt_min hε (by linarith), ?_⟩
    intro n d hd h
    have hd' : (0 : ℝ) < d := by exact_mod_cast hd
    have hn : n < 0 := by
      have := (abs_lt.1 (lt_of_lt_of_le h (min_le_right _ _))).2
      have h0 : (n : ℝ) / d < 0 := by linarith
      rw [div_lt_iff₀ hd', zero_mul] at h0
      exact_mod_cast h0
    have hcast : ((n.natAbs : ℕ) : ℝ) = -(n : ℝ) := by
      rw [Nat.cast_natAbs, abs_of_neg hn]; push_cast; ring
    obtain ⟨_, h2⟩ := hk n.natAbs d hd (by
      rw [hcast, show -(n : ℝ) / d - -r = -((n : ℝ) / d - r) by ring, abs_neg]
      exact lt_of_lt_of_le h (min_le_left _ _))
    rw [rnq, if_neg (by omega), h2, decide_eq_true hn]
  · obtain ⟨j, ε, hε, hk⟩ := key r hpos hr
    refine ⟨fpack false (cellBits j), min ε r, lt_min hε hpos, ?_⟩
    intro n d hd h
    have hd' : (0 : ℝ) < d := by exact_mod_cast hd
    have hn : 0 < n := by
      have := (abs_lt.1 (lt_of_lt_of_le h (min_le_right _ _))).1
      have h0 : 0 < (n : ℝ) / d := by linarith
      rw [lt_div_iff₀ hd', zero_mul] at h0
      exact_mod_cast h0
    have hcast : ((n.natAbs : ℕ) : ℝ) = (n : ℝ) := by
      rw [Nat.cast_natAbs, abs_of_pos hn]
    obtain ⟨_, h2⟩ := hk n.natAbs d hd (by
      rw [hcast]; exact lt_of_lt_of_le h (min_le_left _ _))
    rw [rnq, if_neg (by omega), h2, decide_eq_false (by omega)]

end Sys2Proof.Laws
end

