-- ==== Sys2Proof/Laws/Series.lean ====
section
/-! SUPPORT. The Taylor sums and Machin's series (Machine/Elementary.lean) hold the sine, the cosine, the exponential and π, and
how wide their enclosures are. -/

namespace Sys2Proof.Laws

open Sys2Proof.Machine Filter Topology

/-! ## The Taylor sums -/

/-- The term of number n. -/
noncomputable def taylorTerm (τ : ℝ) (n : ℕ) : ℝ := τ ^ n / n.factorial

/-- The sum of the terms below number n whose number is r modulo 4. -/
noncomputable def termSum (τ : ℝ) (r : ℕ) : ℕ → ℝ
  | 0 => 0
  | n + 1 => termSum τ r n + if n % 4 = r then taylorTerm τ n else 0

theorem taylorTerm_succ (τ : ℝ) (n : ℕ) : taylorTerm τ (n + 1) = taylorTerm τ n * τ / (n + 1) := by
  unfold taylorTerm
  rw [pow_succ, Nat.factorial_succ]
  push_cast
  field_simp

theorem taylorTerm_nonneg {τ : ℝ} (h : 0 ≤ τ) (n : ℕ) : 0 ≤ taylorTerm τ n := by
  unfold taylorTerm
  positivity

theorem taylorTerm_le {τ : ℝ} (h : 0 ≤ τ) (h1 : τ ≤ 1 / 2) (n : ℕ) : taylorTerm τ n ≤ 1 / 2 ^ n := by
  unfold taylorTerm
  have : τ ^ n ≤ (1 / 2) ^ n := pow_le_pow_left₀ h h1 n
  rw [div_pow, one_pow] at this
  have h2 : (1 : ℝ) ≤ n.factorial := by exact_mod_cast Nat.factorial_pos n
  exact (div_le_self (by positivity) h2).trans this

/-- The ends of term number n and of the four sums, and how far apart they are, as `taylorFrom` carries them. -/
structure TaylorInv (P tlo thi : ℕ) (τ : ℝ) (n lo hi : ℕ) (s : TaylorSums) : Prop where
  term_lo : (lo : ℝ) ≤ taylorTerm τ n * 2 ^ P
  term_hi : taylorTerm τ n * 2 ^ P ≤ hi
  e0 : Encloses P s.s0 (termSum τ (n % 4) n)
  e1 : Encloses P s.s1 (termSum τ ((n + 1) % 4) n)
  e2 : Encloses P s.s2 (termSum τ ((n + 2) % 4) n)
  e3 : Encloses P s.s3 (termSum τ ((n + 3) % 4) n)
  first : thi ≤ 2 ^ P → n = 0 → hi ≤ lo
  narrow : thi ≤ 2 ^ P → hi ≤ lo + (thi - tlo + 4)
  w0 : thi ≤ 2 ^ P → s.s0.hi - s.s0.lo ≤ n * (thi - tlo + 4 : ℕ)
  w1 : thi ≤ 2 ^ P → s.s1.hi - s.s1.lo ≤ n * (thi - tlo + 4 : ℕ)
  w2 : thi ≤ 2 ^ P → s.s2.hi - s.s2.lo ≤ n * (thi - tlo + 4 : ℕ)
  w3 : thi ≤ 2 ^ P → s.s3.hi - s.s3.lo ≤ n * (thi - tlo + 4 : ℕ)

/-- What the Taylor loop answers after m terms. -/
structure TaylorDone (P tlo thi : ℕ) (τ : ℝ) (m : ℕ) (s : TaylorSums) : Prop where
  e0 : Encloses P s.s0 (termSum τ 0 m)
  e1 : Encloses P s.s1 (termSum τ 1 m)
  e2 : Encloses P s.s2 (termSum τ 2 m)
  e3 : Encloses P s.s3 (termSum τ 3 m)
  rest : taylorTerm τ m * 2 ^ P ≤ s.rest
  w0 : thi ≤ 2 ^ P → s.s0.hi - s.s0.lo ≤ m * (thi - tlo + 4 : ℕ)
  w1 : thi ≤ 2 ^ P → s.s1.hi - s.s1.lo ≤ m * (thi - tlo + 4 : ℕ)
  w2 : thi ≤ 2 ^ P → s.s2.hi - s.s2.lo ≤ m * (thi - tlo + 4 : ℕ)
  w3 : thi ≤ 2 ^ P → s.s3.hi - s.s3.lo ≤ m * (thi - tlo + 4 : ℕ)

theorem taylorDone_spec {P tlo thi : ℕ} {τ : ℝ} {n lo hi : ℕ} {s : TaylorSums} (h : TaylorInv P tlo thi τ n lo hi s) :
    TaylorDone P tlo thi τ n (taylorFrom.taylorDone n hi s) ∧ (taylorFrom.taylorDone n hi s).rest = hi := by
  unfold taylorFrom.taylorDone
  obtain ⟨_, hh, e0, e1, e2, e3, _, _, w0, w1, w2, w3⟩ := h
  have hn : n % 4 = 0 ∨ n % 4 = 1 ∨ n % 4 = 2 ∨ n % 4 = 3 := by omega
  rcases hn with hn | hn | hn | hn
  · rw [show (n + 1) % 4 = 1 by omega] at e1
    rw [show (n + 2) % 4 = 2 by omega] at e2
    rw [show (n + 3) % 4 = 3 by omega] at e3
    rw [hn] at e0
    simp only [hn]
    exact ⟨⟨e0, e1, e2, e3, by exact_mod_cast hh, w0, w1, w2, w3⟩, trivial⟩
  · rw [show (n + 1) % 4 = 2 by omega] at e1
    rw [show (n + 2) % 4 = 3 by omega] at e2
    rw [show (n + 3) % 4 = 0 by omega] at e3
    rw [hn] at e0
    simp only [hn]
    exact ⟨⟨e3, e0, e1, e2, by exact_mod_cast hh, w3, w0, w1, w2⟩, trivial⟩
  · rw [show (n + 1) % 4 = 3 by omega] at e1
    rw [show (n + 2) % 4 = 0 by omega] at e2
    rw [show (n + 3) % 4 = 1 by omega] at e3
    rw [hn] at e0
    simp only [hn]
    exact ⟨⟨e2, e3, e0, e1, by exact_mod_cast hh, w2, w3, w0, w1⟩, trivial⟩
  · rw [show (n + 1) % 4 = 0 by omega] at e1
    rw [show (n + 2) % 4 = 1 by omega] at e2
    rw [show (n + 3) % 4 = 2 by omega] at e3
    rw [hn] at e0
    simp only [hn]
    exact ⟨⟨e1, e2, e3, e0, by exact_mod_cast hh, w1, w2, w3, w0⟩, trivial⟩

theorem taylorInv_step {P tlo thi : ℕ} {τ : ℝ} (h0 : 0 ≤ τ) (h1 : τ ≤ 1 / 2) (hlo : (tlo : ℝ) ≤ τ * 2 ^ P)
    (hhi : τ * 2 ^ P ≤ thi) {n lo hi : ℕ} {s : TaylorSums} (h : TaylorInv P tlo thi τ n lo hi s) :
    TaylorInv P tlo thi τ (n + 1) (lo * tlo / (2 ^ P * (n + 1))) (hi * thi / (2 ^ P * (n + 1)) + 1)
      (s.push ⟨lo, hi⟩) := by
  obtain ⟨tl, th, e0, e1, e2, e3, hf, hn, w0, w1, w2, w3⟩ := h
  have h2 : (0 : ℝ) < 2 ^ P := by positivity
  have hd : 0 < 2 ^ P * (n + 1) := by positivity
  have ht := taylorTerm_nonneg h0 n
  have hskip : ∀ j, (n + 1 + j) % 4 ≠ n % 4 → termSum τ ((n + 1 + j) % 4) (n + 1) = termSum τ ((n + 1 + j) % 4) n :=
    fun j hj => by rw [termSum, if_neg (fun hh => hj hh.symm), add_zero]
  have hlo' : (lo * tlo / (2 ^ P * (n + 1)) : ℕ) * (2 ^ P * (n + 1)) ≤ lo * tlo := Nat.div_mul_le_self _ _
  have hhi' : hi * thi < (hi * thi / (2 ^ P * (n + 1)) + 1) * (2 ^ P * (n + 1)) := by
    have := Nat.lt_mul_div_succ (hi * thi) hd
    rwa [mul_comm (2 ^ P * (n + 1))] at this
  have hlor : ((lo * tlo / (2 ^ P * (n + 1)) : ℕ) : ℝ) * (2 ^ P * (n + 1)) ≤ lo * tlo := by exact_mod_cast hlo'
  have hhir : (hi : ℝ) * thi ≤ ((hi * thi / (2 ^ P * (n + 1)) + 1 : ℕ) : ℝ) * (2 ^ P * (n + 1)) := by
    exact_mod_cast hhi'.le
  have hdr : (0 : ℝ) < 2 ^ P * (n + 1) := by positivity
  have hmid : taylorTerm τ (n + 1) * 2 ^ P * (2 ^ P * (n + 1)) = taylorTerm τ n * 2 ^ P * (τ * 2 ^ P) := by
    rw [taylorTerm_succ]
    field_simp
  constructor
  · refine le_of_mul_le_mul_right (hlor.trans ?_) hdr
    rw [hmid]
    exact mul_le_mul tl hlo (Nat.cast_nonneg _) (by positivity)
  · refine le_of_mul_le_mul_right (le_trans ?_ hhir) hdr
    rw [hmid]
    exact mul_le_mul th hhi (by positivity) (Nat.cast_nonneg _)
  · rw [show (n + 1) % 4 = (n + 1 + 0) % 4 by omega, hskip 0 (by omega)]
    exact e1
  · rw [hskip 1 (by omega), show (n + 1 + 1) % 4 = (n + 2) % 4 by omega]
    exact e2
  · rw [hskip 2 (by omega), show (n + 1 + 2) % 4 = (n + 3) % 4 by omega]
    exact e3
  · rw [show (n + 1 + 3) % 4 = n % 4 by omega, termSum, if_pos rfl]
    exact e0.add ⟨by exact_mod_cast tl, by exact_mod_cast th⟩
  · intro _ h; omega
  · intro hp
    have hw := hn hp
    have hlp : lo ≤ 2 ^ P := by
      have : taylorTerm τ n * 2 ^ P ≤ 1 * 2 ^ P := by
        refine mul_le_mul_of_nonneg_right ((taylorTerm_le h0 h1 n).trans ?_) h2.le
        rw [div_le_one (by positivity)]
        exact one_le_pow₀ (by norm_num)
      have h3 : (lo : ℝ) ≤ 2 ^ P := by linarith
      exact_mod_cast h3
    have hle : tlo ≤ thi := by exact_mod_cast hlo.trans hhi
    obtain ⟨δ, rfl⟩ := Nat.exists_eq_add_of_le hle
    rw [Nat.add_sub_cancel_left] at hw ⊢
    -- hi·thi ≤ lo·tlo + (n + 1)·(δ + 3)·2^P - ...
    have hmain : hi * (tlo + δ) ≤ lo * tlo + (δ + 2) * (2 ^ P * (n + 1)) := by
      rcases Nat.eq_zero_or_pos n with rfl | hpos
      · have h4 := hf hp rfl
        calc hi * (tlo + δ) ≤ lo * (tlo + δ) := Nat.mul_le_mul_right _ h4
          _ = lo * tlo + lo * δ := by ring
          _ ≤ lo * tlo + 2 ^ P * δ := by gcongr
          _ ≤ _ := by nlinarith [Nat.two_pow_pos P]
      · calc hi * (tlo + δ) ≤ (lo + (δ + 4)) * (tlo + δ) := Nat.mul_le_mul_right _ hw
          _ = lo * tlo + (lo * δ + (δ + 4) * (tlo + δ)) := by ring
          _ ≤ lo * tlo + (2 ^ P * δ + (δ + 4) * 2 ^ P) := by gcongr
          _ ≤ lo * tlo + (δ + 2) * (2 ^ P * (n + 1)) := by
            have : 2 ^ P * δ + (δ + 4) * 2 ^ P = (δ + 2) * (2 ^ P * 2) := by ring
            rw [this]
            gcongr
            omega
    have hlo2 : lo * tlo < (lo * tlo / (2 ^ P * (n + 1)) + 1) * (2 ^ P * (n + 1)) := by
      have := Nat.lt_mul_div_succ (lo * tlo) hd
      rwa [mul_comm (2 ^ P * (n + 1))] at this
    have hhi2 : hi * (tlo + δ) / (2 ^ P * (n + 1)) * (2 ^ P * (n + 1)) ≤ hi * (tlo + δ) := Nat.div_mul_le_self _ _
    have : hi * (tlo + δ) / (2 ^ P * (n + 1)) * (2 ^ P * (n + 1)) <
        (lo * tlo / (2 ^ P * (n + 1)) + 1 + (δ + 2)) * (2 ^ P * (n + 1)) := by
      rw [add_mul _ (δ + 2)]
      omega
    have := lt_of_mul_lt_mul_right this (Nat.zero_le _)
    omega
  · intro hp
    refine (w1 hp).trans ?_
    gcongr
    omega
  · intro hp
    refine (w2 hp).trans ?_
    gcongr
    omega
  · intro hp
    refine (w3 hp).trans ?_
    gcongr
    omega
  · intro hp
    have hw := hn hp
    have h4 := w0 hp
    simp only [TaylorSums.push, enclAdd]
    have : ((n + 1 : ℕ) : ℤ) * ((thi - tlo + 4 : ℕ) : ℤ) = n * ((thi - tlo + 4 : ℕ) : ℤ) + ((thi - tlo + 4 : ℕ) : ℤ) := by
      push_cast; ring
    rw [this]
    omega

theorem taylorFrom_spec {P tlo thi : ℕ} {τ : ℝ} (h0 : 0 ≤ τ) (h1 : τ ≤ 1 / 2) (hlo : (tlo : ℝ) ≤ τ * 2 ^ P)
    (hhi : τ * 2 ^ P ≤ thi) : ∀ (fuel n lo hi : ℕ) (s : TaylorSums), TaylorInv P tlo thi τ n lo hi s →
    ∃ m, m ≤ n + fuel ∧ TaylorDone P tlo thi τ m (taylorFrom P tlo thi fuel n lo hi s) ∧
      (thi ≤ 2 ^ P → (taylorFrom P tlo thi fuel n lo hi s).rest ≤ 1 ∨
        m = n + fuel ∧ ((taylorFrom P tlo thi fuel n lo hi s).rest : ℝ) ≤ taylorTerm τ m * 2 ^ P + (thi - tlo + 4 : ℕ)) := by
  intro fuel
  induction fuel with
  | zero =>
    intro n lo hi s h
    obtain ⟨hd, hr⟩ := taylorDone_spec h
    refine ⟨n, le_rfl, hd, fun hp => .inr ⟨rfl, ?_⟩⟩
    rw [taylorFrom, hr]
    have h4 : (hi : ℝ) ≤ lo + (thi - tlo + 4 : ℕ) := by exact_mod_cast h.narrow hp
    have := h.term_lo
    push_cast at h4 ⊢
    linarith
  | succ fuel ih =>
    intro n lo hi s h
    rw [taylorFrom]
    split
    · next hle =>
      obtain ⟨hd, hr⟩ := taylorDone_spec h
      exact ⟨n, by omega, hd, fun _ => .inl (by rw [hr]; exact_mod_cast hle)⟩
    · obtain ⟨m, hm, hd, hr⟩ := ih _ _ _ _ (taylorInv_step h0 h1 hlo hhi h)
      exact ⟨m, by omega, hd, fun hp => (hr hp).imp id fun ⟨a, b⟩ => ⟨by omega, b⟩⟩

theorem taylor_spec {P tlo thi : ℕ} {τ : ℝ} (h0 : 0 ≤ τ) (h1 : τ ≤ 1 / 2) (hlo : (tlo : ℝ) ≤ τ * 2 ^ P)
    (hhi : τ * 2 ^ P ≤ thi) : ∃ m, m ≤ P ∧ TaylorDone P tlo thi τ m (taylor P tlo thi) ∧
      (thi ≤ 2 ^ P → (taylor P tlo thi).rest ≤ (thi - tlo + 5 : ℕ)) := by
  have hz : Encloses P ⟨0, 0⟩ 0 := ⟨by simp, by simp⟩
  have hs : ∀ r, Encloses P ⟨0, 0⟩ (termSum τ r 0) := fun r => hz
  have hi : TaylorInv P tlo thi τ 0 (2 ^ P) (2 ^ P) ⟨⟨0, 0⟩, ⟨0, 0⟩, ⟨0, 0⟩, ⟨0, 0⟩, 0⟩ :=
    ⟨by simp [taylorTerm], by simp [taylorTerm], hs _, hs _, hs _, hs _, fun _ _ => le_rfl, fun _ => by omega,
      fun _ => by simp, fun _ => by simp, fun _ => by simp, fun _ => by simp⟩
  obtain ⟨m, hm, hd, hr⟩ := taylorFrom_spec h0 h1 hlo hhi P 0 _ _ _ hi
  refine ⟨m, by omega, hd, fun hp => ?_⟩
  rcases hr hp with h | ⟨h, h'⟩
  · refine h.trans ?_
    push_cast
    omega
  · have h4 : taylorTerm τ m * 2 ^ P ≤ 1 := by
      have := mul_le_mul_of_nonneg_right (taylorTerm_le h0 h1 m) (show (0 : ℝ) ≤ 2 ^ P by positivity)
      rw [h, Nat.zero_add] at this ⊢
      rwa [one_div, inv_mul_cancel₀ (by positivity)] at this
    have h5 : ((taylor P tlo thi).rest : ℝ) ≤ ((thi - tlo + 5 : ℕ) : ℤ) := by
      refine h'.trans ?_
      push_cast
      linarith
    exact_mod_cast h5

/-! ## Sine, cosine and exponential -/

theorem sum_termSum (τ : ℝ) (m : ℕ) :
    ∑ k ∈ Finset.range m, ((τ : ℂ) * Complex.I) ^ k / k.factorial =
      ((termSum τ 0 m - termSum τ 2 m : ℝ) : ℂ) + ((termSum τ 1 m - termSum τ 3 m : ℝ) : ℂ) * Complex.I ∧
    ∑ k ∈ Finset.range m, (τ : ℂ) ^ k / k.factorial =
      ((termSum τ 0 m + termSum τ 1 m + (termSum τ 2 m + termSum τ 3 m) : ℝ) : ℂ) := by
  induction m with
  | zero => simp [termSum]
  | succ m ih =>
    rw [Finset.sum_range_succ, Finset.sum_range_succ, ih.1, ih.2]
    have hI : Complex.I ^ m = Complex.I ^ (m % 4) := by
      conv_lhs => rw [← Nat.div_add_mod m 4, pow_add, pow_mul, Complex.I_pow_four, one_pow, one_mul]
    have ht : (τ : ℂ) ^ m / m.factorial = (taylorTerm τ m : ℂ) := by unfold taylorTerm; push_cast; rfl
    rw [mul_pow, mul_div_right_comm, ht, hI]
    have hm : m % 4 = 0 ∨ m % 4 = 1 ∨ m % 4 = 2 ∨ m % 4 = 3 := by omega
    have hI3 : Complex.I ^ 3 = -Complex.I := by rw [pow_succ, Complex.I_sq]; ring
    rcases hm with hm | hm | hm | hm <;> simp only [termSum, hm] <;> constructor <;> push_cast <;>
      simp [hI3] <;> ring

theorem taylor_error {τ : ℝ} (h0 : 0 ≤ τ) (h1 : τ ≤ 1 / 2) (m : ℕ) :
    |Real.sin τ - (termSum τ 1 m - termSum τ 3 m)| ≤ 2 * taylorTerm τ m ∧
    |Real.cos τ - (termSum τ 0 m - termSum τ 2 m)| ≤ 2 * taylorTerm τ m ∧
    |Real.exp τ - (termSum τ 0 m + termSum τ 1 m + (termSum τ 2 m + termSum τ 3 m))| ≤ 2 * taylorTerm τ m := by
  have hn : ‖(τ : ℂ) * Complex.I‖ = τ := by simp [abs_of_nonneg h0]
  have hn' : ‖(τ : ℂ)‖ = τ := by simp [abs_of_nonneg h0]
  have hd : τ / (m.succ : ℝ) ≤ 1 / 2 := by
    refine (div_le_self h0 ?_).trans h1
    exact_mod_cast Nat.succ_pos m
  have hb := Complex.exp_bound' (x := (τ : ℂ) * Complex.I) (n := m) (by rw [hn]; exact hd)
  have hb' := Complex.exp_bound' (x := (τ : ℂ)) (n := m) (by rw [hn']; exact hd)
  rw [hn, (sum_termSum τ m).1, Complex.exp_mul_I] at hb
  rw [hn', (sum_termSum τ m).2] at hb'
  have e : τ ^ m / (m.factorial : ℝ) * 2 = 2 * taylorTerm τ m := by unfold taylorTerm; ring
  rw [e] at hb hb'
  refine ⟨?_, ?_, ?_⟩
  · refine le_trans (le_of_eq ?_) ((Complex.abs_im_le_norm _).trans hb)
    simp [← Complex.ofReal_cos, ← Complex.ofReal_sin, -Complex.ofReal_sub]
  · refine le_trans (le_of_eq ?_) ((Complex.abs_re_le_norm _).trans hb)
    simp [← Complex.ofReal_cos, ← Complex.ofReal_sin, -Complex.ofReal_sub]
  · refine le_trans (le_of_eq ?_) ((Complex.abs_re_le_norm _).trans hb')
    simp [← Complex.ofReal_exp, -Complex.ofReal_add]

/-- The Taylor enclosures hold the sine, the cosine and the exponential. -/
theorem taylor_encloses {P tlo thi : ℕ} {τ : ℝ} (h0 : 0 ≤ τ) (h1 : τ ≤ 1 / 2) (hlo : (tlo : ℝ) ≤ τ * 2 ^ P)
    (hhi : τ * 2 ^ P ≤ thi) :
    Encloses P (sinCosTaylor P tlo thi).1 (Real.sin τ) ∧ Encloses P (sinCosTaylor P tlo thi).2 (Real.cos τ) ∧
    Encloses P (expTaylor P tlo thi) (Real.exp τ) := by
  obtain ⟨m, -, hd, -⟩ := taylor_spec h0 h1 hlo hhi
  obtain ⟨es, ec, ee⟩ := taylor_error h0 h1 m
  have h2 : (0 : ℝ) ≤ 2 ^ P := by positivity
  have hb : ∀ x : ℝ, x ≤ 2 * taylorTerm τ m → x * 2 ^ P ≤ ((2 * (taylor P tlo thi).rest : ℤ) : ℝ) := by
    intro x hx
    have := mul_le_mul_of_nonneg_right hx h2
    push_cast
    linarith [hd.rest]
  exact ⟨(hd.e1.sub hd.e3).widen (hb _ es), (hd.e0.sub hd.e2).widen (hb _ ec),
    ((hd.e0.add hd.e1).add (hd.e2.add hd.e3)).widen (hb _ ee)⟩

/-- How wide the Taylor enclosures are. -/
theorem taylor_width {P tlo thi : ℕ} {τ : ℝ} (h0 : 0 ≤ τ) (h1 : τ ≤ 1 / 2) (hlo : (tlo : ℝ) ≤ τ * 2 ^ P)
    (hhi : τ * 2 ^ P ≤ thi) (hp : thi ≤ 2 ^ P) :
    (sinCosTaylor P tlo thi).1.hi - (sinCosTaylor P tlo thi).1.lo ≤ ((4 * P + 4) * (thi - tlo + 5) : ℕ) ∧
    (sinCosTaylor P tlo thi).2.hi - (sinCosTaylor P tlo thi).2.lo ≤ ((4 * P + 4) * (thi - tlo + 5) : ℕ) ∧
    (expTaylor P tlo thi).hi - (expTaylor P tlo thi).lo ≤ ((4 * P + 4) * (thi - tlo + 5) : ℕ) := by
  obtain ⟨m, hm, hd, hr⟩ := taylor_spec h0 h1 hlo hhi
  have hr := hr hp
  have hw : ((m : ℤ) * ((thi - tlo + 4 : ℕ) : ℤ)) ≤ (P : ℤ) * ((thi - tlo + 5 : ℕ) : ℤ) := by
    gcongr
    omega
  have w0 := (hd.w0 hp).trans hw
  have w1 := (hd.w1 hp).trans hw
  have w2 := (hd.w2 hp).trans hw
  have w3 := (hd.w3 hp).trans hw
  have e : (((4 * P + 4) * (thi - tlo + 5) : ℕ) : ℤ) = 4 * ((P : ℤ) * ((thi - tlo + 5 : ℕ) : ℤ)) + 4 * ((thi - tlo + 5 : ℕ) : ℤ) := by
    push_cast; ring
  have hpos : (0 : ℤ) ≤ (P : ℤ) * ((thi - tlo + 5 : ℕ) : ℤ) := by positivity
  rw [e]
  simp only [sinCosTaylor, expTaylor, enclWiden, enclSub, enclAdd]
  refine ⟨?_, ?_, ?_⟩ <;> linarith


/-! ## π -/

/-- The magnitude of term number j of the series of arctan(1/m). -/
noncomputable def arctanTerm (m j : ℕ) : ℝ := 1 / ((2 * j + 1) * (m : ℝ) ^ (2 * j + 1))

/-- The terms j, j + 2, j + 4, ... of it, summed. -/
noncomputable def arctanTail (m j : ℕ) : ℝ := ∑' i, arctanTerm m (j + 2 * i)

theorem arctanTerm_pos {m : ℕ} (hm : 2 ≤ m) (j : ℕ) : 0 < arctanTerm m j := by
  have : (0 : ℝ) < m := by exact_mod_cast (by omega : 0 < m)
  unfold arctanTerm
  positivity

theorem arctanTerm_le {m : ℕ} (hm : 2 ≤ m) (j i : ℕ) : arctanTerm m (j + 2 * i) ≤ arctanTerm m j * (1 / 2) ^ i := by
  have h0 : (0 : ℝ) < m := by exact_mod_cast (by omega : 0 < m)
  have h1 : (2 : ℝ) ≤ m := by exact_mod_cast hm
  unfold arctanTerm
  rw [div_pow, one_pow, div_mul_div_comm, one_mul]
  refine one_div_le_one_div_of_le (by positivity) ?_
  rw [mul_assoc]
  refine mul_le_mul (by push_cast; linarith [Nat.cast_nonneg (α := ℝ) i]) ?_ (by positivity) (by positivity)
  rw [show 2 * (j + 2 * i) + 1 = 2 * j + 1 + 4 * i by ring, pow_add _ (2 * j + 1) (4 * i)]
  refine mul_le_mul_of_nonneg_left ?_ (pow_nonneg h0.le _)
  calc (2 : ℝ) ^ i ≤ m ^ i := pow_le_pow_left₀ (by norm_num) h1 i
    _ ≤ m ^ (4 * i) := pow_le_pow_right₀ (by linarith) (by omega)

theorem arctan_summable {m : ℕ} (hm : 2 ≤ m) (j : ℕ) : Summable (fun i => arctanTerm m (j + 2 * i)) :=
  Summable.of_nonneg_of_le (fun i => (arctanTerm_pos hm _).le) (arctanTerm_le hm j)
    (Summable.mul_left _ (summable_geometric_of_lt_one (r := (1 / 2 : ℝ)) (by norm_num) (by norm_num)))

theorem arctanTail_step {m : ℕ} (hm : 2 ≤ m) (j : ℕ) : arctanTail m j = arctanTerm m j + arctanTail m (j + 2) := by
  unfold arctanTail
  rw [(arctan_summable hm j).tsum_eq_zero_add]
  congr 1
  refine tsum_congr fun i => ?_
  congr 1
  ring

theorem arctanTail_bounds {m : ℕ} (hm : 2 ≤ m) (j : ℕ) : 0 ≤ arctanTail m j ∧ arctanTail m j ≤ 2 * arctanTerm m j := by
  constructor
  · exact tsum_nonneg fun i => (arctanTerm_pos hm _).le
  · have hs := (summable_geometric_of_lt_one (r := (1 / 2 : ℝ)) (by norm_num) (by norm_num)).mul_left (arctanTerm m j)
    refine ((arctan_summable hm j).tsum_le_tsum (arctanTerm_le hm j) hs).trans (le_of_eq ?_)
    rw [tsum_mul_left, tsum_geometric_two]
    ring

/-- arctan(1/m) is the even terms less the odd ones. -/
theorem arctan_eq {m : ℕ} (hm : 2 ≤ m) : Real.arctan ((m : ℝ)⁻¹) = arctanTail m 0 - arctanTail m 1 := by
  have h0 : (0 : ℝ) < m := by exact_mod_cast (by omega : 0 < m)
  have h1 : (1 : ℝ) < m := by exact_mod_cast (by omega : 1 < m)
  have hx : ‖(m : ℝ)⁻¹‖ < 1 := by
    rw [norm_inv, Real.norm_of_nonneg h0.le]
    exact inv_lt_one_of_one_lt₀ h1
  have e : ∀ n, (-1 : ℝ) ^ n * ((m : ℝ)⁻¹) ^ (2 * n + 1) / ((2 * n + 1 : ℕ) : ℝ) = (-1) ^ n * arctanTerm m n := by
    intro n
    unfold arctanTerm
    rw [inv_pow]
    push_cast
    field_simp
  have hs := (Real.hasSum_arctan hx).congr_fun (fun n => (e n).symm)
  have h2 : HasSum (fun k => (-1 : ℝ) ^ (2 * k) * arctanTerm m (2 * k)) (arctanTail m 0) := by
    have := (arctan_summable hm 0).hasSum
    refine this.congr_fun fun k => ?_
    simp
  have h3 : HasSum (fun k => (-1 : ℝ) ^ (2 * k + 1) * arctanTerm m (2 * k + 1)) (-arctanTail m 1) := by
    have := (arctan_summable hm 1).hasSum.neg
    refine this.congr_fun fun k => ?_
    rw [add_comm (2 * k) 1, pow_add, pow_mul]
    simp
  rw [sub_eq_add_neg]
  exact hs.unique (HasSum.even_add_odd (f := fun n => (-1 : ℝ) ^ n * arctanTerm m n) h2 h3)

/-- One run of the series holds the terms it stands for, and is at most two wider than the number of its turns. -/
theorem arctanInvSum_spec {P m : ℕ} (hm : 2 ≤ m) : ∀ (fuel j : ℕ) (e : Encl) (v : ℝ), Encloses P e v →
    arctanTerm m (j + 2 * fuel) * 2 ^ P ≤ 1 →
    Encloses P (arctanInvSum P m fuel j e) (v + arctanTail m j) ∧
    (arctanInvSum P m fuel j e).hi - (arctanInvSum P m fuel j e).lo ≤ e.hi - e.lo + fuel + 2 := by
  have h2 : (0 : ℝ) < 2 ^ P := by positivity
  have stop : ∀ (j : ℕ) (e : Encl) (v : ℝ), Encloses P e v → arctanTerm m j * 2 ^ P ≤ 1 →
      Encloses P ⟨e.lo, e.hi + 2⟩ (v + arctanTail m j) := by
    intro j e v h ht
    obtain ⟨a, b⟩ := arctanTail_bounds hm j
    have c := mul_nonneg a h2.le
    have d := mul_le_mul_of_nonneg_right b h2.le
    constructor
    · simp only [add_mul]; linarith [h.lo]
    · simp only [add_mul]; push_cast; linarith [h.hi]
  intro fuel
  induction fuel with
  | zero =>
    intro j e v h ht
    rw [arctanInvSum]
    exact ⟨stop j e v h (by simpa using ht), by push_cast; omega⟩
  | succ fuel ih =>
    intro j e v h ht
    have hd : 0 < (2 * j + 1) * m ^ (2 * j + 1) := by positivity
    have hterm : arctanTerm m j * 2 ^ P = (2 ^ P : ℕ) / (((2 * j + 1) * m ^ (2 * j + 1) : ℕ) : ℝ) := by
      unfold arctanTerm
      push_cast
      ring
    have hlo : ((2 ^ P / ((2 * j + 1) * m ^ (2 * j + 1)) : ℕ) : ℝ) ≤ arctanTerm m j * 2 ^ P := by
      rw [hterm]
      exact Nat.cast_div_le
    have hhi : arctanTerm m j * 2 ^ P ≤ ((2 ^ P / ((2 * j + 1) * m ^ (2 * j + 1)) : ℕ) : ℝ) + 1 := by
      rw [hterm, div_le_iff₀ (by exact_mod_cast hd)]
      have := (Nat.lt_mul_div_succ (2 ^ P) hd).le
      rw [mul_comm] at this
      exact_mod_cast this
    rw [arctanInvSum]
    generalize 2 ^ P / ((2 * j + 1) * m ^ (2 * j + 1)) = t at hlo hhi ⊢
    split
    · next h0 =>
      rw [h0] at hhi
      exact ⟨stop j e v h (by simpa using hhi), by push_cast; omega⟩
    · have hn : Encloses P ⟨e.lo + t, e.hi + t + 1⟩ (v + arctanTerm m j) := by
        constructor
        · simp only [add_mul, Int.cast_add, Int.cast_natCast]; linarith [h.lo]
        · simp only [add_mul, Int.cast_add, Int.cast_natCast, Int.cast_one]; linarith [h.hi]
      obtain ⟨a, b⟩ := ih (j + 2) _ _ hn (by rw [show j + 2 + 2 * fuel = j + 2 * (fuel + 1) by ring]; exact ht)
      rw [arctanTail_step hm j, ← add_assoc]
      refine ⟨a, b.trans ?_⟩
      push_cast
      omega

theorem arctanInv_spec {P m : ℕ} (hm : 2 ≤ m) :
    Encloses P (arctanInv P m) (Real.arctan ((m : ℝ)⁻¹)) ∧ (arctanInv P m).hi - (arctanInv P m).lo ≤ 2 * P + 4 := by
  have hz : Encloses P ⟨0, 0⟩ 0 := ⟨by simp, by simp⟩
  have hsmall : ∀ j, arctanTerm m (j + 2 * P) * 2 ^ P ≤ 1 := by
    intro j
    have h1 := arctanTerm_le hm j P
    have h3 : arctanTerm m j ≤ 1 := by
      have h0 : (1 : ℝ) ≤ m := by exact_mod_cast (by omega : 1 ≤ m)
      unfold arctanTerm
      rw [div_le_one (by positivity)]
      exact one_le_mul_of_one_le_of_one_le (by linarith [Nat.cast_nonneg (α := ℝ) j]) (one_le_pow₀ h0)
    have h2 : (0 : ℝ) < 2 ^ P := by positivity
    calc arctanTerm m (j + 2 * P) * 2 ^ P ≤ arctanTerm m j * (1 / 2) ^ P * 2 ^ P := by gcongr
      _ = arctanTerm m j := by rw [mul_assoc, ← mul_pow]; norm_num
      _ ≤ 1 := h3
  obtain ⟨a, b⟩ := arctanInvSum_spec hm P 0 ⟨0, 0⟩ 0 hz (hsmall 0)
  obtain ⟨c, d⟩ := arctanInvSum_spec hm P 1 ⟨0, 0⟩ 0 hz (hsmall 1)
  rw [zero_add] at a c
  refine ⟨?_, ?_⟩
  · rw [arctan_eq hm]
    exact a.sub c
  · simp only [arctanInv, enclSub]
    simp only [] at b d
    linarith

/-- Machin's formula: the enclosure of π holds π and is narrow. -/
theorem piEncl_spec (P : ℕ) : Encloses P (piEncl P) Real.pi ∧ (piEncl P).hi - (piEncl P).lo ≤ 40 * P + 80 := by
  obtain ⟨a, b⟩ := arctanInv_spec (P := P) (m := 5) (by norm_num)
  obtain ⟨c, d⟩ := arctanInv_spec (P := P) (m := 239) (by norm_num)
  have hpi := Real.four_mul_arctan_inv_5_sub_arctan_inv_239
  push_cast at a c
  refine ⟨⟨?_, ?_⟩, ?_⟩
  · simp only [piEncl]
    push_cast
    have : Real.pi = 16 * Real.arctan 5⁻¹ - 4 * Real.arctan 239⁻¹ := by linarith
    rw [this]
    linarith [a.lo, c.hi]
  · simp only [piEncl]
    push_cast
    have : Real.pi = 16 * Real.arctan 5⁻¹ - 4 * Real.arctan 239⁻¹ := by linarith
    rw [this]
    linarith [a.hi, c.lo]
  · simp only [piEncl]
    omega

end Sys2Proof.Laws
end

