-- ==== Sys2Proof/Laws/Elementary.lean ====
section
/-! SUPPORT. The transcendental functions of spec/00_scope.md R13 are defined for every argument: the search for a precision
that settles ends, and its answer is what two rationals on either side of the exact value both round to. -/

namespace Sys2Proof.Laws

open Sys2Proof.Machine Filter Topology

/-! ## The search -/

/-- Both ends agree at precision number n. -/
def agreesAt (ends : ℕ → B64 × B64) (n : ℕ) : Prop := (ends (precisionAt n)).1 = (ends (precisionAt n)).2

theorem settleFrom_eq (ends : ℕ → B64 × B64) (k : ℕ) : ∀ n, agreesAt ends (n + k) →
    ∃ m, agreesAt ends m ∧ settleFrom ends n = (ends (precisionAt m)).1 := by
  induction k with
  | zero =>
    intro n h
    have h' : (ends (precisionAt n)).1 = (ends (precisionAt n)).2 := h
    exact ⟨n, h, by rw [settleFrom, if_pos h']⟩
  | succ k ih =>
    intro n h
    by_cases hn : (ends (precisionAt n)).1 = (ends (precisionAt n)).2
    · exact ⟨n, hn, by rw [settleFrom, if_pos hn]⟩
    · obtain ⟨m, hm, he⟩ := ih (n + 1) (by rwa [show n + 1 + k = n + (k + 1) by ring])
      exact ⟨m, hm, by rw [settleFrom, if_neg hn, he]⟩

theorem settleUpTo_eq (ends : ℕ → B64 × B64) : ∀ fuel n, settleUpTo ends fuel n = settleFrom ends n := by
  intro fuel
  induction fuel with
  | zero => exact fun _ => rfl
  | succ fuel ih =>
    intro n
    rw [settleUpTo, settleFrom, ih]

/-- Where the ends agree at some precision, `settle` answers what they agree on at one. -/
theorem settle_eq {ends : ℕ → B64 × B64} (h : ∃ n, agreesAt ends n) :
    ∃ m, agreesAt ends m ∧ settle ends = (ends (precisionAt m)).1 := by
  obtain ⟨n, hn⟩ := h
  unfold settle
  rw [settleUpTo_eq]
  exact settleFrom_eq ends n 0 (by rwa [Nat.zero_add])

theorem precisionAt_tendsto : Tendsto precisionAt atTop atTop := by
  refine tendsto_atTop_mono (fun n => ?_) tendsto_id
  unfold precisionAt
  have := Nat.lt_two_pow_self (n := n)
  simp only [id]
  omega

/-- Two rationals on either side of r both round to v. -/
def RoundsBoth (v : B64) (r : ℝ) : Prop :=
  ∃ (a b : ℤ) (c d : ℕ), 0 < c ∧ 0 < d ∧ (a : ℝ) / c ≤ r ∧ r ≤ (b : ℝ) / d ∧ rnq a c = v ∧ rnq b d = v

/-- Two rationals on either side of an irrational number that close in on it settle. -/
theorem settle_rounds {ends : ℕ → B64 × B64} {r : ℝ} (hr : Irrational r) (a b : ℕ → ℤ) (c d : ℕ → ℕ)
    (he : ∀ p, ends p = (rnq (a p) (c p), rnq (b p) (d p))) (hc : ∀ p, 0 < c p) (hd : ∀ p, 0 < d p)
    (hlo : ∀ p, (a p : ℝ) / c p ≤ r) (hhi : ∀ p, r ≤ (b p : ℝ) / d p)
    (tlo : Tendsto (fun n => (a (precisionAt n) : ℝ) / c (precisionAt n)) atTop (𝓝 r))
    (thi : Tendsto (fun n => (b (precisionAt n) : ℝ) / d (precisionAt n)) atTop (𝓝 r)) :
    RoundsBoth (settle ends) r := by
  obtain ⟨v, ε, hε, hv⟩ := rnq_locally_constant hr
  have h1 := (Metric.tendsto_nhds.1 tlo) ε hε
  have h2 := (Metric.tendsto_nhds.1 thi) ε hε
  obtain ⟨n, hn1, hn2⟩ := (h1.and h2).exists
  rw [Real.dist_eq] at hn1 hn2
  obtain ⟨m, hm, hs⟩ := settle_eq (ends := ends) ⟨n, by
    unfold agreesAt
    rw [he]
    simp only []
    rw [hv _ _ (hc _) hn1, hv _ _ (hd _) hn2]⟩
  unfold agreesAt at hm
  refine ⟨_, _, _, _, hc (precisionAt m), hd (precisionAt m), hlo _, hhi _, ?_, ?_⟩
  · rw [hs, he]
  · rw [hs, hm, he]

/-- Enclosures of an irrational number that converge to it settle. -/
theorem settle_encl {Q : ℕ → ℕ} {e : ℕ → Encl} {r : ℝ} (hr : Irrational r) (he : ∀ p, Encloses (Q p) (e p) r)
    (ht : Converges (fun n => Q (precisionAt n)) (fun n => e (precisionAt n)) r) :
    RoundsBoth (settle fun p => enclEnds (Q p) (e p)) r := by
  have hp : ∀ p, (0 : ℝ) < 2 ^ Q p := fun p => by positivity
  refine settle_rounds hr (fun p => (e p).lo) (fun p => (e p).hi) (fun p => 2 ^ Q p) (fun p => 2 ^ Q p)
    (fun p => rfl) (fun p => by positivity) (fun p => by positivity) (fun p => ?_) (fun p => ?_) ?_ ?_
  · push_cast
    rw [div_le_iff₀ (hp p)]
    exact (he p).lo
  · push_cast
    rw [le_div_iff₀ (hp p)]
    exact (he p).hi
  · refine ht.lo.congr fun n => ?_
    push_cast
    rfl
  · refine ht.hi.congr fun n => ?_
    push_cast
    rfl

theorem width_tendsto {P : ℕ → ℕ} (hP : Tendsto P atTop atTop) :
    Tendsto (fun n => (400 * ((P n : ℝ) + 2) ^ 2) / 2 ^ P n) atTop (𝓝 0) := by
  have h1 := tendsto_pow_const_div_const_pow_of_one_lt 2 (show (1 : ℝ) < 2 by norm_num)
  have h2 : Tendsto (fun n => P n + 2) atTop atTop := tendsto_atTop_mono (fun n => Nat.le_add_right _ 2) hP
  have h3 := (h1.comp h2).const_mul 1600
  rw [mul_zero] at h3
  refine h3.congr fun n => ?_
  simp only [Function.comp]
  push_cast
  rw [pow_add]
  field_simp
  ring

/-! ## sin64, cos64, exp64 -/

theorem halvings_spec (u : ℕ) : (u : ℝ) / 2 ^ (1074 + halvings u) ≤ 1 / 2 := by
  have h : 2 * u ≤ 2 ^ (1074 + halvings u) := by
    have h1 : u < 2 ^ (Nat.log2 u + 1) := Nat.lt_log2_self
    have e : halvings u = Nat.log2 u + 2 - 1074 := congrArg (fun l => l + 2 - 1074) (flog2_eq u)
    have h0 : Nat.log2 u + 2 ≤ 1074 + halvings u := by omega
    have h2 := Nat.pow_le_pow_right (show 0 < 2 by norm_num) h0
    rw [pow_succ] at h2
    omega
  generalize 1074 + halvings u = N at h ⊢
  rw [div_le_div_iff₀ (by positivity) (by norm_num)]
  have : (2 * u : ℝ) ≤ 2 ^ N := by exact_mod_cast h
  linarith

/-- A quotient rounded down, and one more, enclose the quotient. -/
theorem floor_encloses (x D : ℕ) (hD : 0 < D) : ((x / D : ℕ) : ℝ) ≤ x / D ∧ (x : ℝ) / D ≤ ((x / D + 1 : ℕ) : ℝ) := by
  refine ⟨Nat.cast_div_le, ?_⟩
  rw [div_le_iff₀ (by exact_mod_cast hD)]
  have := (Nat.lt_mul_div_succ x hD).le
  rw [mul_comm] at this
  exact_mod_cast this

theorem workingPrec_ge (p u : ℕ) : p ≤ workingPrec p u := by
  unfold workingPrec
  omega

theorem workingPrec_tendsto (u : ℕ) : Tendsto (fun n => workingPrec (precisionAt n) u) atTop atTop :=
  tendsto_atTop_mono (fun _ => workingPrec_ge _ u) precisionAt_tendsto

/-- The fixed-point argument of the Taylor sums, at scale 2^P, and what it encloses. -/
theorem argument_encloses (P u : ℕ) :
    ((u * 2 ^ P / 2 ^ (1074 + halvings u) : ℕ) : ℝ) ≤ (u : ℝ) / 2 ^ (1074 + halvings u) * 2 ^ P ∧
    (u : ℝ) / 2 ^ (1074 + halvings u) * 2 ^ P ≤ ((u * 2 ^ P / 2 ^ (1074 + halvings u) + 1 : ℕ) : ℝ) := by
  generalize 1074 + halvings u = N
  have := floor_encloses (u * 2 ^ P) (2 ^ N) (by positivity)
  push_cast at this ⊢
  rwa [mul_div_right_comm] at this

theorem argument_le (P u : ℕ) (hP : 1 ≤ P) : u * 2 ^ P / 2 ^ (1074 + halvings u) + 1 ≤ 2 ^ P := by
  have h1 := (argument_encloses P u).1
  have h2 := halvings_spec u
  generalize 1074 + halvings u = N at *
  have h3 : ((u * 2 ^ P / 2 ^ N : ℕ) : ℝ) ≤ 1 / 2 * 2 ^ P := h1.trans (by gcongr)
  obtain ⟨Q, rfl⟩ : ∃ Q, P = Q + 1 := ⟨P - 1, by omega⟩
  rw [pow_succ (2 : ℝ) Q, show (1 : ℝ) / 2 * (2 ^ Q * 2) = 2 ^ Q by ring] at h3
  have h4 : u * 2 ^ (Q + 1) / 2 ^ N ≤ 2 ^ Q := by exact_mod_cast h3
  rw [pow_succ 2 Q] at h4 ⊢
  have := Nat.one_le_two_pow (n := Q)
  omega

theorem unscale (u : ℕ) : (2 : ℝ) ^ halvings u * ((u : ℝ) / 2 ^ (1074 + halvings u)) = (u : ℝ) / 2 ^ 1074 := by
  rw [pow_add]
  generalize (2 : ℝ) ^ 1074 = D
  have : (2 : ℝ) ^ halvings u ≠ 0 := by positivity
  rw [mul_div_assoc', mul_comm D, mul_div_mul_left _ _ this]

theorem sinCosEncl_encloses (P u : ℕ) :
    Encloses P (sinCosEncl P u).1 (Real.sin ((u : ℝ) / 2 ^ 1074)) ∧
    Encloses P (sinCosEncl P u).2 (Real.cos ((u : ℝ) / 2 ^ 1074)) := by
  obtain ⟨h1, h2⟩ := argument_encloses P u
  obtain ⟨hs, hc, -⟩ := taylor_encloses (div_nonneg (Nat.cast_nonneg u) (pow_nonneg (by norm_num) _)) (halvings_spec u) h1 h2
  have := doubleAngle_encloses (halvings u) hs hc
  rwa [unscale] at this

theorem expEncl_encloses (P u : ℕ) : Encloses P (expEncl P u) (Real.exp ((u : ℝ) / 2 ^ 1074)) := by
  obtain ⟨h1, h2⟩ := argument_encloses P u
  obtain ⟨-, -, he⟩ := taylor_encloses (div_nonneg (Nat.cast_nonneg u) (pow_nonneg (by norm_num) _)) (halvings_spec u) h1 h2
  have := squareUp_encloses (halvings u) he
  rwa [unscale] at this

theorem taylor_converges {P tlo thi : ℕ → ℕ} {τ : ℝ} (hP : Tendsto P atTop atTop) (h0 : 0 ≤ τ) (h1 : τ ≤ 1 / 2)
    (hlo : ∀ n, (tlo n : ℝ) ≤ τ * 2 ^ P n) (hhi : ∀ n, τ * 2 ^ P n ≤ thi n) (hp : ∀ᶠ n in atTop, thi n ≤ 2 ^ P n)
    (hw : ∀ n, thi n - tlo n + 5 ≤ 40 * P n + 100) :
    Converges P (fun n => (sinCosTaylor (P n) (tlo n) (thi n)).1) (Real.sin τ) ∧
    Converges P (fun n => (sinCosTaylor (P n) (tlo n) (thi n)).2) (Real.cos τ) ∧
    Converges P (fun n => expTaylor (P n) (tlo n) (thi n)) (Real.exp τ) := by
  have hlim := width_tendsto hP
  have hb : ∀ n, (((4 * P n + 4) * (thi n - tlo n + 5) : ℕ) : ℝ) ≤ 400 * ((P n : ℝ) + 2) ^ 2 := by
    intro n
    have h3 : (4 * P n + 4) * (thi n - tlo n + 5) ≤ (4 * P n + 4) * (40 * P n + 100) := Nat.mul_le_mul_left _ (hw n)
    have h4 : (((4 * P n + 4) * (thi n - tlo n + 5) : ℕ) : ℝ) ≤ ((4 * P n + 4) * (40 * P n + 100) : ℕ) := by exact_mod_cast h3
    refine h4.trans ?_
    push_cast
    nlinarith [Nat.cast_nonneg (α := ℝ) (P n)]
  have step : ∀ (x : ℕ → ℤ), (∀ n, thi n ≤ 2 ^ P n → x n ≤ ((4 * P n + 4) * (thi n - tlo n + 5) : ℕ)) →
      ∀ᶠ n in atTop, (x n : ℝ) ≤ 400 * ((P n : ℝ) + 2) ^ 2 := by
    intro x hx
    filter_upwards [hp] with n hn
    have : (x n : ℝ) ≤ (((4 * P n + 4) * (thi n - tlo n + 5) : ℕ) : ℤ) := by exact_mod_cast hx n hn
    exact this.trans (by exact_mod_cast hb n)
  refine ⟨?_, ?_, ?_⟩
  · exact converges_of_width (fun n => (taylor_encloses h0 h1 (hlo n) (hhi n)).1)
      (step _ fun n hn => (taylor_width h0 h1 (hlo n) (hhi n) hn).1) hlim
  · exact converges_of_width (fun n => (taylor_encloses h0 h1 (hlo n) (hhi n)).2.1)
      (step _ fun n hn => (taylor_width h0 h1 (hlo n) (hhi n) hn).2.1) hlim
  · exact converges_of_width (fun n => (taylor_encloses h0 h1 (hlo n) (hhi n)).2.2)
      (step _ fun n hn => (taylor_width h0 h1 (hlo n) (hhi n) hn).2.2) hlim

theorem argument_converges {P : ℕ → ℕ} (hP : Tendsto P atTop atTop) (u : ℕ) :
    Converges P (fun n => (sinCosEncl (P n) u).1) (Real.sin ((u : ℝ) / 2 ^ 1074)) ∧
    Converges P (fun n => (sinCosEncl (P n) u).2) (Real.cos ((u : ℝ) / 2 ^ 1074)) ∧
    Converges P (fun n => expEncl (P n) u) (Real.exp ((u : ℝ) / 2 ^ 1074)) := by
  obtain ⟨hs, hc, he⟩ := taylor_converges (tlo := fun n => u * 2 ^ P n / 2 ^ (1074 + halvings u))
    (thi := fun n => u * 2 ^ P n / 2 ^ (1074 + halvings u) + 1) hP
    (div_nonneg (Nat.cast_nonneg u) (pow_nonneg (by norm_num) _)) (halvings_spec u)
    (fun n => (argument_encloses (P n) u).1) (fun n => (argument_encloses (P n) u).2)
    (by filter_upwards [hP.eventually_ge_atTop 1] with n hn using argument_le (P n) u hn) (fun n => by omega)
  have h1 := doubleAngle_converges hP (halvings u) (sc := fun n => (_, _)) hs hc
  have h2 := squareUp_converges hP (halvings u) he
  rw [unscale] at h1 h2
  exact ⟨h1.1, h1.2, h2⟩

theorem funits_pos {x : B64} (h0 : isZero x = false) : 0 < funits x := by
  unfold isZero at h0
  rw [decide_eq_false_iff_not] at h0
  unfold funits fexpField ffracField fmagBits at *
  split
  · omega
  · exact Nat.mul_pos (by omega) (Nat.two_pow_pos _)

theorem units_ne_zero {u : ℕ} (h : 0 < u) : ((u : ℚ) / 2 ^ 1074) ≠ 0 := by
  generalize 1074 = k
  positivity

theorem units_cast (u : ℕ) : (((u : ℚ) / 2 ^ 1074 : ℚ) : ℝ) = (u : ℝ) / 2 ^ 1074 := by
  generalize 1074 = k
  push_cast
  rfl

/-- `sin64` of a positive finite pattern, settled (R13). -/
theorem sinPos_rounds {x : B64} (h0 : isZero x = false) : RoundsBoth (sinPos x) (Real.sin ((funits x : ℝ) / 2 ^ 1074)) := by
  have hi := irrational_sin_rat _ (units_ne_zero (funits_pos h0))
  rw [units_cast] at hi
  exact settle_encl (Q := fun p => workingPrec p (funits x)) hi (fun p => (sinCosEncl_encloses _ _).1)
    (argument_converges (workingPrec_tendsto _) _).1

/-- `cos64` of a positive finite pattern, settled (R13). -/
theorem cosPos_rounds {x : B64} (h0 : isZero x = false) : RoundsBoth (cosPos x) (Real.cos ((funits x : ℝ) / 2 ^ 1074)) := by
  have hi := irrational_cos_rat _ (units_ne_zero (funits_pos h0))
  rw [units_cast] at hi
  exact settle_encl (Q := fun p => workingPrec p (funits x)) hi (fun p => (sinCosEncl_encloses _ _).2)
    (argument_converges (workingPrec_tendsto _) _).2.1

/-- The search of `exp64`, for either sign of its argument. -/
theorem expEnds_rounds {u : ℕ} (hu : 0 < u) (neg : Bool) :
    RoundsBoth (settle fun p => expEnds neg (workingPrec p u) u)
      (Real.exp (if neg then -((u : ℝ) / 2 ^ 1074) else (u : ℝ) / 2 ^ 1074)) := by
  have hne := units_ne_zero hu
  have hP := workingPrec_tendsto u
  have hconv := (argument_converges hP u).2.2
  have henc := fun p => expEncl_encloses (workingPrec p u) u
  cases neg with
  | false =>
    have hi := irrational_exp_rat _ hne
    rw [units_cast] at hi
    exact settle_encl (Q := fun p => workingPrec p u) hi henc hconv
  | true =>
    have hi := irrational_exp_rat _ (neg_ne_zero.2 hne)
    push_cast at hi
    simp only [if_true]
    set E := Real.exp ((u : ℝ) / 2 ^ 1074) with hE
    have hEpos : 0 < E := Real.exp_pos _
    have hE1 : 1 ≤ E := Real.one_le_exp (div_nonneg (Nat.cast_nonneg u) (pow_nonneg (by norm_num) _))
    rw [Real.exp_neg, ← hE] at hi ⊢
    have hhi : ∀ p, 0 < (expEncl (workingPrec p u) u).hi := by
      intro p
      have := lt_of_lt_of_le (mul_pos hEpos (show (0 : ℝ) < 2 ^ workingPrec p u by positivity)) (henc p).hi
      exact_mod_cast this
    have cast : ∀ z : ℤ, 0 < z → ((z.toNat : ℕ) : ℝ) = z := by
      intro z hz
      have : ((z.toNat : ℤ) : ℝ) = z := by rw [Int.toNat_of_nonneg hz.le]
      exact_mod_cast this
    refine settle_rounds hi (fun p => 2 ^ workingPrec p u)
      (fun p => if 0 < (expEncl (workingPrec p u) u).lo then 2 ^ workingPrec p u else 1)
      (fun p => (expEncl (workingPrec p u) u).hi.toNat)
      (fun p => if 0 < (expEncl (workingPrec p u) u).lo then (expEncl (workingPrec p u) u).lo.toNat else 1)
      (fun p => ?_) (fun p => by have := hhi p; omega) (fun p => by split <;> omega) (fun p => ?_) (fun p => ?_) ?_ ?_
    · simp only [expEnds, if_true]
      split
      · rfl
      · rw [show ONE = rnq 1 1 by decide +kernel]
    · rw [cast _ (hhi p), div_le_iff₀ (by exact_mod_cast hhi p), ← div_eq_inv_mul, le_div_iff₀ hEpos]
      push_cast
      rw [mul_comm]
      exact (henc p).hi
    · split
      · next h =>
        rw [cast _ h, le_div_iff₀ (by exact_mod_cast h), ← div_eq_inv_mul, div_le_iff₀ hEpos]
        push_cast
        rw [mul_comm]
        exact (henc p).lo
      · simpa using inv_le_one_of_one_le₀ hE1
    · refine (hconv.hi.inv₀ hEpos.ne').congr fun n => ?_
      rw [cast _ (hhi _), inv_div]
      push_cast
      rfl
    · refine (hconv.lo.inv₀ hEpos.ne').congr' ?_
      filter_upwards [hconv.lo.eventually (lt_mem_nhds hEpos)] with n hn
      have h : 0 < (expEncl (workingPrec (precisionAt n) u) u).lo := by
        rw [lt_div_iff₀ (by positivity), zero_mul] at hn
        exact_mod_cast hn
      rw [if_pos h, if_pos h, cast _ h, inv_div]
      push_cast
      rfl

/-- `exp64` of a finite argument other than 0 below 1024 in magnitude (R13). -/
theorem exp64_rounds {x : B64} (hn : isNaN x = false) (h0 : isZero x = false) (hs : funits x < 2 ^ 1084) :
    RoundsBoth (exp64 x) (Real.exp (if fsign x then -((funits x : ℝ) / 2 ^ 1074) else (funits x : ℝ) / 2 ^ 1074)) := by
  have := expEnds_rounds (funits_pos h0) (fsign x)
  rw [exp64, if_neg (by rw [hn]; exact Bool.false_ne_true), if_neg (by rw [h0]; exact Bool.false_ne_true),
    if_neg (Nat.not_le.2 hs)]
  exact this

/-! ## cos2pi, sin2pi -/

theorem turnPrec_tendsto (q : ℕ) : Tendsto (fun n => turnPrec (precisionAt n) q) atTop atTop :=
  tendsto_atTop_mono (fun n => by unfold turnPrec; omega) precisionAt_tendsto

/-- The fixed-point angle πp/(4q) of the Taylor sums and what it encloses. -/
theorem turn_argument {p q : ℕ} (hq : 0 < q) (h : 2 * p ≤ q) (P : ℕ) :
    (((piEncl P).lo.toNat * p / (4 * q) : ℕ) : ℝ) ≤ Real.pi * p / (4 * q) * 2 ^ P ∧
    Real.pi * p / (4 * q) * 2 ^ P ≤ (((piEncl P).hi.toNat * p / (4 * q) + 1 : ℕ) : ℝ) ∧
    (piEncl P).hi.toNat * p / (4 * q) + 1 - (piEncl P).lo.toNat * p / (4 * q) + 5 ≤ 40 * P + 100 := by
  obtain ⟨he, hw⟩ := piEncl_spec P
  have hq' : (0 : ℝ) < q := by exact_mod_cast hq
  have hpi : (0 : ℝ) < Real.pi * 2 ^ P := mul_pos Real.pi_pos (by positivity)
  have hlo : (((piEncl P).lo.toNat : ℕ) : ℝ) ≤ Real.pi * 2 ^ P := by
    have : (((piEncl P).lo.toNat : ℤ) : ℝ) ≤ Real.pi * 2 ^ P := by
      rw [Int.toNat_eq_max]
      push_cast
      exact max_le he.lo hpi.le
    exact_mod_cast this
  have hhi : Real.pi * 2 ^ P ≤ (((piEncl P).hi.toNat : ℕ) : ℝ) := by
    have : Real.pi * 2 ^ P ≤ (((piEncl P).hi.toNat : ℤ) : ℝ) := by
      rw [Int.toNat_eq_max]
      push_cast
      exact he.hi.trans (le_max_left _ _)
    exact_mod_cast this
  have e : Real.pi * p / (4 * q) * 2 ^ P = Real.pi * 2 ^ P * (p / (4 * q)) := by ring
  have hf := floor_encloses ((piEncl P).lo.toNat * p) (4 * q) (by omega)
  have hf' := floor_encloses ((piEncl P).hi.toNat * p) (4 * q) (by omega)
  push_cast at hf hf'
  refine ⟨?_, ?_, ?_⟩
  · refine hf.1.trans ?_
    rw [e, mul_div_assoc]
    gcongr
  · push_cast
    refine le_trans ?_ hf'.2
    rw [e, mul_div_assoc]
    gcongr
  · have hwn : (piEncl P).hi.toNat ≤ (piEncl P).lo.toNat + (40 * P + 80) := by omega
    have h1 : (piEncl P).hi.toNat * p / (4 * q) ≤ (piEncl P).lo.toNat * p / (4 * q) + (40 * P + 80) + 1 := by
      have h2 : (piEncl P).hi.toNat * p ≤ (piEncl P).lo.toNat * p + (40 * P + 80) * (4 * q) := by
        calc (piEncl P).hi.toNat * p ≤ ((piEncl P).lo.toNat + (40 * P + 80)) * p := Nat.mul_le_mul_right _ hwn
          _ = (piEncl P).lo.toNat * p + (40 * P + 80) * p := by ring
          _ ≤ _ := by gcongr; omega
      calc (piEncl P).hi.toNat * p / (4 * q) ≤ ((piEncl P).lo.toNat * p + (40 * P + 80) * (4 * q)) / (4 * q) :=
            Nat.div_le_div_right h2
        _ = (piEncl P).lo.toNat * p / (4 * q) + (40 * P + 80) := Nat.add_mul_div_right _ _ (by omega)
        _ ≤ _ := by omega
    omega

theorem turn_small {p q : ℕ} (hq : 0 < q) (h : 2 * p ≤ q) : 0 ≤ Real.pi * p / (4 * q) ∧ Real.pi * p / (4 * q) < 1 / 2 := by
  have hq' : (0 : ℝ) < q := by exact_mod_cast hq
  have h' : (2 : ℝ) * p ≤ q := by exact_mod_cast h
  refine ⟨by positivity, ?_⟩
  rw [div_lt_iff₀ (by positivity)]
  nlinarith [Real.pi_lt_four, Real.pi_pos, Nat.cast_nonneg (α := ℝ) p]

theorem turn_angle (p q : ℕ) : (2 : ℝ) ^ 3 * (Real.pi * p / (4 * q)) = 2 * Real.pi * p / q := by
  rcases eq_or_ne q 0 with rfl | hq
  · simp
  · have : (q : ℝ) ≠ 0 := by exact_mod_cast hq
    field_simp
    ring

theorem turnEncl_encloses {p q : ℕ} (hq : 0 < q) (h : 2 * p ≤ q) (P : ℕ) :
    Encloses P (turnEncl P p q).1 (Real.sin (2 * Real.pi * p / q)) ∧
    Encloses P (turnEncl P p q).2 (Real.cos (2 * Real.pi * p / q)) := by
  obtain ⟨h1, h2, -⟩ := turn_argument hq h P
  obtain ⟨h3, h4⟩ := turn_small hq h
  obtain ⟨hs, hc, -⟩ := taylor_encloses h3 h4.le h1 h2
  have := doubleAngle_encloses 3 hs hc
  rwa [turn_angle] at this

theorem turnEncl_converges {p q : ℕ} (hq : 0 < q) (h : 2 * p ≤ q) {P : ℕ → ℕ} (hP : Tendsto P atTop atTop) :
    Converges P (fun n => (turnEncl (P n) p q).1) (Real.sin (2 * Real.pi * p / q)) ∧
    Converges P (fun n => (turnEncl (P n) p q).2) (Real.cos (2 * Real.pi * p / q)) := by
  obtain ⟨h3, h4⟩ := turn_small hq h
  obtain ⟨hs, hc, -⟩ := taylor_converges (tlo := fun n => (piEncl (P n)).lo.toNat * p / (4 * q))
    (thi := fun n => (piEncl (P n)).hi.toNat * p / (4 * q) + 1) hP h3 h4.le
    (fun n => (turn_argument hq h (P n)).1) (fun n => (turn_argument hq h (P n)).2.1) (by
      have hlim := (width_tendsto hP).eventually (gt_mem_nhds (show (0 : ℝ) < 1 / 2 by norm_num))
      filter_upwards [hlim] with n hn
      obtain ⟨a, -, c⟩ := turn_argument hq h (P n)
      have h2 : (0 : ℝ) < 2 ^ P n := by positivity
      rw [div_lt_iff₀ h2] at hn
      have h5 : (((piEncl (P n)).hi.toNat * p / (4 * q) + 1 : ℕ) : ℝ) ≤
          (((piEncl (P n)).lo.toNat * p / (4 * q) : ℕ) : ℝ) + (40 * P n + 100) := by
        have : (piEncl (P n)).hi.toNat * p / (4 * q) + 1 ≤ (piEncl (P n)).lo.toNat * p / (4 * q) + (40 * P n + 100) := by omega
        exact_mod_cast this
      have h6 : Real.pi * p / (4 * q) * 2 ^ P n ≤ 1 / 2 * 2 ^ P n := by gcongr
      have h7 : (((piEncl (P n)).hi.toNat * p / (4 * q) + 1 : ℕ) : ℝ) ≤ 2 ^ P n := by
        nlinarith [Nat.cast_nonneg (α := ℝ) (P n)]
      exact_mod_cast h7) (fun n => (turn_argument hq h (P n)).2.2)
  have := doubleAngle_converges hP 3 (sc := fun n => (_, _)) hs hc
  rwa [turn_angle] at this

theorem roundsBoth_exact {v : B64} {r : ℝ} (n : ℤ) (d : ℕ) (hd : 0 < d) (hv : rnq n d = v) (hr : r = n / d) : RoundsBoth v r :=
  ⟨n, n, d, d, hd, hd, hr.ge, hr.le, hv, hv⟩

theorem angle_rational (p q : ℕ) : ∃ r : ℚ, 2 * Real.pi * p / q = r * Real.pi :=
  ⟨2 * p / q, by push_cast; ring⟩

theorem not_irrational {r : ℝ} (h : ¬Irrational r) : ∃ q : ℚ, r = q := by
  rw [Irrational, not_not] at h
  obtain ⟨q, hq⟩ := h
  exact ⟨q, hq.symm⟩

/-- An equation between the angle 2πp/q and a rational multiple of π is one between integers. -/
theorem angle_eq {p q a b : ℕ} (hq : 0 < q) (hb : 0 < b) (h : 2 * Real.pi * p / q = Real.pi * (a / b)) : 2 * b * p = a * q := by
  have hq' : (q : ℝ) ≠ 0 := by exact_mod_cast hq.ne'
  have hb' : (b : ℝ) ≠ 0 := by exact_mod_cast hb.ne'
  have hp := Real.pi_ne_zero
  field_simp at h
  have h' : (2 * b * p : ℝ) = a * q := by linarith
  exact_mod_cast h'

/-- `cos2pi` of half a turn or less (R13), the exact values included. -/
theorem cosTurn_rounds {p q : ℕ} (hq : 0 < q) (h : 2 * p ≤ q) : RoundsBoth (cosTurn p q) (Real.cos (2 * Real.pi * p / q)) := by
  have hq' : (q : ℝ) ≠ 0 := by exact_mod_cast hq.ne'
  have ang : ∀ a b : ℕ, 0 < b → b * p = a * q → 2 * Real.pi * p / q = Real.pi * (2 * a / b) := by
    intro a b hb he
    have hb' : (b : ℝ) ≠ 0 := by exact_mod_cast hb.ne'
    have he' : (b : ℝ) * p = a * q := by exact_mod_cast he
    field_simp
    linarith
  unfold cosTurn
  split
  · next h0 => exact roundsBoth_exact 1 1 (by norm_num) (by decide +kernel) (by simp [h0])
  split
  · next h0 =>
    refine roundsBoth_exact (-1) 1 (by norm_num) (by decide +kernel) ?_
    rw [ang 1 2 (by norm_num) (by omega)]
    simp
  split
  · next h0 =>
    refine roundsBoth_exact 0 1 (by norm_num) (by decide +kernel) ?_
    rw [ang 1 4 (by norm_num) (by omega), show Real.pi * (2 * ((1 : ℕ) : ℝ) / ((4 : ℕ) : ℝ)) = Real.pi / 2 by push_cast; ring]
    simp
  split
  · next h0 =>
    refine roundsBoth_exact 1 2 (by norm_num) (by decide +kernel) ?_
    rw [ang 1 6 (by norm_num) (by omega), show Real.pi * (2 * ((1 : ℕ) : ℝ) / ((6 : ℕ) : ℝ)) = Real.pi / 3 by push_cast; ring]
    simp
  split
  · next h0 =>
    refine roundsBoth_exact (-1) 2 (by norm_num) (by decide +kernel) ?_
    rw [ang 1 3 (by norm_num) (by omega),
      show Real.pi * (2 * ((1 : ℕ) : ℝ) / ((3 : ℕ) : ℝ)) = Real.pi - Real.pi / 3 by push_cast; ring, Real.cos_pi_sub]
    simp
    norm_num
  · next n1 n2 n3 n4 n5 =>
    have hbd : 2 * Real.pi * p / q ∈ Set.Icc 0 Real.pi := by
      refine ⟨by positivity, ?_⟩
      rw [div_le_iff₀ (by positivity)]
      have h' : (2 : ℝ) * p ≤ q := by exact_mod_cast h
      nlinarith [Real.pi_pos]
    refine settle_encl (Q := fun prec => turnPrec prec q) (by
      by_contra hc
      have hm := niven_angle_eq (angle_rational p q) (not_irrational hc) hbd
      simp only [Set.mem_insert_iff, Set.mem_singleton_iff] at hm
      rcases hm with hm | hm | hm | hm | hm
      · have := angle_eq (a := 0) (b := 1) hq (by norm_num) (by rw [hm]; simp); omega
      · have := angle_eq (a := 1) (b := 3) hq (by norm_num) (by rw [hm]; push_cast; ring); omega
      · have := angle_eq (a := 1) (b := 2) hq (by norm_num) (by rw [hm]; push_cast; ring); omega
      · have := angle_eq (a := 2) (b := 3) hq (by norm_num) (by rw [hm]; push_cast; ring); omega
      · have := angle_eq (a := 1) (b := 1) hq (by norm_num) (by rw [hm]; push_cast; ring); omega)
      (fun prec => (turnEncl_encloses hq h _).2) (turnEncl_converges hq h (turnPrec_tendsto q)).2

/-- `sin2pi` of half a turn or less (R13), the exact values included. -/
theorem sinTurn_rounds {p q : ℕ} (hq : 0 < q) (h : 2 * p ≤ q) : RoundsBoth (sinTurn p q) (Real.sin (2 * Real.pi * p / q)) := by
  have hq' : (q : ℝ) ≠ 0 := by exact_mod_cast hq.ne'
  have ang : ∀ a b : ℕ, 0 < b → b * p = a * q → 2 * Real.pi * p / q = Real.pi * (2 * a / b) := by
    intro a b hb he
    have hb' : (b : ℝ) ≠ 0 := by exact_mod_cast hb.ne'
    have he' : (b : ℝ) * p = a * q := by exact_mod_cast he
    field_simp
    linarith
  unfold sinTurn
  split
  · next h0 => exact roundsBoth_exact 0 1 (by norm_num) (by decide +kernel) (by simp [h0])
  split
  · next h0 =>
    refine roundsBoth_exact 0 1 (by norm_num) (by decide +kernel) ?_
    rw [ang 1 2 (by norm_num) (by omega)]
    simp
  split
  · next h0 =>
    refine roundsBoth_exact 1 1 (by norm_num) (by decide +kernel) ?_
    rw [ang 1 4 (by norm_num) (by omega), show Real.pi * (2 * ((1 : ℕ) : ℝ) / ((4 : ℕ) : ℝ)) = Real.pi / 2 by push_cast; ring]
    simp
  split
  · next h0 =>
    refine roundsBoth_exact 1 2 (by norm_num) (by decide +kernel) ?_
    rw [ang 1 12 (by norm_num) (by omega), show Real.pi * (2 * ((1 : ℕ) : ℝ) / ((12 : ℕ) : ℝ)) = Real.pi / 6 by push_cast; ring]
    simp
  split
  · next h0 =>
    refine roundsBoth_exact 1 2 (by norm_num) (by decide +kernel) ?_
    rw [ang 5 12 (by norm_num) (by omega),
      show Real.pi * (2 * ((5 : ℕ) : ℝ) / ((12 : ℕ) : ℝ)) = Real.pi - Real.pi / 6 by push_cast; ring, Real.sin_pi_sub]
    simp
  · next n1 n2 n3 n4 n5 =>
    have hbd0 : 0 ≤ 2 * Real.pi * p / q := by positivity
    have hbd1 : 2 * Real.pi * p / q ≤ Real.pi := by
      rw [div_le_iff₀ (by positivity)]
      have h' : (2 : ℝ) * p ≤ q := by exact_mod_cast h
      nlinarith [Real.pi_pos]
    refine settle_encl (Q := fun prec => turnPrec prec q) (by
      by_contra hc
      obtain ⟨r, hr⟩ := angle_rational p q
      obtain ⟨t, ht⟩ := not_irrational hc
      have hcos : Real.cos |2 * Real.pi * p / q - Real.pi / 2| = t := by
        rw [Real.cos_abs, Real.cos_sub_pi_div_two, ht]
      have hrat : ∃ r : ℚ, |2 * Real.pi * p / q - Real.pi / 2| = r * Real.pi :=
        ⟨|r - 1 / 2|, by
          rw [hr, show (r : ℝ) * Real.pi - Real.pi / 2 = (r - 1 / 2) * Real.pi by ring, abs_mul, abs_of_pos Real.pi_pos]
          push_cast
          rfl⟩
      have hm := niven_angle_eq hrat ⟨t, hcos⟩ ⟨abs_nonneg _, by rw [abs_le]; constructor <;> linarith [Real.pi_pos]⟩
      simp only [Set.mem_insert_iff, Set.mem_singleton_iff] at hm
      have two : ∀ y : ℝ, |2 * Real.pi * p / q - Real.pi / 2| = y →
          2 * Real.pi * p / q = Real.pi / 2 + y ∨ 2 * Real.pi * p / q = Real.pi / 2 - y := by
        intro y hy
        rcases abs_choice (2 * Real.pi * p / q - Real.pi / 2) with hab | hab
        · left; linarith
        · right; linarith
      rcases hm with hm | hm | hm | hm | hm <;> rcases two _ hm with h2 | h2
      · have := angle_eq (a := 1) (b := 2) hq (by norm_num) (by rw [h2]; push_cast; ring); omega
      · have := angle_eq (a := 1) (b := 2) hq (by norm_num) (by rw [h2]; push_cast; ring); omega
      · have := angle_eq (a := 5) (b := 6) hq (by norm_num) (by rw [h2]; push_cast; ring); omega
      · have := angle_eq (a := 1) (b := 6) hq (by norm_num) (by rw [h2]; push_cast; ring); omega
      · have := angle_eq (a := 1) (b := 1) hq (by norm_num) (by rw [h2]; push_cast; ring); omega
      · have := angle_eq (a := 0) (b := 1) hq (by norm_num) (by rw [h2]; push_cast; ring); omega
      · linarith [Real.pi_pos]
      · linarith [Real.pi_pos]
      · linarith [Real.pi_pos]
      · linarith [Real.pi_pos])
      (fun prec => (turnEncl_encloses hq h _).1) (turnEncl_converges hq h (turnPrec_tendsto q)).1

end Sys2Proof.Laws
end

