-- ==== Sys2Proof/Laws/HostPort.lean ====
section
/-! SUPPORT. Laws of the host port: what each offset names, what an access at an offset from BASE does, and the cases of a
step (spec/10_state.md R22, R23; spec/20_memory.md R62, R65, R70). -/

namespace Sys2Proof.Laws

open Sys2Proof.Machine

/-! ## What an offset names -/

section

variable (p : Config.Params)

@[simp] theorem locate_id : locate p 0x000 = .id := rfl
@[simp] theorem locate_caps : locate p 0x008 = .caps := rfl
@[simp] theorem locate_ctrl : locate p 0x010 = .ctrl := rfl
@[simp] theorem locate_status : locate p 0x018 = .status := rfl
@[simp] theorem locate_cmd : locate p 0x020 = .cmd := rfl
@[simp] theorem locate_result : locate p 0x028 = .result := rfl
@[simp] theorem locate_twsize : locate p 0x030 = .twsize := rfl
@[simp] theorem locate_fftn : locate p 0x038 = .fftn := rfl
@[simp] theorem locate_pipemode : locate p 0x040 = .pipemode := rfl
@[simp] theorem locate_pipebuf : locate p 0x048 = .pipebuf := rfl

theorem locate_window {off : Nat} (h : dmemWindow ≤ off) :
    locate p off = if (off - dmemWindow) / 8 < p.dmemWords then .dmem ((off - dmemWindow) / 8) else .unmapped := by
  unfold locate
  rw [if_pos h]

theorem locate_dmem (w : Nat) :
    locate p (0x100000 + 8 * w) = if w < p.dmemWords then .dmem w else .unmapped := by
  have h : (0x100000 + 8 * w - dmemWindow) / 8 = w := by unfold dmemWindow; omega
  rw [locate_window p (by unfold dmemWindow; omega), h]

theorem locate_arg (i : Fin 8) : locate p (0x080 + 8 * i.val) = .arg i := by
  have h := i.isLt
  unfold locate; rw [if_neg (by unfold dmemWindow; omega), if_neg (by omega), if_pos (by omega)]
  congr 1
  apply Fin.ext
  simp [Fin.ofNat]

/-- The four registers of channel c: j = 0, 1, 2, 3 for CHc_SEG, CHc_FFT, CHc_BUF and CHc_FLAGS. -/
theorem locate_channel {c : Nat} (j : Nat) (hn : p.nch ≤ 16) (hc : c < p.nch) (hj : j < 4) :
    locate p (0x100 + 8 * j + 0x20 * c) =
      match j with
      | 0 => .chSeg c
      | 1 => .chFft c
      | 2 => .chBuf c
      | _ => .chFlags c := by
  have e1 : (0x100 + 8 * j + 0x20 * c - 0x100) / 0x20 = c := by omega
  have e2 : (0x100 + 8 * j + 0x20 * c - 0x100) % 0x20 / 8 = j := by omega
  unfold locate; rw [if_neg (by unfold dmemWindow; omega), if_pos (by omega), locateChannel]
  simp only [e1, e2]
  rw [if_neg (by omega)]
  interval_cases j <;> rfl

/-- Below 0x80 only the ten registers are mapped. -/
theorem locate_low {off : Nat} (h : off < 0x080) :
    locate p off =
      if off = 0x000 then .id else if off = 0x008 then .caps else if off = 0x010 then .ctrl
      else if off = 0x018 then .status else if off = 0x020 then .cmd else if off = 0x028 then .result
      else if off = 0x030 then .twsize else if off = 0x038 then .fftn else if off = 0x040 then .pipemode
      else if off = 0x048 then .pipebuf else .unmapped := by
  interval_cases off <;> rfl

/-- From 0x80 to the DMEM window there are the ARG registers, the channel registers and nothing else. -/
theorem locate_middle {off : Nat} (h : 0x080 ≤ off) (h' : off < 0x100000) :
    (∃ i, locate p off = .arg i ∧ off < 0x0C0) ∨ (locate p off = .unmapped ∧ 0x0C0 ≤ off) ∨
    (0x100 ≤ off ∧ ∃ c, c < p.nch ∧
      (locate p off = .chSeg c ∨ locate p off = .chFft c ∨ locate p off = .chBuf c ∨ locate p off = .chFlags c)) := by
  by_cases h1 : off < 0x0C0
  · exact .inl ⟨_, by unfold locate; rw [if_neg (by unfold dmemWindow; omega), if_neg (by omega), if_pos ⟨h, h1⟩], h1⟩
  by_cases h2 : off < 0x100
  · refine .inr (.inl ⟨?_, by omega⟩)
    unfold locate; rw [if_neg (by unfold dmemWindow; omega), if_neg (by omega), if_neg (by omega)]
    split <;> first | rfl | omega
  have e : locate p off = locateChannel p off := by
    unfold locate; rw [if_neg (by unfold dmemWindow; omega), if_pos (by omega)]
  rw [e, locateChannel]
  split
  · exact .inr (.inl ⟨rfl, by omega⟩)
  · refine .inr (.inr ⟨by omega, (off - 0x100) / 0x20, by omega, ?_⟩)
    split <;> simp

/-- Past the channel registers nothing is mapped up to the DMEM window. -/
theorem locate_past_channels {off : Nat} (h : 0x100 + 0x20 * p.nch ≤ off) (h' : off < 0x100000) :
    locate p off = .unmapped := by
  unfold locate; rw [if_neg (by unfold dmemWindow; omega), if_pos (by omega), locateChannel, if_pos (by omega)]

end

/-! ## Accesses -/

/-- The register window is always part of the host window. -/
theorem lt_hostBytes (p : Config.Params) {off : Nat} (h : off < 0x100000) : off < p.hostBytes := by
  unfold Config.Params.hostBytes
  omega

theorem performAccess_read {s : State} {off : Nat} {t : Target} (h : off % 8 = 0) (hw : off < s.params.hostBytes)
    (ht : locate s.params off = t) :
    performAccess (.read (s.params.base + off) 8) s =
      match readTarget s t with
      | .ok v => .next { s with resp := .data v }
      | .error e => .fault e := by
  subst ht
  have e : s.params.base + off - s.params.base = off := by omega
  have d : definedAccess s.params (s.params.base + off) 8 = true := by
    rw [definedAccess, decide_eq_true_eq, e]
    omega
  cases hr : readTarget s (locate s.params off) <;> simp only [performAccess, if_pos d, e, hr]

theorem performAccess_write {s : State} {off : Nat} {t : Target} {v : Word} (h : off % 8 = 0)
    (hw : off < s.params.hostBytes) (ht : locate s.params off = t) :
    performAccess (.write (s.params.base + off) 8 v) s = writeTarget { s with resp := .written } v t := by
  subst ht
  have e : s.params.base + off - s.params.base = off := by omega
  have d : definedAccess s.params (s.params.base + off) 8 = true := by
    rw [definedAccess, decide_eq_true_eq, e]
    omega
  rw [performAccess, if_pos d]
  simp only [e]

theorem performAccess_undefined {s : State} {addr size : Nat} (h : definedAccess s.params addr size = false) :
    performAccess (.read addr size) s = .next { s with resp := .error } ∧
    ∀ v, performAccess (.write addr size v) s = .next { s with resp := .error } := by
  simp [performAccess, h]

/-- The accesses performed while a command runs, by their addresses (R70). -/
theorem performedAtOnce_iff (p : Config.Params) (a : HostAccess) :
    performedAtOnce p a = true ↔
      a = .read (p.base + 0x018) 8 ∨ a = .read p.base 8 ∨ a = .read (p.base + 0x008) 8 ∨
        ∃ v, a = .write (p.base + 0x010) 8 v := by
  have key : ∀ addr, p.base ≤ addr → p.base + (addr - p.base) = addr := by omega
  constructor
  · intro h
    cases a with
    | read addr size =>
      simp only [performedAtOnce, definedAccess, Bool.and_eq_true, decide_eq_true_eq] at h
      obtain ⟨⟨rfl, hb, -⟩, h⟩ := h
      generalize ho : addr - p.base = off at h
      have ha : addr = p.base + off := by omega
      subst ha
      by_cases h1 : off < 0x080
      · rw [locate_low p h1] at h
        by_cases e0 : off = 0x000
        · subst e0; exact .inr (.inl rfl)
        by_cases e1 : off = 0x008
        · subst e1; exact .inr (.inr (.inl rfl))
        by_cases e3 : off = 0x018
        · subst e3; exact .inl rfl
        simp only [e0, e1, e3, if_false] at h
        split_ifs at h
      · by_cases h2 : off < 0x100000
        · rcases locate_middle p (by omega) h2 with ⟨i, e, -⟩ | ⟨e, -⟩ | ⟨-, c, -, e | e | e | e⟩ <;> simp [e] at h
        · rw [locate_window p (by unfold dmemWindow; omega)] at h
          by_cases h3 : (off - dmemWindow) / 8 < p.dmemWords <;> simp [h3] at h
    | write addr size v =>
      simp only [performedAtOnce, definedAccess, Bool.and_eq_true, decide_eq_true_eq] at h
      obtain ⟨⟨rfl, hb, -⟩, h⟩ := h
      generalize ho : addr - p.base = off at h
      have ha : addr = p.base + off := by omega
      subst ha
      refine .inr (.inr (.inr ⟨v, ?_⟩))
      by_cases h1 : off < 0x080
      · rw [locate_low p h1] at h
        by_cases e2 : off = 0x010
        · rw [e2]
        simp only [e2, if_false] at h
        split_ifs at h
      · by_cases h2 : off < 0x100000
        · rcases locate_middle p (by omega) h2 with ⟨i, e, -⟩ | ⟨e, -⟩ | ⟨-, c, -, e | e | e | e⟩ <;> simp [e] at h
        · rw [locate_window p (by unfold dmemWindow; omega)] at h
          by_cases h3 : (off - dmemWindow) / 8 < p.dmemWords <;> simp [h3] at h
  · rintro (rfl | rfl | rfl | ⟨v, rfl⟩) <;> simp [performedAtOnce, definedAccess, lt_hostBytes]

/-! ## Steps -/

section

variable {s : State}

theorem step_busy_event {n : Nat} {e : HostEvent} {rest : List HostEvent} (hb : s.status.busy = true)
    (hn : s.timeLeft = n + 1) (hi : s.hostIn = e :: rest) :
    step s = arriveBusy e { s with timeLeft := n, hostIn := rest } := by simp [step, advance, hb, hn, hi]

theorem step_busy_finish (hb : s.status.busy = true) (h : s.timeLeft = 0 ∨ s.hostIn = []) :
    step s = finishCommand { s with timeLeft := 0 } := by
  rcases h with h | h
  · simp [step, advance, hb, h]
  · cases hn : s.timeLeft <;> simp [step, advance, hb, h, hn]

theorem step_held {a : HostAccess} {rest : List HostAccess} (hb : s.status.busy = false) (hh : s.held = a :: rest) :
    step s = performAccess a { s with held := rest } := by simp [step, advance, hb, hh]

theorem step_event {e : HostEvent} {rest : List HostEvent} (hb : s.status.busy = false) (hh : s.held = [])
    (hi : s.hostIn = e :: rest) : step s = arriveIdle e { s with hostIn := rest } := by simp [step, advance, hb, hh, hi]

theorem step_quiet (hb : s.status.busy = false) (hh : s.held = []) (hi : s.hostIn = []) : step s = .next s := by
  simp [step, advance, hb, hh, hi]

/-- A CMD write with no latency asked for finishes the command at once. -/
theorem startCommand_now {v : Word} (h : s.latency.headD 0 = 0) :
    startCommand v s = finishCommand { latchCommand v s with latency := s.latency.tail } := by
  unfold startCommand
  cases hl : s.latency with
  | nil => simp [latchCommand, hl]
  | cons d ds => simp_all

/-- A CMD write with latency leaves the command running. -/
theorem startCommand_later {v : Word} {d : Nat} {ds : List Nat} (h : s.latency = (d + 1) :: ds) :
    startCommand v s = .next { latchCommand v s with latency := ds, timeLeft := d + 1 } := by
  simp [startCommand, h]

theorem finishCommand_ok {i : Instr} (h : decode s.cmd = .ok i) (hw : i.wellFormed s.params = true) :
    finishCommand s = exec i s := by simp [finishCommand, h, hw]

theorem finishCommand_illegal (h : ∀ i, decode s.cmd = .ok i → i.wellFormed s.params = false) :
    finishCommand s = .next (raiseError .illegalCommand s) := by
  unfold finishCommand
  cases hd : decode s.cmd with
  | error e => rfl
  | ok i => simp [h i hd]

end

end Sys2Proof.Laws
end

