-- ==== Sys2Proof/Laws/Lengths.lean ====
section
/-! SUPPORT. How many words each unit of the datapath answers: what the region writes and the channel invariants rest on. -/

namespace Sys2Proof.Laws

open Sys2Proof.Machine

/-! ## The FFT engine -/

@[simp] theorem swapAt_length (z : List Cplx) (i j : Nat) : (swapAt z i j).length = z.length := by simp [swapAt]

@[simp] theorem bitrev_length (m : Nat) (z : List Cplx) : (bitrev m z).length = z.length := by
  refine loop_induct (fun a : List Cplx => a.length = z.length) _ _ _ rfl (fun i b _ h => ?_)
  split <;> simp [h]

@[simp] theorem bf4_length (d : Direction) (i0 h j : Nat) (z : List Cplx) : (bf4 d i0 h j z).length = z.length := by
  simp [bf4]

@[simp] theorem bf2_length (d : Direction) (i0 h j : Nat) (z : List Cplx) : (bf2 d i0 h j z).length = z.length := by
  simp [bf2]

@[simp] theorem radix4Stage_length (d : Direction) (n h : Nat) (z : List Cplx) :
    (radix4Stage d n h z).length = z.length := by
  refine loop_induct (fun a : List Cplx => a.length = z.length) _ _ _ rfl (fun i b _ hb => ?_)
  refine loop_induct (fun a : List Cplx => a.length = z.length) _ _ _ hb (fun i b _ hb => ?_)
  simp [hb]

@[simp] theorem radix4Stages_length (d : Direction) (n k h : Nat) (z : List Cplx) :
    (radix4Stages d n k h z).length = z.length := by
  induction k generalizing h z with
  | zero => rfl
  | succ k ih => simp [radix4Stages, ih]

@[simp] theorem cfft_length (d : Direction) (m : Nat) (z : List Cplx) : (cfft d m z).length = z.length := by
  simp only [cfft]
  split
  · refine loop_induct (fun a : List Cplx => a.length = z.length) _ _ _ (by simp) (fun i b _ hb => ?_)
    simp [hb]
  · simp

@[simp] theorem cscale_length (s : B64) (z : List Cplx) : (cscale s z).length = z.length := by simp [cscale]

@[simp] theorem interleave_length (z : List Cplx) : (interleave z).length = 2 * z.length := by
  induction z with
  | nil => rfl
  | cons c z ih => simp only [interleave, List.flatMap_cons, List.length_append] at ih ⊢; rw [ih]; simp; omega

@[simp] theorem complexTransform_length (d : Direction) (n : Nat) (z : List Cplx) :
    (complexTransform d n z).length = z.length := by
  cases d <;> simp [complexTransform]

@[simp] theorem rfftF_length (m : Nat) (a : List B64) : (rfftF m a).length = a.length := by
  simp only [rfftF, List.length_set]
  refine loop_induct (fun b : List B64 => b.length = a.length) _ _ _ (by simp) (fun i b _ hb => ?_)
  simp [hb]

theorem rfftI_length (m : Nat) (a : List B64) : (rfftI m a).length = 2 * (2 ^ m / 2) := by
  simp only [rfftI, interleave_length, cscale_length, cfft_length, List.length_set]
  congr 1
  refine loop_induct (fun b : List Cplx => b.length = 2 ^ m / 2) _ _ _ (by simp) (fun i b _ hb => ?_)
  simp [hb]

/-- An interleaved buffer holds half as many complex values. -/
theorem deinterleave_length : ∀ (ws : List B64), (deinterleave ws).length = ws.length / 2
  | [] => rfl
  | [_] => by simp [deinterleave]
  | _ :: _ :: rest => by simp only [deinterleave, List.length_cons, deinterleave_length rest]; omega

theorem deinterleave_interleave (z : List Cplx) : deinterleave (interleave z) = z := by
  induction z with
  | nil => rfl
  | cons c z ih => simp only [interleave, List.flatMap_cons] at ih ⊢; simp [deinterleave, ih]

/-! ## The overlap-add engine -/

@[simp] theorem padTo_length (n : Nat) (xs : List B64) : (padTo n xs).length = n := by simp [padTo]

/-- A segment changes only the tail of its channel, and the new tail has F - seg words. -/
theorem olaSegment_channel (ch : ChanCtx) (xs : List B64) :
    ∃ t, (olaSegment ch xs).2 = { ch with tail := t } ∧ t.length = ch.fft - ch.seg :=
  ⟨_, rfl, by simp⟩

/-- The per-segment loop changes only the tail of its channel, which keeps its number of words. -/
theorem olaRun_channel (n : Nat) (ch : ChanCtx) (xs : List B64) :
    ∃ t, (olaRun n ch xs).2 = { ch with tail := t } ∧
      (ch.tail.length = ch.fft - ch.seg → t.length = ch.fft - ch.seg) := by
  induction n generalizing ch xs with
  | zero => exact ⟨ch.tail, rfl, id⟩
  | succ n ih =>
    obtain ⟨u, hu, hlen⟩ := olaSegment_channel ch xs
    obtain ⟨t, ht, h⟩ := ih { ch with tail := u } (xs.drop ch.seg)
    exact ⟨t, by simp only [olaRun, hu, ht], fun _ => h hlen⟩

/-- A segment answers seg words when seg ≤ F and F is an even power of two. -/
theorem olaSegment_length {ch : ChanCtx} (xs : List B64) (h1 : ch.seg ≤ ch.fft) (h2 : 2 ^ Nat.log2 ch.fft = ch.fft)
    (h3 : ch.fft % 2 = 0) : (olaSegment ch xs).1.length = ch.seg := by
  simp only [olaSegment, segmentBlock, List.length_take, List.length_mapIdx, rfftI_length, h2]
  omega

/-- n segments answer n·seg words. -/
theorem olaRun_length {ch : ChanCtx} (n : Nat) (xs : List B64) (h1 : ch.seg ≤ ch.fft)
    (h2 : 2 ^ Nat.log2 ch.fft = ch.fft) (h3 : ch.fft % 2 = 0) : (olaRun n ch xs).1.length = n * ch.seg := by
  induction n generalizing ch xs with
  | zero => simp [olaRun]
  | succ n ih =>
    obtain ⟨u, hu, -⟩ := olaSegment_channel ch xs
    have := ih (ch := { ch with tail := u }) (xs.drop ch.seg) h1 h2 h3
    simp only [olaRun, List.length_append, hu, this, olaSegment_length xs h1 h2 h3]
    ring

/-! ## The pipeline -/

theorem evens_length : ∀ (xs : List B64), xs.length % 2 = 0 → (evens xs).length = xs.length / 2
  | [], _ => rfl
  | [_], h => by simp at h
  | _ :: _ :: rest, h => by
    simp only [List.length_cons] at h
    simp only [evens, List.length_cons, evens_length rest (by omega)]
    omega

theorem odds_length : ∀ (xs : List B64), (odds xs).length = xs.length / 2
  | [] => rfl
  | [_] => by simp [odds]
  | _ :: _ :: rest => by simp only [odds, List.length_cons, odds_length rest]; omega

theorem merge_length : ∀ (xs ys : List B64), (merge xs ys).length = xs.length + ys.length
  | [], [] => rfl
  | [], _ :: _ => by simp [merge]
  | _ :: _, [] => by simp [merge]
  | _ :: xs, _ :: ys => by simp only [merge, List.length_cons, merge_length xs ys]; omega

/-! ## The impulse responses -/

theorem combLoop_length (S : Nat) (delay amp : B64) (fuel k : Nat) (a : B64) (d : List B64) :
    (combLoop S delay amp fuel k a d).length = d.length := by
  induction fuel generalizing k a d with
  | zero => rfl
  | succ fuel ih =>
    simp only [combLoop]
    split
    · rw [ih]; split <;> simp
    · rfl

@[simp] theorem combTaps_length (S : Nat) (delay amp : B64) : (combTaps S delay amp).length = S := by
  simp [combTaps, combLoop_length]

@[simp] theorem unitImpulse_length (S : Nat) : (unitImpulse S).length = S := by simp [unitImpulse]

end Sys2Proof.Laws
end

