-- ==== Sys2Proof/Laws/PerInstr.lean ====
section
/-! SUPPORT. The encoding family of the commands (spec/30_encoding.md R80, R81): what the word of each command holds in each
field, one lemma per constructor of `Instr`. -/

namespace Sys2Proof.Laws.Encoding

/-- The word of a command holds its opcode in bits 7:0 and 0 in every reserved bit (R80), and the decoder reads the command
back from it (R83). -/
def Statement (i : Sys2Proof.Instr) : Prop :=
  Sys2Proof.opField (Sys2Proof.encode i) = Sys2Proof.opcode i ∧
  (Sys2Proof.encode i).extractLsb' 9 3 = 0#3 ∧ (Sys2Proof.encode i).extractLsb' 16 48 = 0#48 ∧
  (Sys2Proof.decode (Sys2Proof.encode i)).toOption = some i

theorem nop : Statement .nop := by unfold Statement; decide
theorem fftCfg : Statement .fftCfg := by unfold Statement; decide
theorem fftCplx (d : Sys2Proof.Direction) : Statement (.fftCplx d) := by cases d <;> (unfold Statement; decide)
theorem fftCplxSplit (d : Sys2Proof.Direction) : Statement (.fftCplxSplit d) := by cases d <;> (unfold Statement; decide)
theorem fftReal (d : Sys2Proof.Direction) : Statement (.fftReal d) := by cases d <;> (unfold Statement; decide)
theorem sinc : Statement .sinc := by unfold Statement; decide
theorem bessel0 : Statement .bessel0 := by unfold Statement; decide
theorem getFilterSize : Statement .getFilterSize := by unfold Statement; decide
theorem getDelta : Statement .getDelta := by unfold Statement; decide
theorem winHanning : Statement .winHanning := by unfold Statement; decide
theorem winHamming : Statement .winHamming := by unfold Statement; decide
theorem winBartlett : Statement .winBartlett := by unfold Statement; decide
theorem winNuttall : Statement .winNuttall := by unfold Statement; decide
theorem winBlackman : Statement .winBlackman := by unfold Statement; decide
theorem winBlackmanHarris : Statement .winBlackmanHarris := by unfold Statement; decide
theorem winBlackmanNuttall : Statement .winBlackmanNuttall := by unfold Statement; decide
theorem winFlattop : Statement .winFlattop := by unfold Statement; decide
theorem winWelch : Statement .winWelch := by unfold Statement; decide
theorem winKaiser : Statement .winKaiser := by unfold Statement; decide
theorem irLowpass : Statement .irLowpass := by unfold Statement; decide
theorem irHighpass : Statement .irHighpass := by unfold Statement; decide
theorem irBandpass : Statement .irBandpass := by unfold Statement; decide
theorem irBandelim : Statement .irBandelim := by unfold Statement; decide
theorem irComb : Statement .irComb := by unfold Statement; decide
theorem irResonator : Statement .irResonator := by unfold Statement; decide
theorem olaCfg (c : Sys2Proof.Channel) : Statement (.olaCfg c) := by revert c; unfold Statement; decide +kernel
theorem olaSetfilter (c : Sys2Proof.Channel) : Statement (.olaSetfilter c) := by revert c; unfold Statement; decide +kernel
theorem olaApply (c : Sys2Proof.Channel) : Statement (.olaApply c) := by revert c; unfold Statement; decide +kernel
theorem pipeCfg : Statement .pipeCfg := by unfold Statement; decide
theorem pipeSetfilter : Statement .pipeSetfilter := by unfold Statement; decide
theorem pipeFilter : Statement .pipeFilter := by unfold Statement; decide

end Sys2Proof.Laws.Encoding
end

