-- ==== Sys2Proof/Machine/Assembler.lean ====
section
/-! DEFINITION. The host program of spec/30_encoding.md R87, R88 as the host accesses each of its lines stands for. The lines
are given as data: the text of a line and the decimal literals in it are the assembler's own (log entry 22). -/

namespace Sys2Proof.Machine

/-- One line of a host program. -/
inductive HostLine where
  /-- A command with the values of ARG0, ARG1, ... it names (R87). -/
  | command (i : Instr) (operands : List Word)
  /-- `.dmem w: v0, v1, ...` -/
  | dmem (w : Nat) (vs : List Word)
  /-- `LOAD w` -/
  | load (w : Nat)
  /-- One poll of `WAIT`'s loop. -/
  | wait
  /-- The read of STATUS that ends `CHECK`, after its `WAIT`. -/
  | check
  | clrdone
  | srst
  | ien
  /-- `WRITE off, v` -/
  | write (off : Nat) (v : Word)
  /-- `READ off` -/
  | read (off : Nat)
  deriving DecidableEq, Repr

/-- Host writes of words at rising offsets, 8 apart. -/
def writesFrom (base off : Nat) : List Word → List HostAccess
  | [] => []
  | v :: vs => .write (base + off) 8 v :: writesFrom base (off + 8) vs

/-- The host accesses of a line, in order (R87, R88): a command line writes its ARG registers, then CMD. -/
def hostAccesses (base : Nat) : HostLine → List HostAccess
  | .command i operands => writesFrom base 0x080 operands ++ [.write (base + cmdOffset) 8 (encode i)]
  | .dmem w vs => writesFrom base (dmemWindow + 8 * w) vs
  | .load w => [.read (base + (dmemWindow + 8 * w)) 8]
  | .wait => [.read (base + 0x018) 8]
  | .check => [.read (base + 0x018) 8]
  | .clrdone => [.write (base + 0x018) 8 2#64]
  | .srst => [.write (base + 0x010) 8 2#64]
  | .ien => [.write (base + 0x010) 8 1#64]
  | .write off v => [.write (base + off) 8 v]
  | .read off => [.read (base + off) 8]

/-- `WAIT` polls again after reading v from STATUS (R88): bit 0 is 1. -/
def waitsAgain (v : Word) : Bool := v.getLsbD 0

/-- `CHECK` stops the host program after reading v from STATUS (R88): ERR is not 0. -/
def checkStops (v : Word) : Bool := decide (v.extractLsb' 8 3 ≠ 0#3)

end Sys2Proof.Machine
end

