-- ==== Sys2Proof/Tests/Slice0.lean ====
section
/-! SUPPORT. Tests. Expected values come from spec/95_test_vectors.md (V-... and P...), spec/30_encoding.md and the examples
of the command rules; the test's comment or name says which. The `witness_` theorems show, for each statement of
Certificates/Slice0/Obligations.lean that has hypotheses, a concrete state that meets them, clause by clause at the boundary
values. -/

namespace Sys2Proof.Tests

/-! The kernel evaluates these theorems one after another: elaborated at once, each would hold a thread while it waits. -/

set_option Elab.async false

open Sys2Proof Sys2Proof.Machine

/-! ## Helpers -/

/-- A small legal instance: 8 points, 16 words, 2 channels. -/
def small : Config.Params := { Config.reference with nmaxLog2 := 3, dmemLog2 := 4 }

/-- The smallest legal instance: 4 points, 8 words. -/
def tiny : Config.Params := { Config.reference with nmaxLog2 := 2, dmemLog2 := 3 }

/-- Integers as binary64 words. -/
def ints (xs : List Int) : List Word := xs.map (fun x => rnq x 1)

/-- A reset small instance with a command word, arguments and DMEM words from b on. -/
def at' (v : Word) (a0 a1 a2 a3 a4 a5 : Word) (b : Nat) (vs : List Word) : State :=
  { State.initial small with cmd := v, args := #v[a0, a1, a2, a3, a4, a5, 0#64, 0#64], dmem := writeWords [] b vs }

/-- The next state of an outcome. -/
def next? : Result → Option State
  | .next t => some t
  | .fault _ => none
  | .refused _ => none

/-- n words from b on after an outcome that completes with code 0. -/
def region (o : Result) (b n : Nat) : Option (List Word) :=
  (next? o).bind (fun t => if t.status.err = .none then some (wordsAt t.dmem b n) else none)

/-- RESULT after an outcome that completes with code 0. -/
def resultOf (o : Result) : Option Word :=
  (next? o).bind (fun t => if t.status.err = .none then some t.result else none)

/-- The code after an outcome. -/
def codeOf (o : Result) : Option ErrCode := (next? o).map (fun t => t.status.err)

/-- A channel configured (2, 4, 4) with the filter [1, 1] (V-OLA-1). -/
def movingSum : ChanCtx := ⟨true, 2, 4, 4, true, ints [2, 0, 1, -1], [0#64, 0#64]⟩

/-! ## WellFormed and Decode -/

/-- D45, V-OLA-17: with NCH = 2 a command on channel 2 is refused, on channel 1 accepted. -/
theorem test_wellFormed :
    (Instr.olaCfg 2).wellFormed small = false ∧ (Instr.olaSetfilter 2).wellFormed small = false ∧
    (Instr.olaApply 15).wellFormed small = false ∧ (Instr.olaCfg 1).wellFormed small = true ∧
    Instr.nop.wellFormed small = true := by decide

/-- The words of R97, R120 to R123. -/
theorem test_decode_control_fft :
    decodeTableWord 64 0x0000000000000000 = some .nop ∧ decodeTableWord 64 0x0000000000000001 = some .fftCfg ∧
    decodeTableWord 64 0x0000000000000002 = some (.fftCplx .fwd) ∧
    decodeTableWord 64 0x0000000000000102 = some (.fftCplx .inv) ∧
    decodeTableWord 64 0x0000000000000003 = some (.fftCplxSplit .fwd) ∧
    decodeTableWord 64 0x0000000000000103 = some (.fftCplxSplit .inv) ∧
    decodeTableWord 64 0x0000000000000004 = some (.fftReal .fwd) ∧
    decodeTableWord 64 0x0000000000000104 = some (.fftReal .inv) := by decide +kernel

/-- The words of R141 to R143 and R176. -/
theorem test_decode_scalars :
    decodeTableWord 64 0x0000000000000008 = some .sinc ∧ decodeTableWord 64 0x0000000000000009 = some .bessel0 ∧
    decodeTableWord 64 0x000000000000000A = some .getFilterSize ∧
    decodeTableWord 64 0x000000000000000B = some .getDelta := by decide +kernel

/-- The words of R180 to R189. -/
theorem test_decode_windows :
    decodeTableWord 64 0x0000000000000010 = some .winHanning ∧ decodeTableWord 64 0x0000000000000011 = some .winHamming ∧
    decodeTableWord 64 0x0000000000000012 = some .winBartlett ∧
    decodeTableWord 64 0x0000000000000013 = some .winNuttall ∧
    decodeTableWord 64 0x0000000000000014 = some .winBlackman ∧
    decodeTableWord 64 0x0000000000000015 = some .winBlackmanHarris ∧
    decodeTableWord 64 0x0000000000000016 = some .winBlackmanNuttall ∧
    decodeTableWord 64 0x0000000000000017 = some .winFlattop ∧ decodeTableWord 64 0x0000000000000018 = some .winWelch ∧
    decodeTableWord 64 0x0000000000000019 = some .winKaiser := by decide +kernel

/-- The words of R150 to R156. -/
theorem test_decode_impulse_responses :
    decodeTableWord 64 0x0000000000000020 = some .irLowpass ∧ decodeTableWord 64 0x0000000000000021 = some .irHighpass ∧
    decodeTableWord 64 0x0000000000000022 = some .irBandpass ∧
    decodeTableWord 64 0x0000000000000023 = some .irBandelim ∧ decodeTableWord 64 0x0000000000000024 = some .irComb ∧
    decodeTableWord 64 0x0000000000000025 = some .irResonator := by decide +kernel

/-- The words of R203 to R205 and R230 to R232, with CH in bits 15:12. -/
theorem test_decode_filters :
    decodeTableWord 64 0x0000000000000030 = some (.olaCfg 0) ∧
    decodeTableWord 64 0x000000000000F030 = some (.olaCfg 15) ∧
    decodeTableWord 64 0x0000000000001031 = some (.olaSetfilter 1) ∧
    decodeTableWord 64 0x0000000000001032 = some (.olaApply 1) ∧ decodeTableWord 64 0x0000000000000038 = some .pipeCfg ∧
    decodeTableWord 64 0x0000000000000039 = some .pipeSetfilter ∧
    decodeTableWord 64 0x000000000000003A = some .pipeFilter := by decide +kernel

/-- R83, R85, V-CTL-4, V-CTL-5: refused words, each by name. -/
theorem test_decode_refuses :
    rejectReason 0x1002#64 = .fixedFieldNotZero ∧ rejectReason 0x40#64 = .unassignedOpcode ∧
    rejectReason 0x10000#64 = .reservedBitSet ∧ rejectReason 0x130#64 = .fixedFieldNotZero ∧
    rejectReason 0x202#64 = .reservedBitSet ∧
    decodeTableWord 64 0x1002 = none ∧ decodeTableWord 64 0x40 = none ∧ decodeTableWord 64 0x10000 = none ∧
    decodeTableWord 64 0x130 = none ∧ decodeTableWord 64 0x202 = none ∧ decodeTableWord 64 0x05 = none := by
  decide +kernel

/-- Seven bytes are no command word. -/
theorem test_decode_bytes : (decodeBytes (List.replicate 7 0#8)).toOption = none := by decide

/-! ## The host port -/

/-- V-CTL-1, V-CTL-2: ID and CAPS of the reference instance. -/
theorem test_id_caps :
    next? (performAccess (.read 0 8) State.reset) = some { State.reset with resp := .data 0x0000000153554450#64 } ∧
    next? (performAccess (.read 8 8) State.reset) = some { State.reset with resp := .data 0x40021210#64 } := by
  decide +kernel

/-- V-CTL-4: the word 0x1002 ends with STATUS = 0x20302. -/
theorem test_illegal_status :
    (next? (step (State.reset.withFetchWord 64 0x1002))).map (fun t => statusWord t.status) = some 0x20302#64 := by
  decide +kernel

/-- V-CTL-6: IEN, NOP, CLRDONE. -/
theorem test_interrupt :
    (next? (step ({ State.reset with ie := true }.withFetchWord 64 0))).map
      (fun t => (irq t, statusWord t.status, (next? (performAccess (.write 0x18 8 2#64) t)).map (fun u =>
        (irq u, statusWord u.status)))) = some (true, 2#64, some (false, 0#64)) := by decide +kernel

/-- R293: a soft reset during WIN_HANNING on words 0 and 1 forgets them and keeps word 2. -/
theorem test_abort :
    (next? (performAccess (.write 0x10 8 2#64)
      { at' 0x10#64 0#64 2#64 0#64 0#64 0#64 0#64 0 (ints [1, 2, 3]) with
        status := ⟨true, false, .none, 0#8⟩, timeLeft := 1 })).map
      (fun t => ((List.range 3).map (readWord t.dmem), statusWord t.status)) =
      some ([none, none, some 0x4008000000000000#64], 0#64) := by decide +kernel

/-- P5's host writes for GET_DELTA 44100.0, 138, and the polls of WAIT and CHECK. -/
theorem test_hostAccesses :
    hostAccesses 0 (.command .getDelta [0x40E5888000000000#64, 138#64]) =
      [.write 0x080 8 0x40E5888000000000#64, .write 0x088 8 138#64, .write 0x020 8 0x000000000000000B#64] ∧
    hostAccesses 0 (.dmem 1 [ONE]) = [.write 0x100008 8 ONE] ∧ waitsAgain 1#64 = true ∧ checkStops 0x20302#64 = true ∧
    checkStops 2#64 = false := by decide +kernel

/-! ## Control and FFT -/

/-- V-CTL-3. -/
theorem test_nop : (next? (exec .nop State.reset)).map (fun t => statusWord t.status) = some 2#64 := by decide +kernel

/-- V-FFT-7: 6, 2 and 16 (above NMAX) fail; 8 = NMAX is accepted. -/
theorem test_fftCfg :
    codeOf (exec .fftCfg (at' 1#64 6#64 0#64 0#64 0#64 0#64 0#64 0 [])) = some .invalidConfiguration ∧
    codeOf (exec .fftCfg (at' 1#64 2#64 0#64 0#64 0#64 0#64 0#64 0 [])) = some .invalidConfiguration ∧
    codeOf (exec .fftCfg (at' 1#64 16#64 0#64 0#64 0#64 0#64 0#64 0 [])) = some .invalidConfiguration ∧
    (next? (exec .fftCfg (at' 1#64 8#64 0#64 0#64 0#64 0#64 0#64 0 []))).map (fun t => t.fftN) = some 8 := by
  decide +kernel

/-- V-FFT-1. -/
theorem test_fftCplx :
    region (exec (.fftCplx .fwd)
      { at' 2#64 0#64 8#64 0#64 0#64 0#64 0#64 0 (ints [1, 0, 2, 0, 3, 0, 4, 0]) with fftN := 4 }) 0 8 =
      some (ints [10, 0, -2, 2, -2, 0, -2, -2]) := by decide +kernel

/-- V-FFT-2. -/
theorem test_fftCplx_inverse :
    region (exec (.fftCplx .inv)
      { at' 0x102#64 0#64 8#64 0#64 0#64 0#64 0#64 0 (ints [10, 0, -2, 2, -2, 0, -2, -2]) with fftN := 4 }) 0 8 =
      some (ints [1, 0, 2, 0, 3, 0, 4, 0]) := by decide +kernel

/-- V-FFT-3, with the imaginary part at word 4. -/
theorem test_fftCplxSplit :
    region (exec (.fftCplxSplit .fwd)
      { at' 3#64 0#64 4#64 4#64 4#64 0#64 0#64 0 (ints [1, 2, 3, 4, 0, 0, 0, 0]) with fftN := 4 }) 0 8 =
      some (ints [10, -2, -2, -2, 0, 2, 0, -2]) := by decide +kernel

/-- V-FFT-6: the real transform of [1, ..., 8]. -/
theorem test_fftReal :
    region (exec (.fftReal .fwd)
      { at' 4#64 0#64 8#64 0#64 0#64 0#64 0#64 0 (ints [1, 2, 3, 4, 5, 6, 7, 8]) with fftN := 8 }) 0 8 =
      some (ints [36, -4, -4] ++ [0x4023504F333F9DE6#64] ++ ints [-4, 4, -4] ++ [0x3FFA827999FCEF34#64]) := by
  decide +kernel

/-- V-FFT-5, the inverse. -/
theorem test_fftReal_inverse :
    region (exec (.fftReal .inv)
      { at' 0x104#64 0#64 4#64 0#64 0#64 0#64 0#64 0 (ints [10, -2, -2, 2]) with fftN := 4 }) 0 4 =
      some (ints [1, 2, 3, 4]) := by decide +kernel

/-- V-FFT-11. -/
theorem test_twiddle :
    twiddle .fwd 1 8 = ⟨0x3FE6A09E667F3BCD#64, 0xBFE6A09E667F3BCD#64⟩ ∧ twiddle .fwd 2 8 = ⟨0#64, fneg ONE⟩ := by
  decide +kernel

/-! ## Scalars -/

/-- V-SC-1. -/
theorem test_sinc :
    resultOf (exec .sinc (at' 8#64 ONE 0#64 0#64 0#64 0#64 0#64 0 [])) = some 0x3FEAED548F090CEE#64 := by decide +kernel

/-- V-SC-10. -/
theorem test_bessel0 :
    resultOf (exec .bessel0 (at' 9#64 ONE 0#64 0#64 0#64 0#64 0#64 0 [])) = some 0x3FF441CE4B386C2C#64 := by
  decide +kernel

/-- V-SC-4, V-SC-6. -/
theorem test_getFilterSize :
    resultOf (exec .getFilterSize (at' 10#64 (fofNat 44100) (fofNat 1000) 0#64 0#64 0#64 0#64 0 [])) = some 138#64 ∧
    codeOf (exec .getFilterSize (at' 10#64 0#64 (fofNat 1000) 0#64 0#64 0#64 0#64 0 [])) = some .invalidArgument := by
  decide +kernel

/-- V-SC-7, V-SC-8. -/
theorem test_getDelta :
    resultOf (exec .getDelta (at' 11#64 (fofNat 44100) 138#64 0#64 0#64 0#64 0#64 0 [])) = some 0x408F2F10D148E03C#64 ∧
    codeOf (exec .getDelta (at' 11#64 (fofNat 44100) 0#64 0#64 0#64 0#64 0#64 0 [])) = some .invalidArgument := by
  decide +kernel

/-! ## Impulse responses -/

/-- V-IR-1, the first three taps. -/
theorem test_irLowpass :
    (region (exec .irLowpass (at' 0x20#64 0#64 5#64 (fofNat 8000) (fofNat 1000) 0#64 0#64 0 [])) 0 3) =
      some [0x3FC45F306DC9C883#64, 0x3FCCCF6429BE6621#64, 0x3FD0000000000000#64] := by decide +kernel

/-- V-IR-3, the centre tap 0.75. -/
theorem test_irHighpass :
    (region (exec .irHighpass (at' 0x21#64 0#64 5#64 (fofNat 8000) (fofNat 1000) 0#64 0#64 0 [])) 2 1) =
      some [0x3FE8000000000000#64] := by decide +kernel

/-- V-IR-4, the taps 1 to 3; V-IR-6. -/
theorem test_irBandpass :
    (region (exec .irBandpass (at' 0x22#64 0#64 5#64 (fofNat 8000) (fofNat 2000) (fofNat 1000) 0#64 0 [])) 1 3) =
      some [0#64, 0x3FD0000000000000#64, 0#64] ∧
    codeOf (exec .irBandpass (at' 0x22#64 0#64 5#64 (fofNat 8000) (fofNat 400) (fofNat 1000) 0#64 0 [])) =
      some .invalidArgument := by decide +kernel

/-- V-IR-5, the taps 1 and 2: 5.551115123125783e-17 is 2^-54. -/
theorem test_irBandelim :
    (region (exec .irBandelim (at' 0x23#64 0#64 5#64 (fofNat 8000) (fofNat 2000) (fofNat 1000) 0#64 0 [])) 1 2) =
      some [0x3C90000000000000#64, 0x3FE8000000000000#64] := by decide +kernel

/-- V-IR-8. -/
theorem test_irComb :
    (region (exec .irComb (at' 0x24#64 0#64 6#64 (rnq 5 2) HALF 0#64 0#64 0 [])) 0 6) =
      some [ONE, 0#64, rnq 1 4, rnq 1 4, 0#64, rnq 1 4] := by decide +kernel

/-- V-IR-11, the two inexact taps as the binary64 nearest to the decimals shown. -/
theorem test_irResonator :
    (region (exec .irResonator (at' 0x25#64 0#64 3#64 (fofNat 8) ONE 8#64 1#64 8 (ints [2]))) 0 3) =
      some [ONE, rnq 22526119005136194 (10 ^ 33), rnq (-1831563888873418) (10 ^ 17)] := by decide +kernel

/-- V-IR-12 and V-IR-14. -/
theorem test_irResonator_edges :
    (region (exec .irResonator (at' 0x25#64 0#64 3#64 (fofNat 8) 0#64 8#64 1#64 8 (ints [2]))) 0 3) =
      some (ints [1, 0, 0]) ∧
    codeOf (exec .irResonator (at' 0x25#64 0#64 4#64 (fofNat 8) ONE 2#64 1#64 0 [])) = some .invalidArgument := by
  decide +kernel

/-! ## Windows -/

/-- The words of all ones of length L under a window command. -/
def tapered (i : Instr) (L : Nat) (alpha : B64) : Option (List Word) :=
  region (exec i (at' 0#64 0#64 (BitVec.ofNat 64 L) alpha 0#64 0#64 0#64 0 (List.replicate L ONE))) 0 L

/-- V-WIN-1, L = 4. -/
theorem test_winHanning : tapered .winHanning 4 0#64 = some [0#64, rnq 3 4, rnq 3 4, 0#64] := by decide +kernel

/-- V-WIN-3, L = 3. -/
theorem test_winHamming : tapered .winHamming 3 0#64 = some [0x3FD3D70A3D70A3D8#64, ONE, 0x3FD3D70A3D70A3D8#64] := by
  decide +kernel

/-- V-WIN-4, L = 5. -/
theorem test_winBartlett :
    tapered .winBartlett 5 0#64 = some [rnq 2 10, rnq 6 10, ONE, rnq 6 10, rnq 2 10] := by decide +kernel

/-- V-WIN-7: the ends 0.05255799999999998. -/
theorem test_winNuttall :
    tapered .winNuttall 3 0#64 =
      some [rnq 5255799999999998 (10 ^ 17), ONE, rnq 5255799999999998 (10 ^ 17)] := by decide +kernel

/-- V-WIN-6. -/
theorem test_winBlackman :
    tapered .winBlackman 3 0#64 =
      some [rnq 12999999999999998 (10 ^ 17), rnq 9999999999999999 (10 ^ 16), rnq 12999999999999998 (10 ^ 17)] := by
  decide +kernel

/-- V-WIN-8: the ends 0.055645000000000014. -/
theorem test_winBlackmanHarris :
    tapered .winBlackmanHarris 3 0#64 =
      some [rnq 55645000000000014 (10 ^ 18), ONE, rnq 55645000000000014 (10 ^ 18)] := by decide +kernel

/-- V-WIN-9: the ends 0.061334500000000014. -/
theorem test_winBlackmanNuttall :
    tapered .winBlackmanNuttall 3 0#64 =
      some [rnq 61334500000000014 (10 ^ 18), ONE, rnq 61334500000000014 (10 ^ 18)] := by decide +kernel

/-- V-WIN-10. -/
theorem test_winFlattop :
    tapered .winFlattop 3 0#64 =
      some [rnq (-5126315600000001) (10 ^ 17), rnq 1000000003 (10 ^ 9), rnq (-5126315600000001) (10 ^ 17)] := by
  decide +kernel

/-- V-WIN-5, L = 3. -/
theorem test_winWelch : tapered .winWelch 3 0#64 = some [0x3FE1C71C71C71C72#64, ONE, 0x3FE1C71C71C71C72#64] := by
  decide +kernel

/-- V-WIN-14, and V-WIN-12 with α = -0. -/
theorem test_winKaiser :
    tapered .winKaiser 3 ONE =
      some [rnq 5327942120660513 (10 ^ 16), ONE, rnq 5327942120660513 (10 ^ 16)] ∧
    tapered .winKaiser 2 0x8000000000000000#64 = some [0#64, 0#64] := by decide +kernel

/-! ## Overlap-add and pipeline -/

/-- The example of R203 at the small sizes, on channel 1; V-OLA-9. -/
theorem test_olaCfg :
    (next? (exec (.olaCfg 1) (at' 0x1030#64 2#64 4#64 4#64 0#64 0#64 0#64 0 []))).map (fun t => chan t 1) =
      some ⟨true, 2, 4, 4, false, [], [0#64, 0#64]⟩ ∧
    codeOf (exec (.olaCfg 0) (at' 0x30#64 4#64 4#64 4#64 0#64 0#64 0#64 0 [])) = some .invalidConfiguration := by
  decide +kernel

/-- V-OLA-1: H and TAIL of the filter [1, 1]. -/
theorem test_olaSetfilter :
    (next? (exec (.olaSetfilter 0)
      (setChan (at' 0x31#64 0#64 2#64 0#64 0#64 0#64 0#64 0 (ints [1, 1])) 0 (configured 2 4 4)))).map
      (fun t => (chan t 0, t.twSize)) = some (movingSum, 4) := by decide +kernel

/-- V-OLA-2: the output and the tail. -/
theorem test_olaApply :
    (next? (exec (.olaApply 0)
      (setChan (at' 0x32#64 0#64 4#64 0#64 0#64 0#64 0#64 0 (ints [1, 2, 3, 4])) 0 movingSum))).map
      (fun t => (wordsAt t.dmem 0 4, (chan t 0).tail)) = some (ints [1, 3, 5, 7], ints [4, 0]) := by decide +kernel

/-- V-OLA-11: no filter. -/
theorem test_olaApply_noFilter :
    codeOf (exec (.olaApply 0)
      (setChan (at' 0x32#64 0#64 4#64 0#64 0#64 0#64 0#64 0 (ints [1, 2, 3, 4])) 0 (configured 2 4 4))) =
      some .invalidConfiguration := by decide +kernel

/-- V-PIPE-2's configuration; V-PIPE-4. -/
theorem test_pipeCfg :
    (next? (exec .pipeCfg (at' 0x38#64 1#64 2#64 4#64 8#64 0#64 0#64 0 []))).map
      (fun t => (t.pipeMode, t.pipeBuf, t.chans)) = some (.stereo, 8, [configured 2 4 4, configured 2 4 4]) ∧
    codeOf (exec .pipeCfg (at' 0x38#64 0#64 1#64 4#64 7#64 0#64 0#64 0 [])) = some .invalidConfiguration := by
  decide +kernel

/-- The example of R231: both channels get H = [2, 0, 1, -1]. -/
theorem test_pipeSetfilter :
    (next? (exec .pipeSetfilter
      { at' 0x39#64 0#64 2#64 0#64 0#64 0#64 0#64 0 (ints [1, 1]) with
        pipeMode := .stereo, pipeBuf := 8, chans := [configured 2 4 4, configured 2 4 4] })).map
      (fun t => t.chans) = some [movingSum, movingSum] := by decide +kernel

/-- V-PIPE-2. -/
theorem test_pipeFilter :
    (next? (exec .pipeFilter
      { at' 0x3A#64 0#64 8#64 0#64 0#64 0#64 0#64 0 (ints [1, 10, 2, 20, 3, 30, 4, 40]) with
        pipeMode := .stereo, pipeBuf := 8, chans := [movingSum, movingSum] })).map
      (fun t => (wordsAt t.dmem 0 8, t.chans.map ChanCtx.tail)) =
      some (ints [1, 10, 3, 30, 5, 50, 7, 70], [ints [4, 0], ints [40, 0]]) := by decide +kernel

/-- V-PIPE-6. -/
theorem test_pipeFilter_unconfigured :
    codeOf (exec .pipeFilter (at' 0x3A#64 0#64 8#64 0#64 0#64 0#64 0#64 0 [])) = some .invalidConfiguration := by
  decide +kernel

/-! ## Witnesses -/

/-- The invariant as a computation. -/
def invCheck (s : State) : Bool :=
  s.params.legal && decide (s.chans.length = s.params.nch) &&
  s.chans.all (fun ch =>
    (!ch.cfg || (transformSize s.params ch.fft &&
      decide (1 ≤ ch.seg ∧ ch.seg < ch.fft ∧ 1 ≤ ch.buf ∧ ch.buf ≤ s.params.dmemWords ∧ ch.buf % ch.seg = 0 ∧
        ch.tail.length = ch.fft - ch.seg))) &&
    (!ch.filt || (ch.cfg && decide (ch.spectrum.length = ch.fft))) &&
    (ch.filt || decide (ch.spectrum = [])) && (ch.cfg || decide (ch = unconfigured))) &&
  (decide (s.twSize = 0) || transformSize s.params s.twSize) && (decide (s.fftN = 0) || transformSize s.params s.fftN) &&
  (match s.pipeMode with
    | .off => decide (s.pipeBuf = 0)
    | .mono => decide (s.pipeBuf % 2 = 0) && (chan s 0).cfg && decide ((chan s 0).buf = s.pipeBuf)
    | .stereo =>
      decide (s.pipeBuf % 2 = 0) && (chan s 0).cfg && (chan s 1).cfg && decide ((chan s 0).buf = s.pipeBuf / 2) &&
      decide ((chan s 1).buf = s.pipeBuf / 2) && decide ((chan s 0).seg = (chan s 1).seg) &&
      decide ((chan s 0).fft = (chan s 1).fft)) &&
  Memory.wf s.params.dmemWords s.dmem && (s.status.busy || decide (s.timeLeft = 0))

/-- The computed invariant is the invariant. -/
theorem inv_of_check {s : State} (h : invCheck s = true) : s.Inv := by
  simp only [invCheck, Bool.and_eq_true, Bool.or_eq_true, Bool.not_eq_true', decide_eq_true_eq, List.all_eq_true] at h
  obtain ⟨⟨⟨⟨⟨⟨⟨hp, hl⟩, hc⟩, ht⟩, hf⟩, hm⟩, hd⟩, hi⟩ := h
  refine ⟨hp, hl, ?_, ht, hf, ?_, hd, ?_⟩
  · intro ch hch
    obtain ⟨⟨⟨h1, h2⟩, h3⟩, h4⟩ := hc ch hch
    refine ⟨fun e => ?_, fun e => ?_, fun e => ?_, fun e => ?_⟩ <;> simp_all
  · unfold pipelineWf
    split at hm <;> simp_all
  · intro hb
    simp_all

/-- A CMD write of v is the host's next event, CORE idle and nothing held. -/
def writing (v : Word) (lat : List Nat) : State :=
  { State.initial small with hostIn := [.access (.write 0x020 8 v)], latency := lat }

/-- A running command, n events still to arrive, the host's next event e. -/
def running (v : Word) (n : Nat) (e : List HostEvent) : State :=
  { State.initial small with status := ⟨true, false, .none, 0#8⟩, cmd := v, timeLeft := n, hostIn := e }

/-- A legal state in which every DMEM word has been written: words of a finite value, both channels with a filter. -/
def full (v a0 a1 a2 a3 a4 a5 : Word) : State :=
  { at' v a0 a1 a2 a3 a4 a5 0 (List.replicate 8 ONE) with params := tiny, fftN := 4, chans := [movingSum, movingSum] }

/-- The same, with the pipeline stereo and its right-hand words x. -/
def stereoState (x : Word) (right : ChanCtx) : State :=
  { at' 0x3A#64 0#64 8#64 0#64 0#64 0#64 0#64 0 [ONE, x, ONE, x, ONE, x, ONE, x] with
    pipeMode := .stereo, pipeBuf := 8, chans := [movingSum, right] }

theorem witness_ResetMeetsInvariant : Config.reference.legal = true ∧ small.legal = true := by decide

theorem witness_ResetInput :
    (∃ s : State, s.hostIn = [.resetInput] ∧ s.status.busy = false ∧ s.held = []) ∧
    ∃ s : State, s.hostIn = [.resetInput] ∧ s.status.busy = true ∧ s.timeLeft ≠ 0 :=
  ⟨⟨{ State.initial small with hostIn := [.resetInput] }, rfl, rfl, rfl⟩,
   running 0#64 1 [.resetInput], rfl, rfl, by decide⟩

theorem witness_StepKeepsInvariant :
    (writing 0#64 []).Inv ∧ (next? (step (writing 0#64 []))).isSome = true :=
  ⟨inv_of_check (by decide +kernel), by decide +kernel⟩

/-- The monotone clause where TWSIZE grows, and the step that returns it to 0. -/
theorem witness_TwiddleStoreNeverShrinks :
    (next? (exec (.fftCplx .fwd) (full 2#64 0#64 8#64 0#64 0#64 0#64 0#64))).map (fun t => t.twSize) = some 4 ∧
    (next? (step { State.initial small with twSize := 8, hostIn := [.resetInput] })).map (fun t => t.twSize) = some 0 := by
  decide +kernel

theorem witness_StepRunsDecodedCommand :
    (decode 0x102#64).toOption = some (.fftCplx .inv) ∧ (Instr.fftCplx .inv).wellFormed small = true ∧
    (writing 0x102#64 []).status.busy = false ∧ (writing 0x102#64 []).held = [] ∧
    (writing 0x102#64 [0, 3]).latency.headD 0 = 0 ∧
    (writing 0x102#64 []).hostIn = [.access (.write (small.base + 0x020) 8 0x102#64)] ∧
    ({ State.initial small with held := [.write 0x020 8 0x102#64] } : State).held =
      [.write (small.base + 0x020) 8 0x102#64] ∧ (0x102#64 : Word) = tableWord 64 0x102 := by decide +kernel

/-- An unassigned OP, and a channel at NCH: the host's next event, the first held access, the running command. -/
theorem witness_IllegalWordIsReported :
    (decode 0xFF#64).toOption = none ∧ (decode 0x2030#64).toOption = some (.olaCfg 2) ∧
    (Instr.olaCfg 2).wellFormed small = false ∧ (writing 0x2030#64 []).held = [] ∧
    (writing 0x2030#64 []).latency.headD 0 = 0 ∧
    (writing 0x2030#64 []).hostIn = [.access (.write (small.base + 0x020) 8 0x2030#64)] ∧
    ({ State.initial small with held := [.write 0x020 8 0xFF#64] } : State).held =
      [.write (small.base + 0x020) 8 0xFF#64] ∧
    ((running 0xFF#64 0 []).status.busy = true ∧ (running 0xFF#64 0 []).timeLeft = 0 ∧ (running 0xFF#64 0 []).cmd = 0xFF#64 ∧
      (running 0xFF#64 2 []).hostIn = []) := by decide +kernel

theorem witness_BusyUntilCompletion :
    ((writing 0#64 [1]).status.busy = false ∧ (writing 0#64 [1]).held = [] ∧ (writing 0#64 [1]).latency = (0 + 1) :: [] ∧
      (writing 0#64 [1]).hostIn = [.access (.write (small.base + 0x020) 8 0#64)]) ∧
    ((running 0#64 0 []).status.busy = true ∧ (running 0#64 0 []).timeLeft = 0 ∧
      (decode 0#64).toOption = some .nop ∧ Instr.nop.wellFormed small = true) ∧
    (running 0#64 2 []).hostIn = [] ∧ (next? (exec .nop (running 0#64 0 []))).isSome = true := by decide +kernel

/-- A read of STATUS is performed, one of RESULT held; then a held access, and the host's next one. -/
theorem witness_HeldAccesses :
    ((running 0#64 1 [.access (.read 0x018 8)]).timeLeft = 0 + 1 ∧
      (running 0#64 1 [.access (.read 0x018 8)]).hostIn = [.access (.read (small.base + 0x018) 8)]) ∧
    (HostAccess.read 0x028 8 ≠ .read (small.base + 0x018) 8 ∧ HostAccess.read 0x028 8 ≠ .read small.base 8 ∧
      HostAccess.read 0x028 8 ≠ .read (small.base + 0x008) 8) ∧
    ({ State.initial small with held := [.read 0x028 8] } : State).status.busy = false ∧
    (writing 0#64 []).held = [] := by decide +kernel

/-- A narrow access, a misaligned one, one below BASE, and one at the first address past the host window. -/
theorem witness_UndefinedAccess :
    ((4 : Nat) ≠ 8) ∧ ((0x01C : Nat) - small.base) % 8 ≠ 0 ∧
    (0x0FF8 : Nat) < ({ small with base := 0x1000 } : Config.Params).base ∧
    small.base + small.hostBytes ≤ 0x100080 ∧ 0x100078 < small.base + small.hostBytes := by
  decide

theorem witness_RegisterReads : (State.initial small).params.legal = true ∧ 1 < (State.initial small).params.nch := by
  decide

/-- The lowest and highest offsets of each range. -/
theorem witness_UnmappedOffsets :
    (State.initial small).params.legal = true ∧ (0x050 % 8 = 0 ∧ 0x078 < 0x080) ∧ (0x0C0 % 8 = 0 ∧ 0x0F8 < 0x100) ∧
    0x100 + 0x20 * (State.initial small).params.nch ≤ 0x140 ∧ 0xFFFF8 < 0x100000 ∧ 0xFFFF8 % 8 = 0 := by decide

theorem witness_RegisterWrites :
    (State.initial small).params.legal = true ∧ (1#64 : Word).getLsbD 1 = false ∧ (2#64 : Word).getLsbD 1 = true ∧
    0x008 < 0x010 ∧ 0x028 % 8 = 0 ∧ 0x0F8 % 8 = 0 := by decide

/-- Word 15, the last, written and never written; word 16, the first past the end, routed to CORE in an instance whose platform
decodes 8 bytes more, and not routed in one whose platform does not. -/
theorem witness_DmemWindow :
    15 < small.dmemWords ∧ readWord (writeWord [] 15 ONE) 15 = some ONE ∧ readWord [] 15 = none ∧
    (small.dmemWords ≤ 16 ∧ 8 * 16 < 8 * small.dmemWords + ({ small with hostExtra := 8 } : Config.Params).hostExtra) ∧
    8 * small.dmemWords + small.hostExtra ≤ 8 * 16 := by decide +kernel

theorem witness_InterruptOutput :
    (next? (exec .nop { State.initial small with ie := true })).isSome = true ∧
    (next? (performAccess (.write 0x018 8 2#64) { State.initial small with ie := true })).isSome = true := by
  decide +kernel

theorem witness_SoftResetIdle : (State.initial small).status.busy = false ∧ (2#64 : Word).getLsbD 1 = true := by decide

/-- WIN_HANNING on words 0 and 1 passes its checks; on words 15 and 16 it fails one. -/
theorem witness_SoftResetAborts :
    (running 0x10#64 1 []).status.busy = true ∧ (2#64 : Word).getLsbD 1 = true ∧
    (decode 0x10#64).toOption = some .winHanning ∧
    firstFailing (checksOf .winHanning { running 0x10#64 1 [] with args := #v[0#64, 2#64, 0#64, 0#64, 0#64, 0#64, 0#64, 0#64] })
      = none ∧
    (0, 2) ∈ outputRegions .winHanning { running 0x10#64 1 [] with args := #v[0#64, 2#64, 0#64, 0#64, 0#64, 0#64, 0#64, 0#64] } ∧
    firstFailing (checksOf .winHanning { running 0x10#64 1 [] with args := #v[15#64, 2#64, 0#64, 0#64, 0#64, 0#64, 0#64, 0#64] })
      ≠ none := by decide +kernel

theorem witness_ChecksBeforeEffect :
    firstFailing (checksOf (.fftReal .fwd) (State.initial small)) = some .invalidConfiguration ∧
    firstFailing (checksOf .nop (State.initial small)) = none ∧
    (next? (exec .nop (State.initial small))).isSome = true := by decide +kernel

/-- FFTN = 0; and with FFTN = 4 a length off by one, and a region one word past the end. -/
theorem witness_FftErrors :
    (¬∃ k, 2 ≤ k ∧ k ≤ small.nmaxLog2 ∧ (6 : Nat) = 2 ^ k) ∧ (State.initial small).fftN = 0 ∧
    argU (full 2#64 0#64 7#64 3#64 4#64 0#64 0#64) 1 ≠ 2 * 4 ∧ argU (full 3#64 0#64 0#64 3#64 4#64 0#64 0#64) 2 ≠ 4 ∧
    argU (full 3#64 0#64 0#64 4#64 5#64 0#64 0#64) 3 ≠ 4 ∧
    tiny.dmemWords < argU (full 2#64 1#64 8#64 0#64 0#64 0#64 0#64) 0 + argU (full 2#64 1#64 8#64 0#64 0#64 0#64 0#64) 1 ∧
    tiny.dmemWords < argU (full 3#64 0#64 5#64 4#64 4#64 0#64 0#64) 1 + argU (full 3#64 0#64 5#64 4#64 4#64 0#64 0#64) 3 := by
  refine ⟨?_, by decide +kernel, by decide +kernel, by decide +kernel, by decide +kernel, by decide +kernel, by decide +kernel⟩
  rintro ⟨k, h1, h2, h3⟩
  have : k ≤ 3 := h2
  interval_cases k <;> omega

/-- Zero, negative, infinite and NaN parameters; a ratio of 2^63; a region one word past the end; a negative low edge; a delay
below the minimum; regions that share one word. -/
theorem witness_GeneratorErrors :
    fpos 0#64 = false ∧ fpos (fneg ONE) = false ∧ fpos (fpack false infMag) = false ∧ fpos canonicalNaN = false ∧
    flt (fofNat (2 ^ 63)) (fofNat (2 ^ 63)) = false ∧ isFin (fdiv C31 (fdiv 1#64 ONE)) = false ∧
    small.dmemWords < 15 + 2 ∧ (Instr.winHanning, cosSum1 (rnq 5 10) (rnq 5 10)) ∈ windowTable ∧
    flt (fsub (fofNat 400) (fmul (fofNat 1000) HALF)) plusZero = true ∧ flt 0x3EEFFFFFFFFFFFFF#64 small.combDelayMin = true ∧
    (1 ≤ 4 ∧ 0 < 3 + 1 ∧ 3 < 0 + 4) := by
  refine ⟨by decide +kernel, by decide +kernel, by decide +kernel, by decide +kernel, by decide +kernel, by decide +kernel,
    by decide, ?_, by decide +kernel, by decide +kernel, by decide⟩
  simp [windowTable]

/-- A channel at NCH; F = 6; seg = F; a bare channel, one without filter, one of another length; odd totals and modes. -/
theorem witness_FilterErrors :
    small.nch ≤ (2 : Channel).val ∧ (1 : Channel).val < small.nch ∧ (chan (State.initial small) 1).cfg = false ∧
    (chan (setChan (State.initial small) 0 (configured 2 4 4)) 0).cfg = true ∧
    (chan (setChan (State.initial small) 0 (configured 2 4 4)) 0).filt = false ∧
    (chan (full 0x32#64 0#64 6#64 0#64 0#64 0#64 0#64) 0).filt = true ∧
    argU (full 0x32#64 0#64 6#64 0#64 0#64 0#64 0#64) 1 ≠ (chan (full 0x32#64 0#64 6#64 0#64 0#64 0#64 0#64) 0).buf ∧
    (State.initial small).pipeMode = .off ∧ (stereoState ONE movingSum).pipeMode ≠ .off ∧
    (chan (stereoState ONE (configured 2 4 4)) 1).filt = false ∧ (4 : Nat) ≤ 4 ∧ 7 % 2 = 1 ∧ 2 ≤ 2 := by decide +kernel

theorem witness_CommandFrame :
    (full 0x10#64 0#64 2#64 0#64 0#64 0#64 0#64).Inv ∧
    (next? (exec .winHanning (full 0x10#64 0#64 2#64 0#64 0#64 0#64 0#64))).isSome = true ∧
    outputRegions .winHanning (full 0x10#64 0#64 2#64 0#64 0#64 0#64 0#64) = [(0, 2)] :=
  ⟨inv_of_check (by decide +kernel), by decide +kernel, by decide +kernel⟩

/-- Both regions of FFT_CPLX_SPLIT written; a window whose second word was never written. -/
theorem witness_EveryCommandCompletes :
    (full 3#64 0#64 4#64 4#64 4#64 0#64 0#64).Inv ∧
    (∀ r, r ∈ inputRegions (.fftCplxSplit .fwd) (full 3#64 0#64 4#64 4#64 4#64 0#64 0#64) →
      written (full 3#64 0#64 4#64 4#64 4#64 0#64 0#64).dmem r.1 r.2) ∧
    (at' 0x10#64 0#64 2#64 0#64 0#64 0#64 0#64 0 [ONE]).Inv ∧
    exec .winHanning (at' 0x10#64 0#64 2#64 0#64 0#64 0#64 0#64 0 [ONE]) = .fault (.neverWritten 1) :=
  ⟨inv_of_check (by decide +kernel), by decide +kernel, inv_of_check (by decide +kernel), by rfl⟩

/-- The smallest and the largest size. -/
theorem witness_FftCfgResult :
    (2 ≤ 2 ∧ 2 ≤ small.nmaxLog2 ∧ argU (at' 1#64 4#64 0#64 0#64 0#64 0#64 0#64 0 []) 0 = 2 ^ 2) ∧
    (3 ≤ small.nmaxLog2 ∧ argU (at' 1#64 8#64 0#64 0#64 0#64 0#64 0#64 0 []) 0 = 2 ^ 3) := by decide +kernel

/-- A region that ends at the last word. -/
theorem witness_FftCplxResult :
    (full 2#64 0#64 8#64 0#64 0#64 0#64 0#64).fftN ≠ 0 ∧
    argU (full 2#64 0#64 8#64 0#64 0#64 0#64 0#64) 1 = 2 * (full 2#64 0#64 8#64 0#64 0#64 0#64 0#64).fftN ∧
    argU (full 2#64 0#64 8#64 0#64 0#64 0#64 0#64) 0 + argU (full 2#64 0#64 8#64 0#64 0#64 0#64 0#64) 1 ≤ tiny.dmemWords ∧
    written (full 2#64 0#64 8#64 0#64 0#64 0#64 0#64).dmem 0 8 := by decide +kernel

/-- Regions that overlap in words 4 and 5, the second ending at the last word. -/
theorem witness_FftCplxSplitResult :
    argU (full 3#64 2#64 4#64 4#64 4#64 0#64 0#64) 2 = (full 3#64 2#64 4#64 4#64 4#64 0#64 0#64).fftN ∧
    argU (full 3#64 2#64 4#64 4#64 4#64 0#64 0#64) 3 = (full 3#64 2#64 4#64 4#64 4#64 0#64 0#64).fftN ∧
    (full 3#64 2#64 4#64 4#64 4#64 0#64 0#64).fftN ≠ 0 ∧ 2 + 4 ≤ tiny.dmemWords ∧ 4 + 4 ≤ tiny.dmemWords ∧
    written (full 3#64 2#64 4#64 4#64 4#64 0#64 0#64).dmem 2 4 ∧
    written (full 3#64 2#64 4#64 4#64 4#64 0#64 0#64).dmem 4 4 := by decide +kernel

/-- A region at the end of DMEM; for 8 words, the one inner bin and a z with every entry R114 gives it. -/
theorem witness_FftRealResult :
    ((full 4#64 4#64 4#64 0#64 0#64 0#64 0#64).fftN = 2 ^ 2 ∧
      argU (full 4#64 4#64 4#64 0#64 0#64 0#64 0#64) 1 = (full 4#64 4#64 4#64 0#64 0#64 0#64 0#64).fftN ∧
      argU (full 4#64 4#64 4#64 0#64 0#64 0#64 0#64) 0 + argU (full 4#64 4#64 4#64 0#64 0#64 0#64 0#64) 1 ≤ tiny.dmemWords ∧
      written (full 4#64 4#64 4#64 0#64 0#64 0#64 0#64).dmem 4 4) ∧
    ((List.replicate 8 plusZero).length = 2 ^ 3 ∧ 2 * 4 = 2 ^ 3 ∧ 1 < 4 / 2) ∧
    ∃ z : List Cplx, z.length = 4 ∧
      cget z 0 = ⟨fmul HALF (fadd (fget (List.replicate 8 plusZero) 0) (fget (List.replicate 8 plusZero) 1)),
        fmul HALF (fsub (fget (List.replicate 8 plusZero) 0) (fget (List.replicate 8 plusZero) 1))⟩ ∧
      cget z (4 / 2) = ⟨fget (List.replicate 8 plusZero) 4, fneg (fget (List.replicate 8 plusZero) (4 + 1))⟩ ∧
      ∀ j, 1 ≤ j → j < 4 / 2 → ∃ Ar Ai Br Bi Er Ei Q,
        Ar = fget (List.replicate 8 plusZero) (2 * j) ∧ Ai = fget (List.replicate 8 plusZero) (2 * j + 1) ∧
        Br = fget (List.replicate 8 plusZero) (2 * (4 - j)) ∧ Bi = fneg (fget (List.replicate 8 plusZero) (2 * (4 - j) + 1)) ∧
        Er = fmul HALF (fadd Ar Br) ∧ Ei = fmul HALF (fadd Ai Bi) ∧
        Q = cmul (twiddle .inv j (2 ^ 3)) ⟨fsub Ar Br, fsub Ai Bi⟩ ∧
        cget z j = ⟨fsub Er (fmul HALF Q.im), fadd Ei (fmul HALF Q.re)⟩ ∧
        cget z (4 - j) = ⟨fadd Er (fmul HALF Q.im), fneg (fsub Ei (fmul HALF Q.re))⟩ := by
  refine ⟨by decide +kernel, by decide, [⟨0#64, 0#64⟩, ⟨0#64, 0#64⟩, ⟨0#64, 0x8000000000000000#64⟩, ⟨0#64, 0x8000000000000000#64⟩],
    by decide, by decide +kernel, by decide +kernel, fun j h1 h2 => ?_⟩
  obtain rfl : j = 1 := by omega
  exact ⟨_, _, _, _, _, _, _, rfl, rfl, rfl, rfl, rfl, rfl, rfl, by decide +kernel, by decide +kernel⟩

theorem witness_BitReversal : (List.replicate 8 (⟨ONE, ONE⟩ : Cplx)).length = 2 ^ 3 ∧ 7 < 2 ^ 3 ∧ 2 < 3 := by decide

/-- Two blocks of span 8, the last offset of the last block; 8 points with their radix-2 tail; the largest size. -/
theorem witness_ComplexTransformStages :
    ((List.replicate 16 (⟨ONE, ONE⟩ : Cplx)).length = 4 * 2 * 2 ∧ 1 < 2 ∧ 13 - 4 = 4 * 2 * 1 + 1) ∧
    ((List.replicate 8 (⟨ONE, ONE⟩ : Cplx)).length = 2 ^ 3 ∧ 3 % 2 = 1 ∧ 2 * 4 = 2 ^ 3 ∧ 3 < 4) ∧ 2 % 2 = 0 ∧ 24 ≤ 24 := by decide

theorem witness_TwiddleMemo : 0 < 8 ∧ 4 ∣ 8 ∧ 3 < 4 := by decide

theorem witness_SincResult : isInf (fpack true infMag) = true ∧ isNaN 0xFFF0000000000001#64 = true := by decide +kernel

/-- The worked example of R142. -/
theorem witness_GetFilterSizeResult :
    fpos (argF (at' 10#64 (fofNat 44100) (fofNat 1000) 0#64 0#64 0#64 0#64 0 []) 0) = true ∧
    fpos (argF (at' 10#64 (fofNat 44100) (fofNat 1000) 0#64 0#64 0#64 0#64 0 []) 1) = true ∧
    isFin (fdiv C31 (fdiv (fofNat 1000) (fofNat 44100))) = true ∧
    flt (fdiv C31 (fdiv (fofNat 1000) (fofNat 44100))) (fofNat (2 ^ 63)) = true := by decide +kernel

/-- Delayers 1 and 2, the boundary of the odd and the even case. -/
theorem witness_GetDeltaResult :
    fpos (argF (at' 11#64 ONE 1#64 0#64 0#64 0#64 0#64 0 []) 0) = true ∧
    1 ≤ argU (at' 11#64 ONE 1#64 0#64 0#64 0#64 0#64 0 []) 1 ∧ 1 ≤ argU (at' 11#64 ONE 2#64 0#64 0#64 0#64 0#64 0 []) 1 := by
  decide +kernel

theorem witness_LowpassHighpassTaps :
    fpos (argF (at' 0x20#64 0#64 16#64 (fofNat 8000) (fofNat 1000) 0#64 0#64 0 []) 2) = true ∧
    fpos (argF (at' 0x20#64 0#64 16#64 (fofNat 8000) (fofNat 1000) 0#64 0#64 0 []) 3) = true ∧
    argU (at' 0x20#64 0#64 16#64 (fofNat 8000) (fofNat 1000) 0#64 0#64 0 []) 0 +
      argU (at' 0x20#64 0#64 16#64 (fofNat 8000) (fofNat 1000) 0#64 0#64 0 []) 1 ≤ small.dmemWords := by decide +kernel

/-- A low edge of exactly 0. -/
theorem witness_BandTaps :
    fpos (fofNat 8000) = true ∧ fpos (fofNat 500) = true ∧ fpos (fofNat 1000) = true ∧
    flt (fsub (fofNat 500) (fmul (fofNat 1000) HALF)) plusZero = false ∧
    argU (at' 0x22#64 0#64 16#64 (fofNat 8000) (fofNat 500) (fofNat 1000) 0#64 0 []) 0 +
      argU (at' 0x22#64 0#64 16#64 (fofNat 8000) (fofNat 500) (fofNat 1000) 0#64 0 []) 1 ≤ small.dmemWords := by
  decide +kernel

/-- The smallest delay accepted, and a size whose quotient by it is below 2^53. -/
theorem witness_CombResult :
    small.legal = true ∧ isFin small.combDelayMin = true ∧ flt small.combDelayMin small.combDelayMin = false ∧
    0 + 16 ≤ small.dmemWords ∧ 16 * 2 ^ 1074 < funits small.combDelayMin * 2 ^ 53 := by decide +kernel

/-- Two regions that touch; strength 0 and 1. -/
theorem witness_ResonatorResult :
    fpos (argF (full 0x25#64 0#64 4#64 ONE ONE 4#64 4#64) 2) = true ∧ 1 ≤ argU (full 0x25#64 0#64 4#64 ONE ONE 4#64 4#64) 5 ∧
    argU (full 0x25#64 0#64 4#64 ONE ONE 4#64 4#64) 4 + argU (full 0x25#64 0#64 4#64 ONE ONE 4#64 4#64) 5 ≤ tiny.dmemWords ∧
    argU (full 0x25#64 0#64 4#64 ONE ONE 4#64 4#64) 0 + argU (full 0x25#64 0#64 4#64 ONE ONE 4#64 4#64) 1 ≤
      argU (full 0x25#64 0#64 4#64 ONE ONE 4#64 4#64) 4 ∧
    isZero 0x8000000000000000#64 = true ∧ isZero ONE = false ∧
    written (full 0x25#64 0#64 4#64 ONE ONE 4#64 4#64).dmem 4 4 := by decide +kernel

/-- The two sequences exist: they are built by recursion. -/
theorem witness_Bessel0Result :
    ∃ t sum : Nat → B64, t 0 = ONE ∧ sum 0 = ONE ∧
      (∀ i, t (i + 1) = fdiv (fmul (t i) (fmul ONE HALF)) (fofNat (i + 1))) ∧
      (∀ i, sum (i + 1) = fadd (sum i) (fmul (t (i + 1)) (t (i + 1)))) :=
  ⟨fun n => Nat.rec ONE (fun i x => fdiv (fmul x (fmul ONE HALF)) (fofNat (i + 1))) n,
   fun n => Nat.rec ONE (fun i x => fadd x (fmul
     (Nat.rec ONE (fun i x => fdiv (fmul x (fmul ONE HALF)) (fofNat (i + 1))) (i + 1) : B64)
     (Nat.rec ONE (fun i x => fdiv (fmul x (fmul ONE HALF)) (fofNat (i + 1))) (i + 1) : B64))) n,
   rfl, rfl, fun _ => rfl, fun _ => rfl⟩

theorem witness_BesselProperties :
    1 ≤ 1 ∧ 255 ≤ 255 ∧ 2 ≤ 2 ∧ isInf (fpack true infMag) = true ∧ isNaN canonicalNaN = true := by decide +kernel

theorem witness_WindowResults :
    (Instr.winWelch, fun (p q : Nat) => rnq ((q : Int) * q - (2 * (p : Int) - q) * (2 * (p : Int) - q)) (q * q)) ∈
      windowTable ∧
    argU (full 0x18#64 0#64 8#64 0#64 0#64 0#64 0#64) 0 + argU (full 0x18#64 0#64 8#64 0#64 0#64 0#64 0#64) 1 ≤
      tiny.dmemWords ∧ written (full 0x18#64 0#64 8#64 0#64 0#64 0#64 0#64).dmem 0 8 :=
  ⟨by simp [windowTable], by decide +kernel, by decide +kernel⟩

theorem witness_KaiserResult :
    argU (full 0x19#64 0#64 8#64 ONE 0#64 0#64 0#64) 0 + argU (full 0x19#64 0#64 8#64 ONE 0#64 0#64 0#64) 1 ≤
      tiny.dmemWords ∧ isZero (argF (full 0x19#64 0#64 8#64 0x8000000000000000#64 0#64 0#64 0#64) 2) = true ∧
    isZero (argF (full 0x19#64 0#64 8#64 ONE 0#64 0#64 0#64) 2) = false ∧
    written (full 0x19#64 0#64 8#64 ONE 0#64 0#64 0#64).dmem 0 8 := by decide +kernel

theorem witness_WindowSymmetry : 0 < 1 ∧ 0 < 2 ∧ windowTable.length = 9 := by decide

/-- The longest segment and a buffer of every word, on channel 0 and on the last channel. -/
theorem witness_OlaCfgResult :
    (0 : Channel).val < small.nch ∧ (1 : Channel).val < small.nch ∧
    argU (at' 0x30#64 1#64 8#64 16#64 0#64 0#64 0#64 0 []) 1 = 2 ^ 3 ∧ 3 ≤ small.nmaxLog2 ∧
    1 ≤ argU (at' 0x30#64 1#64 8#64 16#64 0#64 0#64 0#64 0 []) 0 ∧
    argU (at' 0x30#64 1#64 8#64 16#64 0#64 0#64 0#64 0 []) 2 ≤ small.dmemWords ∧
    argU (at' 0x30#64 1#64 8#64 16#64 0#64 0#64 0#64 0 []) 2 % argU (at' 0x30#64 1#64 8#64 16#64 0#64 0#64 0#64 0 []) 0 = 0 := by
  decide +kernel

/-- A response longer than F; and an empty one, nothing written. -/
theorem witness_OlaSetfilterResult :
    (chan (full 0x31#64 0#64 8#64 0#64 0#64 0#64 0#64) 0).cfg = true ∧
    written (full 0x31#64 0#64 8#64 0#64 0#64 0#64 0#64).dmem 0 (min 8 movingSum.fft) ∧
    0 + 8 ≤ tiny.dmemWords ∧ written [] 0 (min 0 movingSum.fft) := by decide +kernel

theorem witness_OlaApplyResult :
    (full 0x32#64 4#64 4#64 0#64 0#64 0#64 0#64).Inv ∧
    ((1 : Channel).val < tiny.nch ∧ (chan (full 0x32#64 4#64 4#64 0#64 0#64 0#64 0#64) 1).cfg = true ∧
      (chan (full 0x32#64 4#64 4#64 0#64 0#64 0#64 0#64) 1).filt = true ∧
      argU (full 0x32#64 4#64 4#64 0#64 0#64 0#64 0#64) 1 = (chan (full 0x32#64 4#64 4#64 0#64 0#64 0#64 0#64) 1).buf ∧
      4 + 4 ≤ tiny.dmemWords ∧ written (full 0x32#64 4#64 4#64 0#64 0#64 0#64 0#64).dmem 4 4) :=
  ⟨inv_of_check (by decide +kernel), by decide +kernel⟩

theorem witness_OlaSegmentRule :
    ∃ X Y T : List B64, 1 ≤ movingSum.seg ∧ movingSum.seg < movingSum.fft ∧
      movingSum.seg * (1 + 1) = (ints [1, 2, 3, 4]).length ∧
      X = rfftF (Nat.log2 movingSum.fft) ((List.range movingSum.fft).map (fun i =>
        if i < movingSum.seg then (ints [1, 2, 3, 4]).getD i 0#64 else 0#64)) ∧
      Y.length = movingSum.fft ∧ fget Y 0 = fmul (fget movingSum.spectrum 0) (fget X 0) ∧
      fget Y 1 = fmul (fget movingSum.spectrum 1) (fget X 1) ∧
      (∀ k, 1 ≤ k → k < movingSum.fft / 2 →
        fget Y (2 * k) = fsub (fmul (fget movingSum.spectrum (2 * k)) (fget X (2 * k)))
          (fmul (fget movingSum.spectrum (2 * k + 1)) (fget X (2 * k + 1))) ∧
        fget Y (2 * k + 1) = fadd (fmul (fget movingSum.spectrum (2 * k)) (fget X (2 * k + 1)))
          (fmul (fget movingSum.spectrum (2 * k + 1)) (fget X (2 * k)))) ∧
      T = rfftI (Nat.log2 movingSum.fft) Y ∧ T.length = movingSum.fft := by
  refine ⟨_, spmul movingSum.fft movingSum.spectrum (rfftF (Nat.log2 movingSum.fft) ((List.range movingSum.fft).map (fun i =>
    if i < movingSum.seg then (ints [1, 2, 3, 4]).getD i 0#64 else 0#64))), _, by decide +kernel, by decide +kernel,
    by decide +kernel, rfl, by decide +kernel, by decide +kernel, by decide +kernel, fun k h1 h2 => ?_, rfl, by decide +kernel⟩
  obtain rfl : k = 1 := by
    have : movingSum.fft = 4 := by decide +kernel
    omega
  exact ⟨by decide +kernel, by decide +kernel⟩

theorem witness_ChannelsIndependent : (Instr.olaApply 0).channel? = some 0 ∧ (0 : Channel).val ≠ 1 := by decide

/-- One command over 4 words against two over 2. -/
theorem witness_StreamingEquivalence :
    (full 0x32#64 4#64 4#64 0#64 0#64 0#64 0#64).Inv ∧
    (movingSum = chan (full 0x32#64 4#64 4#64 0#64 0#64 0#64 0#64) 0 ∧ movingSum.cfg = true ∧ movingSum.filt = true ∧
      movingSum.buf = 2 * 2 ∧ 2 % movingSum.seg = 0 ∧
      argU (full 0x32#64 4#64 4#64 0#64 0#64 0#64 0#64) 1 = movingSum.buf ∧ 4 + 4 ≤ tiny.dmemWords ∧
      written (full 0x32#64 4#64 4#64 0#64 0#64 0#64 0#64).dmem 4 4) :=
  ⟨inv_of_check (by decide +kernel), by decide +kernel⟩

/-- Mono and stereo at their smallest totals. -/
theorem witness_PipeCfgResult :
    (argU (at' 0x38#64 0#64 2#64 4#64 2#64 0#64 0#64 0 []) 3 % 2 = 0 ∧
      argU (at' 0x38#64 0#64 2#64 4#64 2#64 0#64 0#64 0 []) 2 = 2 ^ 2 ∧
      argU (at' 0x38#64 0#64 2#64 4#64 2#64 0#64 0#64 0 []) 0 = 0 ∧ 2 % 2 = 0) ∧
    (argU (at' 0x38#64 1#64 2#64 4#64 4#64 0#64 0#64 0 []) 0 = 1 ∧
      1 ≤ argU (at' 0x38#64 1#64 2#64 4#64 4#64 0#64 0#64 0 []) 3 / 2 ∧
      argU (at' 0x38#64 1#64 2#64 4#64 4#64 0#64 0#64 0 []) 3 / 2 % argU (at' 0x38#64 1#64 2#64 4#64 4#64 0#64 0#64 0 []) 1 = 0) := by
  decide +kernel

/-- Stereo and mono. -/
theorem witness_PipeSetfilterResult :
    ({ stereoState ONE movingSum with args := #v[0#64, 2#64, 0#64, 0#64, 0#64, 0#64, 0#64, 0#64] } : State).Inv ∧
    ({ stereoState ONE movingSum with
      pipeMode := .mono, pipeBuf := 4, args := #v[0#64, 2#64, 0#64, 0#64, 0#64, 0#64, 0#64, 0#64] } : State).Inv ∧
    (0 + 2 ≤ small.dmemWords ∧ written (stereoState ONE movingSum).dmem 0 (min 2 (chan (stereoState ONE movingSum) 0).fft)) :=
  ⟨inv_of_check (by decide +kernel), inv_of_check (by decide +kernel), by decide +kernel⟩

/-- Stereo over 8 words, mono over 4. -/
theorem witness_PipeFilterResult :
    ((stereoState ONE movingSum).Inv ∧ (chan (stereoState ONE movingSum) 0).filt = true ∧
      (chan (stereoState ONE movingSum) 1).filt = true ∧ argU (stereoState ONE movingSum) 1 = (stereoState ONE movingSum).pipeBuf ∧
      written (stereoState ONE movingSum).dmem 0 8) ∧
    (({ stereoState ONE movingSum with
      pipeMode := .mono, pipeBuf := 4, args := #v[0#64, 4#64, 0#64, 0#64, 0#64, 0#64, 0#64, 0#64] } : State).Inv) :=
  ⟨⟨inv_of_check (by decide +kernel), by decide +kernel, by decide +kernel, by decide +kernel, by decide +kernel⟩,
   inv_of_check (by decide +kernel)⟩

/-- Two states that share the left channel and its words and differ in the right-hand words; and two that share the right ones
and differ in a left-hand word. -/
theorem witness_StereoNoCoupling :
    (stereoState ONE movingSum).Inv ∧ (stereoState canonicalNaN movingSum).Inv ∧
    ((stereoState ONE movingSum).args = (stereoState canonicalNaN movingSum).args ∧
      (∀ k, k < 4 → readWord (stereoState ONE movingSum).dmem (0 + 2 * k) =
        readWord (stereoState canonicalNaN movingSum).dmem (0 + 2 * k)) ∧
      chan (stereoState ONE movingSum) 0 = chan (stereoState canonicalNaN movingSum) 0) ∧
    (next? (exec .pipeFilter (stereoState ONE movingSum))).isSome = true ∧
    (next? (exec .pipeFilter (stereoState canonicalNaN movingSum))).isSome = true ∧
    (setDmem (stereoState ONE movingSum) (writeWord (stereoState ONE movingSum).dmem 2 canonicalNaN)).Inv ∧
    ((∀ k, k < 4 → readWord (stereoState ONE movingSum).dmem (0 + 2 * k + 1) =
        readWord (writeWord (stereoState ONE movingSum).dmem 2 canonicalNaN) (0 + 2 * k + 1)) ∧
      readWord (stereoState ONE movingSum).dmem 2 ≠ readWord (writeWord (stereoState ONE movingSum).dmem 2 canonicalNaN) 2) ∧
    (next? (exec .pipeFilter
      (setDmem (stereoState ONE movingSum) (writeWord (stereoState ONE movingSum).dmem 2 canonicalNaN)))).isSome = true :=
  ⟨inv_of_check (by decide +kernel), inv_of_check (by decide +kernel), by decide +kernel, by decide +kernel,
   by decide +kernel, inv_of_check (by decide +kernel), by decide +kernel, by decide +kernel⟩

theorem witness_InterleaveRoundTrip : (ints [1, 2, 3, 4]).length % 2 = 0 ∧ 2 * 1 < (ints [1, 2, 3, 4]).length := by
  decide +kernel

theorem witness_RationalRounding : (0 : Nat) < 3 ∧ (0 : Int) = 0 ∧ (-1 : Int) ≠ 0 := by decide

theorem witness_ArithmeticRounding :
    isFin 0x7FEFFFFFFFFFFFFF#64 = true ∧ isFin 1#64 = true ∧ isZero 0x8000000000000000#64 = true ∧ isZero 1#64 = false ∧
    isInf 0x7FF0000000000000#64 = true ∧ isInf 0xFFF0000000000000#64 = true ∧ isNaN 0x7FF0000000000001#64 = true := by
  decide +kernel

/-- The smallest positive value, negative values, zeros, infinities, a NaN; a quarter and half a turn. -/
theorem witness_ElementaryFunctions :
    isFin 1#64 = true ∧ fsign 1#64 = false ∧ isZero (fneg 1#64) = false ∧ fsign (fneg 1#64) = true ∧
    isZero 0x8000000000000000#64 = true ∧ isInf 0xFFF0000000000000#64 = true ∧ isNaN canonicalNaN = true ∧
    Real.cos (2 * Real.pi * (1 : ℕ) / (4 : ℕ)) = 0 ∧ Real.sin (2 * Real.pi * (1 : ℕ) / (2 : ℕ)) = 0 := by
  refine ⟨by decide +kernel, by decide +kernel, by decide +kernel, by decide +kernel, by decide +kernel, by decide +kernel,
    by decide +kernel, ?_, ?_⟩
  · rw [show 2 * Real.pi * (1 : ℕ) / (4 : ℕ) = Real.pi / 2 by push_cast; ring]
    exact Real.cos_pi_div_two
  · rw [show 2 * Real.pi * (1 : ℕ) / (2 : ℕ) = Real.pi by push_cast; ring]
    exact Real.sin_pi

end Sys2Proof.Tests
end

section
/-! Patterns: what `fpack` packs, and what a negation leaves of the fields. -/

namespace Sys2Proof.Proofs

open Sys2Proof.Machine Sys2Proof.Laws

/-! ## The fields of a pattern -/

theorem fmagBits_lt (x : B64) : fmagBits x < 2 ^ 63 := Nat.mod_lt _ (by norm_num)

theorem toNat_fpack (neg : Bool) {m : ℕ} (h : m < 2 ^ 63) :
    (fpack neg m).toNat = if neg then 2 ^ 63 + m else m := by
  rw [fpack, BitVec.toNat_ofNat, Nat.mod_eq_of_lt]
  split <;> omega

theorem fsign_fpack (neg : Bool) {m : ℕ} (h : m < 2 ^ 63) : fsign (fpack neg m) = neg := by
  rw [fsign, toNat_fpack neg h]
  cases neg
  · simpa using h
  · simp

theorem fmagBits_fpack (neg : Bool) {m : ℕ} (h : m < 2 ^ 63) : fmagBits (fpack neg m) = m := by
  rw [fmagBits, toNat_fpack neg h]
  cases neg
  · exact Nat.mod_eq_of_lt h
  · exact (Nat.add_mod_left _ _).trans (Nat.mod_eq_of_lt h)

/-- A pattern is its sign and its magnitude bits. -/
@[simp] theorem fpack_fields (x : B64) : fpack (fsign x) (fmagBits x) = x := by
  have hx := x.isLt
  apply BitVec.eq_of_toNat_eq
  rw [toNat_fpack _ (fmagBits_lt x), fsign, fmagBits]
  by_cases h : 2 ^ 63 ≤ x.toNat
  · rw [decide_eq_true h, if_pos rfl]
    omega
  · rw [decide_eq_false h, if_neg Bool.false_ne_true]
    omega

theorem fsign_eq_msb (x : B64) : fsign x = x.msb := (BitVec.msb_eq_decide x).symm

theorem fmagBits_eq_setWidth (x : B64) : fmagBits x = (x.setWidth 63).toNat := (BitVec.toNat_setWidth 63 x).symm

theorem getLsbD_zero_eq (x : B64) : x.getLsbD 0 = decide (fmagBits x % 2 = 1) := by
  have h : x.toNat % 2 ^ 63 % 2 = x.toNat % 2 := by omega
  rw [BitVec.getLsbD, Nat.testBit_zero, fmagBits, h]

/-! ## Negation and magnitude -/

@[simp] theorem fsign_fneg (x : B64) : fsign (fneg x) = !fsign x := by
  rw [fsign_eq_msb, fsign_eq_msb, fneg, BitVec.msb_xor, show (0x8000000000000000#64 : B64).msb = true by decide,
    Bool.xor_true]

@[simp] theorem fmagBits_fneg (x : B64) : fmagBits (fneg x) = fmagBits x := by
  rw [fmagBits_eq_setWidth, fmagBits_eq_setWidth, fneg, BitVec.setWidth_xor,
    show (0x8000000000000000#64 : B64).setWidth 63 = 0#63 by decide, BitVec.xor_zero]

@[simp] theorem fmagBits_fabs (x : B64) : fmagBits (fabs x) = fmagBits x := by
  rw [fmagBits_eq_setWidth, fmagBits_eq_setWidth, fabs, BitVec.setWidth_and,
    show (0x7FFFFFFFFFFFFFFF#64 : B64).setWidth 63 = BitVec.allOnes 63 by decide, BitVec.and_allOnes]

theorem fneg_fpack (neg : Bool) {m : ℕ} (h : m < 2 ^ 63) : fneg (fpack neg m) = fpack (!neg) m := by
  rw [← fpack_fields (fneg (fpack neg m)), fsign_fneg, fmagBits_fneg, fsign_fpack neg h, fmagBits_fpack neg h]

@[simp] theorem isNaN_fneg (x : B64) : isNaN (fneg x) = isNaN x := by simp [isNaN]
@[simp] theorem isInf_fneg (x : B64) : isInf (fneg x) = isInf x := by simp [isInf]
@[simp] theorem isFin_fneg (x : B64) : isFin (fneg x) = isFin x := by simp [isFin]
@[simp] theorem isZero_fneg (x : B64) : isZero (fneg x) = isZero x := by simp [isZero]
@[simp] theorem isZero_fabs (x : B64) : isZero (fabs x) = isZero x := by simp [isZero]

theorem eq_fpack_of_isZero {x : B64} (h : isZero x = true) : x = fpack (fsign x) 0 := by
  have hm : fmagBits x = 0 := of_decide_eq_true h
  rw [← hm, fpack_fields]

theorem eq_fpack_of_isInf {x : B64} (h : isInf x = true) : x = fpack (fsign x) infMag := by
  have hm : fmagBits x = infMag := of_decide_eq_true h
  rw [← hm, fpack_fields]

/-! ## The three classes: finite, infinite, NaN -/

theorem infMag_lt : infMag < 2 ^ 63 := by decide

theorem isNaN_of_isFin {x : B64} (h : isFin x = true) : isNaN x = false := by
  simp only [isFin, isNaN, decide_eq_true_eq, decide_eq_false_iff_not] at *
  omega

theorem isInf_of_isFin {x : B64} (h : isFin x = true) : isInf x = false := by
  simp only [isFin, isInf, decide_eq_true_eq, decide_eq_false_iff_not] at *
  omega

theorem isNaN_of_isInf {x : B64} (h : isInf x = true) : isNaN x = false := by
  simp only [isInf, isNaN, decide_eq_true_eq, decide_eq_false_iff_not] at *
  omega

theorem isFin_of_isInf_or_isNaN {x : B64} (h : isInf x = true ∨ isNaN x = true) : isFin x = false := by
  simp only [isInf, isNaN, isFin, decide_eq_true_eq, decide_eq_false_iff_not] at *
  omega

theorem isZero_of_isInf {x : B64} (h : isInf x = true) : isZero x = false := by
  have hm : fmagBits x = infMag := of_decide_eq_true h
  rw [isZero, hm]
  decide

/-! ## The value of a pattern -/

/-- The units of the magnitude bits m. -/
def magUnits (m : ℕ) : ℕ := if m / 2 ^ 52 = 0 then m % 2 ^ 52 else (2 ^ 52 + m % 2 ^ 52) * 2 ^ (m / 2 ^ 52 - 1)

theorem funits_eq_magUnits (x : B64) : funits x = magUnits (fmagBits x) := by
  have h : x.toNat % 2 ^ 63 % 2 ^ 52 = x.toNat % 2 ^ 52 := by omega
  rw [funits, magUnits, fexpField, ffracField, fmagBits, h]

@[simp] theorem funits_fneg (x : B64) : funits (fneg x) = funits x := by
  rw [funits_eq_magUnits, funits_eq_magUnits, fmagBits_fneg]

@[simp] theorem funits_fabs (x : B64) : funits (fabs x) = funits x := by
  rw [funits_eq_magUnits, funits_eq_magUnits, fmagBits_fabs]

theorem funits_of_isZero {x : B64} (h : isZero x = true) : funits x = 0 := by
  rw [funits_eq_magUnits, of_decide_eq_true h]
  rfl

/-- q·2^k units have the magnitude bits k·2^52 + q, a carry into the exponent included. -/
theorem magUnits_add {k q : ℕ} (h : k = 0 ∨ 2 ^ 52 ≤ q) (hq : q ≤ 2 ^ 53) : magUnits (k * 2 ^ 52 + q) = q * 2 ^ k := by
  have hcarry : q = 2 ^ 53 ∨ q < 2 ^ 52 ∨ 2 ^ 52 ≤ q ∧ q < 2 ^ 53 := by omega
  unfold magUnits
  rcases hcarry with rfl | hlt | ⟨hge, hlt⟩
  · rw [show (k * 2 ^ 52 + 2 ^ 53) / 2 ^ 52 = k + 2 by omega, show (k * 2 ^ 52 + 2 ^ 53) % 2 ^ 52 = 0 by omega,
      if_neg (by omega), show k + 2 - 1 = k + 1 by omega]
    ring
  · obtain rfl : k = 0 := by omega
    rw [if_pos (by omega)]
    omega
  · rw [show (k * 2 ^ 52 + q) / 2 ^ 52 = k + 1 by omega, show (k * 2 ^ 52 + q) % 2 ^ 52 = q - 2 ^ 52 by omega,
      if_neg (by omega), show 2 ^ 52 + (q - 2 ^ 52) = q by omega, Nat.add_sub_cancel]

/-- From 2^(52+k) units on, the patterns stand for multiples of 2^k. -/
theorem two_pow_dvd_magUnits {m k : ℕ} (h : 2 ^ 52 * 2 ^ k ≤ magUnits m) : 2 ^ k ∣ magUnits m := by
  have hf : m % 2 ^ 52 < 2 ^ 52 := Nat.mod_lt _ (by norm_num)
  unfold magUnits at *
  split at h
  · have := Nat.one_le_two_pow (n := k)
    omega
  · next he =>
    rw [if_neg he]
    refine Dvd.dvd.mul_left (pow_dvd_pow 2 ?_) _
    have h1 : 2 ^ 52 * 2 ^ k < 2 ^ 53 * 2 ^ (m / 2 ^ 52 - 1) :=
      h.trans_lt (Nat.mul_lt_mul_of_pos_right (by omega) (Nat.two_pow_pos _))
    rw [← pow_add, ← pow_add, Nat.pow_lt_pow_iff_right (by norm_num)] at h1
    omega

/-! ## Signs and values -/

/-- r with the sign of a pattern. -/
def signed (neg : Bool) (r : ℝ) : ℝ := if neg then -r else r

@[simp] theorem signed_false (r : ℝ) : signed false r = r := rfl

@[simp] theorem signed_true (r : ℝ) : signed true r = -r := rfl

@[simp] theorem signed_not (neg : Bool) (r : ℝ) : signed (!neg) r = -signed neg r := by
  cases neg <;> simp [signed]

@[simp] theorem signed_zero (neg : Bool) : signed neg 0 = 0 := by
  cases neg <;> simp [signed]

theorem signed_mul (a b : Bool) (r t : ℝ) : signed a r * signed b t = signed (a != b) (r * t) := by
  cases a <;> cases b <;> simp [signed]

theorem signed_div (a b : Bool) (r t : ℝ) : signed a r / signed b t = signed (a != b) (r / t) := by
  cases a <;> cases b <;> simp [signed, neg_div, div_neg]

theorem signed_div_const (neg : Bool) (r t : ℝ) : signed neg (r / t) = signed neg r / t := by
  cases neg <;> simp [signed, neg_div]

/-- An integer is its magnitude with its sign. -/
theorem signed_natAbs (n : ℤ) : signed (decide (n < 0)) (n.natAbs : ℝ) = n := by
  rw [Nat.cast_natAbs]
  by_cases h : n < 0
  · simp [signed, h, abs_of_neg h]
  · simp [signed, h, abs_of_nonneg (not_lt.1 h)]

theorem fval_eq_fvalue (x : B64) : (fval x : ℝ) = (fvalue x : ℝ) / 2 ^ 1074 := by
  rw [fval]
  generalize 1074 = N
  push_cast
  rfl

theorem fvalue_eq_signed (x : B64) : (fvalue x : ℝ) = signed (fsign x) (funits x) := by
  rw [fvalue, signed]
  split <;> push_cast <;> rfl

theorem fval_eq_signed (x : B64) : (fval x : ℝ) = signed (fsign x) ((funits x : ℝ) / 2 ^ 1074) := by
  rw [fval_eq_fvalue, fvalue_eq_signed, signed_div_const]

@[simp] theorem fvalue_fneg (x : B64) : fvalue (fneg x) = -fvalue x := by
  rw [fvalue, fvalue, fsign_fneg, funits_fneg]
  cases fsign x <;> simp

@[simp] theorem fval_fneg (x : B64) : fval (fneg x) = -fval x := by
  rw [fval, fval, fvalue_fneg]
  push_cast
  exact neg_div _ _

theorem fval_of_isZero {x : B64} (h : isZero x = true) : fval x = 0 := by
  rw [fval, fvalue, funits_of_isZero h]
  split <;> simp

end Sys2Proof.Proofs
end

section
/-! Rounding to nearest: what `roundUnits` computes, that it is the nearest binary64, and that the reals that round to one
binary64 form an interval. -/

namespace Sys2Proof.Proofs

open Sys2Proof.Machine Sys2Proof.Laws

/-! ## Rounding a number of units -/

/-- Among the multiples of 2^k, which are the binary64 values around s units, q·2^k is the nearest to s, ties to even. -/
structure RoundsTo (s : ℝ) (k q : ℕ) : Prop where
  ge : k = 0 ∨ 2 ^ 52 * 2 ^ k ≤ s
  lt : s < 2 ^ 53 * 2 ^ k
  near : 2 * |q * 2 ^ k - s| ≤ 2 ^ k
  even : 2 * |q * 2 ^ k - s| = 2 ^ k → q % 2 = 0

/-- The magnitude bits of q·2^k units, an infinity on overflow. -/
def roundedMag (k q : ℕ) : ℕ := min (k * 2 ^ 52 + q) infMag

theorem roundedMag_lt (k q : ℕ) : roundedMag k q < 2 ^ 63 := (min_le_right _ _).trans_lt infMag_lt

/-- `roundUnits` rounds the exact quotient. -/
theorem roundUnits_roundsTo (n : ℕ) {d : ℕ} (hd : 0 < d) :
    ∃ k q, roundUnits n d = roundedMag k q ∧ RoundsTo ((n : ℝ) / d) k q := by
  have hd' : (0 : ℝ) < d := by exact_mod_cast hd
  refine ⟨Nat.log2 (n / d) - 52, roundHalfEven n (d * 2 ^ (Nat.log2 (n / d) - 52)), ?_, ?_⟩
  · rw [roundUnits, flog2_eq]
    rfl
  have hlow : Nat.log2 (n / d) - 52 = 0 ∨ 2 ^ 52 * 2 ^ (Nat.log2 (n / d) - 52) ≤ n / d := by
    rcases Nat.eq_zero_or_pos (Nat.log2 (n / d) - 52) with h | h
    · exact .inl h
    · right
      have hne : n / d ≠ 0 := by
        intro h0
        rw [h0, Nat.log2_zero] at h
        omega
      rw [← pow_add, show 52 + (Nat.log2 (n / d) - 52) = Nat.log2 (n / d) by omega]
      exact Nat.log2_self_le hne
  have hupp : n < 2 ^ 53 * 2 ^ (Nat.log2 (n / d) - 52) * d := by
    rw [← Nat.div_lt_iff_lt_mul hd, ← pow_add]
    exact Nat.lt_log2_self.trans_le (Nat.pow_le_pow_right (by norm_num) (by omega))
  generalize Nat.log2 (n / d) - 52 = k at *
  obtain ⟨h1, h2, h3⟩ := roundHalfEven_spec n (d * 2 ^ k) (by positivity)
  generalize roundHalfEven n (d * 2 ^ k) = q at *
  have e : 2 * |(q : ℝ) * 2 ^ k - n / d| = |2 * (d * 2 ^ k * q) - (2 * n : ℝ)| / d := by
    rw [← abs_of_pos hd', ← abs_div, abs_of_pos hd', ← abs_two, ← abs_mul, abs_two]
    congr 1
    field_simp
  have h1' : (2 : ℝ) * (d * 2 ^ k * q) ≤ 2 * n + d * 2 ^ k := by exact_mod_cast h1
  have h2' : (2 : ℝ) * n ≤ 2 * (d * 2 ^ k * q) + d * 2 ^ k := by exact_mod_cast h2
  refine ⟨hlow.imp_right fun h => ?_, ?_, ?_, fun h => h3 ?_⟩
  · calc (2 ^ 52 * 2 ^ k : ℝ) ≤ ((n / d : ℕ) : ℝ) := by exact_mod_cast h
      _ ≤ n / d := Nat.cast_div_le
  · rw [div_lt_iff₀ hd']
    exact_mod_cast hupp
  · rw [e, div_le_iff₀ hd', abs_le]
    constructor <;> linarith
  · rw [e, div_eq_iff hd'.ne', abs_eq (by positivity)] at h
    rcases h with h | h
    · left
      have : (2 : ℝ) * (d * 2 ^ k * q) = 2 * n + d * 2 ^ k := by linarith
      exact_mod_cast this
    · right
      have : (2 : ℝ) * n = 2 * (d * 2 ^ k * q) + d * 2 ^ k := by linarith
      exact_mod_cast this

theorem RoundsTo.le {s : ℝ} {k q : ℕ} (h : RoundsTo s k q) : q ≤ 2 ^ 53 := by
  have h2 : (0 : ℝ) < 2 ^ k := by positivity
  have h3 : (q : ℝ) < ((2 ^ 53 + 1 : ℕ) : ℝ) := by
    push_cast
    refine lt_of_mul_lt_mul_right ?_ h2.le
    linarith [h.lt, h.near, le_abs_self (q * 2 ^ k - s)]
  exact Nat.le_of_lt_succ (by exact_mod_cast h3)

theorem RoundsTo.eq_zero_or_ge {s : ℝ} {k q : ℕ} (h : RoundsTo s k q) : k = 0 ∨ 2 ^ 52 ≤ q := by
  refine h.ge.imp_right fun hge => ?_
  have h2 : (0 : ℝ) < 2 ^ k := by positivity
  have h3 : ((2 ^ 52 : ℕ) : ℝ) < ((q + 1 : ℕ) : ℝ) := by
    push_cast
    refine lt_of_mul_lt_mul_right ?_ h2.le
    linarith [h.near, neg_abs_le (q * 2 ^ k - s)]
  exact Nat.le_of_lt_succ (by exact_mod_cast h3)

/-- Below the overflow threshold, 2^53 - 1/2 units of 2^2045, the rounded magnitude is finite. -/
theorem RoundsTo.lt_infMag {s : ℝ} {k q : ℕ} (h : RoundsTo s k q) (hs : s < (2 ^ 54 - 1) * 2 ^ 2044) :
    k * 2 ^ 52 + q < infMag := by
  have hq := h.le
  have hk : k ≤ 2045 := by
    rcases h.ge with hk | hge
    · omega
    · have h1 : (2 : ℝ) ^ (52 + k) < 2 ^ (54 + 2044) := by
        rw [pow_add, pow_add]
        have : (0 : ℝ) < 2 ^ 2044 := by positivity
        generalize (2 : ℝ) ^ 2044 = u at *
        linarith
      have := (pow_lt_pow_iff_right₀ (one_lt_two (α := ℝ))).1 h1
      omega
  rcases Nat.lt_or_ge k 2045 with hk' | hk'
  · unfold infMag
    omega
  · obtain rfl : k = 2045 := by omega
    have hnear := h.near
    rw [pow_succ (2 : ℝ) 2044] at hnear
    have h2 : (0 : ℝ) < 2 ^ 2044 := by positivity
    generalize (2 : ℝ) ^ 2044 = u at *
    have h3 : (q : ℝ) < ((2 ^ 53 : ℕ) : ℝ) := by
      push_cast
      refine lt_of_mul_lt_mul_right ?_ h2.le
      linarith [le_abs_self (q * (u * 2) - s)]
    have : q < 2 ^ 53 := by exact_mod_cast h3
    unfold infMag
    omega

/-- From the overflow threshold on it is an infinity. -/
theorem RoundsTo.infMag_le {s : ℝ} {k q : ℕ} (h : RoundsTo s k q) (hs : (2 ^ 54 - 1) * 2 ^ 2044 ≤ s) :
    infMag ≤ k * 2 ^ 52 + q := by
  have h2 : (0 : ℝ) < 2 ^ 2044 := by positivity
  have hk : 2045 ≤ k := by
    have h1 : (2 : ℝ) ^ (53 + 2044) < 2 ^ (53 + k) := by
      rw [pow_add, pow_add]
      have hlt := h.lt
      generalize (2 : ℝ) ^ 2044 = u at *
      linarith
    have := (pow_lt_pow_iff_right₀ (one_lt_two (α := ℝ))).1 h1
    omega
  have hq : 2 ^ 52 ≤ q := h.eq_zero_or_ge.resolve_left (by omega)
  rcases Nat.lt_or_ge 2045 k with hk' | hk'
  · unfold infMag
    omega
  · obtain rfl : k = 2045 := by omega
    obtain ⟨-, -, hnear, heven⟩ := h
    rw [pow_succ (2 : ℝ) 2044] at hnear heven
    generalize (2 : ℝ) ^ 2044 = u at *
    have h3 : ((2 ^ 53 : ℕ) : ℝ) ≤ ((q + 1 : ℕ) : ℝ) := by
      push_cast
      refine le_of_mul_le_mul_right ?_ h2
      linarith [neg_abs_le (q * (u * 2) - s)]
    have hge : 2 ^ 53 ≤ q + 1 := by exact_mod_cast h3
    have hne : q + 1 ≠ 2 ^ 53 := by
      intro h4
      have hq' : (q : ℝ) = 2 ^ 53 - 1 := by
        have : ((q + 1 : ℕ) : ℝ) = 2 ^ 53 := by rw [h4]; norm_num
        push_cast at this
        linarith
      have := heven (by
        rw [hq'] at hnear ⊢
        refine le_antisymm hnear ?_
        linarith [neg_abs_le ((2 ^ 53 - 1) * (u * 2) - s)])
      omega
    unfold infMag
    omega

/-- Of the multiples of 2^k none is nearer to s than q·2^k, and where one is as near, q is even. -/
theorem RoundsTo.nearest_multiple {s : ℝ} {k q : ℕ} (h : RoundsTo s k q) (z : ℤ) :
    |q * 2 ^ k - s| ≤ |z * 2 ^ k - s| ∧
    ((z : ℝ) * 2 ^ k ≠ q * 2 ^ k → |z * 2 ^ k - s| = |q * 2 ^ k - s| → q % 2 = 0) := by
  have h2 : (0 : ℝ) < 2 ^ k := by positivity
  rcases eq_or_ne z q with rfl | hz
  · simp
  have hdist : (2 : ℝ) ^ k ≤ |(z : ℝ) * 2 ^ k - q * 2 ^ k| := by
    rw [← sub_mul, abs_mul, abs_of_pos h2]
    have : (1 : ℝ) ≤ |(z : ℝ) - q| := by exact_mod_cast Int.one_le_abs (sub_ne_zero.2 hz)
    exact le_mul_of_one_le_left h2.le this
  have htri : |(z : ℝ) * 2 ^ k - q * 2 ^ k| ≤ |z * 2 ^ k - s| + |q * 2 ^ k - s| := by
    rw [← abs_neg (q * 2 ^ k - s)]
    exact (congrArg abs (by ring)).trans_le (abs_add_le _ _)
  exact ⟨by linarith [h.near], fun _ he => h.even (le_antisymm h.near (by linarith))⟩

/-- Of the finite patterns none is nearer to s than q·2^k, and where one is as near, q is even. -/
theorem RoundsTo.nearest {s : ℝ} {k q : ℕ} (h : RoundsTo s k q) (y : B64) :
    |q * 2 ^ k - s| ≤ |fvalue y - s| ∧
    ((fvalue y : ℝ) ≠ q * 2 ^ k → |fvalue y - s| = |q * 2 ^ k - s| → q % 2 = 0) := by
  have hmul : (2 ^ k : ℕ) ∣ funits y → ∃ z : ℤ, (fvalue y : ℝ) = z * 2 ^ k := by
    rintro ⟨c, hc⟩
    refine ⟨if fsign y then -c else c, ?_⟩
    rw [fvalue, hc]
    split <;> push_cast <;> ring
  rcases Nat.lt_or_ge (funits y) (2 ^ 52 * 2 ^ k) with hlt | hge
  · rcases h.ge with rfl | hs
    · obtain ⟨z, hz⟩ := hmul (one_dvd _)
      rw [hz]
      exact h.nearest_multiple z
    · have hW := (h.nearest_multiple (2 ^ 52)).1
      rw [Int.cast_pow, Int.cast_ofNat] at hW
      have hy : (fvalue y : ℝ) < 2 ^ 52 * 2 ^ k := by
        calc (fvalue y : ℝ) ≤ funits y := by
              rw [fvalue]
              split <;> push_cast
              · linarith [Nat.cast_nonneg (α := ℝ) (funits y)]
              · exact le_rfl
          _ < 2 ^ 52 * 2 ^ k := by exact_mod_cast hlt
      rw [abs_of_nonpos (show (2 : ℝ) ^ 52 * 2 ^ k - s ≤ 0 by linarith)] at hW
      rw [abs_of_neg (show (fvalue y : ℝ) - s < 0 by linarith)]
      exact ⟨by linarith, fun _ he => by linarith⟩
  · rw [funits_eq_magUnits] at hge
    obtain ⟨z, hz⟩ := hmul (by rw [funits_eq_magUnits]; exact two_pow_dvd_magUnits hge)
    rw [hz]
    exact h.nearest_multiple z

/-! ## The nearest binary64 -/

/-- The overflow threshold in units. -/
theorem threshold_units : ((2 : ℝ) ^ 1024 - 2 ^ 970) * 2 ^ 1074 = (2 ^ 54 - 1) * 2 ^ 2044 := by
  rw [sub_mul, sub_mul, ← pow_add, ← pow_add, ← pow_add, one_mul]

/-- Where it does not overflow, the rounded magnitude stands for q·2^k units, and its last bit is that of q. -/
theorem RoundsTo.finite {s : ℝ} {k q : ℕ} (h : RoundsTo s k q) (hfin : k * 2 ^ 52 + q < infMag) :
    isFin (fpack false (roundedMag k q)) = true ∧ (fvalue (fpack false (roundedMag k q)) : ℝ) = q * 2 ^ k ∧
    (q % 2 = 0 → (fpack false (roundedMag k q)).getLsbD 0 = false) := by
  have hmag := fmagBits_fpack false (roundedMag_lt k q)
  have hsign := fsign_fpack false (roundedMag_lt k q)
  rw [show roundedMag k q = k * 2 ^ 52 + q from min_eq_left hfin.le] at *
  refine ⟨by rw [isFin, hmag]; exact decide_eq_true hfin, ?_, fun hq => ?_⟩
  · rw [fvalue_eq_signed, hsign, funits_eq_magUnits, hmag, magUnits_add h.eq_zero_or_ge h.le]
    push_cast
    rfl
  · rw [getLsbD_zero_eq, hmag]
    exact decide_eq_false (by omega)

theorem threshold_pos : (0 : ℝ) < 2 ^ 1024 - 2 ^ 970 :=
  sub_pos.2 (pow_lt_pow_right₀ one_lt_two (by norm_num))

/-- From the threshold on the infinity is the nearest. -/
theorem isNearest_infMag {r : ℝ} (h : 2 ^ 1024 - 2 ^ 970 ≤ r) : IsNearest r (fpack false infMag) := by
  have hT := threshold_pos
  unfold IsNearest
  generalize (2 : ℝ) ^ 1024 - 2 ^ 970 = T at *
  exact ⟨fun hlt => absurd (h.trans (le_abs_self r)) hlt.not_ge, fun _ => rfl, fun hle => by linarith⟩

theorem isNearest_of_roundsTo_pos {s : ℝ} {k q : ℕ} (h : RoundsTo s k q) (hs : 0 ≤ s) :
    IsNearest (s / 2 ^ 1074) (fpack false (roundedMag k q)) := by
  have hu : (0 : ℝ) < 2 ^ 1074 := by positivity
  have hthr : (2 : ℝ) ^ 1024 - 2 ^ 970 = (2 ^ 54 - 1) * 2 ^ 2044 / 2 ^ 1074 := by
    rw [← threshold_units, mul_div_cancel_right₀ _ hu.ne']
  have hr : 0 ≤ s / 2 ^ 1074 := div_nonneg hs hu.le
  refine ⟨fun hlt => ?_, fun hge => ?_, fun hle => absurd hle (not_le.2 ((neg_lt_zero.2 threshold_pos).trans_le hr))⟩
  · rw [abs_of_nonneg hr, hthr, div_lt_div_iff_of_pos_right hu] at hlt
    obtain ⟨hfin, hval, hlsb⟩ := h.finite (h.lt_infMag hlt)
    generalize fpack false (roundedMag k q) = v at *
    refine ⟨hfin, fun y _ => ?_⟩
    obtain ⟨h1, h2⟩ := h.nearest y
    have hne : fval y ≠ fval v → (fvalue y : ℝ) ≠ q * 2 ^ k := fun hne hc => hne (by
      rw [fval, fval, Int.cast_inj.1 (hc.trans hval.symm)])
    rw [fval_eq_fvalue, fval_eq_fvalue, hval, ← sub_div, ← sub_div, abs_div, abs_div,
      div_le_div_iff_of_pos_right (abs_pos.2 hu.ne'), div_left_inj' (abs_pos.2 hu.ne').ne']
    exact ⟨h1, fun hy he => hlsb (h2 (hne hy) he)⟩
  · rw [hthr, div_le_div_iff_of_pos_right hu] at hge
    rw [roundedMag, min_eq_right (h.infMag_le hge)]

/-- Rounding to nearest commutes with the sign. -/
theorem isNearest_neg {r : ℝ} {v : B64} (h : IsNearest r v) : IsNearest (-r) (fneg v) := by
  unfold IsNearest at *
  generalize (2 : ℝ) ^ 1024 - 2 ^ 970 = T at *
  obtain ⟨hfin, hpos, hneg⟩ := h
  refine ⟨fun hlt => ?_, fun hge => ?_, fun hle => ?_⟩
  · rw [abs_neg] at hlt
    obtain ⟨hv, hy⟩ := hfin hlt
    refine ⟨by rw [isFin_fneg, hv], fun y hyf => ?_⟩
    obtain ⟨h1, h2⟩ := hy (fneg y) (by rw [isFin_fneg, hyf])
    have flip : ∀ a : ℝ, |-a - r| = |a - -r| := fun a => by rw [← abs_neg]; congr 1; ring
    have flip' : ∀ a : ℝ, |a - r| = |-a - -r| := fun a => by rw [← abs_neg]; congr 1; ring
    rw [fval_fneg, Rat.cast_neg, flip, flip'] at h1 h2
    rw [fval_fneg, Rat.cast_neg, getLsbD_zero_eq, fmagBits_fneg, ← getLsbD_zero_eq]
    refine ⟨h1, fun hne => h2 fun hc => hne ?_⟩
    rw [← hc, neg_neg]
  · rw [hneg (by linarith), fneg_fpack _ infMag_lt, Bool.not_true]
  · rw [hpos (by linarith), fneg_fpack _ infMag_lt, Bool.not_false]

theorem isNearest_signed {r : ℝ} {m : ℕ} (h : IsNearest r (fpack false m)) (hm : m < 2 ^ 63) (neg : Bool) :
    IsNearest (signed neg r) (fpack neg m) := by
  cases neg with
  | false => exact h
  | true =>
    have := isNearest_neg h
    rwa [fneg_fpack _ hm] at this

/-- A rounded number of units, with either sign, is the nearest binary64. -/
theorem isNearest_of_roundsTo {s : ℝ} {k q : ℕ} (h : RoundsTo s k q) (hs : 0 ≤ s) (neg : Bool) :
    IsNearest (signed neg (s / 2 ^ 1074)) (fpack neg (roundedMag k q)) :=
  isNearest_signed (isNearest_of_roundsTo_pos h hs) (roundedMag_lt k q) neg

theorem roundUnits_lt (n : ℕ) {d : ℕ} (hd : 0 < d) : roundUnits n d < 2 ^ 63 := by
  obtain ⟨k, q, he, -⟩ := roundUnits_roundsTo n hd
  rw [he]
  exact roundedMag_lt k q

/-- `roundUnits`, with either sign, is the binary64 nearest to the exact quotient. -/
theorem isNearest_roundUnits (n : ℕ) {d : ℕ} (hd : 0 < d) (neg : Bool) :
    IsNearest (signed neg ((n : ℝ) / d / 2 ^ 1074)) (fpack neg (roundUnits n d)) := by
  obtain ⟨k, q, he, h⟩ := roundUnits_roundsTo n hd
  rw [he]
  exact isNearest_of_roundsTo h (by positivity) neg

/-- Up to half a unit a zero is the nearest. -/
theorem isNearest_of_le_half {s : ℝ} (h0 : 0 ≤ s) (h : s ≤ 1 / 2) (neg : Bool) :
    IsNearest (signed neg (s / 2 ^ 1074)) (fpack neg 0) := by
  refine isNearest_of_roundsTo (k := 0) (q := 0) ⟨.inl rfl, by linarith, ?_, fun _ => rfl⟩ h0 neg
  rw [Nat.cast_zero, zero_mul, zero_sub, abs_neg, abs_of_nonneg h0]
  linarith

/-- A zero of either sign is the nearest to 0. -/
theorem isNearest_zero (neg : Bool) : IsNearest 0 (fpack neg 0) := by
  have := isNearest_of_le_half le_rfl (by norm_num) neg
  rwa [zero_div, signed_zero] at this

/-- `RNq` is the binary64 nearest to the exact rational (R13). -/
theorem isNearest_rnq (n : ℤ) {d : ℕ} (hd : 0 < d) : IsNearest ((n : ℝ) / d) (rnq n d) := by
  rw [rnq]
  split
  · next h =>
    rw [h, Int.cast_zero, zero_div]
    exact isNearest_zero false
  · have := isNearest_roundUnits (n.natAbs * 2 ^ 1074) hd (decide (n < 0))
    rw [Nat.cast_mul, mul_div_right_comm, Nat.cast_pow, Nat.cast_ofNat,
      mul_div_cancel_right₀ _ (by positivity)] at this
    rwa [signed_div_const, signed_natAbs] at this

/-- Settles O58: `rnq` is one rounding of the exact rational. -/
theorem rationalRounding : Obligations.RationalRounding := by
  intro n d hd
  refine ⟨isNearest_rnq n hd, fun h => by rw [rnq, if_pos h]; rfl, fun h => ?_⟩
  rw [rnq, if_neg h, fsign_fpack _ (roundUnits_lt _ hd)]

end Sys2Proof.Proofs
end

section
/-! The four operations of R11: an equation per class of operands, and one rounding on finite operands. -/

namespace Sys2Proof.Proofs

open Sys2Proof.Machine Sys2Proof.Laws

/-! ## NaN operands -/

theorem fadd_of_isNaN {x y : B64} (h : isNaN x = true ∨ isNaN y = true) : fadd x y = canonicalNaN :=
  if_pos (Bool.or_eq_true_iff.2 h)

theorem fsub_of_isNaN {x y : B64} (h : isNaN x = true ∨ isNaN y = true) : fsub x y = canonicalNaN :=
  fadd_of_isNaN (by rwa [isNaN_fneg])

theorem fmul_of_isNaN {x y : B64} (h : isNaN x = true ∨ isNaN y = true) : fmul x y = canonicalNaN :=
  if_pos (Bool.or_eq_true_iff.2 h)

theorem fdiv_of_isNaN {x y : B64} (h : isNaN x = true ∨ isNaN y = true) : fdiv x y = canonicalNaN :=
  if_pos (Bool.or_eq_true_iff.2 h)

/-! ## Two infinities -/

theorem fadd_of_isInf {x y : B64} (hx : isInf x = true) (hy : isInf y = true) :
    fadd x y = if fsign x = fsign y then x else canonicalNaN := by
  by_cases h : fsign x = fsign y <;> simp [fadd, isNaN_of_isInf hx, isNaN_of_isInf hy, hx, hy, h]

theorem fsub_of_isInf {x y : B64} (hx : isInf x = true) (hy : isInf y = true) :
    fsub x y = if fsign x = fsign y then canonicalNaN else x := by
  rw [fsub, fadd_of_isInf hx (by rwa [isInf_fneg]), fsign_fneg]
  cases fsign x <;> cases fsign y <;> rfl

theorem fmul_of_isInf {x y : B64} (hx : isInf x = true) (hy : isInf y = true) :
    fmul x y = fpack (fsign x != fsign y) infMag := by
  simp [fmul, isNaN_of_isInf hx, isNaN_of_isInf hy, hx, isZero_of_isInf hx, isZero_of_isInf hy]

theorem fdiv_of_isInf {x y : B64} (hx : isInf x = true) (hy : isInf y = true) : fdiv x y = canonicalNaN := by
  simp [fdiv, isNaN_of_isInf hx, isNaN_of_isInf hy, hx, hy]

/-! ## An infinity and a finite operand -/

section
variable {x y : B64} (hx : isInf x = true) (hy : isFin y = true)
include hx hy

theorem fadd_of_isInf_isFin : fadd x y = x := by
  simp [fadd, isNaN_of_isInf hx, isNaN_of_isFin hy, hx, isInf_of_isFin hy]

theorem fadd_of_isFin_isInf : fadd y x = x := by
  simp [fadd, isNaN_of_isInf hx, isNaN_of_isFin hy, hx, isInf_of_isFin hy]

theorem fsub_of_isInf_isFin : fsub x y = x :=
  fadd_of_isInf_isFin hx (by rwa [isFin_fneg])

theorem fsub_of_isFin_isInf : fsub y x = fneg x :=
  fadd_of_isFin_isInf (by rwa [isInf_fneg]) hy

theorem fmul_of_isInf_isFin :
    fmul x y = if isZero y then canonicalNaN else fpack (fsign x != fsign y) infMag := by
  simp [fmul, isNaN_of_isInf hx, isNaN_of_isFin hy, hx, isZero_of_isInf hx]

theorem fmul_of_isFin_isInf :
    fmul y x = if isZero y then canonicalNaN else fpack (fsign x != fsign y) infMag := by
  simp [fmul, isNaN_of_isInf hx, isNaN_of_isFin hy, hx, isZero_of_isInf hx, bne_comm]

theorem fdiv_of_isInf_isFin : fdiv x y = fpack (fsign x != fsign y) infMag := by
  simp [fdiv, isNaN_of_isInf hx, isNaN_of_isFin hy, hx, isInf_of_isFin hy]

theorem fdiv_of_isFin_isInf : fdiv y x = fpack (fsign x != fsign y) 0 := by
  simp [fdiv, isNaN_of_isInf hx, isNaN_of_isFin hy, hx, isInf_of_isFin hy, bne_comm]

end

/-! ## Two finite operands -/

section
variable {x y : B64} (hx : isFin x = true) (hy : isFin y = true)
include hx hy

theorem fadd_of_isFin : fadd x y =
    if fvalue x + fvalue y = 0 then fpack (fsign x && fsign y) 0
    else fpack (decide (fvalue x + fvalue y < 0)) (roundUnits (fvalue x + fvalue y).natAbs 1) := by
  simp [fadd, isNaN_of_isFin hx, isNaN_of_isFin hy, isInf_of_isFin hx, isInf_of_isFin hy]

theorem fmul_of_isFin :
    fmul x y = fpack (fsign x != fsign y) (roundUnits (funits x * funits y) (2 ^ 1074)) := by
  rw [fmul, isNaN_of_isFin hx, isNaN_of_isFin hy, isInf_of_isFin hx, isInf_of_isFin hy]
  rfl

theorem fdiv_of_isFin (h0 : isZero y = false) :
    fdiv x y = fpack (fsign x != fsign y) (roundUnits (funits x * 2 ^ 1074) (funits y)) := by
  rw [fdiv, isNaN_of_isFin hx, isNaN_of_isFin hy, isInf_of_isFin hx, isInf_of_isFin hy, h0]
  rfl

theorem fdiv_of_isZero (h0 : isZero y = true) :
    fdiv x y = if isZero x then canonicalNaN else fpack (fsign x != fsign y) infMag := by
  simp [fdiv, isNaN_of_isFin hx, isNaN_of_isFin hy, isInf_of_isFin hx, isInf_of_isFin hy, h0]

theorem isNearest_fadd : IsNearest ((fval x : ℝ) + fval y) (fadd x y) := by
  rw [fval_eq_fvalue, fval_eq_fvalue, ← add_div, ← Int.cast_add, fadd_of_isFin hx hy]
  split
  · next h =>
    rw [h, Int.cast_zero, zero_div]
    exact isNearest_zero _
  · have := isNearest_roundUnits (fvalue x + fvalue y).natAbs one_pos (decide (fvalue x + fvalue y < 0))
    rwa [Nat.cast_one, div_one, signed_div_const, signed_natAbs] at this

theorem isNearest_fsub : IsNearest ((fval x : ℝ) - fval y) (fsub x y) := by
  have := isNearest_fadd hx (y := fneg y) (by rwa [isFin_fneg])
  rwa [fval_fneg, Rat.cast_neg, ← sub_eq_add_neg] at this

theorem isNearest_fmul : IsNearest ((fval x : ℝ) * fval y) (fmul x y) := by
  have := isNearest_roundUnits (funits x * funits y) (d := 2 ^ 1074) (by positivity) (fsign x != fsign y)
  rw [fval_eq_signed, fval_eq_signed, signed_mul, fmul_of_isFin hx hy]
  rwa [Nat.cast_mul, Nat.cast_pow, Nat.cast_ofNat, mul_div_right_comm, mul_div_assoc] at this

theorem isNearest_fdiv (h0 : isZero y = false) : IsNearest ((fval x : ℝ) / fval y) (fdiv x y) := by
  have hu : (2 : ℝ) ^ 1074 ≠ 0 := by positivity
  have := isNearest_roundUnits (funits x * 2 ^ 1074) (funits_pos h0) (fsign x != fsign y)
  rw [fval_eq_signed, fval_eq_signed, signed_div, div_div_div_cancel_right₀ hu, fdiv_of_isFin hx hy h0]
  rwa [Nat.cast_mul, Nat.cast_pow, Nat.cast_ofNat, mul_div_right_comm, mul_div_cancel_right₀ _ hu] at this

theorem fsign_fmul : fsign (fmul x y) = (fsign x != fsign y) := by
  rw [fmul_of_isFin hx hy, fsign_fpack _ (roundUnits_lt _ (by positivity))]

end

theorem isFin_of_isZero {x : B64} (h : isZero x = true) : isFin x = true := by
  rw [isFin, of_decide_eq_true h]
  decide

/-- The sum of two zeros is -0 only where both are (IEEE 754). -/
theorem fadd_of_isZero {x y : B64} (hx : isZero x = true) (hy : isZero y = true) :
    fadd x y = if fsign x && fsign y then 0x8000000000000000#64 else 0#64 := by
  rw [fadd_of_isFin (isFin_of_isZero hx) (isFin_of_isZero hy), fvalue, fvalue, funits_of_isZero hx, funits_of_isZero hy]
  cases fsign x <;> cases fsign y <;> rfl

theorem fadd_fneg_self {x : B64} (hx : isFin x = true) : fadd x (fneg x) = 0#64 := by
  rw [fadd_of_isFin hx (by rwa [isFin_fneg]), fvalue_fneg, add_neg_cancel, if_pos rfl, fsign_fneg, Bool.and_not_self]
  rfl

/-- Settles O59: an equation per class of operands, and on finite ones one rounding of the exact result. -/
theorem arithmeticRounding : Obligations.ArithmeticRounding := by
  refine ⟨fun x y hx hy => ?_, fun x y hx hy => ?_, fun x y hx hy => ?_, fun x y h => ?_⟩
  · refine ⟨isNearest_fadd hx hy, isNearest_fsub hx hy, isNearest_fmul hx hy, isNearest_fdiv hx hy, fsign_fmul hx hy,
      fun hx0 hy0 => ⟨fadd_of_isZero hx0 hy0, ?_⟩, fun _ => fadd_fneg_self hx, fun hx0 hy0 => ?_⟩
    · rw [fdiv_of_isZero hx hy hy0, if_pos hx0]
    · rw [fdiv_of_isZero hx hy hy0, if_neg (by simp [hx0])]
  · exact ⟨fadd_of_isInf hx hy, fsub_of_isInf hx hy, fmul_of_isInf hx hy, fdiv_of_isInf hx hy⟩
  · exact ⟨fadd_of_isInf_isFin hx hy, fadd_of_isFin_isInf hx hy, fsub_of_isInf_isFin hx hy, fsub_of_isFin_isInf hx hy,
      fmul_of_isInf_isFin hx hy, by rw [fmul_of_isInf_isFin hx hy, fmul_of_isFin_isInf hx hy],
      fdiv_of_isInf_isFin hx hy, fdiv_of_isFin_isInf hx hy⟩
  · exact ⟨fadd_of_isNaN h, fsub_of_isNaN h, fmul_of_isNaN h, fdiv_of_isNaN h⟩

end Sys2Proof.Proofs
end

section
/-! The elementary functions of R13: what two rationals on either side of the exact value both round to is the nearest
binary64, the square root's half unit stands for the part below its integer root, and a fraction of a turn is reduced and
folded. -/

namespace Sys2Proof.Proofs

open Sys2Proof.Machine Sys2Proof.Laws

/-! ## Between two rationals that round alike -/

theorem abs_sub_le_iff_of_lt {v y r : ℝ} (h : v < y) : |v - r| ≤ |y - r| ↔ 2 * r ≤ v + y := by
  rw [← sq_le_sq]
  constructor <;> intro _ <;> nlinarith

theorem abs_sub_le_iff_of_gt {v y r : ℝ} (h : y < v) : |v - r| ≤ |y - r| ↔ v + y ≤ 2 * r := by
  rw [← sq_le_sq]
  constructor <;> intro _ <;> nlinarith

theorem abs_sub_eq_iff_of_ne {v y r : ℝ} (h : y ≠ v) : |y - r| = |v - r| ↔ 2 * r = v + y := by
  rw [abs_eq_abs]
  constructor
  · rintro (he | he)
    · exact absurd (sub_left_inj.1 he) h
    · linarith
  · intro he
    right
    linarith

/-- What is at least as near as y to both ends of an interval is so to every r in it, and a tie at r is one at an end. -/
theorem nearer_of_between {v y a r b : ℝ} (hne : y ≠ v) (har : a ≤ r) (hrb : r ≤ b) (ha : |v - a| ≤ |y - a|)
    (hb : |v - b| ≤ |y - b|) : |v - r| ≤ |y - r| ∧ (|y - r| = |v - r| → |y - a| = |v - a| ∨ |y - b| = |v - b|) := by
  simp only [abs_sub_eq_iff_of_ne hne]
  rcases lt_or_gt_of_ne hne with h | h
  · rw [abs_sub_le_iff_of_gt h] at ha ⊢
    exact ⟨by linarith, fun he => .inl (by linarith)⟩
  · rw [abs_sub_le_iff_of_lt h] at hb ⊢
    exact ⟨by linarith, fun he => .inr (by linarith)⟩

theorem isFin_fpack_infMag (neg : Bool) : isFin (fpack neg infMag) = false := by
  rw [isFin, fmagBits_fpack _ infMag_lt]
  exact decide_eq_false (lt_irrefl _)

theorem fpack_true_ne_false {m : ℕ} (h : m < 2 ^ 63) : fpack true m ≠ fpack false m := fun he => by
  have := congrArg fsign he
  rw [fsign_fpack _ h, fsign_fpack _ h] at this
  exact Bool.noConfusion this

/-- The reals whose nearest binary64 is v form an interval. -/
theorem isNearest_of_between {a r b : ℝ} {v : B64} (ha : IsNearest a v) (hb : IsNearest b v) (har : a ≤ r) (hrb : r ≤ b) :
    IsNearest r v := by
  unfold IsNearest at *
  generalize (2 : ℝ) ^ 1024 - 2 ^ 970 = T at *
  obtain ⟨haf, -, haneg⟩ := ha
  obtain ⟨hbf, hbpos, -⟩ := hb
  refine ⟨fun hlt => ?_, fun h => hbpos (h.trans hrb), fun h => haneg (har.trans h)⟩
  obtain ⟨hlo, hhi⟩ := abs_lt.1 hlt
  have haT : -T < a := by
    by_contra hc
    have hv := haneg (not_lt.1 hc)
    rcases lt_or_ge b T with h | h
    · have := (hbf (abs_lt.2 ⟨by linarith, h⟩)).1
      rw [hv, isFin_fpack_infMag] at this
      exact Bool.noConfusion this
    · exact fpack_true_ne_false infMag_lt (hv.symm.trans (hbpos h))
  obtain ⟨hfin, hay⟩ := haf (abs_lt.2 ⟨haT, by linarith⟩)
  have hbT : b < T := by
    by_contra hc
    rw [hbpos (not_lt.1 hc), isFin_fpack_infMag] at hfin
    exact Bool.noConfusion hfin
  obtain ⟨-, hby⟩ := hbf (abs_lt.2 ⟨by linarith, hbT⟩)
  refine ⟨hfin, fun y hy => ?_⟩
  obtain ⟨ha1, ha2⟩ := hay y hy
  obtain ⟨hb1, hb2⟩ := hby y hy
  rcases eq_or_ne (fval y) (fval v) with h | h
  · exact ⟨by rw [h], fun hne => absurd h hne⟩
  · obtain ⟨h1, h2⟩ := nearer_of_between (Rat.cast_injective.ne h) har hrb ha1 hb1
    exact ⟨h1, fun _ he => (h2 he).elim (ha2 h) (hb2 h)⟩

/-- What two rationals on either side of r both round to is the binary64 nearest to r. -/
theorem isNearest_of_roundsBoth {v : B64} {r : ℝ} (h : RoundsBoth v r) : IsNearest r v := by
  obtain ⟨a, b, c, d, hc, hd, har, hrb, hav, hbv⟩ := h
  exact isNearest_of_between (hav ▸ isNearest_rnq a hc) (hbv ▸ isNearest_rnq b hd) har hrb

/-! ## The square root -/

theorem isqrtFrom_spec {n : ℕ} (b : ℕ) {r : ℕ} (h1 : r * r ≤ n) (h2 : n < (r + 2 ^ b) * (r + 2 ^ b)) :
    isqrtFrom n b r * isqrtFrom n b r ≤ n ∧ n < (isqrtFrom n b r + 1) * (isqrtFrom n b r + 1) := by
  induction b generalizing r with
  | zero => exact ⟨h1, h2⟩
  | succ b ih =>
    rw [isqrtFrom]
    split
    · next h => exact ih h (by rwa [add_assoc, ← two_mul, ← pow_succ'])
    · next h => exact ih h1 (not_le.1 h)

/-- A multiple of u not above the middle of r·u and (r + 1)·u is below all that lies between them. -/
theorem mul_lt_of_le_half {r : ℕ} {u s : ℝ} (hu : 0 < u) (h : r * u < s) (A : ℤ) (hA : A * u ≤ (2 * r + 1) * u / 2) :
    A * u < s := by
  have h2 : ((2 * A : ℤ) : ℝ) ≤ ((2 * r + 1 : ℤ) : ℝ) := by
    push_cast
    exact le_of_mul_le_mul_right (by linarith) hu
  have h3 : 2 * A ≤ 2 * (r : ℤ) + 1 := by exact_mod_cast h2
  have h4 : (A : ℝ) ≤ r := by exact_mod_cast (show A ≤ (r : ℤ) by omega)
  exact (mul_le_mul_of_nonneg_right h4 hu.le).trans_lt h

/-- A multiple of u not below that middle is above all that lies between them. -/
theorem lt_mul_of_half_le {r : ℕ} {u s : ℝ} (hu : 0 < u) (h : s < (r + 1) * u) (A : ℤ) (hA : (2 * r + 1) * u / 2 ≤ A * u) :
    s < A * u := by
  have h2 : ((2 * r + 1 : ℤ) : ℝ) ≤ ((2 * A : ℤ) : ℝ) := by
    push_cast
    exact le_of_mul_le_mul_right (by linarith) hu
  have h3 : 2 * (r : ℤ) + 1 ≤ 2 * A := by exact_mod_cast h2
  have h4 : (r : ℝ) + 1 ≤ A := by exact_mod_cast (show (r : ℤ) + 1 ≤ A by omega)
  exact h.trans_le (mul_le_mul_of_nonneg_right h4 hu.le)

/-- With more than 53 bits in its integer part r, a value strictly between r and r + 1 rounds as r + 1/2 does. -/
theorem RoundsTo.of_half {r E k q : ℕ} {s : ℝ} (h : RoundsTo ((2 * r + 1) * 2 ^ E / 2) k q) (hr : 2 ^ 60 ≤ r)
    (h1 : r * 2 ^ E < s) (h2 : s < (r + 1) * 2 ^ E) : RoundsTo s k q := by
  obtain ⟨hge, hlt, hnear, -⟩ := h
  have hu : (0 : ℝ) < 2 ^ E := by positivity
  obtain ⟨j, rfl⟩ : ∃ j, k = E + j + 1 := by
    have hr' : (2 : ℝ) ^ 60 ≤ r := by exact_mod_cast hr
    have h3 : (2 : ℝ) ^ (60 + E) < 2 ^ (53 + k) := by
      rw [pow_add, pow_add]
      linarith [mul_le_mul_of_nonneg_right hr' hu.le]
    have := (pow_lt_pow_iff_right₀ (one_lt_two (α := ℝ))).1 h3
    exact ⟨k - E - 1, by omega⟩
  have scale : ∀ A : ℝ, A * 2 ^ (E + j + 1) = 2 * A * 2 ^ j * 2 ^ E := fun A => by ring
  have scale_one := scale 1
  rw [one_mul] at scale_one
  rw [scale, scale_one, ← abs_two, ← abs_mul, abs_two, abs_le] at hnear
  have hs : 2 * |(q : ℝ) * 2 ^ (E + j + 1) - s| < 2 ^ (E + j + 1) := by
    have hb := mul_lt_of_le_half hu h1 (2 * q * 2 ^ j - 2 ^ j) (by push_cast; linarith)
    have ha := lt_mul_of_half_le hu h2 (2 * q * 2 ^ j + 2 ^ j) (by push_cast; linarith)
    push_cast at ha hb
    rw [scale, scale_one, ← abs_two, ← abs_mul, abs_two, abs_lt]
    constructor <;> linarith
  refine ⟨.inr ?_, ?_, hs.le, fun he => absurd he hs.ne⟩
  · have hb := mul_lt_of_le_half hu h1 (2 * 2 ^ 52 * 2 ^ j) (by
      have := hge.resolve_left (by omega)
      rw [scale] at this
      push_cast
      linarith)
    push_cast at hb
    rw [scale]
    linarith
  · have ha := lt_mul_of_half_le hu h2 (2 * 2 ^ 53 * 2 ^ j) (by
      rw [scale] at hlt
      push_cast
      linarith)
    push_cast at ha
    rw [scale]
    linarith

/-- The significand of a finite pattern other than a zero, and its place. -/
theorem funits_eq_significand {x : B64} (h0 : isZero x = false) :
    funits x = (if fexpField x = 0 then ffracField x else 2 ^ 52 + ffracField x) *
      2 ^ (if fexpField x = 0 then 0 else fexpField x - 1) ∧
    0 < (if fexpField x = 0 then ffracField x else 2 ^ 52 + ffracField x) ∧
    (if fexpField x = 0 then ffracField x else 2 ^ 52 + ffracField x) < 2 ^ 53 := by
  have hpos := funits_pos h0
  have hfrac : ffracField x < 2 ^ 52 := Nat.mod_lt _ (by norm_num)
  rw [funits] at *
  split at hpos <;> rename_i he
  · simp only [if_pos he, pow_zero, mul_one, true_and]
    omega
  · simp only [if_neg he, true_and]
    omega

/-- `sqrt64` of a positive finite pattern rounds the integer root r of its scaled magnitude a, with half a unit where r is
not the whole root. -/
theorem sqrt64_of_pos {x : B64} (hfin : isFin x = true) (h0 : isZero x = false) (hs : fsign x = false) :
    ∃ a E r : ℕ, sqrt64 x = fpack false (roundUnits ((2 * r + if r * r = a then 0 else 1) * 2 ^ (E + 60)) (2 ^ 61)) ∧
      r * r ≤ a ∧ a < (r + 1) * (r + 1) ∧ 2 ^ 60 ≤ r ∧ funits x * 2 ^ 1074 = a * 2 ^ (2 * E) := by
  obtain ⟨hval, hpos, hlt⟩ := funits_eq_significand h0
  rw [sqrt64, isNaN_of_isFin hfin, h0, hs, isInf_of_isFin hfin, hval]
  simp only [Bool.false_eq_true, if_false]
  generalize (if fexpField x = 0 then ffracField x else 2 ^ 52 + ffracField x) = m at *
  generalize (if fexpField x = 0 then 0 else fexpField x - 1) = e at *
  obtain ⟨E, hE⟩ : ∃ E, (e + 1074) / 2 = E + 60 := ⟨(e + 1074) / 2 - 60, by omega⟩
  have ha : 2 ^ 120 ≤ (if (e + 1074) % 2 = 0 then m else 2 * m) * 2 ^ 120 ∧
      (if (e + 1074) % 2 = 0 then m else 2 * m) * 2 ^ 120 < 2 ^ 176 := by
    split <;> omega
  have hscale : m * 2 ^ e * 2 ^ 1074 = (if (e + 1074) % 2 = 0 then m else 2 * m) * 2 ^ 120 * 2 ^ (2 * E) := by
    rw [mul_assoc, mul_assoc, ← pow_add, ← pow_add]
    split
    · rw [show e + 1074 = 120 + 2 * E by omega]
    · rw [show e + 1074 = 120 + 2 * E + 1 by omega, pow_succ]
      ring
  generalize (if (e + 1074) % 2 = 0 then m else 2 * m) * 2 ^ 120 = a at *
  obtain ⟨h1, h2⟩ := isqrtFrom_spec (n := a) 88 (r := 0) (Nat.zero_le _) (by omega)
  refine ⟨a, E, isqrtFrom a 88 0, by rw [hE], h1, h2, ?_, hscale⟩
  by_contra hr
  have h3 : (isqrtFrom a 88 0 + 1) * (isqrtFrom a 88 0 + 1) ≤ 2 ^ 60 * 2 ^ 60 := Nat.mul_le_mul (by omega) (by omega)
  omega

/-- The integer root, with half a unit where it is not the whole root, rounds as the root does. -/
theorem roundUnits_root {a E r : ℕ} (h1 : r * r ≤ a) (h2 : a < (r + 1) * (r + 1)) (hr : 2 ^ 60 ≤ r) :
    ∃ k q, roundUnits ((2 * r + if r * r = a then 0 else 1) * 2 ^ (E + 60)) (2 ^ 61) = roundedMag k q ∧
      RoundsTo (√(a : ℝ) * 2 ^ E) k q := by
  have hu : (0 : ℝ) < 2 ^ E := by positivity
  obtain ⟨k, q, he, h⟩ := roundUnits_roundsTo ((2 * r + if r * r = a then 0 else 1) * 2 ^ (E + 60)) (d := 2 ^ 61) (by norm_num)
  refine ⟨k, q, he, ?_⟩
  have hc : ∀ t : ℕ, (((2 * r + t) * 2 ^ (E + 60) : ℕ) : ℝ) / (2 ^ 61 : ℕ) = (2 * r + t) * 2 ^ E / 2 := fun t => by
    push_cast
    rw [pow_add]
    ring
  rw [hc] at h
  split at h
  · next heq =>
    have hroot : √(a : ℝ) = r := by rw [← heq, Nat.cast_mul, Real.sqrt_mul_self (Nat.cast_nonneg r)]
    rw [hroot]
    convert h using 1
    push_cast
    ring
  · next hne =>
    have h1' : (r : ℝ) * r < a := by exact_mod_cast lt_of_le_of_ne h1 hne
    have h2' : (a : ℝ) < (r + 1) * (r + 1) := by exact_mod_cast h2
    rw [Nat.cast_one] at h
    refine h.of_half hr (mul_lt_mul_of_pos_right ?_ hu) (mul_lt_mul_of_pos_right ?_ hu)
    · exact Real.lt_sqrt_of_sq_lt (by rwa [sq])
    · exact (Real.sqrt_lt' (by positivity)).2 (by rwa [sq])

/-- The root of f units, where f·2^1074 = a·2^(2E). -/
theorem sqrt_units {f a E N : ℕ} (h : f * 2 ^ N = a * 2 ^ (2 * E)) : √((f : ℝ) / 2 ^ N) = √(a : ℝ) * 2 ^ E / 2 ^ N := by
  have hu : (0 : ℝ) < 2 ^ N := by positivity
  have h' : (f : ℝ) * 2 ^ N = a * (2 ^ E * 2 ^ E) := by
    rw [← pow_add, ← two_mul]
    exact_mod_cast h
  rw [← mul_div_mul_right _ _ hu.ne', h', Real.sqrt_div (by positivity), Real.sqrt_mul_self hu.le,
    Real.sqrt_mul (by positivity), Real.sqrt_mul_self (by positivity)]

theorem sqrt64_of_isZero {x : B64} (h : isZero x = true) : sqrt64 x = x := by
  rw [sqrt64, isNaN_of_isFin (isFin_of_isZero h), h]
  rfl

theorem isNearest_sqrt64 {x : B64} (hfin : isFin x = true) (hs : fsign x = false) :
    IsNearest √(fval x : ℝ) (sqrt64 x) := by
  cases h0 : isZero x with
  | true =>
    rw [sqrt64_of_isZero h0, fval_of_isZero h0, Rat.cast_zero, Real.sqrt_zero, eq_fpack_of_isZero h0]
    exact isNearest_zero _
  | false =>
    obtain ⟨a, E, r, he, h1, h2, hr, hval⟩ := sqrt64_of_pos hfin h0 hs
    obtain ⟨k, q, hm, h⟩ := roundUnits_root (E := E) h1 h2 hr
    rw [he, hm, fval_eq_signed, hs, signed_false, sqrt_units hval]
    exact isNearest_of_roundsTo h (mul_nonneg (Real.sqrt_nonneg _) (pow_nonneg zero_le_two E)) false

/-! ## Sine, cosine, exponential -/

theorem isNearest_one : IsNearest 1 ONE := by
  have := isNearest_rnq 1 one_pos
  rwa [Int.cast_one, Nat.cast_one, div_one, show rnq 1 1 = ONE by decide +kernel] at this

theorem sin_signed (neg : Bool) (t : ℝ) : Real.sin (signed neg t) = signed neg (Real.sin t) := by
  cases neg
  · rfl
  · exact Real.sin_neg t

theorem cos_signed (neg : Bool) (t : ℝ) : Real.cos (signed neg t) = Real.cos t := by
  cases neg
  · rfl
  · exact Real.cos_neg t

theorem sin64_of_isZero {x : B64} (h : isZero x = true) : sin64 x = x := by
  rw [sin64, isFin_of_isZero h, h]
  rfl

theorem sin64_of_isFin {x : B64} (hfin : isFin x = true) (h0 : isZero x = false) :
    sin64 x = if fsign x then fneg (sinPos (fneg x)) else sinPos x := by
  rw [sin64, hfin, h0, Bool.not_true, if_neg Bool.false_ne_true, if_neg Bool.false_ne_true]

theorem cos64_of_isFin {x : B64} (hfin : isFin x = true) (h0 : isZero x = false) : cos64 x = cosPos (fabs x) := by
  rw [cos64, hfin, h0, Bool.not_true, if_neg Bool.false_ne_true, if_neg Bool.false_ne_true]

theorem isNearest_sin64 {x : B64} (hfin : isFin x = true) : IsNearest (Real.sin (fval x)) (sin64 x) := by
  cases h0 : isZero x with
  | true =>
    rw [sin64_of_isZero h0, fval_of_isZero h0, Rat.cast_zero, Real.sin_zero, eq_fpack_of_isZero h0]
    exact isNearest_zero _
  | false =>
    rw [sin64_of_isFin hfin h0, fval_eq_signed, sin_signed]
    cases fsign x with
    | false =>
      rw [signed_false, if_neg Bool.false_ne_true]
      exact isNearest_of_roundsBoth (sinPos_rounds h0)
    | true =>
      have := isNearest_neg (isNearest_of_roundsBoth (sinPos_rounds (x := fneg x) (by rwa [isZero_fneg])))
      rwa [funits_fneg] at this

theorem isNearest_cos64 {x : B64} (hfin : isFin x = true) : IsNearest (Real.cos (fval x)) (cos64 x) := by
  cases h0 : isZero x with
  | true =>
    rw [cos64, hfin, h0, fval_of_isZero h0, Rat.cast_zero, Real.cos_zero]
    exact isNearest_one
  | false =>
    have := isNearest_of_roundsBoth (cosPos_rounds (x := fabs x) (by rwa [isZero_fabs]))
    rw [cos64_of_isFin hfin h0, fval_eq_signed, cos_signed]
    rwa [funits_fabs] at this

/-- e^1024 is far above the overflow threshold, and its reciprocal far below half the least positive value. -/
theorem two_pow_le_exp {t : ℝ} (h : 1024 ≤ t) : 2 ^ 1364 ≤ Real.exp t := by
  have h3 : (2 : ℝ) ^ 4 ≤ Real.exp 3 := by
    rw [show (3 : ℝ) = (3 : ℕ) * 1 by norm_num, Real.exp_nat_mul]
    calc (2 : ℝ) ^ 4 ≤ 2.7 ^ 3 := by norm_num
      _ ≤ Real.exp 1 ^ 3 := pow_le_pow_left₀ (by norm_num) (by linarith [Real.exp_one_gt_d9]) 3
  calc (2 : ℝ) ^ 1364 = (2 ^ 4) ^ 341 := pow_mul 2 4 341
    _ ≤ Real.exp 3 ^ 341 := pow_le_pow_left₀ (by norm_num) h3 341
    _ = Real.exp ((341 : ℕ) * 3) := (Real.exp_nat_mul 3 341).symm
    _ ≤ Real.exp t := Real.exp_le_exp.2 (by push_cast; linarith)

theorem exp64_of_large {x : B64} (hn : isNaN x = false) (h0 : isZero x = false) (h : 2 ^ 1084 ≤ funits x) :
    exp64 x = if fsign x then plusZero else fpack false infMag := by
  rw [exp64, hn, h0, if_neg Bool.false_ne_true, if_neg Bool.false_ne_true, if_pos h]

theorem isNearest_exp64_of_large {x : B64} (hfin : isFin x = true) (h0 : isZero x = false) (h : 2 ^ 1084 ≤ funits x) :
    IsNearest (Real.exp (fval x)) (exp64 x) := by
  have hexp : 2 ^ 1364 ≤ Real.exp ((funits x : ℝ) / 2 ^ 1074) := by
    refine two_pow_le_exp ?_
    rw [le_div_iff₀ (by positivity)]
    have h' : (2 : ℝ) ^ 1084 ≤ funits x := by exact_mod_cast h
    rwa [show (2 : ℝ) ^ 1084 = 2 ^ 10 * 2 ^ 1074 from pow_add 2 10 1074, show (2 : ℝ) ^ 10 = 1024 by norm_num] at h'
  rw [exp64_of_large (isNaN_of_isFin hfin) h0 h, fval_eq_signed]
  generalize (funits x : ℝ) / 2 ^ 1074 = t at *
  cases fsign x with
  | false =>
    refine isNearest_infMag (le_trans ?_ hexp)
    exact (sub_le_self _ (by positivity)).trans (pow_le_pow_right₀ one_le_two (by norm_num))
  | true =>
    have hs : Real.exp (-t) * 2 ^ 1074 ≤ 1 / 2 := by
      rw [Real.exp_neg, inv_mul_le_iff₀ (Real.exp_pos t)]
      calc (2 : ℝ) ^ 1074 = 2 ^ 1075 * (1 / 2) := by rw [pow_succ (2 : ℝ) 1074, mul_assoc, mul_one_div_cancel two_ne_zero, mul_one]
        _ ≤ Real.exp t * (1 / 2) := by
          gcongr
          exact (pow_le_pow_right₀ one_le_two (by norm_num)).trans hexp
    have := isNearest_of_le_half (by positivity) hs false
    rwa [mul_div_cancel_right₀ _ (by positivity)] at this

theorem isNearest_exp64 {x : B64} (hfin : isFin x = true) : IsNearest (Real.exp (fval x)) (exp64 x) := by
  cases h0 : isZero x with
  | true =>
    rw [exp64, isNaN_of_isFin hfin, h0, fval_of_isZero h0, Rat.cast_zero, Real.exp_zero]
    exact isNearest_one
  | false =>
    rcases Nat.lt_or_ge (funits x) (2 ^ 1084) with h | h
    · rw [fval_eq_signed]
      exact isNearest_of_roundsBoth (exp64_rounds (isNaN_of_isFin hfin) h0 h)
    · exact isNearest_exp64_of_large hfin h0 h

/-! ## Fractions of a turn -/

/-- p/q and the reduced fraction of `cos2pi` and `sin2pi` differ by whole turns. -/
theorem turn_reduce (p : ℕ) {q : ℕ} (hq : 0 < q) :
    0 < q / Nat.gcd (p % q) q ∧ p % q / Nat.gcd (p % q) q < q / Nat.gcd (p % q) q ∧
    2 * Real.pi * p / q = 2 * Real.pi * (p % q / Nat.gcd (p % q) q : ℕ) / (q / Nat.gcd (p % q) q : ℕ) +
      (p / q : ℕ) * (2 * Real.pi) := by
  have hg : 0 < Nat.gcd (p % q) q := Nat.gcd_pos_of_pos_right _ hq
  obtain ⟨n, hn⟩ := Nat.gcd_dvd_left (p % q) q
  obtain ⟨d, hd⟩ := Nat.gcd_dvd_right (p % q) q
  have hpq := Nat.div_add_mod p q
  have hlt := Nat.mod_lt p hq
  generalize Nat.gcd (p % q) q = g at *
  rw [hn, hd] at hlt
  have hnd : n < d := Nat.lt_of_mul_lt_mul_left hlt
  rw [hn, Nat.mul_div_cancel_left n hg]
  have hqd : q / g = d := by rw [hd, Nat.mul_div_cancel_left d hg]
  rw [hqd]
  refine ⟨by omega, hnd, ?_⟩
  have hp : (p : ℝ) = q * (p / q : ℕ) + g * n := by
    rw [hn] at hpq
    exact_mod_cast hpq.symm
  have hq' : (q : ℝ) = g * d := by exact_mod_cast hd
  have hg' : (g : ℝ) ≠ 0 := by exact_mod_cast hg.ne'
  have hd' : (d : ℝ) ≠ 0 := by exact_mod_cast (show d ≠ 0 by omega)
  rw [hp]
  generalize ((p / q : ℕ) : ℝ) = t
  rw [hq']
  field_simp
  ring

/-- The complement of a fraction of a turn. -/
theorem turn_complement {n d : ℕ} (h : n < d) : 2 * Real.pi * (d - n : ℕ) / d = 2 * Real.pi - 2 * Real.pi * n / d := by
  have hd : (d : ℝ) ≠ 0 := by exact_mod_cast (show d ≠ 0 by omega)
  rw [Nat.cast_sub h.le]
  field_simp

theorem sin_turn_pos {p q : ℕ} (hp : 0 < p) (h : 2 * p < q) : 0 < Real.sin (2 * Real.pi * p / q) := by
  have hp' : (0 : ℝ) < p := by exact_mod_cast hp
  have hq' : (0 : ℝ) < q := by exact_mod_cast (show 0 < q by omega)
  have h' : (2 : ℝ) * p < q := by exact_mod_cast h
  refine Real.sin_pos_of_pos_of_lt_pi (by positivity) ?_
  rw [div_lt_iff₀ hq']
  nlinarith [Real.pi_pos]

theorem sinTurn_of_sin_eq_zero {p q : ℕ} (h : 2 * p ≤ q) (h0 : Real.sin (2 * Real.pi * p / q) = 0) : sinTurn p q = 0#64 := by
  by_cases hp : p = 0
  · rw [sinTurn, if_pos hp]
    rfl
  · have hpq : 2 * p = q := by
      by_contra hne
      exact (sin_turn_pos (by omega) (by omega : 2 * p < q)).ne' h0
    rw [sinTurn, if_neg hp, if_pos hpq]
    rfl

theorem cosTurn_of_cos_eq_zero {p q : ℕ} (hq : 0 < q) (h : 2 * p ≤ q) (h0 : Real.cos (2 * Real.pi * p / q) = 0) :
    cosTurn p q = 0#64 := by
  have hpi := Real.pi_pos
  have hle : 2 * Real.pi * p / q ≤ Real.pi := by
    have h' : (2 : ℝ) * p ≤ q := by exact_mod_cast h
    rw [div_le_iff₀ (by exact_mod_cast hq)]
    nlinarith
  have hangle : 2 * Real.pi * p / q = Real.pi / 2 :=
    Real.injOn_cos ⟨by positivity, hle⟩ ⟨by positivity, by linarith⟩ (h0.trans Real.cos_pi_div_two.symm)
  have hpq := angle_eq (a := 1) (b := 2) hq (by norm_num) (by rw [hangle]; push_cast; ring)
  rw [cosTurn, if_neg (by omega), if_neg (by omega), if_pos (by omega)]
  rfl

theorem isNearest_cos2pi (p : ℕ) {q : ℕ} (hq : 0 < q) : IsNearest (Real.cos (2 * Real.pi * p / q)) (cos2pi p q) ∧
    (Real.cos (2 * Real.pi * p / q) = 0 → cos2pi p q = 0#64) := by
  obtain ⟨hd, hlt, hangle⟩ := turn_reduce p hq
  rw [hangle, Real.cos_add_nat_mul_two_pi, cos2pi]
  generalize p % q / Nat.gcd (p % q) q = n at *
  generalize q / Nat.gcd (p % q) q = d at *
  split
  · next h => exact ⟨isNearest_of_roundsBoth (cosTurn_rounds hd h), cosTurn_of_cos_eq_zero hd h⟩
  · next h =>
    have hc : Real.cos (2 * Real.pi * n / d) = Real.cos (2 * Real.pi * (d - n : ℕ) / d) := by
      rw [turn_complement hlt, Real.cos_two_pi_sub]
    rw [hc]
    exact ⟨isNearest_of_roundsBoth (cosTurn_rounds hd (by omega)), cosTurn_of_cos_eq_zero hd (by omega)⟩

theorem isNearest_sin2pi (p : ℕ) {q : ℕ} (hq : 0 < q) : IsNearest (Real.sin (2 * Real.pi * p / q)) (sin2pi p q) ∧
    (Real.sin (2 * Real.pi * p / q) = 0 → sin2pi p q = 0#64) := by
  obtain ⟨hd, hlt, hangle⟩ := turn_reduce p hq
  rw [hangle, Real.sin_add_nat_mul_two_pi, sin2pi]
  generalize p % q / Nat.gcd (p % q) q = n at *
  generalize q / Nat.gcd (p % q) q = d at *
  split
  · next h => exact ⟨isNearest_of_roundsBoth (sinTurn_rounds hd h), sinTurn_of_sin_eq_zero h⟩
  · next h =>
    have hs : Real.sin (2 * Real.pi * n / d) = -Real.sin (2 * Real.pi * (d - n : ℕ) / d) := by
      rw [turn_complement hlt, Real.sin_two_pi_sub, neg_neg]
    rw [hs]
    exact ⟨isNearest_neg (isNearest_of_roundsBoth (sinTurn_rounds hd (by omega))),
      fun h0 => absurd (neg_eq_zero.1 h0) (sin_turn_pos (by omega) (by omega)).ne'⟩

/-! ## The obligation -/

theorem sqrt64_of_isNaN {x : B64} (h : isNaN x = true) : sqrt64 x = canonicalNaN := if_pos h

theorem sqrt64_of_neg {x : B64} (h0 : isZero x = false) (hs : fsign x = true) : sqrt64 x = canonicalNaN := by
  rw [sqrt64, h0, hs]
  split <;> rfl

theorem sin64_of_not_isFin {x : B64} (h : isFin x = false) : sin64 x = canonicalNaN := by
  rw [sin64, h]
  rfl

theorem cos64_of_not_isFin {x : B64} (h : isFin x = false) : cos64 x = canonicalNaN := by
  rw [cos64, h]
  rfl

theorem exp64_of_isNaN {x : B64} (h : isNaN x = true) : exp64 x = canonicalNaN := if_pos h

theorem exp64_of_isInf (neg : Bool) : exp64 (fpack neg infMag) = if neg then plusZero else fpack false infMag := by
  have hsign := fsign_fpack neg infMag_lt
  have hmag := fmagBits_fpack neg infMag_lt
  have hinf : isInf (fpack neg infMag) = true := by rw [isInf, hmag]; exact decide_eq_true rfl
  have hunits : 2 ^ 1084 ≤ funits (fpack neg infMag) := by
    rw [funits_eq_magUnits, hmag]
    decide +kernel
  rw [exp64_of_large (isNaN_of_isInf hinf) (isZero_of_isInf hinf) hunits, hsign]

/-- Settles O60: every function's answer is the nearest binary64 of an interval that holds the exact value. -/
theorem elementaryFunctions : Obligations.ElementaryFunctions := by
  refine ⟨⟨fun x => isNearest_sqrt64, sqrt64_of_isZero (by decide), fun x => sqrt64_of_neg, by decide +kernel,
      fun x => sqrt64_of_isNaN⟩,
    fun x hfin => ⟨isNearest_sin64 hfin, isNearest_cos64 hfin, isNearest_exp64 hfin⟩, fun x => sin64_of_isZero,
    fun x h => ?_, exp64_of_isInf false, exp64_of_isInf true, fun x => exp64_of_isNaN, fun p q hq => ?_⟩
  · have hfin := isFin_of_isInf_or_isNaN h
    exact ⟨sin64_of_not_isFin hfin, cos64_of_not_isFin hfin⟩
  · obtain ⟨hc, hc0⟩ := isNearest_cos2pi p hq
    obtain ⟨hs, hs0⟩ := isNearest_sin2pi p hq
    exact ⟨hc, hs, hc0, hs0⟩

end Sys2Proof.Proofs
end

section
/-! Legal states: the state of a reset, the shape of a channel, what a lookup gives in a legal state, and the passed checks of
a command. -/

namespace Sys2Proof.Proofs

open Sys2Proof.Machine Sys2Proof.Laws

variable {p : Config.Params} {s t u : State} {c n : Nat} {x ch : ChanCtx}

/-! ## Parameters -/

/-- There are at least the two channels of the pipeline, and at most 16 (R6). -/
theorem nch_bounds (h : p.legal = true) : 2 ≤ p.nch ∧ p.nch ≤ 16 := by
  simp only [Config.Params.legal, Bool.and_eq_true, decide_eq_true_eq] at h
  obtain ⟨⟨⟨⟨-, hnch⟩, -⟩, -⟩, -⟩ := h
  exact hnch

/-! ## Checks -/

/-- A command is past its checks when every one of them passes. -/
theorem firstFailing_eq_none {cs : List Check} : firstFailing cs = none ↔ ∀ k ∈ cs, k.1 = true := by
  induction cs with
  | nil => simp
  | cons k cs ih =>
    obtain ⟨ok, code⟩ := k
    cases ok <;> simp [ih]

theorem passes_of_mem {cs : List Check} {ok : Bool} {code : ErrCode} (h : firstFailing cs = none)
    (hm : (ok, code) ∈ cs) : ok = true := firstFailing_eq_none.1 h _ hm

theorem firstFailing_tail {cs : List Check} {k : Check} (h : firstFailing (k :: cs) = none) : firstFailing cs = none :=
  firstFailing_eq_none.2 fun k' hk => firstFailing_eq_none.1 h k' (List.mem_cons_of_mem k hk)

/-- A region whose check passed is in range (R66). -/
theorem inRange_of_mem {cs : List Check} {b n : Nat} {code : ErrCode} (h : firstFailing cs = none)
    (hm : (inRange s b n, code) ∈ cs) : b + n ≤ s.params.dmemWords := of_decide_eq_true (passes_of_mem h hm)

/-! ## Channels -/

theorem unconfigured_wf (p : Config.Params) : unconfigured.wf p :=
  ⟨Bool.noConfusion, Bool.noConfusion, fun _ => rfl, fun _ => rfl⟩

/-- The configuration a channel was given: what the pipeline of R40 sees of it. -/
def shape (ch : ChanCtx) : Bool × Nat × Nat × Nat := (ch.cfg, ch.seg, ch.fft, ch.buf)

theorem shape_eq_iff {ch ch' : ChanCtx} :
    shape ch = shape ch' ↔ ch.cfg = ch'.cfg ∧ ch.seg = ch'.seg ∧ ch.fft = ch'.fft ∧ ch.buf = ch'.buf := by
  simp [shape]

/-- A channel at or above NCH reads as unconfigured. -/
theorem chan_of_le (h : s.chans.length ≤ c) : chan s c = unconfigured := List.getD_eq_default _ _ h

theorem chan_mem (h : c < s.chans.length) : chan s c ∈ s.chans := by
  rw [chan, List.getD_eq_getElem _ _ h]
  exact List.getElem_mem h

/-- Replacing a channel by one of its own shape changes no channel's shape. -/
theorem shape_chan_setChan (h : shape x = shape (chan s c)) (k : Nat) :
    shape (chan (setChan s c x) k) = shape (chan s k) := by
  by_cases hk : c = k
  · subst hk
    by_cases hc : c < s.chans.length
    · rw [chan_setChan_same _ _ _ hc, h]
    · rw [setChan, List.set_eq_of_length_le (Nat.le_of_not_lt hc)]
  · rw [chan_setChan_other _ _ hk]

/-- The pipeline's invariant depends on its two registers and on the shapes of the channels it uses. -/
theorem pipelineWf_congr (hm : t.pipeMode = s.pipeMode) (hb : t.pipeBuf = s.pipeBuf)
    (h : ∀ k, pipelineUses s.pipeMode k = true → shape (chan t k) = shape (chan s k)) (hs : pipelineWf s) :
    pipelineWf t := by
  obtain ⟨c0, s0, f0, b0⟩ := shape_eq_iff.1 (h 0 rfl)
  unfold pipelineWf at hs ⊢
  rw [hm, hb, c0, s0, f0, b0]
  cases hmode : s.pipeMode with
  | off => simpa [hmode] using hs
  | mono => simpa [hmode] using hs
  | stereo =>
    obtain ⟨c1, s1, f1, b1⟩ := shape_eq_iff.1 (h 1 (by rw [hmode]; rfl))
    simpa [hmode, c1, s1, f1, b1] using hs

/-- A channel with another tail of the right number of words keeps its invariant. -/
theorem wf_withTail {tail : List B64} (h : ch.wf p) (hc : ch.cfg = true) (ht : tail.length = ch.fft - ch.seg) :
    ({ ch with tail := tail } : ChanCtx).wf p := by
  obtain ⟨hcfg, hfilt, hspec, -⟩ := h
  obtain ⟨hF, hseg, hlt, hbuf, hwords, hmod, -⟩ := hcfg hc
  exact ⟨fun _ => ⟨hF, hseg, hlt, hbuf, hwords, hmod, ht⟩, hfilt, hspec,
    fun e => absurd (hc.symm.trans e) Bool.noConfusion⟩

/-- A fresh configuration that passes the checks of R200 meets the channel invariant (R203). -/
theorem configured_wf {seg fft buf : Nat} (h : firstFailing (configChecks p seg fft buf) = none) :
    (configured seg fft buf).wf p := by
  simp only [configChecks, firstFailing_eq_none, List.forall_mem_cons, decide_eq_true_eq] at h
  obtain ⟨hF, ⟨hseg, hlt⟩, ⟨hbuf, hwords⟩, hmod, -⟩ := h
  exact ⟨fun _ => ⟨hF, hseg, hlt, hbuf, hwords, hmod, List.length_replicate⟩, Bool.noConfusion, fun _ => rfl,
    Bool.noConfusion⟩

/-- A filter gives a configured channel its F words of spectrum (R204). -/
theorem withFilter_wf (taps : List B64) (h : ch.wf p) (hc : ch.cfg = true) : (withFilter taps ch).wf p := by
  obtain ⟨hF, hseg, hlt, hbuf, hwords, hmod, -⟩ := h.1 hc
  exact ⟨fun _ => ⟨hF, hseg, hlt, hbuf, hwords, hmod, List.length_replicate⟩, fun _ => ⟨hc, by simp [withFilter]⟩,
    Bool.noConfusion, fun e => absurd (hc.symm.trans e) Bool.noConfusion⟩

@[simp] theorem shape_withFilter (taps : List B64) (ch : ChanCtx) : shape (withFilter taps ch) = shape ch := rfl

@[simp] theorem shape_olaRun (n : Nat) (ch : ChanCtx) (xs : List B64) : shape (olaRun n ch xs).2 = shape ch := by
  obtain ⟨t, ht, -⟩ := olaRun_channel n ch xs
  rw [ht]
  rfl

/-- The per-segment loop keeps the invariant of its channel (R205). -/
theorem olaRun_wf (n : Nat) (xs : List B64) (h : ch.wf p) (hc : ch.cfg = true) : (olaRun n ch xs).2.wf p := by
  obtain ⟨t, ht, hlen⟩ := olaRun_channel n ch xs
  obtain ⟨-, -, -, -, -, -, htail⟩ := h.1 hc
  rw [ht]
  exact wf_withTail h hc (hlen htail)

/-- The loop over a buffer of n words answers at most n words. -/
theorem olaRun_length_le (xs : List B64) (h : ch.wf p) (hc : ch.cfg = true) :
    (olaRun (n / ch.seg) ch xs).1.length ≤ n := by
  obtain ⟨hF, -, hlt, -⟩ := h.1 hc
  obtain ⟨k, hk, -, hFk⟩ := (transformSize_iff p ch.fft).1 hF
  have heven : ch.fft % 2 = 0 := by rw [hFk]; exact Nat.mod_eq_zero_of_dvd (dvd_pow_self 2 (by omega))
  rw [olaRun_length _ xs hlt.le (by rw [hFk, Nat.log2_two_pow]) heven]
  exact Nat.div_mul_le_self n ch.seg

/-! ## Legal states -/

theorem chan_wf (hs : s.Inv) (c : Nat) : (chan s c).wf s.params := by
  by_cases hc : c < s.chans.length
  · exact hs.channel _ (chan_mem hc)
  · rw [chan_of_le (Nat.le_of_not_lt hc)]
    exact unconfigured_wf _

/-- The transform size of a configured channel. -/
theorem chan_transformSize (hs : s.Inv) (hc : (chan s c).cfg = true) : transformSize s.params (chan s c).fft = true :=
  ((chan_wf hs c).1 hc).1

theorem fftN_transformSize (hs : s.Inv) (h : s.fftN ≠ 0) : transformSize s.params s.fftN = true :=
  hs.fftN.resolve_left h

/-- A running pipeline has channel 0 configured (R40). -/
theorem pipeline_cfg_left (hs : pipelineWf s) (h : s.pipeMode ≠ .off) : (chan s 0).cfg = true := by
  unfold pipelineWf at hs
  split at hs
  · next hm => exact absurd hm h
  · obtain ⟨-, hleft, -⟩ := hs
    exact hleft
  · obtain ⟨-, hleft, -⟩ := hs
    exact hleft

/-- A stereo pipeline has both its channels configured (R40). -/
theorem pipeline_cfg_stereo (hs : pipelineWf s) (h : s.pipeMode = .stereo) :
    (chan s 0).cfg = true ∧ (chan s 1).cfg = true := by
  unfold pipelineWf at hs
  rw [h] at hs
  obtain ⟨-, hleft, hright, -⟩ := hs
  exact ⟨hleft, hright⟩

/-- A stereo pipeline whose two channels are alike. -/
theorem pipelineWf_stereo (hm : s.pipeMode = .stereo) (heven : s.pipeBuf % 2 = 0) (hleft : chan s 0 = x)
    (hright : chan s 1 = x) (hc : x.cfg = true) (hb : x.buf = s.pipeBuf / 2) : pipelineWf s := by
  unfold pipelineWf
  rw [hm, hleft, hright]
  exact ⟨heven, hc, hc, hb, hb, rfl, rfl⟩

/-- A mono pipeline has channel 0 configured with its own buffer size (R40). -/
theorem pipeline_mono (hs : pipelineWf s) (hoff : s.pipeMode ≠ .off) (hst : s.pipeMode ≠ .stereo) :
    (chan s 0).cfg = true ∧ (chan s 0).buf = s.pipeBuf := by
  unfold pipelineWf at hs
  split at hs
  · next hm => exact absurd hm hoff
  · obtain ⟨-, hmono⟩ := hs
    exact hmono
  · next hm => exact absurd hm hst

/-- The state after a power-on reset is legal for every legal choice of parameters (R37, R47). -/
theorem initial_inv (h : p.legal = true) : (State.initial p).Inv where
  params := h
  channels := List.length_replicate
  channel := fun ch hch => by
    rw [List.eq_of_mem_replicate hch]
    exact unconfigured_wf p
  twSize := .inl rfl
  fftN := .inl rfl
  pipeline := rfl
  dmem := wf_nil _
  idle := fun _ => rfl

/-- The registers the host writes, the flags but BUSY, RESULT, and the host's side of the bus are free in a legal state. -/
theorem inv_host (hs : s.Inv) (ie : Bool) (status : Status) (cmd result : Word) (args : Vector Word 8)
    (held : List HostAccess) (hostIn : List HostEvent) (latency : List Nat) (resp : BusResponse)
    (hb : status.busy = s.status.busy) :
    ({ s with ie, status, cmd, result, args, held, hostIn, latency, resp } : State).Inv :=
  { hs with idle := fun h => hs.idle (hb ▸ h) }

end Sys2Proof.Proofs
end

section
/-! The operations of a command and legal states: when each leads from a legal state to a legal state (R31, R37, R40, R61). -/

namespace Sys2Proof.Proofs

open Sys2Proof.Machine Sys2Proof.Laws

variable {s : State} {c b n : Nat} {x : ChanCtx}

theorem setResult_inv (hs : s.Inv) (v : Word) : (setResult s v).Inv := { hs with }

theorem setFftN_inv (hs : s.Inv) (h : transformSize s.params n = true) : ({ s with fftN := n } : State).Inv :=
  { hs with fftN := .inr h }

theorem setDmem_inv {m : Memory} (hs : s.Inv) (h : Memory.wf s.params.dmemWords m = true) : (setDmem s m).Inv :=
  { hs with dmem := h }

/-- A store of words inside DMEM. -/
theorem storeWords_inv {vs : List Word} (hs : s.Inv) (h : b + vs.length ≤ s.params.dmemWords) :
    (setDmem s (writeWords s.dmem b vs)).Inv :=
  setDmem_inv hs (wf_writeWords vs h hs.dmem)

/-- The twiddle store grows to a transform size (R118). -/
theorem growTwiddle_inv (hs : s.Inv) (h : transformSize s.params n = true) : (growTwiddle n s).Inv := by
  rw [growTwiddle_eq]
  refine { hs with twSize := ?_ }
  rcases max_choice s.twSize n with e | e
  · rw [e]
    exact hs.twSize
  · rw [e]
    exact .inr h

/-- The channels after one of them is replaced. -/
theorem channel_setChan (hs : ∀ ch ∈ s.chans, ch.wf s.params) (hx : x.wf s.params) :
    ∀ ch ∈ (setChan s c x).chans, ch.wf s.params := by
  intro ch hch
  rcases List.mem_or_eq_of_mem_set hch with h | rfl
  · exact hs ch h
  · exact hx

/-- A channel replaced by one of the same configuration. -/
theorem setChan_inv (hs : s.Inv) (h : x.wf s.params) (hx : shape x = shape (chan s c)) : (setChan s c x).Inv :=
  { hs with
    channels := (List.length_set ..).trans hs.channels
    channel := channel_setChan hs.channel h
    pipeline := pipelineWf_congr (s := s) rfl rfl (fun k _ => shape_chan_setChan hx k) hs.pipeline }

/-- A channel configured on its own ends a pipeline that uses it, and no other (R203). -/
theorem configure_inv (hs : s.Inv) (h : x.wf s.params) : (endPipeline c (setChan s c x)).Inv := by
  have hlen : (setChan s c x).chans.length = s.params.nch := (List.length_set ..).trans hs.channels
  unfold endPipeline
  split
  · exact { hs with channels := hlen, channel := channel_setChan hs.channel h, pipeline := rfl }
  · next hu =>
    have hother : ∀ k, pipelineUses s.pipeMode k = true → chan (setChan s c x) k = chan s k :=
      fun k hk => chan_setChan_other _ _ fun e => hu (e ▸ hk)
    exact { hs with
      channels := hlen
      channel := channel_setChan hs.channel h
      pipeline := pipelineWf_congr (s := s) rfl rfl (fun k hk => congrArg shape (hother k hk)) hs.pipeline }

/-- A mono pipeline over a freshly configured channel 0 (R230). -/
theorem configureMono_inv {seg fft total : Nat} (hs : s.Inv) (heven : total % 2 = 0)
    (h : (configured seg fft total).wf s.params) :
    ({ setChan s 0 (configured seg fft total) with pipeMode := .mono, pipeBuf := total } : State).Inv := by
  have hlen : 0 < s.chans.length := by have := nch_bounds hs.params; have := hs.channels; omega
  have hleft := chan_setChan_same s 0 (configured seg fft total) hlen
  refine { hs with
    channels := (List.length_set ..).trans hs.channels
    channel := channel_setChan hs.channel h
    pipeline := ⟨heven, ?_, ?_⟩ }
  · exact congrArg ChanCtx.cfg hleft
  · exact congrArg ChanCtx.buf hleft

/-- A stereo pipeline over freshly configured channels 0 and 1 (R230). -/
theorem configureStereo_inv {seg fft total : Nat} (hs : s.Inv) (heven : total % 2 = 0)
    (h : (configured seg fft (total / 2)).wf s.params) :
    ({ setChan (setChan s 0 (configured seg fft (total / 2))) 1 (configured seg fft (total / 2)) with
        pipeMode := .stereo, pipeBuf := total } : State).Inv := by
  have hlen : 1 < s.chans.length := by have := nch_bounds hs.params; have := hs.channels; omega
  refine { hs with
    channels := by simpa using hs.channels
    channel := channel_setChan (channel_setChan hs.channel h) h
    pipeline := pipelineWf_stereo (x := configured seg fft (total / 2)) rfl heven ?_ ?_ rfl rfl }
  · exact (chan_setChan_other _ _ (by decide)).trans (chan_setChan_same _ _ _ (by omega))
  · exact chan_setChan_same _ _ _ (by simpa using hlen)

end Sys2Proof.Proofs
end

section
/-! What every command keeps: the parameters, the host's side, the operands, the size of the twiddle store as a lower bound,
and the legality of a state (R31, R37, R40, R61, R99, R118). The effect of each command, and all of them as one inversion
of `exec`. -/

namespace Sys2Proof.Proofs

open Sys2Proof.Machine Sys2Proof.Laws

variable {s t u : State} {c b n : Nat}

/-- What the effect of a command leaves alone in every state (R99), and the growth of the twiddle store (R118). -/
structure EffectFrame (s t : State) : Prop where
  params : t.params = s.params
  ie : t.ie = s.ie
  status : t.status = s.status
  cmd : t.cmd = s.cmd
  args : t.args = s.args
  timeLeft : t.timeLeft = s.timeLeft
  held : t.held = s.held
  hostIn : t.hostIn = s.hostIn
  latency : t.latency = s.latency
  resp : t.resp = s.resp
  twSize : s.twSize ≤ t.twSize

/-- What the effect of a command keeps: the frame, and the legality of the state. -/
structure EffectKeeps (s t : State) : Prop where
  frame : EffectFrame s t
  inv : s.Inv → t.Inv

theorem EffectKeeps.refl (s : State) : EffectKeeps s s := ⟨by constructor <;> rfl, id⟩

theorem EffectKeeps.trans (h : EffectKeeps s t) (h' : EffectKeeps t u) : EffectKeeps s u where
  frame := {
    params := h'.frame.params.trans h.frame.params
    ie := h'.frame.ie.trans h.frame.ie
    status := h'.frame.status.trans h.frame.status
    cmd := h'.frame.cmd.trans h.frame.cmd
    args := h'.frame.args.trans h.frame.args
    timeLeft := h'.frame.timeLeft.trans h.frame.timeLeft
    held := h'.frame.held.trans h.frame.held
    hostIn := h'.frame.hostIn.trans h.frame.hostIn
    latency := h'.frame.latency.trans h.frame.latency
    resp := h'.frame.resp.trans h.frame.resp
    twSize := h.frame.twSize.trans h'.frame.twSize }
  inv := h'.inv ∘ h.inv

/-- A computation that may fault, taken apart. -/
theorem bind_eq_ok {α β : Type} {x : Except Fault α} {f : α → Except Fault β} {y : β} :
    x >>= f = .ok y ↔ ∃ a, x = .ok a ∧ f a = .ok y := by
  cases x <;> simp [bind, Except.bind]

/-! ## The effects of single-result commands and of stores -/

theorem setResult_keeps (s : State) (v : Word) : EffectKeeps s (setResult s v) :=
  ⟨by constructor <;> simp, fun hs => setResult_inv hs v⟩

theorem setFftN_keeps (h : transformSize s.params n = true) : EffectKeeps s { s with fftN := n } :=
  ⟨by constructor <;> simp, fun hs => setFftN_inv hs h⟩

/-- A store of words inside DMEM. -/
theorem storeWords_keeps {vs : List Word} (h : b + vs.length ≤ s.params.dmemWords) :
    EffectKeeps s (setDmem s (writeWords s.dmem b vs)) :=
  ⟨by constructor <;> simp, fun hs => storeWords_inv hs h⟩

/-- A transform leaves DMEM canonical and grows the twiddle store to its size. -/
theorem transform_keeps {m : Memory} (h0 : s.fftN ≠ 0)
    (h : Memory.wf s.params.dmemWords s.dmem = true → Memory.wf s.params.dmemWords m = true) :
    EffectKeeps s (setDmem (growTwiddle s.fftN s) m) :=
  ⟨by constructor <;> simp, fun hs =>
    setDmem_inv (growTwiddle_inv hs (fftN_transformSize hs h0)) (by simpa using h hs.dmem)⟩

/-- A window tapers the region its checks accepted (R170). -/
theorem taper_keeps {env : Nat → Nat → B64} (hr : argU s 0 + argU s 1 ≤ s.params.dmemWords) (h : taper env s = .ok u) :
    EffectKeeps s u := by
  obtain ⟨ws, hws, ⟨⟩⟩ := bind_eq_ok.1 h
  exact storeWords_keeps (by rw [List.length_mapIdx, readWords_length hws]; exact hr)

theorem window_keeps {env : Nat → Nat → B64} (hc : firstFailing (windowChecks s) = none) (h : taper env s = .ok u) :
    EffectKeeps s u :=
  taper_keeps (inRange_of_mem hc (List.mem_singleton_self _)) h

/-- The taps fill the region the checks accepted (R149). -/
theorem writeTaps_keeps {tap : Nat → Nat → B64} (hr : argU s 0 + argU s 1 ≤ s.params.dmemWords)
    (h : writeTaps tap s = .ok u) : EffectKeeps s u := by
  cases h
  exact storeWords_keeps (by simpa using hr)

/-! ## The effects of the overlap-add engine and the pipeline -/

/-- A channel configured on its own (R203). -/
theorem configure_keeps {x : ChanCtx} (h : x.wf s.params) : EffectKeeps s (endPipeline c (setChan s c x)) where
  frame := by unfold endPipeline; split <;> constructor <;> simp
  inv := fun hs => configure_inv hs h

/-- A filter set on a configured channel (R204). -/
theorem setFilterEffect_ok (h : setFilterEffect c b n s = .ok u) :
    ∃ taps, u = setChan (growTwiddle (chan s c).fft s) c (withFilter taps (chan s c)) := by
  obtain ⟨taps, -, ⟨⟩⟩ := bind_eq_ok.1 h
  exact ⟨taps, rfl⟩

theorem setFilter_keeps (taps : List B64) (hc : s.Inv → (chan s c).cfg = true) :
    EffectKeeps s (setChan (growTwiddle (chan s c).fft s) c (withFilter taps (chan s c))) :=
  ⟨by constructor <;> simp, fun hs =>
    setChan_inv (growTwiddle_inv hs (chan_transformSize hs (hc hs)))
      (by simpa using withFilter_wf taps (chan_wf hs c) (hc hs)) (by simp)⟩

/-- A channel run over a buffer inside DMEM (R205). -/
theorem applyEffect_keeps (hc : s.Inv → (chan s c).cfg = true)
    (hr : s.Inv → b + (chan s c).buf ≤ s.params.dmemWords) (h : applyEffect c b s = .ok u) : EffectKeeps s u := by
  obtain ⟨xs, -, ⟨⟩⟩ := bind_eq_ok.1 h
  refine ⟨by constructor <;> simp, fun hs => ?_⟩
  have hlen := olaRun_length_le (n := (chan s c).buf) xs (chan_wf hs c) (hc hs)
  have hm := wf_writeWords (olaBuffer (chan s c) xs).1 ((Nat.add_le_add_left hlen b).trans (hr hs)) hs.dmem
  exact setChan_inv (setDmem_inv (growTwiddle_inv hs (chan_transformSize hs (hc hs))) (by simpa using hm))
    (by simpa [olaBuffer] using olaRun_wf _ xs (chan_wf hs c) (hc hs)) (by simp [olaBuffer])

/-- The two channels of a stereo pipeline answer at most the words of its buffer. -/
theorem merge_olaRun_length_le {p : Config.Params} {left right : ChanCtx} (n : Nat) (xs ys : List B64) (hl : left.wf p)
    (hr : right.wf p) (hlc : left.cfg = true) (hrc : right.cfg = true) :
    (merge (olaRun (n / 2 / left.seg) left xs).1 (olaRun (n / 2 / right.seg) right ys).1).length ≤ n := by
  have h1 := olaRun_length_le (n := n / 2) xs hl hlc
  have h2 := olaRun_length_le (n := n / 2) ys hr hrc
  rw [merge_length]
  omega

/-- Both channels of a stereo pipeline run over a buffer inside DMEM (R232). -/
theorem stereoEffect_keeps (hm : s.pipeMode = .stereo) (hb : b + s.pipeBuf ≤ s.params.dmemWords)
    (h : stereoEffect b s = .ok u) : EffectKeeps s u := by
  obtain ⟨xs, -, ⟨⟩⟩ := bind_eq_ok.1 h
  refine ⟨by constructor <;> simp, fun hs => ?_⟩
  obtain ⟨hlc, hrc⟩ := pipeline_cfg_stereo hs.pipeline hm
  have hl := chan_wf hs 0
  have hr := chan_wf hs 1
  have hlen := merge_olaRun_length_le s.pipeBuf (evens xs) (odds xs) hl hr hlc hrc
  have hgrow := growTwiddle_inv (growTwiddle_inv hs (chan_transformSize hs hlc))
    (by simpa using chan_transformSize hs hrc)
  have hstore := setDmem_inv hgrow
    (by simpa using wf_writeWords _ ((Nat.add_le_add_left hlen b).trans hb) hs.dmem)
  exact setChan_inv (setChan_inv hstore (by simpa using olaRun_wf _ _ hl hlc) (by simp))
    (by simpa using olaRun_wf _ _ hr hrc) (by simp [chan_setChan_other])

/-! ## The commands -/

/-- How a command ends: its effect keeps what `EffectKeeps` says, and the completion writes STATUS (R96). A command that
fails a check has no effect (R252). -/
def Completes (s t : State) : Prop := ∃ code u, EffectKeeps s u ∧ t = complete code u

theorem runCommand_keeps {checks : List Check} {effect : State → Except Fault State}
    (h : runCommand checks effect s = .next t)
    (he : ∀ u, firstFailing checks = none → effect s = .ok u → EffectKeeps s u) : Completes s t := by
  obtain ⟨code, -, e⟩ | ⟨hc, u, hu, e⟩ | ⟨-, f, -, e⟩ := runCommand_spec s checks effect
  · cases e.symm.trans h
    exact ⟨code, s, .refl s, rfl⟩
  · cases e.symm.trans h
    exact ⟨.none, u, he u hc hu, rfl⟩
  · cases e.symm.trans h

/-- The commands whose one result is RESULT. -/
theorem scalar_keeps {checks : List Check} {v : State → Word}
    (h : runCommand checks (fun s => .ok (setResult s (v s))) s = .next t) : Completes s t :=
  runCommand_keeps h fun _ _ hu => by
    cases hu
    exact setResult_keeps s _

theorem execFftCfg_keeps (h : execFftCfg s = .next t) : Completes s t :=
  runCommand_keeps h fun _ hc hu => by
    cases hu
    exact setFftN_keeps (passes_of_mem hc (List.mem_singleton_self _))

/-- R121: the transform answers the 2N words of its region. -/
theorem execFftCplx_keeps {d : Direction} (h : execFftCplx d s = .next t) : Completes s t :=
  runCommand_keeps h fun _ hc hu => by
    simp only [fftCplxChecks, firstFailing_eq_none, List.forall_mem_cons, inRange, decide_eq_true_eq] at hc
    obtain ⟨h0, hn, hr, -⟩ := hc
    obtain ⟨ws, hws, ⟨⟩⟩ := bind_eq_ok.1 hu
    refine transform_keeps h0 (wf_writeWords _ ?_)
    rw [interleave_length, complexTransform_length, deinterleave_length, readWords_length hws]
    omega

/-- R122: the two parts are as long as their regions. -/
theorem execFftCplxSplit_keeps {d : Direction} (h : execFftCplxSplit d s = .next t) : Completes s t :=
  runCommand_keeps h fun _ hc hu => by
    simp only [fftCplxSplitChecks, firstFailing_eq_none, List.forall_mem_cons, inRange, decide_eq_true_eq] at hc
    obtain ⟨h0, hnr, hni, hr, hi, -⟩ := hc
    obtain ⟨re, hre, hu⟩ := bind_eq_ok.1 hu
    obtain ⟨im, him, ⟨⟩⟩ := bind_eq_ok.1 hu
    have hlen : (complexTransform d s.fftN (List.zipWith Cplx.mk re im)).length = s.fftN := by
      simp [readWords_length hre, readWords_length him]
    refine transform_keeps h0 fun hm => wf_writeWords _ ?_ (wf_writeWords _ ?_ hm)
    · rw [List.length_map, hlen]
      omega
    · rw [List.length_map, hlen]
      omega

/-- A real transform of N words answers at most N words (R113, R114). -/
theorem realTransform_length_le {a : List B64} (d : Direction) (hn : n ≠ 0) (ha : a.length = n) :
    (realTransform d n a).length ≤ n := by
  have hpow := Nat.log2_self_le hn
  cases d with
  | fwd => rw [realTransform, rfftF_length, ha]
  | inv =>
    rw [realTransform, rfftI_length]
    omega

theorem execFftReal_keeps {d : Direction} (h : execFftReal d s = .next t) : Completes s t :=
  runCommand_keeps h fun _ hc hu => by
    simp only [fftRealChecks, firstFailing_eq_none, List.forall_mem_cons, inRange, decide_eq_true_eq] at hc
    obtain ⟨h0, hn, hr, -⟩ := hc
    obtain ⟨a, ha, ⟨⟩⟩ := bind_eq_ok.1 hu
    have hlen := realTransform_length_le d h0 (readWords_length ha)
    exact transform_keeps h0 (wf_writeWords _ (by omega))

/-- R189: both branches stay inside the region. -/
theorem execWinKaiser_keeps (h : execWinKaiser s = .next t) : Completes s t :=
  runCommand_keeps h fun _ hc hu => by
    have hr : argU s 0 + argU s 1 ≤ s.params.dmemWords := inRange_of_mem hc (List.mem_singleton_self _)
    split at hu
    · cases hu
      exact storeWords_keeps (by simpa using hr)
    · exact taper_keeps hr hu

/-- R156: every branch stays inside the region. -/
theorem execIrResonator_keeps (h : execIrResonator s = .next t) : Completes s t :=
  runCommand_keeps h fun _ hc hu => by
    have hr : argU s 0 + argU s 1 ≤ s.params.dmemWords :=
      inRange_of_mem hc (code := .invalidArgument) (by simp [irResonatorChecks])
    split at hu
    · cases hu
      exact storeWords_keeps (by simpa using hr)
    · split at hu
      · cases hu
        exact .refl s
      · obtain ⟨freqs, -, ⟨⟩⟩ := bind_eq_ok.1 hu
        exact storeWords_keeps (by simpa using hr)

theorem execOlaCfg_keeps {c : Channel} (h : execOlaCfg c s = .next t) : Completes s t :=
  runCommand_keeps h fun _ hc hu => by
    cases hu
    exact configure_keeps (configured_wf (firstFailing_tail hc))

theorem execOlaSetfilter_keeps {c : Channel} (h : execOlaSetfilter c s = .next t) : Completes s t :=
  runCommand_keeps h fun _ hc hu => by
    have hcfg : (chan s c.val).cfg = true := passes_of_mem hc (code := .invalidConfiguration) (by simp [olaSetfilterChecks])
    obtain ⟨taps, rfl⟩ := setFilterEffect_ok hu
    exact setFilter_keeps taps fun _ => hcfg

theorem execOlaApply_keeps {c : Channel} (h : execOlaApply c s = .next t) : Completes s t :=
  runCommand_keeps h fun _ hc hu => by
    simp only [olaApplyChecks, firstFailing_eq_none, List.forall_mem_cons, inRange, decide_eq_true_eq] at hc
    obtain ⟨-, hcfg, -, hn, hr, -⟩ := hc
    exact applyEffect_keeps (fun _ => hcfg) (fun _ => hn ▸ hr) hu

/-- R230: channel 0, and channel 1 in stereo, freshly configured for the pipeline. -/
theorem execPipeCfg_keeps (h : execPipeCfg s = .next t) : Completes s t :=
  runCommand_keeps h fun _ hc hu => by
    have heven : argU s 3 % 2 = 0 := of_decide_eq_true (passes_of_mem (firstFailing_tail hc) List.mem_cons_self)
    have hwf := configured_wf (firstFailing_tail (firstFailing_tail hc))
    cases hu
    by_cases hm : argU s 0 = 0
    · have hmode : pipeModeOf (argU s 0) = .mono := if_pos hm
      simp only [hmode] at hwf ⊢
      exact ⟨by constructor <;> simp, fun hs => configureMono_inv hs heven hwf⟩
    · have hmode : pipeModeOf (argU s 0) = .stereo := if_neg hm
      simp only [hmode] at hwf ⊢
      exact ⟨by constructor <;> simp, fun hs => configureStereo_inv hs heven hwf⟩

theorem execPipeSetfilter_keeps (h : execPipeSetfilter s = .next t) : Completes s t :=
  runCommand_keeps h fun _ hc hu => by
    have hon : s.pipeMode ≠ .off := of_decide_eq_true (passes_of_mem hc List.mem_cons_self)
    obtain ⟨v, hv, hu⟩ := bind_eq_ok.1 hu
    obtain ⟨taps, rfl⟩ := setFilterEffect_ok hv
    have hleft := setFilter_keeps (c := 0) taps fun hs => pipeline_cfg_left hs.pipeline hon
    split at hu
    · next hm =>
      obtain ⟨taps', rfl⟩ := setFilterEffect_ok hu
      refine hleft.trans (setFilter_keeps (c := 1) taps' fun hv => ?_)
      obtain ⟨-, hright⟩ := pipeline_cfg_stereo hv.pipeline (by simpa using hm)
      exact hright
    · cases hu
      exact hleft

theorem execPipeFilter_keeps (h : execPipeFilter s = .next t) : Completes s t :=
  runCommand_keeps h fun _ hc hu => by
    simp only [pipeFilterChecks, firstFailing_eq_none, List.forall_mem_cons, inRange, decide_eq_true_eq] at hc
    obtain ⟨hon, -, hn, hr, -⟩ := hc
    rw [hn] at hr
    split at hu
    · next hm => exact stereoEffect_keeps hm hr hu
    · next hm =>
      have hmono : s.Inv → (chan s 0).cfg = true ∧ (chan s 0).buf = s.pipeBuf :=
        fun hs => pipeline_mono hs.pipeline hon hm
      exact applyEffect_keeps (fun hs => (hmono hs).1) (fun hs => (hmono hs).2 ▸ hr) hu

/-- Every command ends by writing STATUS after an effect that keeps the frame and the legality of the state. -/
theorem exec_keeps {i : Instr} (h : exec i s = .next t) : Completes s t := by
  cases i with
  | nop => exact runCommand_keeps (show execNop s = _ from h) fun _ _ hu => by cases hu; exact .refl s
  | fftCfg => exact execFftCfg_keeps h
  | fftCplx d => exact execFftCplx_keeps h
  | fftCplxSplit d => exact execFftCplxSplit_keeps h
  | fftReal d => exact execFftReal_keeps h
  | sinc => exact scalar_keeps (show execSinc s = _ from h)
  | bessel0 => exact scalar_keeps (show execBessel0 s = _ from h)
  | getFilterSize => exact scalar_keeps (show execGetFilterSize s = _ from h)
  | getDelta => exact scalar_keeps (show execGetDelta s = _ from h)
  | winHanning => exact runCommand_keeps h fun _ => window_keeps
  | winHamming => exact runCommand_keeps h fun _ => window_keeps
  | winBartlett => exact runCommand_keeps h fun _ => window_keeps
  | winNuttall => exact runCommand_keeps h fun _ => window_keeps
  | winBlackman => exact runCommand_keeps h fun _ => window_keeps
  | winBlackmanHarris => exact runCommand_keeps h fun _ => window_keeps
  | winBlackmanNuttall => exact runCommand_keeps h fun _ => window_keeps
  | winFlattop => exact runCommand_keeps h fun _ => window_keeps
  | winWelch => exact runCommand_keeps h fun _ => window_keeps
  | winKaiser => exact execWinKaiser_keeps h
  | irLowpass =>
    exact runCommand_keeps (show execIrLowpass s = _ from h) fun _ hc =>
      writeTaps_keeps (inRange_of_mem hc (code := .invalidArgument) (by simp [irLowpassChecks]))
  | irHighpass =>
    exact runCommand_keeps (show execIrHighpass s = _ from h) fun _ hc =>
      writeTaps_keeps (inRange_of_mem hc (code := .invalidArgument) (by simp [irHighpassChecks]))
  | irBandpass =>
    exact runCommand_keeps (show execIrBandpass s = _ from h) fun _ hc =>
      writeTaps_keeps (inRange_of_mem hc (code := .invalidArgument) (by simp [irBandpassChecks, bandChecks]))
  | irBandelim =>
    exact runCommand_keeps (show execIrBandelim s = _ from h) fun _ hc =>
      writeTaps_keeps (inRange_of_mem hc (code := .invalidArgument) (by simp [irBandelimChecks, bandChecks]))
  | irComb =>
    exact runCommand_keeps (show execIrComb s = _ from h) fun _ hc hu => by
      have hr : argU s 0 + argU s 1 ≤ s.params.dmemWords :=
        inRange_of_mem hc (code := .invalidArgument) (by simp [irCombChecks])
      cases hu
      exact storeWords_keeps (by rwa [combTaps_length])
  | irResonator => exact execIrResonator_keeps h
  | olaCfg c => exact execOlaCfg_keeps h
  | olaSetfilter c => exact execOlaSetfilter_keeps h
  | olaApply c => exact execOlaApply_keeps h
  | pipeCfg => exact execPipeCfg_keeps h
  | pipeSetfilter => exact execPipeSetfilter_keeps h
  | pipeFilter => exact execPipeFilter_keeps h

end Sys2Proof.Proofs
end

section
/-! What every step keeps: the parameters, the legality of a state, and TWSIZE but for a reset (R31, R37). -/

namespace Sys2Proof.Proofs

open Sys2Proof.Machine Sys2Proof.Laws

variable {s t : State} {v : Word}

/-! ## The completion of a command -/

theorem Completes.params (h : Completes s t) : t.params = s.params := by
  obtain ⟨code, u, hu, rfl⟩ := h
  exact hu.frame.params

theorem Completes.twSize (h : Completes s t) : s.twSize ≤ t.twSize := by
  obtain ⟨code, u, hu, rfl⟩ := h
  exact hu.frame.twSize

/-- A command that completes with no time left ends in a legal state. -/
theorem Completes.inv (h : Completes s t) (hs : s.Inv) (h0 : s.timeLeft = 0) : t.Inv := by
  obtain ⟨code, u, hu, rfl⟩ := h
  exact { hu.inv hs with idle := fun _ => hu.frame.timeLeft.trans h0 }

/-- A word that is no command of these parameters completes too, with code 3 (R251). -/
theorem finishCommand_completes (h : finishCommand s = .next t) : Completes s t := by
  unfold finishCommand at h
  split at h
  · cases h
    exact ⟨_, s, .refl s, rfl⟩
  · split at h
    · exact exec_keeps h
    · cases h
      exact ⟨_, s, .refl s, rfl⟩

/-! ## Steps -/

/-- What a step keeps: the parameters (R7), TWSIZE unless it becomes 0 (R31), and the legality of the state. -/
structure StepKeeps (s t : State) : Prop where
  params : t.params = s.params
  twSize : s.twSize ≤ t.twSize ∨ t.twSize = 0
  inv : s.Inv → t.Inv

/-- A change that keeps the parameters, TWSIZE and the legality of the state may come first. -/
theorem StepKeeps.after {s' : State} (h : StepKeeps s' t) (hp : s'.params = s.params) (ht : s'.twSize = s.twSize)
    (hi : s.Inv → s'.Inv) : StepKeeps s t :=
  ⟨h.params.trans hp, ht ▸ h.twSize, h.inv ∘ hi⟩

/-- The registers the host writes, and the host's side of the bus. -/
theorem stepKeeps_host (s : State) (ie : Bool) (status : Status) (args : Vector Word 8) (held : List HostAccess)
    (resp : BusResponse) (hb : status.busy = s.status.busy) :
    StepKeeps s { s with ie, status, args, held, resp } :=
  ⟨rfl, .inl le_rfl, fun hs => inv_host hs ie status _ _ args held _ _ resp hb⟩

/-- A CMD write while CORE is idle (R95): the command completes, or is left running. -/
theorem startCommand_keeps (h : startCommand v s = .next t) (hb : s.status.busy = false) : StepKeeps s t := by
  have hlatch : ∀ (ds : List Nat) (n : Nat), s.Inv →
      ({ latchCommand v s with latency := ds, timeLeft := n } : State).Inv :=
    fun ds n hs => { hs with idle := Bool.noConfusion }
  by_cases hd : s.latency.headD 0 = 0
  · rw [startCommand_now hd] at h
    have hc := finishCommand_completes h
    exact ⟨hc.params, .inl hc.twSize, fun hs => hc.inv (hlatch _ _ hs) (hs.idle hb)⟩
  · obtain ⟨d, ds, hl⟩ : ∃ d ds, s.latency = (d + 1) :: ds := by
      cases hl : s.latency with
      | nil =>
        rw [hl] at hd
        exact absurd rfl hd
      | cons d ds =>
        have h0 : d ≠ 0 := by simpa [hl] using hd
        exact ⟨d - 1, ds, by rw [Nat.sub_add_cancel (Nat.pos_of_ne_zero h0)]⟩
    rw [startCommand_later hl] at h
    cases h
    exact ⟨rfl, .inl le_rfl, hlatch _ _⟩

/-- An abort only forgets words (R293). -/
theorem wf_abortDmem {words : Nat} (h : Memory.wf words s.dmem = true) : Memory.wf words (abortDmem s) = true := by
  unfold abortDmem
  induction abortRegions s using List.reverseRecOn with
  | nil => exact h
  | append_singleton rs r ih =>
    rw [List.foldl_concat]
    exact wf_forgetWords _ _ ih

theorem powerOnReset_keeps (s : State) : StepKeeps s (powerOnReset s) :=
  ⟨rfl, .inr rfl, fun hs => inv_host (initial_inv hs.params) _ _ _ _ _ _ _ _ _ rfl⟩

theorem softReset_keeps (s : State) : StepKeeps s (softReset s) := by
  refine ⟨rfl, .inr rfl, fun hs => ?_⟩
  have hinit : (State.initial s.params).Inv := initial_inv hs.params
  refine { hinit with dmem := ?_, idle := fun _ => rfl }
  change Memory.wf _ (if s.status.busy then abortDmem s else s.dmem) = true
  split
  · exact wf_abortDmem hs.dmem
  · exact hs.dmem

/-- A host write: CMD is written while CORE is idle only, and a DMEM word is below DMEM_WORDS. -/
theorem writeTarget_keeps {tgt : Target} (h : writeTarget s v tgt = .next t) (hcmd : tgt = .cmd → s.status.busy = false)
    (hw : ∀ w, tgt = .dmem w → w < s.params.dmemWords) : StepKeeps s t := by
  cases tgt with
  | cmd => exact startCommand_keeps h (hcmd rfl)
  | ctrl =>
    cases h
    split
    · exact softReset_keeps s
    · exact stepKeeps_host s _ _ _ _ _ rfl
  | status =>
    cases h
    exact stepKeeps_host s _ _ _ _ _ (by unfold ackFlags; split <;> rfl)
  | arg i =>
    cases h
    exact stepKeeps_host s _ _ _ _ _ rfl
  | dmem w =>
    cases h
    exact ⟨rfl, .inl le_rfl, fun hs => setDmem_inv hs (wf_writeWord v (hw w rfl) hs.dmem)⟩
  | id | caps | result | twsize | fftn | pipemode | pipebuf | chSeg _ | chFft _ | chBuf _ | chFlags _ | unmapped =>
    cases h
    exact stepKeeps_host s _ _ _ _ _ rfl

/-- The DMEM window shows words below DMEM_WORDS only (R62). -/
theorem lt_dmemWords_of_locate {p : Config.Params} {off w : Nat} (h : locate p off = .dmem w) : w < p.dmemWords := by
  unfold locate at h
  split at h
  · split at h
    · next hlt =>
      cases h
      exact hlt
    · cases h
  · split at h
    · dsimp only [locateChannel] at h
      split at h
      · cases h
      · split at h <;> cases h
    · split at h
      · cases h
      · split at h <;> cases h

/-- A host access, performed while CORE is idle or as one of those performed at once (R70). -/
theorem performAccess_keeps {a : HostAccess} (h : performAccess a s = .next t)
    (ha : s.status.busy = false ∨ performedAtOnce s.params a = true) : StepKeeps s t := by
  cases a with
  | read addr size =>
    simp only [performAccess] at h
    split at h
    · split at h
      · cases h
        exact stepKeeps_host s _ _ _ _ _ rfl
      · cases h
    · cases h
      exact stepKeeps_host s _ _ _ _ _ rfl
  | write addr size v =>
    simp only [performAccess] at h
    split at h
    · have hcmd : locate s.params (addr - s.params.base) = .cmd → s.status.busy = false :=
        fun e => ha.resolve_right fun hat => by simp [performedAtOnce, e] at hat
      exact (writeTarget_keeps h hcmd fun w => lt_dmemWords_of_locate).after rfl rfl
        fun hs => inv_host hs _ _ _ _ _ _ _ _ _ rfl
    · cases h
      exact stepKeeps_host s _ _ _ _ _ rfl

/-- An event while a command runs (R70, R291). -/
theorem arriveBusy_keeps {e : HostEvent} (h : arriveBusy e s = .next t) : StepKeeps s t := by
  cases e with
  | resetInput =>
    cases h
    exact powerOnReset_keeps s
  | access a =>
    simp only [arriveBusy] at h
    split at h
    · next hat => exact performAccess_keeps h (.inr hat)
    · cases h
      exact stepKeeps_host s _ _ _ _ _ rfl

theorem arriveIdle_keeps {e : HostEvent} (h : arriveIdle e s = .next t) (hb : s.status.busy = false) :
    StepKeeps s t := by
  cases e with
  | resetInput =>
    cases h
    exact powerOnReset_keeps s
  | access a => exact performAccess_keeps h (.inl hb)

/-- Every step keeps the parameters and the legality of the state. -/
theorem step_keeps (h : step s = .next t) : StepKeeps s t := by
  simp only [step, advance] at h
  split at h
  · next hb =>
    split at h
    · exact (arriveBusy_keeps h).after rfl rfl
        fun hs => { hs with idle := fun e => absurd (hb.symm.trans e) Bool.noConfusion }
    · have hc := finishCommand_completes h
      exact ⟨hc.params, .inl hc.twSize, fun hs => hc.inv { hs with idle := fun _ => rfl } rfl⟩
  · next hb =>
    have hidle : s.status.busy = false := eq_false_of_ne_true hb
    split at h
    · exact (performAccess_keeps h (.inl hidle)).after rfl rfl fun hs => inv_host hs _ _ _ _ _ _ _ _ _ rfl
    · exact (arriveIdle_keeps h hidle).after rfl rfl fun hs => inv_host hs _ _ _ _ _ _ _ _ _ rfl
    · cases h
      exact ⟨rfl, .inl le_rfl, id⟩

/-! ## The obligations -/

/-- Settles O7, by one case per way a step can go. -/
theorem stepKeepsInvariant : Obligations.StepKeepsInvariant := fun _ _ h => ⟨(step_keeps h).params, (step_keeps h).inv⟩

/-- Settles O8: the twiddle store only grows in a command, and a step that is no reset runs at most one. -/
theorem twiddleStoreNeverShrinks : Obligations.TwiddleStoreNeverShrinks :=
  ⟨fun _ _ _ h => (exec_keeps h).twSize, fun _ _ h => (step_keeps h).twSize⟩

end Sys2Proof.Proofs
end

section
/-! The state after a reset (R47), and what a host access of each register of R23 reads, stores and ignores. -/

namespace Sys2Proof.Proofs

open Sys2Proof.Machine Sys2Proof.Laws

variable {s : State} {v : Word} {off : Nat} {tgt : Target}

/-! ## Reset -/

theorem chan_initial (p : Config.Params) (c : Nat) : chan (State.initial p) c = unconfigured := by
  by_cases hc : c < (State.initial p).chans.length
  · exact List.eq_of_mem_replicate (chan_mem hc)
  · exact chan_of_le (Nat.le_of_not_lt hc)

/-- Settles O4, field by field of the reset state. -/
theorem resetState : Obligations.ResetState := by
  refine ⟨rfl, fun p => ⟨rfl, rfl, rfl, rfl, rfl, fun i => ?_, rfl, rfl, rfl, rfl, fun c => ?_, rfl, readWord_nil⟩⟩
  · simp [State.initial, Vector.get_eq_getElem]
  · rw [chan_initial]
    exact ⟨rfl, rfl, rfl, rfl, rfl, rfl, rfl⟩

/-- Settles O5, by the invariant of the reset state of every legal choice of parameters. -/
theorem resetMeetsInvariant : Obligations.ResetMeetsInvariant :=
  ⟨fun _ => initial_inv, initial_inv (by decide)⟩

/-! ## Fields of a register -/

/-- The field of width n at bit i of a register that holds x. -/
theorem toNat_field {x : Nat} (i n : Nat) (hx : x < 2 ^ 64) :
    ((BitVec.ofNat 64 x).extractLsb' i n).toNat = x / 2 ^ i % 2 ^ n := by
  rw [BitVec.extractLsb'_toNat, BitVec.toNat_ofNat, Nat.mod_eq_of_lt hx, Nat.shiftRight_eq_div_pow]

theorem field_eq {x i n : Nat} {y : BitVec n} (hx : x < 2 ^ 64) (h : x / 2 ^ i % 2 ^ n = y.toNat) :
    (BitVec.ofNat 64 x).extractLsb' i n = y :=
  BitVec.eq_of_toNat_eq ((toNat_field i n hx).trans h)

theorem bit_eq {x i : Nat} {b : Bool} (hi : i < 64) (h : x / 2 ^ i % 2 = b.toNat) :
    (BitVec.ofNat 64 x).getLsbD i = b := by
  rw [BitVec.getLsbD_ofNat, Nat.testBit_eq_decide_div_mod_eq, h]
  cases b <;> simp [hi]

/-- CAPS field by field (R27). -/
theorem capsWord_fields {p : Config.Params} (hp : p.legal = true) :
    ((capsWord p).extractLsb' 0 8).toNat = p.nmaxLog2 ∧ ((capsWord p).extractLsb' 8 8).toNat = p.dmemLog2 ∧
    ((capsWord p).extractLsb' 16 4).toNat = p.nch % 16 ∧ (capsWord p).extractLsb' 20 4 = 0#4 ∧
    ((capsWord p).extractLsb' 24 8).toNat = p.besselTerms ∧ (capsWord p).extractLsb' 32 32 = 0#32 := by
  simp only [Config.Params.legal, Bool.and_eq_true, decide_eq_true_eq] at hp
  obtain ⟨⟨⟨⟨⟨hn, hd⟩, hc⟩, hb⟩, -⟩, -⟩ := hp
  have hx : p.nmaxLog2 % 2 ^ 8 + 2 ^ 8 * (p.dmemLog2 % 2 ^ 8) + 2 ^ 16 * (p.nch % 2 ^ 4) +
      2 ^ 24 * (p.besselTerms % 2 ^ 8) < 2 ^ 64 := by omega
  unfold capsWord
  refine ⟨?_, ?_, ?_, field_eq hx ?_, ?_, field_eq hx ?_⟩
  · rw [toNat_field _ _ hx]; omega
  · rw [toNat_field _ _ hx]; omega
  · rw [toNat_field _ _ hx]; omega
  · rw [BitVec.toNat_ofNat]; omega
  · rw [toNat_field _ _ hx]; omega
  · rw [BitVec.toNat_ofNat]; omega

theorem errBits_lt (e : ErrCode) : errBits e < 4 := by cases e <;> decide

/-- STATUS field by field (R29). -/
theorem statusWord_fields (f : Status) :
    (statusWord f).getLsbD 0 = f.busy ∧ (statusWord f).getLsbD 1 = f.done ∧ (statusWord f).extractLsb' 2 6 = 0#6 ∧
    ((statusWord f).extractLsb' 8 3).toNat = errBits f.err ∧ (statusWord f).extractLsb' 11 5 = 0#5 ∧
    (statusWord f).extractLsb' 16 8 = f.lastOp ∧ (statusWord f).extractLsb' 24 40 = 0#40 := by
  have hb := f.busy.toNat_lt
  have hd := f.done.toNat_lt
  have he := errBits_lt f.err
  have hl := f.lastOp.isLt
  have hx : f.busy.toNat + 2 * f.done.toNat + 2 ^ 8 * errBits f.err + 2 ^ 16 * f.lastOp.toNat < 2 ^ 64 := by omega
  unfold statusWord
  refine ⟨bit_eq (by decide) ?_, bit_eq (by decide) ?_, field_eq hx ?_, ?_, field_eq hx ?_, field_eq hx ?_,
    field_eq hx ?_⟩
  · omega
  · omega
  · rw [BitVec.toNat_ofNat]; omega
  · rw [toNat_field _ _ hx]; omega
  · rw [BitVec.toNat_ofNat]; omega
  · omega
  · rw [BitVec.toNat_ofNat]; omega

/-- CHc_FLAGS field by field (R35). -/
theorem chanFlags_fields (ch : ChanCtx) :
    (chanFlags ch).getLsbD 0 = ch.cfg ∧ (chanFlags ch).getLsbD 1 = ch.filt ∧ (chanFlags ch).extractLsb' 2 62 = 0#62 := by
  have hc := ch.cfg.toNat_lt
  have hf := ch.filt.toNat_lt
  unfold chanFlags
  refine ⟨bit_eq (by decide) ?_, bit_eq (by decide) ?_, field_eq (by omega) ?_⟩
  · omega
  · omega
  · rw [BitVec.toNat_ofNat]; omega

/-! ## Accesses below the DMEM window -/

/-- A read of a register answers its value and changes nothing else (R69). -/
theorem performAccess_read_register (ht : locate s.params off = tgt) (hv : readTarget s tgt = .ok v) (h8 : off % 8 = 0)
    (hlt : off < 0x100000) : performAccess (.read (s.params.base + off) 8) s = .next { s with resp := .data v } := by
  rw [performAccess_read h8 (lt_hostBytes _ hlt) ht, hv]

/-- A write below the DMEM window does what its target does. -/
theorem performAccess_write_register (ht : locate s.params off = tgt) (h8 : off % 8 = 0) (hlt : off < 0x100000) :
    performAccess (.write (s.params.base + off) 8 v) s = writeTarget { s with resp := .written } v tgt :=
  performAccess_write h8 (lt_hostBytes _ hlt) ht

/-- The read-only registers and the offsets of no register ignore a write (R22, R26, R27, R30, R35). -/
theorem writeTarget_readOnly (s : State) (v : Word) {p : Config.Params}
    (h : off < 0x010 ∨ 0x028 ≤ off ∧ off < 0x080 ∨ 0x0C0 ≤ off ∧ off < 0x100000) :
    writeTarget s v (locate p off) = .next s := by
  rcases h with h | ⟨h, h'⟩ | ⟨h, h'⟩
  · interval_cases off <;> rfl
  · interval_cases off <;> rfl
  · rcases locate_middle p (by omega) h' with ⟨i, e, hlt⟩ | ⟨e, -⟩ | ⟨-, c, -, e | e | e | e⟩
    · omega
    all_goals rw [e]; rfl

/-- The offsets of no register (R22, R23). -/
theorem locate_unmapped {p : Config.Params} (hlt : off < 0x100000)
    (h : 0x050 ≤ off ∧ off < 0x080 ∨ 0x0C0 ≤ off ∧ off < 0x100 ∨ 0x100 + 0x20 * p.nch ≤ off) :
    locate p off = .unmapped := by
  rcases h with ⟨h, h'⟩ | ⟨h, h'⟩ | h
  · interval_cases off <;> rfl
  · rcases locate_middle p (by omega) hlt with ⟨i, -, h⟩ | ⟨e, -⟩ | ⟨h, -⟩
    · omega
    · exact e
    · omega
  · exact locate_past_channels p h hlt

/-! ## The obligations -/

/-- Settles O14, register by register of R23. -/
theorem registerReads : Obligations.RegisterReads := by
  intro s hp
  obtain ⟨-, hnch⟩ := nch_bounds hp
  refine ⟨performAccess_read_register (off := 0) (locate_id _) rfl rfl (by decide),
    ⟨_, performAccess_read_register (locate_caps _) rfl rfl (by decide), capsWord_fields hp⟩, ?ctrl,
    ⟨_, performAccess_read_register (locate_status _) rfl rfl (by decide), statusWord_fields _⟩,
    performAccess_read_register (locate_cmd _) rfl rfl (by decide),
    performAccess_read_register (locate_result _) rfl rfl (by decide),
    performAccess_read_register (locate_twsize _) rfl rfl (by decide),
    performAccess_read_register (locate_fftn _) rfl rfl (by decide), ?pipemode,
    performAccess_read_register (locate_pipebuf _) rfl rfl (by decide),
    fun i => performAccess_read_register (locate_arg _ i) rfl (by omega) (by omega),
    fun c hc => ⟨?seg, ?fft, ?buf, _, ?flags, chanFlags_fields (chan s c)⟩⟩
  case ctrl =>
    rw [performAccess_read_register (locate_ctrl _) rfl rfl (by decide)]
    cases s.ie <;> rfl
  case pipemode =>
    rw [performAccess_read_register (locate_pipemode _) rfl rfl (by decide)]
    cases s.pipeMode <;> rfl
  case seg => exact performAccess_read_register (locate_channel _ 0 hnch hc (by decide)) rfl (by omega) (by omega)
  case fft => exact performAccess_read_register (locate_channel _ 1 hnch hc (by decide)) rfl (by omega) (by omega)
  case buf => exact performAccess_read_register (locate_channel _ 2 hnch hc (by decide)) rfl (by omega) (by omega)
  case flags => exact performAccess_read_register (locate_channel _ 3 hnch hc (by decide)) rfl (by omega) (by omega)

/-- Settles O16: the one register a write reaches, and the offsets that ignore it. -/
theorem registerWrites : Obligations.RegisterWrites := by
  intro s v hp
  refine ⟨fun i => ⟨_, performAccess_write_register (locate_arg _ i) (by omega) (by omega), ?_, fun j hj => ?_, rfl⟩,
    fun hv => ?_, fun hv => ?_, fun hv => ?_, fun off h8 hoff => ?_⟩
  · simp [Vector.get_eq_getElem]
  · have hij : i.val ≠ j.val := fun e => hj (Fin.ext e.symm)
    simp [Vector.get_eq_getElem, hij]
  · rw [performAccess_write_register (locate_ctrl _) rfl (by decide), writeTarget, hv]
    rfl
  · rw [performAccess_write_register (locate_status _) rfl (by decide), writeTarget, ackFlags, if_pos hv]
  · rw [performAccess_write_register (locate_status _) rfl (by decide), writeTarget, ackFlags,
      if_neg (Bool.eq_false_iff.1 hv)]
  · rw [performAccess_write_register rfl h8 (by omega), writeTarget_readOnly _ _ hoff]

/-- Settles O15: the three ranges of offsets name no register. -/
theorem unmappedOffsets : Obligations.UnmappedOffsets := fun _ _ _ hlt h8 h =>
  ⟨performAccess_read_register (locate_unmapped hlt h) rfl h8 hlt,
   fun _ => performAccess_write_register (locate_unmapped hlt h) h8 hlt⟩

end Sys2Proof.Proofs
end

section
/-! The host port of 20_memory.md: which accesses get an error response (R65, U6), what an access of the DMEM window does
(R62, R67), and which accesses a running command holds (R70). -/

namespace Sys2Proof.Proofs

open Sys2Proof.Machine Sys2Proof.Laws

variable {s : State} {v x : Word} {w : Nat}

/-! ## Accesses that are not defined -/

/-- The ways an access is not defined (R65, U6): its width, its side of the host window, its alignment. -/
theorem definedAccess_eq_false_iff (p : Config.Params) (addr size : Nat) :
    definedAccess p addr size = false ↔
      size ≠ 8 ∨ addr < p.base ∨ p.base + p.hostBytes ≤ addr ∨ (addr - p.base) % 8 ≠ 0 := by
  rw [definedAccess, decide_eq_false_iff_not]
  omega

/-- Settles O13: the four ways of the statement are those in which an access is not defined. -/
theorem undefinedAccess : Obligations.UndefinedAccess := fun s addr size h =>
  performAccess_undefined ((definedAccess_eq_false_iff s.params addr size).2 h)

/-! ## The DMEM window -/

/-- The platform routes to CORE the words of the DMEM window and `hostExtra` bytes past it (R64). -/
theorem dmemOffset_lt_hostBytes_iff (p : Config.Params) (w : Nat) :
    0x100000 + 8 * w < p.hostBytes ↔ 8 * w < 8 * p.dmemWords + p.hostExtra := by
  rw [Config.Params.hostBytes]
  omega

/-- A word below DMEM_WORDS is routed to CORE, and its offset names it (R62). -/
theorem locate_dmem_inside {p : Config.Params} (hw : w < p.dmemWords) :
    0x100000 + 8 * w < p.hostBytes ∧ locate p (0x100000 + 8 * w) = .dmem w :=
  ⟨(dmemOffset_lt_hostBytes_iff p w).2 (by omega), (locate_dmem p w).trans (if_pos hw)⟩

/-- A written word reads back. -/
theorem performAccess_read_dmem_written (hw : w < s.params.dmemWords) (hx : readWord s.dmem w = some x) :
    performAccess (.read (s.params.base + (0x100000 + 8 * w)) 8) s = .next { s with resp := .data x } := by
  obtain ⟨hb, ht⟩ := locate_dmem_inside hw
  rw [performAccess_read (by omega) hb ht, readTarget, hx]

/-- A word never written stops the model (R67, U1). -/
theorem performAccess_read_dmem_neverWritten (hw : w < s.params.dmemWords) (hn : readWord s.dmem w = none) :
    performAccess (.read (s.params.base + (0x100000 + 8 * w)) 8) s = .fault (.neverWritten w) := by
  obtain ⟨hb, ht⟩ := locate_dmem_inside hw
  rw [performAccess_read (by omega) hb ht, readTarget, hn]

/-- A write stores the word (R62). -/
theorem performAccess_write_dmem (hw : w < s.params.dmemWords) :
    performAccess (.write (s.params.base + (0x100000 + 8 * w)) 8 v) s =
      .next { s with resp := .written, dmem := writeWord s.dmem w v } := by
  obtain ⟨hb, ht⟩ := locate_dmem_inside hw
  exact performAccess_write (by omega) hb ht

/-- Past the window, where the platform still routes the access to CORE, a read answers 0 and a write is ignored (R62). -/
theorem performAccess_pastDmem (hw : s.params.dmemWords ≤ w) (hr : 8 * w < 8 * s.params.dmemWords + s.params.hostExtra) :
    performAccess (.read (s.params.base + (0x100000 + 8 * w)) 8) s = .next { s with resp := .data 0#64 } ∧
    performAccess (.write (s.params.base + (0x100000 + 8 * w)) 8 v) s = .next { s with resp := .written } := by
  have hb := (dmemOffset_lt_hostBytes_iff s.params w).2 hr
  have ht : locate s.params (0x100000 + 8 * w) = .unmapped := (locate_dmem _ w).trans (if_neg (Nat.not_lt.2 hw))
  exact ⟨performAccess_read (by omega) hb ht, performAccess_write (by omega) hb ht⟩

/-- Past the host window every access gets an error response (U6). -/
theorem performAccess_pastHostWindow (hw : 8 * s.params.dmemWords + s.params.hostExtra ≤ 8 * w) :
    performAccess (.read (s.params.base + (0x100000 + 8 * w)) 8) s = .next { s with resp := .error } ∧
    performAccess (.write (s.params.base + (0x100000 + 8 * w)) 8 v) s = .next { s with resp := .error } := by
  have hout := Nat.not_lt.1 (mt (dmemOffset_lt_hostBytes_iff s.params w).1 (Nat.not_lt.2 hw))
  obtain ⟨hread, hwrite⟩ := undefinedAccess s _ 8 (.inr (.inr (.inl (Nat.add_le_add_left hout s.params.base))))
  exact ⟨hread, hwrite v⟩

/-- Settles O17, range by range: the DMEM window, what is routed past it, and what is not. (`dmemWindow` is the model's offset
of the window.) -/
theorem dmemWindow_holds : Obligations.DmemWindow := fun s w v =>
  ⟨fun hw => ⟨fun _ => performAccess_read_dmem_written hw, performAccess_read_dmem_neverWritten hw, _,
      performAccess_write_dmem hw, stored_writeWords s.dmem w [v]⟩,
    performAccess_pastDmem, performAccess_pastHostWindow⟩

/-! ## Accesses while a command runs -/

/-- An access that arrives while a command runs is performed at once, or put behind those already held (R70). -/
theorem arriveBusy_access (s : State) (a : HostAccess) :
    (performedAtOnce s.params a = true → arriveBusy (.access a) s = performAccess a s) ∧
    (¬performedAtOnce s.params a = true → arriveBusy (.access a) s = .next { s with held := s.held ++ [a] }) :=
  ⟨fun h => if_pos h, fun h => if_neg h⟩

/-- Settles O12: while a command runs, `performedAtOnce` divides the arriving accesses by the addresses of R70; while CORE is
idle, the held accesses come before the host's next one. -/
theorem heldAccesses : Obligations.HeldAccesses := by
  refine fun s a => ⟨fun n rest hb hn hi => ?_, fun _ => step_held, fun _ => step_event⟩
  rw [step_busy_event hb hn hi, ← performedAtOnce_iff]
  exact arriveBusy_access { s with timeLeft := n, hostIn := rest } a

end Sys2Proof.Proofs
end

section
/-! The encoding of 30_encoding.md: decoding and encoding are inverse to each other (R80 to R84), and the rows of the opcode map
exclude one another (R83). Both rest on what a format's mask covers and on the bits it leaves free (R81). -/

namespace Sys2Proof.Proofs

variable {v : Word} {r : Row}

/-! ## The bits a mask covers and the bits it leaves free -/

/-- Every mask covers bits 7:0 (R83). -/
theorem opField_and_mask (f : Format) (v : Word) : opField (v &&& f.mask) = opField v := by
  have hones : opField f.mask = BitVec.allOnes 8 := by cases f <;> rfl
  calc opField (v &&& f.mask) = opField v &&& opField f.mask := BitVec.extractLsb'_and
    _ = opField v := by rw [hones, BitVec.and_allOnes]

/-- The bits a format leaves free (R81), holding INV or CH. -/
def freeBits : Format → Direction → Channel → Word
  | .P, _, _ => 0#64
  | .T, d, _ => invBit d <<< 8
  | .C, _, c => BitVec.ofNat 64 c.val <<< 12

/-- A field of a word, in its place, is the word under that field's mask. -/
theorem extractLsb'_in_place (v : Word) (start len : Nat) :
    (v.extractLsb' start len).setWidth 64 <<< start = v &&& ((BitVec.allOnes len).setWidth 64 <<< start) := by
  ext i hi
  by_cases hstart : i < start
  · simp [hstart]
  · have hplace : start + (i - start) = i := by omega
    simp [hstart, hplace, BitVec.getLsbD_eq_getElem hi, Bool.and_comm]

/-- The INV field as a number is bit 8. -/
theorem invBit_invField (v : Word) : invBit (invField v) = (v.extractLsb' 8 1).setWidth 64 := by
  have hbit : v.extractLsb' 8 1 = BitVec.ofBool (v.getLsbD 8) := by
    ext i hi
    obtain rfl : i = 0 := by omega
    simp
  rw [hbit, invField]
  cases v.getLsbD 8 <;> rfl

/-- The CH field as a number is bits 15:12. -/
theorem ofNat_chField (v : Word) : BitVec.ofNat 64 (chField v).val = (v.extractLsb' 12 4).setWidth 64 :=
  BitVec.ofNat_toNat ..

/-- The bits of a word under a mask and outside it make up the word. -/
theorem and_or_and_not (v m : Word) : v &&& m ||| v &&& ~~~m = v := by
  ext i hi
  simp [← Bool.and_or_distrib_left]

/-- Outside its format's mask a word holds its own INV or CH field and nothing else (R80, R81). -/
theorem and_not_mask (f : Format) (v : Word) : v &&& ~~~f.mask = freeBits f (invField v) (chField v) := by
  cases f with
  | P => exact BitVec.and_zero
  | T => rw [freeBits, invBit_invField, extractLsb'_in_place]; rfl
  | C => rw [freeBits, ofNat_chField, extractLsb'_in_place]; rfl

/-! ## The rows of the opcode map -/

/-- The rows have distinct OP values (R83). -/
theorem opcodeRows_distinct : opcodeRows.Pairwise (fun r r' => opField r.code ≠ opField r'.code) := by decide

theorem accepts_iff : r.accepts v = true ↔ v &&& r.format.mask = r.code := beq_iff_eq

/-- A row accepts only words with its own OP. -/
theorem opField_of_accepts (h : r.accepts v = true) : opField v = opField r.code := by
  rw [← accepts_iff.1 h, opField_and_mask]

/-- Settles O2: a word's OP is that of every row that accepts it, and the rows have distinct OP values. -/
theorem atMostOneRowAccepts : Obligations.AtMostOneRowAccepts :=
  opcodeRows_distinct.imp fun hne _ ⟨h, h'⟩ => hne ((opField_of_accepts h).symm.trans (opField_of_accepts h'))

/-- The word of a row's command is the row's match with the free bits of its format filled in. -/
theorem encode_build (hr : r ∈ opcodeRows) (d : Direction) (c : Channel) :
    encode (r.build d c) = r.code ||| freeBits r.format d c := by
  fin_cases hr <;> rfl

/-! ## Decoding and encoding -/

/-- The encoding laws hold of every command. -/
theorem encodingStatement : ∀ i : Instr, Laws.Encoding.Statement i
  | .nop => Laws.Encoding.nop
  | .fftCfg => Laws.Encoding.fftCfg
  | .fftCplx d => Laws.Encoding.fftCplx d
  | .fftCplxSplit d => Laws.Encoding.fftCplxSplit d
  | .fftReal d => Laws.Encoding.fftReal d
  | .sinc => Laws.Encoding.sinc
  | .bessel0 => Laws.Encoding.bessel0
  | .getFilterSize => Laws.Encoding.getFilterSize
  | .getDelta => Laws.Encoding.getDelta
  | .winHanning => Laws.Encoding.winHanning
  | .winHamming => Laws.Encoding.winHamming
  | .winBartlett => Laws.Encoding.winBartlett
  | .winNuttall => Laws.Encoding.winNuttall
  | .winBlackman => Laws.Encoding.winBlackman
  | .winBlackmanHarris => Laws.Encoding.winBlackmanHarris
  | .winBlackmanNuttall => Laws.Encoding.winBlackmanNuttall
  | .winFlattop => Laws.Encoding.winFlattop
  | .winWelch => Laws.Encoding.winWelch
  | .winKaiser => Laws.Encoding.winKaiser
  | .irLowpass => Laws.Encoding.irLowpass
  | .irHighpass => Laws.Encoding.irHighpass
  | .irBandpass => Laws.Encoding.irBandpass
  | .irBandelim => Laws.Encoding.irBandelim
  | .irComb => Laws.Encoding.irComb
  | .irResonator => Laws.Encoding.irResonator
  | .olaCfg c => Laws.Encoding.olaCfg c
  | .olaSetfilter c => Laws.Encoding.olaSetfilter c
  | .olaApply c => Laws.Encoding.olaApply c
  | .pipeCfg => Laws.Encoding.pipeCfg
  | .pipeSetfilter => Laws.Encoding.pipeSetfilter
  | .pipeFilter => Laws.Encoding.pipeFilter

/-- The decoder reads a command back from its word. -/
theorem decode_encode (i : Instr) : decode (encode i) = .ok i := by
  obtain ⟨-, -, -, hsome⟩ := encodingStatement i
  cases h : decode (encode i) with
  | ok j => exact congrArg Except.ok (Option.some.inj (h ▸ hsome :))
  | error e => exact absurd (h ▸ hsome :) nofun

/-- A decoded word is accepted by a row, and the command read from it is that row's, with the word's own fields. -/
theorem exists_row_of_decode {i : Instr} (h : decode v = .ok i) :
    ∃ r ∈ opcodeRows, r.accepts v = true ∧ r.build (invField v) (chField v) = i := by
  unfold decode at h
  split at h
  next r hfind => exact ⟨r, List.mem_of_find?_eq_some hfind, (List.find?_some hfind :), Except.ok.inj h⟩
  next => nomatch h

/-- A decoded word is the word of the command read from it: the row that accepts it fixes the bits its mask covers, and the
fields read fix the others. -/
theorem eq_encode_of_decode {i : Instr} (h : decode v = .ok i) : v = encode i := by
  obtain ⟨r, hr, haccepts, rfl⟩ := exists_row_of_decode h
  calc v = v &&& r.format.mask ||| v &&& ~~~r.format.mask := (and_or_and_not v _).symm
    _ = r.code ||| freeBits r.format (invField v) (chField v) := by rw [accepts_iff.1 haccepts, and_not_mask]
    _ = encode (r.build (invField v) (chField v)) := (encode_build hr ..).symm

/-- Settles O1, from the two directions above. -/
theorem decodeIffEncode : Obligations.DecodeIffEncode :=
  fun _ i => ⟨eq_encode_of_decode, fun h => h ▸ decode_encode i⟩

/-- Settles O3, by evaluating the decoder on each word. -/
theorem workedEncodings : Obligations.WorkedEncodings := by
  unfold Obligations.WorkedEncodings
  decide

end Sys2Proof.Proofs
end

section
/-! The life cycle of a command (40_control.md): the CMD write that starts it, now or with events to pass before it completes
(R95), the flags of its completion (R96), and NOP (R97). -/

namespace Sys2Proof.Proofs

open Sys2Proof.Machine Sys2Proof.Laws

variable {s t : State} {v : Word} {i : Instr}

/-! ## The CMD write -/

/-- A host write of CMD is the start of a command, answered first. -/
theorem performAccess_write_cmd (s : State) (v : Word) :
    performAccess (.write (s.params.base + 0x020) 8 v) s = startCommand v { s with resp := .written } :=
  performAccess_write_register (locate_cmd _) rfl (by decide)

/-- A CMD write of a command's word, with no latency asked for, executes the command on the latched state (R95, R83). -/
theorem performAccess_write_cmd_now (hi : decode v = .ok i) (hw : i.wellFormed s.params = true)
    (hd : s.latency.headD 0 = 0) :
    performAccess (.write (s.params.base + 0x020) 8 v) s = exec i (latched v s) := by
  rw [performAccess_write_cmd, startCommand_now (s := { s with resp := .written }) hd]
  exact finishCommand_ok hi hw

/-- A CMD write with events to pass leaves the command running (R95). -/
theorem performAccess_write_cmd_later {d : Nat} {ds : List Nat} (hl : s.latency = (d + 1) :: ds) :
    performAccess (.write (s.params.base + 0x020) 8 v) s = .next { s with
      latency := ds, resp := .written, cmd := v, timeLeft := d + 1, status := startFlags s.status } := by
  rw [performAccess_write_cmd, startCommand_later (s := { s with resp := .written }) hl]
  rfl

/-! ## The completion -/

/-- Every completion clears BUSY, sets DONE and leaves the opcode of CMD in LASTOP (R96). -/
theorem Completes.flags (h : Completes s t) :
    t.status.busy = false ∧ t.status.done = true ∧ t.status.lastOp = s.cmd.extractLsb' 0 8 := by
  obtain ⟨code, u, hu, rfl⟩ := h
  exact ⟨rfl, rfl, congrArg opField hu.frame.cmd⟩

/-! ## The obligations -/

/-- Settles O9: in each of the three ways the CMD write is the next access of an idle CORE. -/
theorem stepRunsDecodedCommand : Obligations.StepRunsDecodedCommand := by
  intro s v i hi hw
  refine ⟨fun rest hb hh hd hin => ?event, fun rest hb hd hh => ?held, fun nbits w hv => ?fetch⟩
  case event =>
    rw [step_event hb hh hin]
    exact performAccess_write_cmd_now (s := { s with hostIn := rest }) hi hw hd
  case held =>
    rw [step_held hb hh]
    exact performAccess_write_cmd_now (s := { s with held := rest }) hi hw hd
  case fetch =>
    subst hv
    rw [step_held (s := s.withFetchWord nbits w) rfl rfl]
    exact performAccess_write_cmd_now (s := { s.withFetchWord nbits w with held := s.held }) hi hw rfl

/-- Settles O11: the write leaves the command running, the last event of its time lets it execute, and its completion
writes the flags. -/
theorem busyUntilCompletion : Obligations.BusyUntilCompletion := by
  refine ⟨fun s v rest d ds hb hh hl hin => ?_, fun s i hb ht hi hw => ?_, fun i s t h => (exec_keeps h).flags⟩
  · rw [step_event hb hh hin]
    exact performAccess_write_cmd_later (s := { s with hostIn := rest }) hl
  · rw [step_busy_finish hb ht]
    exact finishCommand_ok hi hw

/-- Settles O27: NOP has no check to fail, and its effect is the state itself. -/
theorem nopResult : Obligations.NopResult := fun s => runCommand_ok (checks := nopChecks s) rfl rfl

end Sys2Proof.Proofs
end

section
/-! What no command changes (R99, R30, R43, R149, R61). `EffectFrame` has what all commands leave alone; here stand the parts of
the state that some commands own: RESULT, FFTN, the pipeline registers, the channels and the DMEM regions of the command. One
rule per operation on the state says which commands may use it. -/

namespace Sys2Proof.Proofs

open Sys2Proof.Machine Sys2Proof.Laws

variable {s t u : State} {i : Instr} {c b n : Nat} {m m' : Memory} {rs : List (Nat × Nat)} {ws : List Word}

/-! ## DMEM outside regions -/

/-- Every byte outside the regions reads in m' as in m. -/
def KeepsOutside (rs : List (Nat × Nat)) (m m' : Memory) : Prop :=
  ∀ a, (∀ r, r ∈ rs → a < 8 * r.1 ∨ 8 * (r.1 + r.2) ≤ a) → readByte m' a = readByte m a

theorem KeepsOutside.refl (rs : List (Nat × Nat)) (m : Memory) : KeepsOutside rs m m := fun _ _ => rfl

/-- A store of no more words than one of the regions has, from its first word on. -/
theorem KeepsOutside.store (h : KeepsOutside rs m m') (hr : (b, n) ∈ rs) (hl : ws.length ≤ n) :
    KeepsOutside rs m (writeWords m' b ws) := by
  intro a ha
  have hout : a < 8 * b ∨ 8 * (b + n) ≤ a := ha _ hr
  rw [readByte_writeWords_outside m' ws (by omega)]
  exact h a ha

/-! ## The frame of a command -/

/-- What command i leaves alone of the state that some commands own. -/
structure OwnFrame (i : Instr) (s t : State) : Prop where
  result : i ∉ [Instr.sinc, .bessel0, .getFilterSize, .getDelta] → t.result = s.result
  fftN : i ≠ .fftCfg → t.fftN = s.fftN
  pipeline : i ≠ .pipeCfg → (∀ c, i ≠ .olaCfg c) → t.pipeMode = s.pipeMode ∧ t.pipeBuf = s.pipeBuf
  chans : i.channel? = none → i ∉ [Instr.pipeCfg, .pipeSetfilter, .pipeFilter] → t.chans = s.chans
  dmem : KeepsOutside (outputRegions i s) s.dmem t.dmem

theorem OwnFrame.refl (i : Instr) (s : State) : OwnFrame i s s :=
  ⟨fun _ => rfl, fun _ => rfl, fun _ _ => ⟨rfl, rfl⟩, fun _ _ => rfl, .refl _ _⟩

theorem OwnFrame.complete (h : OwnFrame i s t) (code : ErrCode) : OwnFrame i s (complete code t) := { h with }

theorem OwnFrame.growTwiddle (h : OwnFrame i s t) (n : Nat) : OwnFrame i s (growTwiddle n t) := by
  rw [growTwiddle_eq]
  exact { h with }

theorem OwnFrame.setDmem (h : OwnFrame i s t) (hm : KeepsOutside (outputRegions i s) s.dmem m) :
    OwnFrame i s (setDmem t m) := { h with dmem := hm }

/-- Only the overlap-add and pipeline commands set a channel. -/
theorem OwnFrame.setChan {x : ChanCtx} (h : OwnFrame i s t)
    (hi : i.channel? = none → i ∈ [Instr.pipeCfg, .pipeSetfilter, .pipeFilter]) : OwnFrame i s (setChan t c x) :=
  { h with chans := fun hc hn => absurd (hi hc) hn }

/-- Only the scalar commands set RESULT (R30). -/
theorem ownFrame_setResult (s : State) (v : Word) (hi : i ∈ [Instr.sinc, .bessel0, .getFilterSize, .getDelta]) :
    OwnFrame i s (setResult s v) := { OwnFrame.refl i s with result := fun hn => absurd hi hn }

theorem ownFrame_setFftN (s : State) (n : Nat) : OwnFrame .fftCfg s { s with fftN := n } :=
  { OwnFrame.refl .fftCfg s with fftN := fun hn => absurd rfl hn }

/-- A channel configured on its own may end the pipeline (R203). -/
theorem OwnFrame.endPipeline {ch : Channel} (h : OwnFrame (.olaCfg ch) s t) : OwnFrame (.olaCfg ch) s (endPipeline c t) := by
  unfold Machine.endPipeline
  split
  · exact { h with pipeline := fun _ hn => absurd rfl (hn ch) }
  · exact h

theorem OwnFrame.setPipeline (h : OwnFrame .pipeCfg s t) (mode : PipeMode) (total : Nat) :
    OwnFrame .pipeCfg s { t with pipeMode := mode, pipeBuf := total } :=
  { h with pipeline := fun hn => absurd rfl hn }

/-! ## The effects -/

/-- A command has the frame of its effect: with a failing check it has none, and the completion writes STATUS alone. -/
theorem runCommand_ownFrame {checks : List Check} {effect : State → Except Fault State}
    (h : runCommand checks effect s = .next t)
    (he : ∀ u, firstFailing checks = none → effect s = .ok u → OwnFrame i s u) : OwnFrame i s t := by
  obtain ⟨code, -, e⟩ | ⟨hc, u, hu, e⟩ | ⟨-, f, -, e⟩ := runCommand_spec s checks effect
  · cases e.symm.trans h
    exact (OwnFrame.refl i s).complete code
  · cases e.symm.trans h
    exact (he u hc hu).complete .none
  · cases e.symm.trans h

/-- The commands whose one result is RESULT. -/
theorem scalar_ownFrame {checks : List Check} {v : State → Word}
    (hi : i ∈ [Instr.sinc, .bessel0, .getFilterSize, .getDelta])
    (h : runCommand checks (fun s => .ok (setResult s (v s))) s = .next t) : OwnFrame i s t :=
  runCommand_ownFrame h fun _ _ hu => by
    cases hu
    exact ownFrame_setResult s _ hi

/-- A store into an output region of the command, and nothing else. -/
theorem storeWords_ownFrame (hr : (b, n) ∈ outputRegions i s) (hl : ws.length ≤ n) :
    OwnFrame i s (setDmem s (writeWords s.dmem b ws)) :=
  (OwnFrame.refl i s).setDmem ((KeepsOutside.refl _ _).store hr hl)

/-- A window stores as many words as it reads (R170). -/
theorem taper_ownFrame {env : Nat → Nat → B64} (hr : (argU s 0, argU s 1) ∈ outputRegions i s)
    (h : taper env s = .ok u) : OwnFrame i s u := by
  obtain ⟨ws, hws, ⟨⟩⟩ := bind_eq_ok.1 h
  exact storeWords_ownFrame hr (by rw [List.length_mapIdx, readWords_length hws])

/-- A window command, whose effect is the tapering alone. -/
theorem window_ownFrame {checks : List Check} {env : Nat → Nat → B64} (h : runCommand checks (taper env) s = .next t)
    (hr : (argU s 0, argU s 1) ∈ outputRegions i s) : OwnFrame i s t :=
  runCommand_ownFrame h fun _ _ => taper_ownFrame hr

/-- An impulse response of ARG1 taps (R149). -/
theorem taps_ownFrame {checks : List Check} {tap : State → Nat → Nat → B64}
    (h : runCommand checks (fun s => writeTaps (tap s) s) s = .next t)
    (hr : (argU s 0, argU s 1) ∈ outputRegions i s) : OwnFrame i s t :=
  runCommand_ownFrame h fun _ _ hu => by
    cases hu
    exact storeWords_ownFrame hr (by simp)

theorem setFilterEffect_ownFrame (h : OwnFrame i s t)
    (hi : i.channel? = none → i ∈ [Instr.pipeCfg, .pipeSetfilter, .pipeFilter])
    (hu : setFilterEffect c b n t = .ok u) : OwnFrame i s u := by
  obtain ⟨taps, rfl⟩ := setFilterEffect_ok hu
  exact (h.growTwiddle _).setChan hi

/-- A channel answers no more words than its buffer has (R205). -/
theorem applyEffect_ownFrame (hs : s.Inv) (hc : (chan s c).cfg = true) (hr : (b, (chan s c).buf) ∈ outputRegions i s)
    (hi : i.channel? = none → i ∈ [Instr.pipeCfg, .pipeSetfilter, .pipeFilter])
    (hu : applyEffect c b s = .ok u) : OwnFrame i s u := by
  obtain ⟨xs, -, ⟨⟩⟩ := bind_eq_ok.1 hu
  have hlen := olaRun_length_le (n := (chan s c).buf) xs (chan_wf hs c) hc
  exact (((OwnFrame.refl i s).growTwiddle _).setDmem ((KeepsOutside.refl _ _).store hr hlen)).setChan hi

/-- The two channels of a stereo pipeline answer no more words than its buffer has (R232). -/
theorem stereoEffect_ownFrame (hs : s.Inv) (hm : s.pipeMode = .stereo) (hr : (b, s.pipeBuf) ∈ outputRegions .pipeFilter s)
    (hu : stereoEffect b s = .ok u) : OwnFrame .pipeFilter s u := by
  obtain ⟨xs, -, ⟨⟩⟩ := bind_eq_ok.1 hu
  obtain ⟨hl, hr'⟩ := pipeline_cfg_stereo hs.pipeline hm
  have hlen := merge_olaRun_length_le s.pipeBuf (evens xs) (odds xs) (chan_wf hs 0) (chan_wf hs 1) hl hr'
  have hi : Instr.pipeFilter ∈ [Instr.pipeCfg, .pipeSetfilter, .pipeFilter] := by decide
  have hgrow := ((OwnFrame.refl .pipeFilter s).growTwiddle (chan s 0).fft).growTwiddle (chan s 1).fft
  exact ((hgrow.setDmem ((KeepsOutside.refl _ _).store hr hlen)).setChan fun _ => hi).setChan fun _ => hi

/-! ## The commands -/

/-- R121: the transform answers the 2N words of its region. -/
theorem execFftCplx_ownFrame {d : Direction} (h : execFftCplx d s = .next t) : OwnFrame (.fftCplx d) s t :=
  runCommand_ownFrame h fun _ hc hu => by
    simp only [fftCplxChecks, firstFailing_eq_none, List.forall_mem_cons, decide_eq_true_eq] at hc
    obtain ⟨-, hn, -⟩ := hc
    obtain ⟨ws, hws, ⟨⟩⟩ := bind_eq_ok.1 hu
    refine ((OwnFrame.refl _ s).growTwiddle _).setDmem ((KeepsOutside.refl _ _).store (List.mem_singleton_self _) ?_)
    rw [interleave_length, complexTransform_length, deinterleave_length, readWords_length hws, hn]
    omega

/-- R122: the two parts are as long as their regions. -/
theorem execFftCplxSplit_ownFrame {d : Direction} (h : execFftCplxSplit d s = .next t) :
    OwnFrame (.fftCplxSplit d) s t :=
  runCommand_ownFrame h fun _ hc hu => by
    simp only [fftCplxSplitChecks, firstFailing_eq_none, List.forall_mem_cons, decide_eq_true_eq] at hc
    obtain ⟨-, hnr, hni, -⟩ := hc
    obtain ⟨re, hre, hu⟩ := bind_eq_ok.1 hu
    obtain ⟨im, him, ⟨⟩⟩ := bind_eq_ok.1 hu
    have hlen : (complexTransform d s.fftN (List.zipWith Cplx.mk re im)).length = s.fftN := by
      simp [readWords_length hre, readWords_length him]
    refine ((OwnFrame.refl _ s).growTwiddle _).setDmem
      (((KeepsOutside.refl _ _).store (n := argU s 2) (.head _) ?_).store (n := argU s 3) (.tail _ (.head _)) ?_)
    · rw [List.length_map, hlen, hnr]
    · rw [List.length_map, hlen, hni]

theorem execFftReal_ownFrame {d : Direction} (h : execFftReal d s = .next t) : OwnFrame (.fftReal d) s t :=
  runCommand_ownFrame h fun _ hc hu => by
    simp only [fftRealChecks, firstFailing_eq_none, List.forall_mem_cons, decide_eq_true_eq] at hc
    obtain ⟨h0, hn, -⟩ := hc
    obtain ⟨a, ha, ⟨⟩⟩ := bind_eq_ok.1 hu
    refine ((OwnFrame.refl _ s).growTwiddle _).setDmem ((KeepsOutside.refl _ _).store (List.mem_singleton_self _) ?_)
    rw [hn]
    exact realTransform_length_le d h0 (readWords_length ha)

/-- R189: both branches store the words of the region. -/
theorem execWinKaiser_ownFrame (h : execWinKaiser s = .next t) : OwnFrame .winKaiser s t :=
  runCommand_ownFrame h fun _ _ hu => by
    split at hu
    · cases hu
      exact storeWords_ownFrame (List.mem_singleton_self _) (by simp)
    · exact taper_ownFrame (List.mem_singleton_self _) hu

/-- R155: one word per tap. -/
theorem execIrComb_ownFrame (h : execIrComb s = .next t) : OwnFrame .irComb s t :=
  runCommand_ownFrame h fun _ _ hu => by
    cases hu
    exact storeWords_ownFrame (List.mem_singleton_self _) (combTaps_length ..).le

/-- R156: every branch stores the words of the region or none. -/
theorem execIrResonator_ownFrame (h : execIrResonator s = .next t) : OwnFrame .irResonator s t :=
  runCommand_ownFrame h fun _ _ hu => by
    split at hu
    · cases hu
      exact storeWords_ownFrame (List.mem_singleton_self _) (by simp)
    · split at hu
      · cases hu
        exact .refl _ s
      · obtain ⟨freqs, -, ⟨⟩⟩ := bind_eq_ok.1 hu
        exact storeWords_ownFrame (List.mem_singleton_self _) (by simp)

theorem execOlaCfg_ownFrame {c : Channel} (h : execOlaCfg c s = .next t) : OwnFrame (.olaCfg c) s t :=
  runCommand_ownFrame h fun _ _ hu => by
    cases hu
    exact ((OwnFrame.refl (.olaCfg c) s).setChan nofun).endPipeline

/-- R205: the buffer of the channel is the region of the command. -/
theorem execOlaApply_ownFrame {c : Channel} (hs : s.Inv) (h : execOlaApply c s = .next t) : OwnFrame (.olaApply c) s t :=
  runCommand_ownFrame h fun _ hc hu => by
    simp only [olaApplyChecks, firstFailing_eq_none, List.forall_mem_cons, decide_eq_true_eq] at hc
    obtain ⟨-, hcfg, -, hn, -⟩ := hc
    exact applyEffect_ownFrame hs hcfg (hn ▸ List.mem_singleton_self _) nofun hu

theorem execPipeCfg_ownFrame (h : execPipeCfg s = .next t) : OwnFrame .pipeCfg s t :=
  runCommand_ownFrame h fun _ _ hu => by
    have hi : Instr.pipeCfg ∈ [Instr.pipeCfg, .pipeSetfilter, .pipeFilter] := by decide
    have hleft := fun x => (OwnFrame.refl .pipeCfg s).setChan (c := 0) (x := x) fun _ => hi
    cases hu
    refine .setPipeline ?_ _ _
    split
    · exact (hleft _).setChan fun _ => hi
    · exact hleft _

theorem execPipeSetfilter_ownFrame (h : execPipeSetfilter s = .next t) : OwnFrame .pipeSetfilter s t :=
  runCommand_ownFrame h fun _ _ hu => by
    have hi : Instr.pipeSetfilter ∈ [Instr.pipeCfg, .pipeSetfilter, .pipeFilter] := by decide
    obtain ⟨v, hv, hu⟩ := bind_eq_ok.1 hu
    have hleft := setFilterEffect_ownFrame (.refl _ s) (fun _ => hi) hv
    split at hu
    · exact setFilterEffect_ownFrame hleft (fun _ => hi) hu
    · cases hu
      exact hleft

/-- R232: the buffer of the pipeline is the region of the command. -/
theorem execPipeFilter_ownFrame (hs : s.Inv) (h : execPipeFilter s = .next t) : OwnFrame .pipeFilter s t :=
  runCommand_ownFrame h fun _ hc hu => by
    simp only [pipeFilterChecks, firstFailing_eq_none, List.forall_mem_cons, decide_eq_true_eq] at hc
    obtain ⟨hon, -, hn, -⟩ := hc
    have hr : (argU s 0, s.pipeBuf) ∈ outputRegions .pipeFilter s := hn ▸ List.mem_singleton_self _
    split at hu
    · next hm => exact stereoEffect_ownFrame hs hm hr hu
    · next hm =>
      obtain ⟨hcfg, hbuf⟩ := pipeline_mono hs.pipeline hon hm
      exact applyEffect_ownFrame hs hcfg (hbuf ▸ hr) (fun _ => by decide) hu

/-- Every command has its frame. -/
theorem exec_ownFrame (hs : s.Inv) (h : exec i s = .next t) : OwnFrame i s t := by
  unfold exec at h
  cases i with
  | nop =>
    exact runCommand_ownFrame h fun _ _ hu => by
      cases hu
      exact .refl _ s
  | fftCfg =>
    exact runCommand_ownFrame h fun _ _ hu => by
      cases hu
      exact ownFrame_setFftN s _
  | fftCplx d => exact execFftCplx_ownFrame h
  | fftCplxSplit d => exact execFftCplxSplit_ownFrame h
  | fftReal d => exact execFftReal_ownFrame h
  | sinc => exact scalar_ownFrame (by decide) h
  | bessel0 => exact scalar_ownFrame (by decide) h
  | getFilterSize => exact scalar_ownFrame (by decide) h
  | getDelta => exact scalar_ownFrame (by decide) h
  | winHanning => exact window_ownFrame h (List.mem_singleton_self _)
  | winHamming => exact window_ownFrame h (List.mem_singleton_self _)
  | winBartlett => exact window_ownFrame h (List.mem_singleton_self _)
  | winNuttall => exact window_ownFrame h (List.mem_singleton_self _)
  | winBlackman => exact window_ownFrame h (List.mem_singleton_self _)
  | winBlackmanHarris => exact window_ownFrame h (List.mem_singleton_self _)
  | winBlackmanNuttall => exact window_ownFrame h (List.mem_singleton_self _)
  | winFlattop => exact window_ownFrame h (List.mem_singleton_self _)
  | winWelch => exact window_ownFrame h (List.mem_singleton_self _)
  | winKaiser => exact execWinKaiser_ownFrame h
  | irLowpass => exact taps_ownFrame h (List.mem_singleton_self _)
  | irHighpass => exact taps_ownFrame h (List.mem_singleton_self _)
  | irBandpass => exact taps_ownFrame h (List.mem_singleton_self _)
  | irBandelim => exact taps_ownFrame h (List.mem_singleton_self _)
  | irComb => exact execIrComb_ownFrame h
  | irResonator => exact execIrResonator_ownFrame h
  | olaCfg c => exact execOlaCfg_ownFrame h
  | olaSetfilter c => exact runCommand_ownFrame h fun _ _ => setFilterEffect_ownFrame (.refl _ s) nofun
  | olaApply c => exact execOlaApply_ownFrame hs h
  | pipeCfg => exact execPipeCfg_ownFrame h
  | pipeSetfilter => exact execPipeSetfilter_ownFrame h
  | pipeFilter => exact execPipeFilter_ownFrame hs h

/-- Settles O25: what every command leaves alone, and what this one does not own. -/
theorem commandFrame : Obligations.CommandFrame := by
  intro i s t hs h
  have hown := exec_ownFrame hs h
  obtain ⟨code, u, hu, rfl⟩ := exec_keeps h
  exact ⟨hu.frame.params, hu.frame.ie, hu.frame.cmd, hu.frame.args, hu.frame.timeLeft, hu.frame.held, hu.frame.hostIn,
    hu.frame.latency, hu.frame.resp, hown.result, hown.fftN, hown.pipeline, hown.chans, hown.dmem⟩

end Sys2Proof.Proofs
end

section
/-! Where a command stops the model (R98, R67): only at a word of its input regions that was never written. So a command whose
input regions have been written completes. -/

namespace Sys2Proof.Proofs

open Sys2Proof.Machine Sys2Proof.Laws

variable {s t : State} {i : Instr} {f : Fault} {c b n : Nat}

/-! ## Faults -/

/-- The fault names a word of the regions that lies in DMEM and was never written (U1). -/
def UnwrittenInput (rs : List (Nat × Nat)) (s : State) (f : Fault) : Prop :=
  ∃ w r, f = .neverWritten w ∧ r ∈ rs ∧ r.1 ≤ w ∧ w < r.1 + r.2 ∧ w < s.params.dmemWords ∧ readWord s.dmem w = none

/-- The channels of a stereo pipeline have one transform size (R40). -/
theorem pipeline_fft_stereo (hs : pipelineWf s) (h : s.pipeMode = .stereo) : (chan s 0).fft = (chan s 1).fft := by
  unfold pipelineWf at hs
  rw [h] at hs
  obtain ⟨-, -, -, -, -, -, hfft⟩ := hs
  exact hfft

/-- No region with an unwritten word has been written. -/
theorem not_unwrittenInput {rs : List (Nat × Nat)} (h : ∀ r, r ∈ rs → written s.dmem r.1 r.2) :
    ¬UnwrittenInput rs s f := by
  rintro ⟨w, r, -, hr, hle, hlt, -, hw⟩
  have hsome := h r hr (w - r.1) (by omega)
  rw [Nat.add_sub_cancel' hle, hw] at hsome
  cases hsome

/-- A computation that may fault, stopped by its first part or by what follows. -/
theorem bind_eq_error {α β : Type} {x : Except Fault α} {g : α → Except Fault β} :
    x >>= g = .error f ↔ x = .error f ∨ ∃ a, x = .ok a ∧ g a = .error f := by
  cases x <;> simp [bind, Except.bind]

/-- A read of a region, all of it or its first words, inside DMEM. -/
theorem readWords_fault {rs : List (Nat × Nat)} {k : Nat} (hr : (b, n) ∈ rs) (hk : k ≤ n)
    (hb : b + n ≤ s.params.dmemWords) (h : readWords s.dmem b k = .error f) : UnwrittenInput rs s f := by
  obtain ⟨vs, e, -⟩ | ⟨w, e, hle, hlt, hw⟩ := readWords_spec s.dmem b k
  · cases e.symm.trans h
  · cases e.symm.trans h
    exact ⟨w, (b, n), rfl, hr, hle, show w < b + n by omega, by omega, hw⟩

/-- A command faults where its effect does, past its checks. -/
theorem runCommand_fault {checks : List Check} {effect : State → Except Fault State}
    (h : runCommand checks effect s = .fault f) : firstFailing checks = none ∧ effect s = .error f := by
  obtain ⟨code, -, e⟩ | ⟨-, u, -, e⟩ | ⟨hc, f', hf, e⟩ := runCommand_spec s checks effect
  · cases e.symm.trans h
  · cases e.symm.trans h
  · cases e.symm.trans h
    exact ⟨hc, hf⟩

/-- A command without inputs does not fault. -/
theorem runCommand_ne_fault {checks : List Check} {g : State → State} :
    runCommand checks (fun s => .ok (g s)) s ≠ .fault f := fun h => nomatch (runCommand_fault h).2

theorem runCommand_ne_refused (checks : List Check) (effect : State → Except Fault State) (r : Refusal) :
    runCommand checks effect s ≠ .refused r := by
  obtain ⟨code, -, e⟩ | ⟨-, u, -, e⟩ | ⟨-, f, -, e⟩ := runCommand_spec s checks effect
  all_goals rw [e]; nofun

/-! ## The effects -/

/-- A window reads the region it tapers (R170). -/
theorem taper_fault {rs : List (Nat × Nat)} {env : Nat → Nat → B64} (hr : (argU s 0, argU s 1) ∈ rs)
    (hb : argU s 0 + argU s 1 ≤ s.params.dmemWords) (h : taper env s = .error f) : UnwrittenInput rs s f := by
  obtain h | ⟨ws, -, h⟩ := bind_eq_error.1 h
  · exact readWords_fault hr le_rfl hb h
  · cases h

/-- A window command, whose one check is that of the region it reads. -/
theorem window_fault {env : Nat → Nat → B64} (h : runCommand (windowChecks s) (taper env) s = .fault f) :
    UnwrittenInput [(argU s 0, argU s 1)] s f := by
  obtain ⟨hc, he⟩ := runCommand_fault h
  exact taper_fault (List.mem_singleton_self _) (inRange_of_mem hc (List.mem_singleton_self _)) he

/-- A filter reads the part of the region that fits the channel's transform (R204). -/
theorem setFilterEffect_fault {rs : List (Nat × Nat)} (hr : (b, min n (chan s c).fft) ∈ rs)
    (hb : b + n ≤ s.params.dmemWords) (h : setFilterEffect c b n s = .error f) : UnwrittenInput rs s f := by
  obtain h | ⟨taps, -, h⟩ := bind_eq_error.1 h
  · exact readWords_fault hr le_rfl (by omega) h
  · cases h

theorem applyEffect_fault {rs : List (Nat × Nat)} (hr : (b, (chan s c).buf) ∈ rs)
    (hb : b + (chan s c).buf ≤ s.params.dmemWords) (h : applyEffect c b s = .error f) : UnwrittenInput rs s f := by
  obtain h | ⟨xs, -, h⟩ := bind_eq_error.1 h
  · exact readWords_fault hr le_rfl hb h
  · cases h

theorem stereoEffect_fault {rs : List (Nat × Nat)} (hr : (b, s.pipeBuf) ∈ rs)
    (hb : b + s.pipeBuf ≤ s.params.dmemWords) (h : stereoEffect b s = .error f) : UnwrittenInput rs s f := by
  obtain h | ⟨xs, -, h⟩ := bind_eq_error.1 h
  · exact readWords_fault hr le_rfl hb h
  · cases h

/-! ## The commands that read DMEM -/

theorem execFftCplx_fault {d : Direction} (h : execFftCplx d s = .fault f) :
    UnwrittenInput (inputRegions (.fftCplx d) s) s f := by
  obtain ⟨hc, he⟩ := runCommand_fault h
  simp only [fftCplxChecks, firstFailing_eq_none, List.forall_mem_cons, inRange, decide_eq_true_eq] at hc
  obtain ⟨-, hn, hr, -⟩ := hc
  obtain he | ⟨ws, -, he⟩ := bind_eq_error.1 he
  · exact readWords_fault (List.mem_singleton_self _) hn.ge hr he
  · cases he

/-- R122: the real parts are read first, then the imaginary ones. -/
theorem execFftCplxSplit_fault {d : Direction} (h : execFftCplxSplit d s = .fault f) :
    UnwrittenInput (inputRegions (.fftCplxSplit d) s) s f := by
  obtain ⟨hc, he⟩ := runCommand_fault h
  simp only [fftCplxSplitChecks, firstFailing_eq_none, List.forall_mem_cons, inRange, decide_eq_true_eq] at hc
  obtain ⟨-, hnr, hni, hr, hi, -⟩ := hc
  obtain he | ⟨re, -, he⟩ := bind_eq_error.1 he
  · exact readWords_fault (.head _) hnr.ge hr he
  · obtain he | ⟨im, -, he⟩ := bind_eq_error.1 he
    · exact readWords_fault (.tail _ (.head _)) hni.ge hi he
    · cases he

theorem execFftReal_fault {d : Direction} (h : execFftReal d s = .fault f) :
    UnwrittenInput (inputRegions (.fftReal d) s) s f := by
  obtain ⟨hc, he⟩ := runCommand_fault h
  simp only [fftRealChecks, firstFailing_eq_none, List.forall_mem_cons, inRange, decide_eq_true_eq] at hc
  obtain ⟨-, hn, hr, -⟩ := hc
  obtain he | ⟨a, -, he⟩ := bind_eq_error.1 he
  · exact readWords_fault (List.mem_singleton_self _) hn.ge hr he
  · cases he

/-- R189: a zero shape zeroes the region without reading it. -/
theorem execWinKaiser_fault (h : execWinKaiser s = .fault f) : UnwrittenInput (inputRegions .winKaiser s) s f := by
  obtain ⟨hc, he⟩ := runCommand_fault h
  split at he
  · cases he
  · next hz =>
    refine taper_fault ?_ (inRange_of_mem hc (List.mem_singleton_self _)) he
    rw [inputRegions, if_neg hz]
    exact List.mem_singleton_self _

/-- R156: the frequencies are read for a nonzero strength with a tap to compute. -/
theorem execIrResonator_fault (h : execIrResonator s = .fault f) :
    UnwrittenInput (inputRegions .irResonator s) s f := by
  obtain ⟨hc, he⟩ := runCommand_fault h
  have hb : argU s 4 + argU s 5 ≤ s.params.dmemWords :=
    inRange_of_mem hc (code := .invalidArgument) (by simp [irResonatorChecks])
  split at he
  · cases he
  · next hz =>
    split at he
    · cases he
    · next hn =>
      obtain he | ⟨freqs, -, he⟩ := bind_eq_error.1 he
      · refine readWords_fault ?_ le_rfl hb he
        rw [inputRegions, if_neg (not_or.2 ⟨hz, hn⟩)]
        exact List.mem_singleton_self _
      · cases he

theorem execOlaSetfilter_fault {c : Channel} (h : execOlaSetfilter c s = .fault f) :
    UnwrittenInput (inputRegions (.olaSetfilter c) s) s f := by
  obtain ⟨hc, he⟩ := runCommand_fault h
  have hb : argU s 0 + argU s 1 ≤ s.params.dmemWords :=
    inRange_of_mem hc (code := .invalidArgument) (by simp [olaSetfilterChecks])
  exact setFilterEffect_fault (List.mem_singleton_self _) hb he

theorem execOlaApply_fault {c : Channel} (h : execOlaApply c s = .fault f) :
    UnwrittenInput (inputRegions (.olaApply c) s) s f := by
  obtain ⟨hc, he⟩ := runCommand_fault h
  simp only [olaApplyChecks, firstFailing_eq_none, List.forall_mem_cons, inRange, decide_eq_true_eq] at hc
  obtain ⟨-, -, -, hn, hb, -⟩ := hc
  exact applyEffect_fault (hn ▸ List.mem_singleton_self _) (hn ▸ hb) he

/-- R231: in stereo, channel 1 reads what channel 0 read, for its transform has the same size (R40). -/
theorem execPipeSetfilter_fault (hs : s.Inv) (h : execPipeSetfilter s = .fault f) :
    UnwrittenInput (inputRegions .pipeSetfilter s) s f := by
  obtain ⟨hc, he⟩ := runCommand_fault h
  have hb : argU s 0 + argU s 1 ≤ s.params.dmemWords :=
    inRange_of_mem hc (code := .invalidArgument) (by simp [pipeSetfilterChecks])
  obtain he | ⟨t, ht, he⟩ := bind_eq_error.1 he
  · exact setFilterEffect_fault (List.mem_singleton_self _) hb he
  · split at he
    · next hm =>
      have hfft : (chan s 0).fft = (chan s 1).fft := pipeline_fft_stereo hs.pipeline hm
      obtain ⟨taps, rfl⟩ := setFilterEffect_ok ht
      obtain ⟨w, r, hw⟩ := setFilterEffect_fault (rs := inputRegions .pipeSetfilter s)
        (by simp [chan_setChan_other, inputRegions, hfft]) (by simpa using hb) he
      exact ⟨w, r, by simpa using hw⟩
    · cases he

theorem execPipeFilter_fault (hs : s.Inv) (h : execPipeFilter s = .fault f) :
    UnwrittenInput (inputRegions .pipeFilter s) s f := by
  obtain ⟨hc, he⟩ := runCommand_fault h
  simp only [pipeFilterChecks, firstFailing_eq_none, List.forall_mem_cons, inRange, decide_eq_true_eq] at hc
  obtain ⟨hon, -, hn, hb, -⟩ := hc
  have hr : (argU s 0, s.pipeBuf) ∈ inputRegions .pipeFilter s := hn ▸ List.mem_singleton_self _
  split at he
  · exact stereoEffect_fault hr (hn ▸ hb) he
  · next hm =>
    obtain ⟨-, hbuf⟩ := pipeline_mono hs.pipeline hon hm
    exact applyEffect_fault (hbuf ▸ hr) (hbuf ▸ hn ▸ hb) he

/-! ## Every command -/

/-- A command stops the model only at an unwritten word of its inputs. -/
theorem exec_fault (hs : s.Inv) (h : exec i s = .fault f) : UnwrittenInput (inputRegions i s) s f := by
  unfold exec at h
  cases i with
  | nop => exact absurd h runCommand_ne_fault
  | fftCfg => exact absurd h runCommand_ne_fault
  | fftCplx d => exact execFftCplx_fault h
  | fftCplxSplit d => exact execFftCplxSplit_fault h
  | fftReal d => exact execFftReal_fault h
  | sinc => exact absurd h runCommand_ne_fault
  | bessel0 => exact absurd h runCommand_ne_fault
  | getFilterSize => exact absurd h runCommand_ne_fault
  | getDelta => exact absurd h runCommand_ne_fault
  | winHanning => exact window_fault h
  | winHamming => exact window_fault h
  | winBartlett => exact window_fault h
  | winNuttall => exact window_fault h
  | winBlackman => exact window_fault h
  | winBlackmanHarris => exact window_fault h
  | winBlackmanNuttall => exact window_fault h
  | winFlattop => exact window_fault h
  | winWelch => exact window_fault h
  | winKaiser => exact execWinKaiser_fault h
  | irLowpass => exact absurd h runCommand_ne_fault
  | irHighpass => exact absurd h runCommand_ne_fault
  | irBandpass => exact absurd h runCommand_ne_fault
  | irBandelim => exact absurd h runCommand_ne_fault
  | irComb => exact absurd h runCommand_ne_fault
  | irResonator => exact execIrResonator_fault h
  | olaCfg c => exact absurd h runCommand_ne_fault
  | olaSetfilter c => exact execOlaSetfilter_fault h
  | olaApply c => exact execOlaApply_fault h
  | pipeCfg => exact absurd h runCommand_ne_fault
  | pipeSetfilter => exact execPipeSetfilter_fault hs h
  | pipeFilter => exact execPipeFilter_fault hs h

/-- No command is refused. -/
theorem exec_ne_refused (i : Instr) (s : State) (r : Refusal) : exec i s ≠ .refused r := by
  unfold exec
  cases i <;> exact runCommand_ne_refused _ _ r

/-- Settles O26: of the three outcomes of a command, a refusal does not happen and a fault needs an unwritten input. -/
theorem everyCommandCompletes : Obligations.EveryCommandCompletes := by
  refine ⟨fun i s hs hw => ?_, fun i s f hs h => exec_fault hs h, exec_ne_refused⟩
  cases h : exec i s with
  | next t => exact ⟨t, rfl⟩
  | fault f => exact absurd (exec_fault hs h) (not_unwrittenInput hw)
  | refused r => exact absurd h (exec_ne_refused i s r)

end Sys2Proof.Proofs
end

section
/-! What a list of points or words holds after a store, and loops whose turns work on places of their own: each turn reads and
changes only its places, and no place belongs to two turns, so that the loop does to every place what its one turn does. The
bit reversal, the butterflies and the real transforms are such loops (R103, R107 to R109, R113, R114). -/

namespace Sys2Proof.Proofs

open Sys2Proof.Machine Sys2Proof.Laws

/-! ## Points and words -/

section
variable {z w : List Cplx} {x : Cplx} {a : List B64} {y : B64} {i p : Nat}

theorem cget_set_same (h : i < z.length) : cget (z.set i x) i = x := by simp [cget, h]

theorem cget_set_ne (h : i ≠ p) : cget (z.set i x) p = cget z p := by simp [cget, List.getElem?_set_ne h]

theorem fget_set_same (h : i < a.length) : fget (a.set i y) i = y := by simp [fget, h]

theorem fget_set_ne (h : i ≠ p) : fget (a.set i y) p = fget a p := by simp [fget, List.getElem?_set_ne h]

theorem cget_eq_getElem (h : i < z.length) : cget z i = z[i] := List.getD_eq_getElem z _ h

theorem getElem?_eq_cget (h : i < z.length) : z[i]? = some (cget z i) := by
  rw [cget_eq_getElem h, List.getElem?_eq_getElem h]

/-- Two lists of points with the same points are the same. -/
theorem cget_ext (hl : z.length = w.length) (h : ∀ i, i < z.length → cget z i = cget w i) : z = w :=
  List.ext_getElem hl fun i hi hi' => by rw [← cget_eq_getElem hi, ← cget_eq_getElem hi', h i hi]

theorem cget_cscale (s : B64) (h : i < z.length) : cget (cscale s z) i = ⟨fmul (cget z i).re s, fmul (cget z i).im s⟩ := by
  rw [cget_eq_getElem (by simpa using h), cget_eq_getElem h]
  simp [cscale]

/-- The words of point i in an interleaved buffer (R100). -/
theorem interleave_getElem? (h : i < z.length) :
    (interleave z)[2 * i]? = some (cget z i).re ∧ (interleave z)[2 * i + 1]? = some (cget z i).im := by
  induction z generalizing i with
  | nil => exact absurd h (Nat.not_lt_zero i)
  | cons c z ih =>
    have hcons : interleave (c :: z) = c.re :: c.im :: interleave z := rfl
    rw [hcons]
    cases i with
    | zero => exact ⟨rfl, rfl⟩
    | succ i => exact ih (Nat.lt_of_succ_lt_succ h)

theorem fget_interleave (h : i < z.length) :
    fget (interleave z) (2 * i) = (cget z i).re ∧ fget (interleave z) (2 * i + 1) = (cget z i).im := by
  obtain ⟨hre, him⟩ := interleave_getElem? h
  simp [fget, hre, him]

end

/-! ## Loops of turns with places of their own -/

/-- The turns f 0, ..., f (n-1) on states that are `ok` and are read by `get`: turn i reads and changes only the places it
owns, and no place is owned twice. -/
structure LocalTurns {σ β : Type} (get : σ → Nat → β) (ok : σ → Prop) (own : Nat → Nat → Prop) (n : Nat)
    (f : Nat → σ → σ) : Prop where
  keeps : ∀ i z, ok z → ok (f i z)
  other : ∀ i z p, i < n → ok z → ¬own i p → get (f i z) p = get z p
  congr : ∀ i z w p, i < n → ok z → ok w → (∀ q, own i q → get z q = get w q) → own i p → get (f i z) p = get (f i w) p
  disjoint : ∀ i j p, i < n → j < n → own i p → own j p → i = j

section
variable {σ β : Type} {get : σ → Nat → β} {ok : σ → Prop} {own : Nat → Nat → Prop} {n : Nat} {f : Nat → σ → σ}

theorem LocalTurns.loop_keeps (h : LocalTurns get ok own n f) (k : Nat) {z : σ} (hz : ok z) : ok (loop k f z) :=
  loop_induct ok k f z hz fun i b _ hb => h.keeps i b hb

/-- The first k turns leave alone the places none of them owns. -/
theorem LocalTurns.loop_other (h : LocalTurns get ok own n f) {k p : Nat} (hk : k ≤ n) {z : σ} (hz : ok z)
    (hp : ∀ i, i < k → ¬own i p) : get (loop k f z) p = get z p := by
  induction k with
  | zero => rfl
  | succ k ih =>
    rw [loop_succ, h.other k _ p hk (h.loop_keeps k hz) (hp k k.lt_succ_self)]
    exact ih (Nat.le_of_succ_le hk) fun i hi => hp i (Nat.lt_succ_of_lt hi)

/-- At a place of turn i the first k turns, i among them, do what turn i alone does. -/
theorem LocalTurns.loop_own_of_le (h : LocalTurns get ok own n f) {k i p : Nat} (hk : k ≤ n) {z : σ} (hz : ok z)
    (hi : i < k) (hp : own i p) : get (loop k f z) p = get (f i z) p := by
  induction k with
  | zero => exact absurd hi (Nat.not_lt_zero i)
  | succ k ih =>
    have hko := h.loop_keeps k hz
    rw [loop_succ]
    rcases Nat.lt_succ_iff_lt_or_eq.1 hi with hlt | rfl
    · have hnot : ¬own k p := fun hkp => hlt.ne (h.disjoint i k p (hlt.trans hk) hk hp hkp)
      rw [h.other k _ p hk hko hnot]
      exact ih (Nat.le_of_succ_le hk) hlt
    · refine h.congr i _ z p hk hko hz (fun q hq => ?_) hp
      exact h.loop_other (Nat.le_of_succ_le hk) hz fun j hj hjq => hj.ne (h.disjoint j i q (hj.trans hk) hk hjq hq)

/-- The loop does to every place what the turn that owns it does. -/
theorem LocalTurns.loop_own (h : LocalTurns get ok own n f) {i p : Nat} {z : σ} (hz : ok z) (hi : i < n) (hp : own i p) :
    get (loop n f z) p = get (f i z) p := h.loop_own_of_le le_rfl hz hi hp

end

end Sys2Proof.Proofs
end

section
/-! The bit-reversal unit (R103). -/

namespace Sys2Proof.Proofs

open Sys2Proof.Machine Sys2Proof.Laws

theorem revBits_lt (m i : Nat) : revBits m i < 2 ^ m := by
  induction m generalizing i with
  | zero => exact Nat.one_pos
  | succ m ih =>
    have h2 : i % 2 < 2 := Nat.mod_lt i Nat.two_pos
    have hrest := ih (i / 2)
    have htop : i % 2 * 2 ^ m ≤ 1 * 2 ^ m := Nat.mul_le_mul_right _ (by omega)
    rw [revBits, pow_succ]
    omega

/-- The bits of the reversed index: bit b is bit m-1-b of the index. -/
theorem testBit_revBits {m b : Nat} (i : Nat) (hb : b < m) : (revBits m i).testBit b = i.testBit (m - 1 - b) := by
  induction m generalizing i with
  | zero => exact absurd hb (Nat.not_lt_zero b)
  | succ m ih =>
    rw [revBits, mul_comm, Nat.testBit_two_pow_mul_add _ (revBits_lt m (i / 2))]
    split
    · next hlt =>
      rw [ih (i / 2) hlt, ← Nat.testBit_succ]
      congr 1
      omega
    · next hge =>
      obtain rfl : b = m := by omega
      simp [Nat.testBit_zero]

/-- Reversing the bits twice gives the index back. -/
theorem revBits_revBits {m i : Nat} (hi : i < 2 ^ m) : revBits m (revBits m i) = i := by
  refine Nat.eq_of_testBit_eq fun b => ?_
  rcases Nat.lt_or_ge b m with hb | hb
  · rw [testBit_revBits _ hb, testBit_revBits _ (by omega)]
    congr 1
    omega
  · have hpow : 2 ^ m ≤ 2 ^ b := Nat.pow_le_pow_right Nat.two_pos hb
    rw [Nat.testBit_lt_two_pow ((revBits_lt m _).trans_le hpow), Nat.testBit_lt_two_pow (hi.trans_le hpow)]

/-- The places of turn i of the bit reversal: i and its reversed index, where i is the smaller of the two. -/
def swapPlaces (m i p : Nat) : Prop := i < revBits m i ∧ (p = i ∨ p = revBits m i)

theorem cget_swapAt_left {z : List Cplx} {i j : Nat} (hi : i < z.length) (hij : i ≠ j) :
    cget (swapAt z i j) i = cget z j := by
  rw [swapAt, cget_set_ne hij.symm, cget_set_same hi]

theorem cget_swapAt_right {z : List Cplx} {i j : Nat} (hj : j < z.length) : cget (swapAt z i j) j = cget z i := by
  rw [swapAt, cget_set_same (by simpa using hj)]

theorem cget_swapAt_other {z : List Cplx} {i j p : Nat} (hi : p ≠ i) (hj : p ≠ j) : cget (swapAt z i j) p = cget z p := by
  rw [swapAt, cget_set_ne hj.symm, cget_set_ne hi.symm]

/-- A turn of the bit reversal gives each of its places the point at the reversed index. -/
theorem swapTurn_own {m i p : Nat} {z : List Cplx} (hz : z.length = 2 ^ m) (hi : i < 2 ^ m) (hp : swapPlaces m i p) :
    cget (if i < revBits m i then swapAt z i (revBits m i) else z) p = cget z (revBits m p) := by
  have hrev := revBits_lt m i
  obtain ⟨hlt, rfl | rfl⟩ := hp
  · rw [if_pos hlt, cget_swapAt_left (by omega) hlt.ne]
  · rw [if_pos hlt, cget_swapAt_right (by omega), revBits_revBits hi]

/-- The turns of the bit reversal swap disjoint pairs, because reversing is its own inverse. -/
theorem bitrev_localTurns (m : Nat) :
    LocalTurns cget (fun z => z.length = 2 ^ m) (swapPlaces m) (2 ^ m)
      (fun i z => if i < revBits m i then swapAt z i (revBits m i) else z) where
  keeps i z hz := by split <;> simp [hz]
  other i z p hi hz hp := by
    split
    · next hlt => exact cget_swapAt_other (fun h => hp ⟨hlt, .inl h⟩) (fun h => hp ⟨hlt, .inr h⟩)
    · rfl
  congr i z w p hi hz hw h hp := by
    rw [swapTurn_own hz hi hp, swapTurn_own hw hi hp]
    refine h _ ⟨hp.1, ?_⟩
    obtain ⟨-, rfl | rfl⟩ := hp
    · exact .inr rfl
    · exact .inl (revBits_revBits hi)
  disjoint i j p hi hj := by
    rintro ⟨hlti, hpi⟩ ⟨hltj, hpj⟩
    have hri := revBits_revBits hi
    have hrj := revBits_revBits hj
    rcases hpi with rfl | rfl <;> rcases hpj with h | h
    · exact h
    · rw [h, hrj] at hlti
      omega
    · rw [← h, hri] at hltj
      omega
    · rw [← hri, h, hrj]

theorem cget_bitrev {m i : Nat} {z : List Cplx} (hz : z.length = 2 ^ m) (hi : i < 2 ^ m) :
    cget (bitrev m z) i = cget z (revBits m i) := by
  have hloc := bitrev_localTurns m
  have hinv := revBits_revBits hi
  rcases lt_trichotomy i (revBits m i) with hlt | heq | hgt
  · have hp : swapPlaces m i i := ⟨hlt, .inl rfl⟩
    exact (hloc.loop_own hz hi hp).trans (swapTurn_own hz hi hp)
  · refine (hloc.loop_other le_rfl hz ?_).trans (congrArg (cget z) heq)
    rintro j hj ⟨hlt, hij | hij⟩
    · rw [← hij] at hlt
      omega
    · rw [hij, revBits_revBits hj] at heq
      omega
  · have hp : swapPlaces m (revBits m i) i := ⟨by rwa [hinv], .inr hinv.symm⟩
    exact (hloc.loop_own hz (revBits_lt m i) hp).trans (swapTurn_own hz (revBits_lt m i) hp)

/-- Settles O32: the turns of the unit swap i and its reversed index once, and reversing is an involution. -/
theorem bitReversal : Obligations.BitReversal :=
  ⟨fun _ _ hz _ hi => cget_bitrev hz hi, fun m i _ => ⟨revBits_lt m i, fun _ hb => testBit_revBits i hb⟩, by decide⟩

end Sys2Proof.Proofs
end

section
/-! The twiddle store (R106, R38): scaling a fraction of a turn changes neither its cosine nor its sine. -/

namespace Sys2Proof.Proofs

open Sys2Proof.Machine Sys2Proof.Laws

/-- A fraction reduces to the same lowest terms when both its parts are scaled. -/
theorem reduce_mul_right (k L : Nat) {c : Nat} (hc : 0 < c) :
    k * c % (L * c) / Nat.gcd (k * c % (L * c)) (L * c) = k % L / Nat.gcd (k % L) L ∧
    L * c / Nat.gcd (k * c % (L * c)) (L * c) = L / Nat.gcd (k % L) L := by
  rw [Nat.mul_mod_mul_right, Nat.gcd_mul_right]
  exact ⟨Nat.mul_div_mul_right _ _ hc, Nat.mul_div_mul_right _ _ hc⟩

theorem cos2pi_mul_right (k L : Nat) {c : Nat} (hc : 0 < c) : cos2pi (k * c) (L * c) = cos2pi k L := by
  obtain ⟨hn, hd⟩ := reduce_mul_right k L hc
  simp only [cos2pi, hn, hd]

theorem sin2pi_mul_right (k L : Nat) {c : Nat} (hc : 0 < c) : sin2pi (k * c) (L * c) = sin2pi k L := by
  obtain ⟨hn, hd⟩ := reduce_mul_right k L hc
  simp only [sin2pi, hn, hd]

theorem sinIsZero_mul_right (k L : Nat) {c : Nat} (hc : 0 < c) : sinIsZero (k * c) (L * c) = sinIsZero k L := by
  have hscale : 2 * (k * c) % (L * c) = 2 * k % L * c := by rw [← mul_assoc, Nat.mul_mod_mul_right]
  have hzero : 2 * k % L * c = 0 ↔ 2 * k % L = 0 := by simp [hc.ne']
  simp only [sinIsZero, hscale, hzero]

/-- The factor of a fraction of a turn does not depend on how the fraction is scaled. -/
theorem twiddle_mul_right (d : Direction) (k L : Nat) {c : Nat} (hc : 0 < c) :
    twiddle d (k * c) (L * c) = twiddle d k L := by
  simp only [twiddle, cos2pi_mul_right k L hc, sin2pi_mul_right k L hc, sinIsZero_mul_right k L hc]

/-- At a multiple of half a turn the sine is an exact zero, +0 (R13). -/
theorem sin2pi_of_sinIsZero {k L : Nat} (hL : 0 < L) (h : sinIsZero k L = true) : sin2pi k L = plusZero := by
  obtain ⟨j, hj⟩ := Nat.dvd_of_mod_eq_zero (of_decide_eq_true h)
  refine (isNearest_sin2pi k hL).2 ?_
  have hL' : (L : ℝ) ≠ 0 := by exact_mod_cast hL.ne'
  have hj' : (2 : ℝ) * k = L * j := by exact_mod_cast hj
  have hangle : 2 * Real.pi * k / L = j * Real.pi := by
    rw [mul_right_comm, hj']
    field_simp
  rw [hangle, Real.sin_nat_mul_pi]

/-- The inverse factor is the forward one with a nonzero imaginary part negated (R105). -/
theorem twiddle_inv {k L : Nat} (hL : 0 < L) :
    twiddle .inv k L = ⟨(twiddle .fwd k L).re,
      if sinIsZero k L then (twiddle .fwd k L).im else fneg (twiddle .fwd k L).im⟩ := by
  cases h : sinIsZero k L with
  | true => simp [twiddle, h, sin2pi_of_sinIsZero hL h]
  | false => simp [twiddle, h]

/-- Settles O34: entry k·c of a store of size L·c is the forward factor of k, and the read negates as R105 does. -/
theorem twiddleMemo : Obligations.TwiddleMemo := by
  rintro T d k L hT ⟨c, rfl⟩ -
  have hL : 0 < L := Nat.pos_of_mul_pos_right hT
  have hc : 0 < c := Nat.pos_of_mul_pos_left hT
  have hentry : storeEntry (L * c) (k * (L * c / L)) = twiddle .fwd k L := by
    rw [storeEntry, Nat.mul_div_cancel_left c hL, twiddle_mul_right .fwd k L hc]
  cases d with
  | fwd => exact hentry
  | inv =>
    rw [storeRead, hentry, Nat.mul_div_cancel_left c hL, sinIsZero_mul_right k L hc]
    exact (twiddle_inv hL).symm

end Sys2Proof.Proofs
end

section
/-! The complex transform (R107 to R109, R112): the butterflies, the radix-4 stage as a loop over blocks of a loop over offsets,
the radix-2 tail, and the scale of an inverse transform. -/

namespace Sys2Proof.Proofs

open Sys2Proof.Machine Sys2Proof.Laws

/-! ## The radix-4 stage -/

section
variable {d : Direction} {N s h j i0 p : Nat} {z : List Cplx}

/-- The places of a radix-4 butterfly (R107). -/
def bf4Places (i0 h p : Nat) : Prop := p = i0 ∨ p = i0 + h ∨ p = i0 + 2 * h ∨ p = i0 + 3 * h

/-- The four results of a radix-4 butterfly, y0 to y3 at its places in rising order, from its first point A and its three
products B, C and D (R107). -/
structure IsBf4 (d : Direction) (A B C D y0 y1 y2 y3 : Cplx) : Prop where
  y0_eq : y0 = cadd (cadd A C) (cadd B D)
  y1_eq : y1 = cadd (csub A C) (rotq d (csub B D))
  y2_eq : y2 = csub (cadd A C) (cadd B D)
  y3_eq : y3 = csub (csub A C) (rotq d (csub B D))

/-- A radix-4 butterfly whose four places are distinct and inside the buffer. -/
theorem bf4_isBf4 (hh : 0 < h) (hi : i0 + 3 * h < z.length) :
    IsBf4 d (cget z i0) (cmul (twiddle d j (4 * h)) (cget z (i0 + 2 * h)))
      (cmul (twiddle d (2 * j) (4 * h)) (cget z (i0 + h))) (cmul (twiddle d (3 * j) (4 * h)) (cget z (i0 + 3 * h)))
      (cget (bf4 d i0 h j z) i0) (cget (bf4 d i0 h j z) (i0 + h)) (cget (bf4 d i0 h j z) (i0 + 2 * h))
      (cget (bf4 d i0 h j z) (i0 + 3 * h)) := by
  constructor <;> simp (disch := grind) only [bf4, cget_set_same, cget_set_ne]

theorem cget_bf4_other (hp : ¬bf4Places i0 h p) : cget (bf4 d i0 h j z) p = cget z p := by
  simp only [bf4Places, not_or] at hp
  obtain ⟨h0, h1, h2, h3⟩ := hp
  rw [bf4, cget_set_ne (Ne.symm h3), cget_set_ne (Ne.symm h1), cget_set_ne (Ne.symm h2), cget_set_ne (Ne.symm h0)]

/-- A butterfly answers from the points of its places alone. -/
theorem cget_bf4_congr {w : List Cplx} (hh : 0 < h) (hz : i0 + 3 * h < z.length) (hw : i0 + 3 * h < w.length)
    (hzw : ∀ q, bf4Places i0 h q → cget z q = cget w q) (hp : bf4Places i0 h p) :
    cget (bf4 d i0 h j z) p = cget (bf4 d i0 h j w) p := by
  have ez := bf4_isBf4 (d := d) (j := j) hh hz
  have ew := bf4_isBf4 (d := d) (j := j) hh hw
  rw [hzw i0 (.inl rfl), hzw _ (.inr (.inl rfl)), hzw _ (.inr (.inr (.inl rfl))), hzw _ (.inr (.inr (.inr rfl)))] at ez
  obtain rfl | rfl | rfl | rfl := hp
  · exact ez.y0_eq.trans ew.y0_eq.symm
  · exact ez.y1_eq.trans ew.y1_eq.symm
  · exact ez.y2_eq.trans ew.y2_eq.symm
  · exact ez.y3_eq.trans ew.y3_eq.symm

/-- The butterflies of one block of 4h points, from place s on (R109). -/
def radix4Block (d : Direction) (h s : Nat) (z : List Cplx) : List Cplx := loop h (fun j z => bf4 d (s + j) h j z) z

theorem radix4Stage_eq_blocks (d : Direction) (n h : Nat) (z : List Cplx) :
    radix4Stage d n h z = loop (n / (4 * h)) (fun b z => radix4Block d h (4 * h * b) z) z := rfl

/-- The butterflies of a block work on disjoint places: place p belongs to the one at offset (p - s) mod h. -/
theorem radix4Block_localTurns (d : Direction) (hs : s + 4 * h ≤ N) :
    LocalTurns cget (fun z => z.length = N) (fun j => bf4Places (s + j) h) h (fun j z => bf4 d (s + j) h j z) where
  keeps i z hz := by simp [hz]
  other i z p _ _ hp := cget_bf4_other hp
  congr i z w p hi hz hw h hp := cget_bf4_congr (by omega) (by omega) (by omega) h hp
  disjoint i j p hi hj hp hq := by
    unfold bf4Places at hp hq
    omega

theorem exists_offset (hs : s ≤ p) (hp : p < s + 4 * h) : ∃ j, j < h ∧ bf4Places (s + j) h p := by
  unfold bf4Places
  rcases Nat.lt_or_ge p (s + h) with h1 | h1
  · exact ⟨p - s, by omega, by omega⟩
  rcases Nat.lt_or_ge p (s + 2 * h) with h2 | h2
  · exact ⟨p - (s + h), by omega, by omega⟩
  rcases Nat.lt_or_ge p (s + 3 * h) with h3 | h3
  · exact ⟨p - (s + 2 * h), by omega, by omega⟩
  · exact ⟨p - (s + 3 * h), by omega, by omega⟩

theorem radix4Block_length (d : Direction) (h s : Nat) (z : List Cplx) : (radix4Block d h s z).length = z.length :=
  loop_induct (fun w : List Cplx => w.length = z.length) _ _ _ rfl fun i b _ hb => by simp [hb]

theorem cget_radix4Block (d : Direction) (hs : s + 4 * h ≤ z.length) (hj : j < h) (hp : bf4Places (s + j) h p) :
    cget (radix4Block d h s z) p = cget (bf4 d (s + j) h j z) p :=
  (radix4Block_localTurns d hs).loop_own rfl hj hp

theorem cget_radix4Block_other (d : Direction) (hs : s + 4 * h ≤ z.length) (hp : p < s ∨ s + 4 * h ≤ p) :
    cget (radix4Block d h s z) p = cget z p :=
  (radix4Block_localTurns d hs).loop_other le_rfl rfl fun j hj hjp => by
    unfold bf4Places at hjp
    omega

end

section
variable {d : Direction} {h blocks b j p : Nat} {z : List Cplx}

/-- Block b of the blocks of 4h points. -/
def inBlock (h b p : Nat) : Prop := 4 * h * b ≤ p ∧ p < 4 * h * b + 4 * h

theorem inBlock_unique {b' : Nat} (hp : inBlock h b p) (hp' : inBlock h b' p) : b = b' := by
  obtain ⟨hlo, hhi⟩ := hp
  obtain ⟨hlo', hhi'⟩ := hp'
  have hle : ∀ {m n : Nat}, 4 * h * m ≤ p → p < 4 * h * n + 4 * h → m ≤ n := fun hm hn =>
    Nat.lt_succ_iff.1 (Nat.lt_of_mul_lt_mul_left (hm.trans_lt (hn.trans_eq (Nat.mul_succ _ _).symm)))
  exact le_antisymm (hle hlo hhi') (hle hlo' hhi)

theorem block_end_le (hb : b < blocks) : 4 * h * b + 4 * h ≤ 4 * h * blocks := by
  rw [← Nat.mul_succ]
  exact Nat.mul_le_mul_left _ hb

/-- The blocks of a radix-4 stage are disjoint. -/
theorem radix4Stage_localTurns (d : Direction) (h blocks : Nat) :
    LocalTurns cget (fun z => z.length = 4 * h * blocks) (inBlock h) blocks
      (fun b z => radix4Block d h (4 * h * b) z) where
  keeps b z hz := (radix4Block_length d h _ z).trans hz
  other b z p hb hz hp :=
    cget_radix4Block_other d ((block_end_le hb).trans_eq hz.symm) (by unfold inBlock at hp; omega)
  congr b z w p hb hz hw hzw hp := by
    have hend := block_end_le (h := h) hb
    obtain ⟨j, hj, hpj⟩ := exists_offset hp.1 hp.2
    rw [cget_radix4Block d (hend.trans_eq hz.symm) hj hpj, cget_radix4Block d (hend.trans_eq hw.symm) hj hpj]
    refine cget_bf4_congr (by omega) (by omega) (by omega) (fun q hq => hzw q ?_) hpj
    unfold bf4Places at hq
    unfold inBlock
    omega
  disjoint b b' p _ _ hp hp' := inBlock_unique hp hp'

/-- At each place a radix-4 stage does what the butterfly of that place does. -/
theorem cget_radix4Stage (hz : z.length = 4 * h * blocks) (hb : b < blocks) (hj : j < h)
    (hp : bf4Places (4 * h * b + j) h p) :
    cget (radix4Stage d z.length h z) p = cget (bf4 d (4 * h * b + j) h j z) p := by
  have hend := block_end_le (h := h) hb
  have hin : inBlock h b p := by
    unfold bf4Places at hp
    unfold inBlock
    omega
  rw [radix4Stage_eq_blocks, hz, Nat.mul_div_cancel_left blocks (by omega)]
  exact ((radix4Stage_localTurns d h blocks).loop_own hz hb hin).trans (cget_radix4Block d (hend.trans_eq hz.symm) hj hp)

theorem radix4Stage_isBf4 (hz : z.length = 4 * h * blocks) (hb : b < blocks) (hj : j < h) {i0 : Nat}
    (hi : i0 = 4 * h * b + j) :
    IsBf4 d (cget z i0) (cmul (twiddle d j (4 * h)) (cget z (i0 + 2 * h)))
      (cmul (twiddle d (2 * j) (4 * h)) (cget z (i0 + h))) (cmul (twiddle d (3 * j) (4 * h)) (cget z (i0 + 3 * h)))
      (cget (radix4Stage d z.length h z) i0) (cget (radix4Stage d z.length h z) (i0 + h))
      (cget (radix4Stage d z.length h z) (i0 + 2 * h)) (cget (radix4Stage d z.length h z) (i0 + 3 * h)) := by
  have hend := block_end_le (h := h) hb
  subst hi
  rw [cget_radix4Stage hz hb hj (.inl rfl), cget_radix4Stage hz hb hj (.inr (.inl rfl)),
    cget_radix4Stage hz hb hj (.inr (.inr (.inl rfl))), cget_radix4Stage hz hb hj (.inr (.inr (.inr rfl)))]
  exact bf4_isBf4 (by omega) (by omega)

end

/-! ## The whole transform -/

/-- The stages still to run from quarter span h on are those of h, 4h, 16h, ... (R109). -/
theorem radix4Stages_eq_foldl (d : Direction) (n k h : Nat) (z : List Cplx) :
    radix4Stages d n k h z = (List.range k).foldl (fun w i => radix4Stage d n (4 ^ i * h) w) z := by
  induction k generalizing h z with
  | zero => rfl
  | succ k ih =>
    rw [radix4Stages, ih, List.range_succ_eq_map, List.foldl_cons, List.foldl_map, pow_zero, one_mul]
    simp only [Nat.succ_eq_add_one, pow_succ, mul_assoc]

section
variable {d : Direction} {h j : Nat} {z : List Cplx}

/-- The places of a radix-2 butterfly of the tail (R108). -/
def bf2Places (h j p : Nat) : Prop := p = j ∨ p = j + h

/-- The two results of a radix-2 butterfly (R108). -/
theorem cget_bf2 (hh : 0 < h) (hj : j + h < z.length) :
    cget (bf2 d j h j z) j = cadd (cget z j) (cmul (twiddle d j (2 * h)) (cget z (j + h))) ∧
    cget (bf2 d j h j z) (j + h) = csub (cget z j) (cmul (twiddle d j (2 * h)) (cget z (j + h))) := by
  constructor
  · rw [bf2, cget_set_ne (by omega), cget_set_same (by omega)]
  · rw [bf2, cget_set_same (by simpa using hj)]

theorem tail_localTurns (d : Direction) (h : Nat) :
    LocalTurns cget (fun z => z.length = 2 * h) (bf2Places h) h (fun j z => bf2 d j h j z) where
  keeps j z hz := by simp [hz]
  other j z p _ _ hp := by
    simp only [bf2Places, not_or] at hp
    rw [bf2, cget_set_ne (Ne.symm hp.2), cget_set_ne (Ne.symm hp.1)]
  congr j z w p hj hz hw hzw hp := by
    obtain ⟨ez, ez'⟩ := cget_bf2 (d := d) (z := z) (j := j) (h := h) (by omega) (by omega)
    obtain ⟨ew, ew'⟩ := cget_bf2 (d := d) (z := w) (j := j) (h := h) (by omega) (by omega)
    rw [hzw j (.inl rfl), hzw (j + h) (.inr rfl)] at ez ez'
    obtain rfl | rfl := hp
    · exact ez.trans ew.symm
    · exact ez'.trans ew'.symm
  disjoint i j p hi hj hp hq := by
    unfold bf2Places at hp hq
    omega

/-- The tail of half span h does a radix-2 butterfly at each j below h. -/
theorem cget_tail (hz : z.length = 2 * h) (hj : j < h) :
    cget (loop h (fun j z => bf2 d j h j z) z) j = cadd (cget z j) (cmul (twiddle d j (2 * h)) (cget z (j + h))) ∧
    cget (loop h (fun j z => bf2 d j h j z) z) (j + h) =
      csub (cget z j) (cmul (twiddle d j (2 * h)) (cget z (j + h))) := by
  rw [(tail_localTurns d h).loop_own hz hj (.inl rfl), (tail_localTurns d h).loop_own hz hj (.inr rfl)]
  exact cget_bf2 (by omega) (by omega)

end

/-- CFFT after its radix-4 stages (R109). -/
theorem cfft_eq (d : Direction) (m : Nat) (z : List Cplx) :
    cfft d m z =
      if m % 2 = 1 then loop (2 ^ m / 2) (fun j z => bf2 d j (2 ^ m / 2) j z) (radix4Stages d (2 ^ m) (m / 2) 1 (bitrev m z))
      else radix4Stages d (2 ^ m) (m / 2) 1 (bitrev m z) := rfl

theorem complexTransform_fwd (m : Nat) (z : List Cplx) : complexTransform .fwd (2 ^ m) z = cfft .fwd m z := by
  rw [complexTransform, Nat.log2_two_pow]

theorem complexTransform_inv (m : Nat) (z : List Cplx) :
    complexTransform .inv (2 ^ m) z = cscale (rnq 2 (2 * 2 ^ m)) (cfft .inv m z) := by
  rw [complexTransform, Nat.log2_two_pow]
  rfl

/-! ## The scale -/

/-- The binary64 of an inverse power of two. -/
theorem fval_inv_two_pow {m : Nat} (hm : m ≤ 1022) :
    isFin (fpack false ((1022 - m) * 2 ^ 52 + 2 ^ 52)) = true ∧
    fval (fpack false ((1022 - m) * 2 ^ 52 + 2 ^ 52)) = 1 / 2 ^ m := by
  have hlt : (1022 - m) * 2 ^ 52 + 2 ^ 52 < infMag := by
    unfold infMag
    omega
  have hmag := fmagBits_fpack false (hlt.trans infMag_lt)
  have hsign := fsign_fpack false (hlt.trans infMag_lt)
  refine ⟨by rw [isFin, hmag]; exact decide_eq_true hlt, ?_⟩
  have hunits : funits (fpack false ((1022 - m) * 2 ^ 52 + 2 ^ 52)) = 2 ^ (1074 - m) := by
    rw [funits_eq_magUnits, hmag, magUnits_add (.inr le_rfl) (by norm_num), ← pow_add,
      show 52 + (1022 - m) = 1074 - m by omega]
  rw [fval, fvalue, hsign, hunits, div_eq_div_iff (by positivity) (by positivity), one_mul]
  push_cast
  rw [← pow_add, Nat.sub_add_cancel (by omega)]

/-- A rational that is a binary64 rounds to itself. -/
theorem rnq_exact {n : ℤ} {e : ℕ} {y : B64} (he : 0 < e) (hy : isFin y = true) (hval : fval y = n / e)
    (hlt : |(n : ℝ) / e| < 2 ^ 1024 - 2 ^ 970) : isFin (rnq n e) = true ∧ fval (rnq n e) = n / e := by
  have hval' : (fval y : ℝ) = n / e := by
    rw [hval]
    push_cast
    rfl
  obtain ⟨hfin, hnear⟩ := (isNearest_rnq n he).1 hlt
  have hdist := (hnear y hy).1
  rw [hval', sub_self, abs_zero] at hdist
  have heq : (fval (rnq n e) : ℝ) = fval y := hval'.symm ▸ sub_eq_zero.1 (abs_eq_zero.1 (le_antisymm hdist (abs_nonneg _)))
  exact ⟨hfin, (Rat.cast_injective heq).trans hval⟩

/-- RNq(2/(2·2^m)) is 1/2^m exactly (R112). -/
theorem inverseScale_exact {m : Nat} (hm : m ≤ 24) :
    isFin (rnq 2 (2 * 2 ^ m)) = true ∧ fval (rnq 2 (2 * 2 ^ m)) = 1 / 2 ^ m := by
  obtain ⟨hfin, hval⟩ := fval_inv_two_pow (m := m) (by omega)
  have hquot : ((2 : ℤ) : ℚ) / ((2 * 2 ^ m : ℕ) : ℚ) = 1 / 2 ^ m := by
    push_cast
    field_simp
  have hle : |((2 : ℤ) : ℝ) / ((2 * 2 ^ m : ℕ) : ℝ)| ≤ 1 := by
    have hone : (1 : ℝ) ≤ 2 ^ m := one_le_pow₀ one_le_two
    rw [abs_of_nonneg (by positivity)]
    push_cast
    rw [div_le_one (by positivity)]
    linarith
  have hthr : (1 : ℝ) < 2 ^ 1024 - 2 ^ 970 := by
    have hone : (1 : ℝ) ≤ 2 ^ 970 := one_le_pow₀ one_le_two
    rw [show 1024 = 970 + 54 from rfl, pow_add]
    generalize (2 : ℝ) ^ 970 = u at *
    linarith
  rw [← hquot] at hval ⊢
  exact rnq_exact (by positivity) hfin hval (hle.trans_lt hthr)

/-! ## The obligation -/

/-- Settles O33: the loops of a stage and of the tail work on disjoint places, and the scale is an exact power of two. -/
theorem complexTransformStages : Obligations.ComplexTransformStages := by
  refine ⟨?stage, ?transform, ?scaled, fun m hm => inverseScale_exact hm⟩
  case stage =>
    rintro d h blocks z hz b hb j hj i0 _ _ _ _ _ hi rfl rfl rfl rfl rfl
    obtain ⟨y0, y1, y2, y3⟩ := radix4Stage_isBf4 (d := d) hz hb hj hi
    exact ⟨y0, y2, y1, y3⟩
  case transform =>
    intro d m z W hz hW
    have hstages : radix4Stages d (2 ^ m) (m / 2) 1 (bitrev m z) = W := by
      rw [hW, radix4Stages_eq_foldl]
      simp only [mul_one]
    refine ⟨by simp [hz], fun heven => ?_, fun hodd h j hh hj u v hu hv => ?_⟩
    · rw [cfft_eq, if_neg (by omega), hstages]
    · have hW' : W.length = 2 * h := by rw [← hstages, radix4Stages_length, bitrev_length, hz, hh]
      rw [cfft_eq, if_pos hodd, hstages, ← hh, Nat.mul_div_cancel_left h Nat.two_pos, hv, hu]
      exact cget_tail hW' hj
  case scaled =>
    intro m z hz
    refine ⟨complexTransform_fwd m z, fun j hj => ?_⟩
    rw [complexTransform_inv, cget_cscale _ (by simpa [hz] using hj)]

end Sys2Proof.Proofs
end

section
/-! The packed real transforms (R113, R114). Both pair bin k with bin n - k; each turn of their loops writes the places of one
such pair, from a list the loop does not change. -/

namespace Sys2Proof.Proofs

open Sys2Proof.Machine Sys2Proof.Laws

/-- HALF times the sum of x and the conjugate of y: (Er, Ei) of R113 and R114. -/
def halfSum (x y : Cplx) : Cplx := ⟨fmul HALF (fadd x.re y.re), fmul HALF (fadd x.im (fneg y.im))⟩

/-- The difference of x and the conjugate of y: (Dr, Di) of R113 and R114. -/
def conjDiff (x y : Cplx) : Cplx := ⟨fsub x.re y.re, fsub x.im (fneg y.im)⟩

/-- Half of a transform size of at least 4 points is even. -/
theorem half_even {k n : Nat} (hk : 2 ≤ k) (hn : 2 * n = 2 ^ k) : 2 ≤ n ∧ n % 2 = 0 := by
  obtain ⟨k, rfl⟩ := Nat.exists_eq_add_of_le hk
  have hpos : 0 < 2 ^ k := Nat.two_pow_pos k
  rw [pow_add] at hn
  omega

/-! ## The forward transform -/

/-- The stores of R113 for the pair of bins k and n - k. -/
def setPair (n k : Nat) (y0 y1 y2 y3 : B64) (a : List B64) : List B64 :=
  (((a.set (2 * k) y0).set (2 * k + 1) y1).set (2 * (n - k)) y2).set (2 * (n - k) + 1) y3

/-- The words of the pair of bins k and n - k. -/
def pairWords (n k p : Nat) : Prop := p = 2 * k ∨ p = 2 * k + 1 ∨ p = 2 * (n - k) ∨ p = 2 * (n - k) + 1

section
variable {n k p : Nat} {y0 y1 y2 y3 : B64} {a : List B64}

theorem fget_setPair (h0 : 0 < k) (hk : k < n / 2) (ha : a.length = 2 * n) :
    fget (setPair n k y0 y1 y2 y3 a) (2 * k) = y0 ∧ fget (setPair n k y0 y1 y2 y3 a) (2 * k + 1) = y1 ∧
    fget (setPair n k y0 y1 y2 y3 a) (2 * (n - k)) = y2 ∧ fget (setPair n k y0 y1 y2 y3 a) (2 * (n - k) + 1) = y3 := by
  refine ⟨?_, ?_, ?_, ?_⟩ <;> simp (disch := grind) only [setPair, fget_set_same, fget_set_ne]

theorem fget_setPair_other (hp : ¬pairWords n k p) : fget (setPair n k y0 y1 y2 y3 a) p = fget a p := by
  simp only [pairWords, not_or] at hp
  obtain ⟨h0, h1, h2, h3⟩ := hp
  rw [setPair, fget_set_ne (Ne.symm h3), fget_set_ne (Ne.symm h2), fget_set_ne (Ne.symm h1), fget_set_ne (Ne.symm h0)]

/-- The stores for the pairs 1, 2, ..., n/2 - 1 go to disjoint words. -/
theorem setPair_localTurns (n : Nat) (y0 y1 y2 y3 : Nat → B64) :
    LocalTurns fget (fun a => a.length = 2 * n) (fun i => pairWords n (i + 1)) (n / 2 - 1)
      (fun i a => setPair n (i + 1) (y0 i) (y1 i) (y2 i) (y3 i) a) where
  keeps i a ha := by simp [setPair, ha]
  other i a p _ _ hp := fget_setPair_other hp
  congr i a b p hi ha hb _ hp := by
    have hi' : i + 1 < n / 2 := by omega
    obtain ⟨a0, a1, a2, a3⟩ := fget_setPair (y0 := y0 i) (y1 := y1 i) (y2 := y2 i) (y3 := y3 i) i.succ_pos hi' ha
    obtain ⟨b0, b1, b2, b3⟩ := fget_setPair (y0 := y0 i) (y1 := y1 i) (y2 := y2 i) (y3 := y3 i) i.succ_pos hi' hb
    obtain rfl | rfl | rfl | rfl := hp
    · exact a0.trans b0.symm
    · exact a1.trans b1.symm
    · exact a2.trans b2.symm
    · exact a3.trans b3.symm
  disjoint i j p hi hj hp hq := by
    unfold pairWords at hp hq
    omega

end

/-- P of R113 at bin k of N samples. -/
def forwardOdd (N k : Nat) (x y : Cplx) : Cplx :=
  cmul (twiddle .fwd k N) ⟨fmul HALF (conjDiff x y).im, fneg (fmul HALF (conjDiff x y).re)⟩

/-- The turn of R113 at k = i + 1, from the half-size transform z. -/
def forwardTurn (N n : Nat) (z : List Cplx) (i : Nat) : List B64 → List B64 :=
  let E := halfSum (cget z (i + 1)) (cget z (n - (i + 1)))
  let P := forwardOdd N (i + 1) (cget z (i + 1)) (cget z (n - (i + 1)))
  setPair n (i + 1) (fadd E.re P.re) (fadd E.im P.im) (fsub E.re P.re) (fneg (fsub E.im P.im))

/-- The points a real transform packs its samples into (R113). -/
def packedPoints (n : Nat) (a : List B64) : List Cplx :=
  (List.range n).map (fun j => ⟨fget a (2 * j), fget a (2 * j + 1)⟩)

/-- The samples with words 0 and 1 of R113 in place, where its loop starts. -/
def forwardStart (z : List Cplx) (a : List B64) : List B64 :=
  (a.set 0 (fadd (cget z 0).re (cget z 0).im)).set 1 (fsub (cget z 0).re (cget z 0).im)

theorem forwardStart_length (z : List Cplx) (a : List B64) : (forwardStart z a).length = a.length := by simp [forwardStart]

theorem rfftF_eq {m n : Nat} {a : List B64} (hn : 2 ^ m / 2 = n) {z : List Cplx}
    (hz : z = cfft .fwd (m - 1) (packedPoints n a)) :
    rfftF m a = ((loop (n / 2 - 1) (forwardTurn (2 ^ m) n z) (forwardStart z a)).set n (cget z (n / 2)).re).set (n + 1)
      (fneg (cget z (n / 2)).im) := by
  subst hn hz
  rfl

section
variable {m n : Nat} {a : List B64} {z : List Cplx}

/-- Words 0, 1, n and n + 1, which the loop leaves alone (R113). -/
theorem fget_rfftF_ends (hm : 2 ≤ m) (ha : a.length = 2 ^ m) (hn : 2 * n = 2 ^ m)
    (hz : z = cfft .fwd (m - 1) (packedPoints n a)) :
    fget (rfftF m a) 0 = fadd (cget z 0).re (cget z 0).im ∧ fget (rfftF m a) 1 = fsub (cget z 0).re (cget z 0).im ∧
    fget (rfftF m a) n = (cget z (n / 2)).re ∧ fget (rfftF m a) (n + 1) = fneg (cget z (n / 2)).im := by
  obtain ⟨h2, heven⟩ := half_even hm hn
  have hloc : LocalTurns _ _ _ _ (forwardTurn (2 ^ m) n z) := setPair_localTurns n _ _ _ _
  have hstart : (forwardStart z a).length = 2 * n := by rw [forwardStart_length, ha, hn]
  have hlen := hloc.loop_keeps (n / 2 - 1) hstart
  rw [rfftF_eq (by omega) hz]
  refine ⟨?_, ?_, ?_, fget_set_same (by simp only [List.length_set]; omega)⟩
  · rw [fget_set_ne (by omega), fget_set_ne (by omega),
      hloc.loop_other le_rfl hstart (fun i hi hp => by unfold pairWords at hp; omega),
      forwardStart, fget_set_ne (by omega), fget_set_same (by omega)]
  · rw [fget_set_ne (by omega), fget_set_ne (by omega),
      hloc.loop_other le_rfl hstart (fun i hi hp => by unfold pairWords at hp; omega),
      forwardStart, fget_set_same (by simp only [List.length_set]; omega)]
  · rw [fget_set_ne (by omega), fget_set_same (by omega)]

/-- The words of the pair of bins j and n - j (R113). -/
theorem fget_rfftF_pair (hm : 2 ≤ m) (ha : a.length = 2 ^ m) (hn : 2 * n = 2 ^ m)
    (hz : z = cfft .fwd (m - 1) (packedPoints n a)) {j : Nat} (hj : 1 ≤ j) (hjn : j < n / 2) {E P : Cplx}
    (hE : E = halfSum (cget z j) (cget z (n - j))) (hP : P = forwardOdd (2 ^ m) j (cget z j) (cget z (n - j))) :
    fget (rfftF m a) (2 * j) = fadd E.re P.re ∧ fget (rfftF m a) (2 * j + 1) = fadd E.im P.im ∧
    fget (rfftF m a) (2 * (n - j)) = fsub E.re P.re ∧ fget (rfftF m a) (2 * (n - j) + 1) = fneg (fsub E.im P.im) := by
  obtain ⟨h2, heven⟩ := half_even hm hn
  obtain ⟨i, rfl⟩ := Nat.exists_eq_add_of_le' hj
  have hloc : LocalTurns _ _ _ _ (forwardTurn (2 ^ m) n z) := setPair_localTurns n _ _ _ _
  have hstart : (forwardStart z a).length = 2 * n := by rw [forwardStart_length, ha, hn]
  have hi : i < n / 2 - 1 := by omega
  have hturn : ∀ p, pairWords n (i + 1) p →
      fget (rfftF m a) p = fget (forwardTurn (2 ^ m) n z i (forwardStart z a)) p := by
    intro p hp
    have hp' := hp
    unfold pairWords at hp'
    rw [rfftF_eq (by omega) hz, fget_set_ne (by omega), fget_set_ne (by omega)]
    exact hloc.loop_own hstart hi hp
  rw [hturn _ (.inl rfl), hturn _ (.inr (.inl rfl)), hturn _ (.inr (.inr (.inl rfl))), hturn _ (.inr (.inr (.inr rfl))), hE, hP]
  exact fget_setPair i.succ_pos hjn hstart

end

/-! ## The inverse transform -/

/-- Q of R114 at bin k of N samples. -/
def inverseOdd (N k : Nat) (x y : Cplx) : Cplx := cmul (twiddle .inv k N) (conjDiff x y)

/-- z[k] of R114, from the bins x at k and y at n - k. -/
def inverseLow (N k : Nat) (x y : Cplx) : Cplx :=
  ⟨fsub (halfSum x y).re (fmul HALF (inverseOdd N k x y).im), fadd (halfSum x y).im (fmul HALF (inverseOdd N k x y).re)⟩

/-- z[n-k] of R114, from the same bins. -/
def inverseHigh (N k : Nat) (x y : Cplx) : Cplx :=
  ⟨fadd (halfSum x y).re (fmul HALF (inverseOdd N k x y).im),
    fneg (fsub (halfSum x y).im (fmul HALF (inverseOdd N k x y).re))⟩

/-- Bin k of a packed spectrum (R115). -/
def binAt (a : List B64) (k : Nat) : Cplx := ⟨fget a (2 * k), fget a (2 * k + 1)⟩

/-- The turn of R114 at k = i + 1. -/
def inverseTurn (N n : Nat) (a : List B64) (i : Nat) (z : List Cplx) : List Cplx :=
  (z.set (i + 1) (inverseLow N (i + 1) (binAt a (i + 1)) (binAt a (n - (i + 1))))).set (n - (i + 1))
    (inverseHigh N (i + 1) (binAt a (i + 1)) (binAt a (n - (i + 1))))

/-- z[0] of R114. -/
def inverseFirst (a : List B64) : Cplx := ⟨fmul HALF (fadd (fget a 0) (fget a 1)), fmul HALF (fsub (fget a 0) (fget a 1))⟩

/-- The points R114 builds from a packed spectrum of N words, n = N/2. -/
def inversePoints (N n : Nat) (a : List B64) : List Cplx :=
  (loop (n / 2 - 1) (inverseTurn N n a) ((List.replicate n ⟨plusZero, plusZero⟩).set 0 (inverseFirst a))).set (n / 2)
    ⟨fget a n, fneg (fget a (n + 1))⟩

theorem rfftI_eq {m n : Nat} (a : List B64) (hn : 2 ^ m / 2 = n) :
    rfftI m a = interleave (cscale (rnq 2 (2 ^ m)) (cfft .inv (m - 1) (inversePoints (2 ^ m) n a))) := by
  subst hn
  rfl

section
variable {N n : Nat} {a : List B64}

/-- The turns of R114 write the points k and n - k, which are disjoint pairs. -/
theorem inverseTurn_localTurns (N n : Nat) (a : List B64) :
    LocalTurns cget (fun z => z.length = n) (fun i p => p = i + 1 ∨ p = n - (i + 1)) (n / 2 - 1) (inverseTurn N n a) where
  keeps i z hz := by simp [inverseTurn, hz]
  other i z p _ _ hp := by
    simp only [not_or] at hp
    rw [inverseTurn, cget_set_ne (Ne.symm hp.2), cget_set_ne (Ne.symm hp.1)]
  congr i z w p hi hz hw _ hp := by
    obtain rfl | rfl := hp
    · rw [inverseTurn, cget_set_ne (by omega), cget_set_same (by omega), inverseTurn, cget_set_ne (by omega),
        cget_set_same (by omega)]
    · rw [inverseTurn, cget_set_same (by simp only [List.length_set]; omega), inverseTurn,
        cget_set_same (by simp only [List.length_set]; omega)]
  disjoint i j p hi hj hp hq := by omega

theorem inversePoints_length (N n : Nat) (a : List B64) : (inversePoints N n a).length = n := by
  rw [inversePoints, List.length_set]
  exact (inverseTurn_localTurns N n a).loop_keeps _ (by simp)

theorem cget_inversePoints_zero (h2 : 2 ≤ n) : cget (inversePoints N n a) 0 = inverseFirst a := by
  rw [inversePoints, cget_set_ne (by omega),
    (inverseTurn_localTurns N n a).loop_other le_rfl (by simp) (fun i hi hp => by omega), cget_set_same (by simp; omega)]

theorem cget_inversePoints_half (h2 : 2 ≤ n) :
    cget (inversePoints N n a) (n / 2) = ⟨fget a n, fneg (fget a (n + 1))⟩ := by
  have hlen := inversePoints_length N n a
  rw [inversePoints, List.length_set] at hlen
  exact cget_set_same (by omega)

theorem cget_inversePoints_pair (heven : n % 2 = 0) {j : Nat} (hj : 1 ≤ j) (hjn : j < n / 2) :
    cget (inversePoints N n a) j = inverseLow N j (binAt a j) (binAt a (n - j)) ∧
    cget (inversePoints N n a) (n - j) = inverseHigh N j (binAt a j) (binAt a (n - j)) := by
  obtain ⟨i, rfl⟩ := Nat.exists_eq_add_of_le' hj
  have hi : i < n / 2 - 1 := by omega
  have hstart : ((List.replicate n (⟨plusZero, plusZero⟩ : Cplx)).set 0 (inverseFirst a)).length = n := by simp
  have hloc := inverseTurn_localTurns N n a
  constructor
  · rw [inversePoints, cget_set_ne (by omega), hloc.loop_own hstart hi (.inl rfl), inverseTurn, cget_set_ne (by omega),
      cget_set_same (by omega)]
  · rw [inversePoints, cget_set_ne (by omega), hloc.loop_own hstart hi (.inr rfl), inverseTurn,
      cget_set_same (by rw [List.length_set, hstart]; omega)]

/-- R114 determines its points: 0, n/2, and the two of each pair. -/
theorem eq_inversePoints {z : List Cplx} (h2 : 2 ≤ n) (heven : n % 2 = 0) (hz : z.length = n)
    (h0 : cget z 0 = inverseFirst a) (hhalf : cget z (n / 2) = ⟨fget a n, fneg (fget a (n + 1))⟩)
    (hpair : ∀ j, 1 ≤ j → j < n / 2 → cget z j = inverseLow N j (binAt a j) (binAt a (n - j)) ∧
      cget z (n - j) = inverseHigh N j (binAt a j) (binAt a (n - j))) : z = inversePoints N n a := by
  refine cget_ext (hz.trans (inversePoints_length N n a).symm) fun i hi => ?_
  rcases Nat.eq_zero_or_pos i with rfl | hpos
  · rw [h0, cget_inversePoints_zero h2]
  rcases lt_trichotomy i (n / 2) with hlt | rfl | hgt
  · rw [(hpair i hpos hlt).1, (cget_inversePoints_pair heven hpos hlt).1]
  · rw [hhalf, cget_inversePoints_half h2]
  · have hhigh := (hpair (n - i) (by omega) (by omega)).2
    have hhigh' := (cget_inversePoints_pair (N := N) (a := a) heven (j := n - i) (by omega) (by omega)).2
    rw [Nat.sub_sub_self (by omega)] at hhigh hhigh'
    rw [hhigh, hhigh']

/-- The samples of R114: the scaled parts of the half-size inverse transform. -/
theorem fget_rfftI {m j : Nat} (hn : 2 * n = 2 ^ m) (hj : j < n) :
    fget (rfftI m a) (2 * j) = fmul (cget (cfft .inv (m - 1) (inversePoints (2 ^ m) n a)) j).re (rnq 2 (2 ^ m)) ∧
    fget (rfftI m a) (2 * j + 1) = fmul (cget (cfft .inv (m - 1) (inversePoints (2 ^ m) n a)) j).im (rnq 2 (2 ^ m)) := by
  have hlen : j < (cfft .inv (m - 1) (inversePoints (2 ^ m) n a)).length := by
    rwa [cfft_length, inversePoints_length]
  have hwords := fget_interleave (z := cscale (rnq 2 (2 ^ m)) (cfft .inv (m - 1) (inversePoints (2 ^ m) n a)))
    (i := j) (by rwa [cscale_length])
  rwa [cget_cscale _ hlen, ← rfftI_eq a (by omega)] at hwords

end

end Sys2Proof.Proofs
end

section
/-! The FFT commands (R120 to R123): each passes its checks, transforms the words it has read and stores them. -/

namespace Sys2Proof.Proofs

open Sys2Proof.Machine Sys2Proof.Laws

variable {s : State} {d : Direction}

/-- The completion of a transform of n points that leaves the memory m. -/
theorem complete_transform (s : State) (n : Nat) (m : Memory) :
    complete .none (setDmem (growTwiddle n s) m) =
      { s with dmem := m, twSize := max s.twSize n, status := completionFlags s.cmd .none } := by
  rw [growTwiddle_eq]
  rfl

/-- Settles O28: a power of two from 4 to NMAX is a transform size, so the one check passes. -/
theorem fftCfgResult : Obligations.FftCfgResult := by
  intro s k h2 hk hN
  have hsize : transformSize s.params (argU s 0) = true := (transformSize_iff _ _).2 ⟨k, h2, hk, hN⟩
  rw [exec, execFftCfg]
  exact runCommand_ok (t := { s with fftN := argU s 0 }) (by simp [fftCfgChecks, hsize]) rfl

/-- FFT_CPLX on a written region in range (R121). -/
theorem execFftCplx_ok (h0 : s.fftN ≠ 0) (hl : argU s 1 = 2 * s.fftN) (hr : argU s 0 + argU s 1 ≤ s.params.dmemWords)
    (hw : written s.dmem (argU s 0) (argU s 1)) :
    exec (.fftCplx d) s = .next { s with
      dmem := writeWords s.dmem (argU s 0)
        (interleave (complexTransform d s.fftN (deinterleave (wordsAt s.dmem (argU s 0) (argU s 1)))))
      twSize := max s.twSize s.fftN, status := completionFlags s.cmd .none } := by
  rw [← complete_transform, exec, execFftCplx]
  refine runCommand_ok ?_ (bind_eq_ok.2 ⟨_, by rw [← hl, readWords_written hw], rfl⟩)
  simp [fftCplxChecks, inRange, h0, hr, ← hl]

/-- Settles O29: the words stored are the parts of the points, in order. -/
theorem fftCplxResult : Obligations.FftCplxResult := by
  intro s d h0 hl hr hw
  have hexec := execFftCplx_ok (d := d) h0 hl hr hw
  generalize hz : complexTransform d s.fftN (deinterleave (wordsAt s.dmem (argU s 0) (argU s 1))) = z at hexec ⊢
  have hlen : z.length = s.fftN := by
    rw [← hz, complexTransform_length, deinterleave_length, wordsAt_length, hl, Nat.mul_div_cancel_left _ Nat.two_pos]
  obtain ⟨hin, hout⟩ := stored_writeWords s.dmem (argU s 0) (interleave z)
  rw [interleave_length, hlen] at hin hout
  refine ⟨_, hexec, by rwa [hl], fun k hk => ?_⟩
  obtain ⟨hre, him⟩ := interleave_getElem? (hlen.symm ▸ hk : k < z.length)
  exact ⟨(hin (2 * k) (by omega)).trans hre, (hin (2 * k + 1) (by omega)).trans him⟩

/-- The points FFT_CPLX_SPLIT interleaves from its two regions (R122). -/
theorem zipWith_wordsAt (m : Memory) (r q n : Nat) :
    List.zipWith Cplx.mk (wordsAt m r n) (wordsAt m q n) =
      (List.range n).map (fun i => ⟨(readWord m (r + i)).getD 0#64, (readWord m (q + i)).getD 0#64⟩) := by
  rw [wordsAt, wordsAt, List.zipWith_map, List.zipWith_self]

/-- FFT_CPLX_SPLIT on written regions in range (R122). -/
theorem execFftCplxSplit_ok (h0 : s.fftN ≠ 0) (hlr : argU s 2 = s.fftN) (hli : argU s 3 = s.fftN)
    (hrr : argU s 0 + argU s 2 ≤ s.params.dmemWords) (hri : argU s 1 + argU s 3 ≤ s.params.dmemWords)
    (hwr : written s.dmem (argU s 0) (argU s 2)) (hwi : written s.dmem (argU s 1) (argU s 3)) {z : List Cplx}
    (hz : z = complexTransform d s.fftN
      (List.zipWith Cplx.mk (wordsAt s.dmem (argU s 0) s.fftN) (wordsAt s.dmem (argU s 1) s.fftN))) :
    exec (.fftCplxSplit d) s = .next { s with
      dmem := writeWords (writeWords s.dmem (argU s 0) (z.map Cplx.re)) (argU s 1) (z.map Cplx.im)
      twSize := max s.twSize s.fftN, status := completionFlags s.cmd .none } := by
  rw [hlr] at hrr hwr
  rw [hli] at hri hwi
  rw [← complete_transform, exec, execFftCplxSplit, hz]
  refine runCommand_ok ?_ (bind_eq_ok.2 ⟨_, readWords_written hwr, bind_eq_ok.2 ⟨_, readWords_written hwi, rfl⟩⟩)
  simp [fftCplxSplitChecks, inRange, h0, hlr, hli, hrr, hri]

/-- Settles O30: the second store wins where the regions overlap, and neither goes outside its region. -/
theorem fftCplxSplitResult : Obligations.FftCplxSplitResult := by
  intro s d z h0 hlr hli hrr hri hwr hwi hz
  rw [← zipWith_wordsAt] at hz
  have hlen : z.length = s.fftN := by simp [hz]
  have hre : (z.map Cplx.re).length = s.fftN := by simp [hlen]
  have him : (z.map Cplx.im).length = s.fftN := by simp [hlen]
  refine ⟨_, execFftCplxSplit_ok h0 hlr hli hrr hri hwr hwi hz, fun k hk => ?_, fun k hk hout => ?_, fun a ha ha' => ?_⟩
  · rw [readWord_writeWords_inside _ _ (by omega), List.getElem_map, ← cget_eq_getElem]
  · rw [readWord_writeWords_outside _ _ (by omega), readWord_writeWords_inside _ _ (by omega), List.getElem_map,
      ← cget_eq_getElem]
  · rw [readByte_writeWords_outside _ _ (by omega), readByte_writeWords_outside _ _ (by omega)]

/-- FFT_REAL on a written region in range (R123). -/
theorem execFftReal_ok (h0 : s.fftN ≠ 0) (hl : argU s 1 = s.fftN) (hr : argU s 0 + argU s 1 ≤ s.params.dmemWords)
    (hw : written s.dmem (argU s 0) (argU s 1)) :
    exec (.fftReal d) s = .next { s with
      dmem := writeWords s.dmem (argU s 0) (realTransform d s.fftN (wordsAt s.dmem (argU s 0) (argU s 1)))
      twSize := max s.twSize s.fftN, status := completionFlags s.cmd .none } := by
  rw [← complete_transform, exec, execFftReal]
  refine runCommand_ok ?_ (bind_eq_ok.2 ⟨_, by rw [← hl, readWords_written hw], rfl⟩)
  rw [hl] at hr
  simp [fftRealChecks, inRange, h0, hl, hr]

/-- FFT_REAL leaves in its region the answer of its unit, as long as the region. -/
theorem fftReal_stores {k : Nat} {unit : Nat → List B64 → List B64} (hN : s.fftN = 2 ^ k)
    (hl : argU s 1 = s.fftN) (hr : argU s 0 + argU s 1 ≤ s.params.dmemWords) (hw : written s.dmem (argU s 0) (argU s 1))
    (hunit : ∀ a, realTransform d (2 ^ k) a = unit k a)
    (hlen : ∀ a : List B64, a.length = 2 ^ k → (unit k a).length = 2 ^ k) :
    ∃ m, exec (.fftReal d) s =
        .next { s with dmem := m, twSize := max s.twSize s.fftN, status := completionFlags s.cmd .none } ∧
      stored s.dmem m (argU s 0) (unit k (wordsAt s.dmem (argU s 0) (argU s 1))) ∧
      (unit k (wordsAt s.dmem (argU s 0) (argU s 1))).length = argU s 1 := by
  have hpos : s.fftN ≠ 0 := hN ▸ (Nat.two_pow_pos k).ne'
  have hexec := execFftReal_ok (d := d) hpos hl hr hw
  rw [hN, hunit, ← hN] at hexec
  exact ⟨_, hexec, stored_writeWords _ _ _, by rw [hlen _ (by rw [wordsAt_length, hl, hN]), hl, hN]⟩

theorem rfftI_length_two_pow {k : Nat} (hk : 2 ≤ k) (a : List B64) : (rfftI k a).length = 2 ^ k := by
  rw [rfftI_length, Nat.mul_div_cancel' (dvd_pow_self 2 (by omega))]

/-- Settles O31: the command stores what R113 or R114 computes, and both are determined pair by pair. -/
theorem fftRealResult : Obligations.FftRealResult := by
  refine ⟨fun s k hk hN hl hr hw => ⟨?fwd, ?inv⟩, ?spectrum, ?samples⟩
  case fwd =>
    exact fftReal_stores (unit := rfftF) hN hl hr hw (fun a => by rw [realTransform, Nat.log2_two_pow])
      fun a ha => (rfftF_length k a).trans ha
  case inv =>
    exact fftReal_stores (unit := rfftI) hN hl hr hw (fun a => by rw [realTransform, Nat.log2_two_pow])
      fun a _ => rfftI_length_two_pow hk a
  case spectrum =>
    intro k n a z hk ha hn hz
    obtain ⟨hw0, hw1, hwn, hwn1⟩ := fget_rfftF_ends hk ha hn hz
    refine ⟨hw0, hw1, hwn, hwn1, ?_⟩
    rintro j hj hjn _ _ _ _ _ _ P rfl rfl rfl rfl rfl rfl hP
    exact fget_rfftF_pair hk ha hn hz hj hjn (E := halfSum (cget z j) (cget z (n - j))) rfl hP
  case samples =>
    intro k n a z hk _ hn hz h0 hhalf hpair j hj
    obtain ⟨h2, heven⟩ := half_even hk hn
    have hpoints : z = inversePoints (2 ^ k) n a := by
      refine eq_inversePoints h2 heven hz h0 hhalf fun i hi hin => ?_
      obtain ⟨_, _, _, _, _, _, _, rfl, rfl, rfl, rfl, rfl, rfl, rfl, hlow, hhigh⟩ := hpair i hi hin
      exact ⟨hlow, hhigh⟩
    rw [hpoints]
    exact fget_rfftI hn hj

end Sys2Proof.Proofs
end

section
/-! What a completed command stores, and the sinc unit, the delta converter, the windowed-sinc taps and the resonator of
42_impulse_response.md. -/

namespace Sys2Proof.Proofs

open Sys2Proof.Machine Sys2Proof.Laws

variable {s : State} {checks : List Check} {effect : State → Except Fault State} {x y : B64}

/-! ## Completions -/

/-- A command past its checks that sets RESULT changes nothing else but STATUS. -/
theorem runCommand_result {v : Word} (hc : firstFailing checks = none) (he : effect s = .ok (setResult s v)) :
    runCommand checks effect s = .next { s with result := v, status := completionFlags s.cmd .none } :=
  runCommand_ok hc he

/-- A command past its checks that stores words changes nothing else but STATUS (R149). -/
theorem runCommand_stores {b : Nat} {vs : List Word} (hc : firstFailing checks = none)
    (he : effect s = .ok (setDmem s (writeWords s.dmem b vs))) :
    ∃ m, runCommand checks effect s = .next { s with dmem := m, status := completionFlags s.cmd .none } ∧
      stored s.dmem m b vs :=
  ⟨_, runCommand_ok (t := setDmem s (writeWords s.dmem b vs)) hc he, stored_writeWords s.dmem b vs⟩

/-! ## The sinc unit -/

/-- The two signs of a quotient cancel. -/
theorem fdiv_fneg_fneg (x y : B64) : fdiv (fneg x) (fneg y) = fdiv x y := by
  have hsign : ((!fsign x) != !fsign y) = (fsign x != fsign y) := by
    cases fsign x <;> cases fsign y <;> rfl
  simp only [fdiv, isNaN_fneg, isInf_fneg, isZero_fneg, funits_fneg, fsign_fneg, hsign]

/-- The sine is odd under correct rounding (R140). -/
theorem sin64_fneg (hfin : isFin x = true) (h0 : isZero x = false) : sin64 (fneg x) = fneg (sin64 x) := by
  rw [sin64_of_isFin (by rwa [isFin_fneg]) (by rwa [isZero_fneg]), sin64_of_isFin hfin h0, fsign_fneg]
  cases fsign x <;> simp

theorem sinc64_of_isZero (h : isZero x = true) : sinc64 x = ONE := if_pos h

theorem sinc64_of_not_isFin (h : isFin x = false) : sinc64 x = canonicalNaN := by
  have h0 : isZero x = false := by
    by_contra hz
    rw [isFin_of_isZero (Bool.not_eq_false _ ▸ hz)] at h
    cases h
  rw [sinc64, h0, sin64_of_not_isFin h, if_neg Bool.false_ne_true]
  exact fdiv_of_isNaN (.inl (show isNaN canonicalNaN = true by decide))

theorem sinc64_fneg (x : B64) : sinc64 (fneg x) = sinc64 x := by
  cases h0 : isZero x with
  | true => rw [sinc64_of_isZero h0, sinc64_of_isZero (by rwa [isZero_fneg])]
  | false =>
    cases hfin : isFin x with
    | false => rw [sinc64_of_not_isFin hfin, sinc64_of_not_isFin (by rwa [isFin_fneg])]
    | true => rw [sinc64, sinc64, isZero_fneg, h0, sin64_fneg hfin h0, fdiv_fneg_fneg]

/-- Settles O35: the unit is even because a sine and its argument change sign together. -/
theorem sincResult : Obligations.SincResult := by
  refine ⟨fun s => ?_, sinc64_of_isZero (by decide), sinc64_of_isZero (by decide),
    fun x h => sinc64_of_not_isFin (isFin_of_isInf_or_isNaN h), sinc64_fneg⟩
  rw [exec, execSinc]
  exact runCommand_result rfl rfl

/-! ## The scalar converters -/

/-- Settles O37: the delayer's parity picks the odd number below it. -/
theorem getDeltaResult : Obligations.GetDeltaResult := by
  intro s hfs hd
  rw [exec, execGetDelta]
  exact runCommand_result (by simp [getDeltaChecks, hfs, hd]) rfl

/-! ## Windowed-sinc taps -/

/-- Settles O38: both kernels are the model's, written out. -/
theorem lowpassHighpassTaps : Obligations.LowpassHighpassTaps := by
  intro s nu pos hfs hf hr hnu hpos
  obtain rfl : pos = tapPos (argU s 1) := funext hpos
  subst hnu
  rw [exec, execIrLowpass, exec, execIrHighpass]
  exact ⟨runCommand_stores (by simp [irLowpassChecks, inRange, hfs, hf, hr]) rfl,
    runCommand_stores (by simp [irHighpassChecks, inRange, hfs, hf, hr]) rfl⟩

/-- The checks of the band commands pass on valid parameters (R148). -/
theorem bandChecks_pass (hfs : fpos (argF s 2) = true) (hfc : fpos (argF s 3) = true) (hbw : fpos (argF s 4) = true)
    (hlow : flt (freqLow (argF s 3) (argF s 4)) plusZero = false) (hr : argU s 0 + argU s 1 ≤ s.params.dmemWords) :
    firstFailing (bandChecks s) = none := by
  simp [bandChecks, inRange, hfs, hfc, hbw, hlow, hr]

/-- Settles O39: the kernels at the two edges of R148, subtracted and added in the rules' order. -/
theorem bandTaps : Obligations.BandTaps := by
  intro s fL fH nuL nuH pos lp hfs hfc hbw hfL hfH hlow hr hnuL hnuH hpos hlp
  obtain rfl : pos = tapPos (argU s 1) := funext hpos
  obtain rfl : lp = fun nu i => lpk nu (tapPos (argU s 1) i) := funext₂ hlp
  subst hfL hfH hnuL hnuH
  have hc := bandChecks_pass hfs hfc hbw hlow hr
  rw [exec, execIrBandpass, exec, execIrBandelim]
  exact ⟨runCommand_stores hc rfl, runCommand_stores hc rfl⟩

/-! ## The resonator -/

/-- The checks of IR_RESONATOR pass on valid parameters (R156). -/
theorem irResonatorChecks_pass (hfs : fpos (argF s 2) = true) (hF : 1 ≤ argU s 5)
    (hr : argU s 0 + argU s 1 ≤ s.params.dmemWords) (hq : argU s 4 + argU s 5 ≤ s.params.dmemWords)
    (hd : argU s 1 = 0 ∨ argU s 0 + argU s 1 ≤ argU s 4 ∨ argU s 4 + argU s 5 ≤ argU s 0) :
    firstFailing (irResonatorChecks s) = none := by
  have hshare : (decide (argU s 1 = 0) || disjoint (argU s 0) (argU s 1) (argU s 4) (argU s 5)) = true := by
    rw [disjoint, Bool.or_eq_true, decide_eq_true_eq, decide_eq_true_eq]
    omega
  simp [irResonatorChecks, inRange, hfs, hF, hr, hq, hshare]

/-- Settles O41: a zero strength reads no frequency; with no tap to compute nothing is read or stored. -/
theorem resonatorResult : Obligations.ResonatorResult := by
  intro s hfs hF hr hq hd
  have hc := irResonatorChecks_pass hfs hF hr hq hd
  rw [exec, execIrResonator]
  refine ⟨fun hz => runCommand_stores hc (if_pos hz), fun hz hw => runCommand_stores hc ?_⟩
  rw [if_neg (by simp [hz])]
  split
  · next hS =>
    rw [hS]
    rfl
  · rw [readWords_written hw]
    rfl

end Sys2Proof.Proofs
end

section
/-! The order of the binary64 values: a comparison of patterns is one of values, and an exact result that is not below a value
does not round to less. -/

namespace Sys2Proof.Proofs

open Sys2Proof.Machine Sys2Proof.Laws

variable {x y v : B64}

/-! ## Patterns in order -/

/-- Larger magnitude bits stand for more units. -/
theorem magUnits_strictMono : StrictMono magUnits := by
  refine strictMono_nat_of_lt_succ fun m => ?_
  obtain ⟨k, q, hm, hk, hq⟩ : ∃ k q, m = k * 2 ^ 52 + q ∧ (k = 0 ∨ 2 ^ 52 ≤ q) ∧ q + 1 ≤ 2 ^ 53 :=
    ⟨m / 2 ^ 52 - 1, m - (m / 2 ^ 52 - 1) * 2 ^ 52, by omega, by omega, by omega⟩
  rw [hm, add_assoc, magUnits_add hk (by omega), magUnits_add (by omega) hq]
  exact Nat.mul_lt_mul_of_pos_right (Nat.lt_succ_self q) (Nat.two_pow_pos k)

theorem funits_lt_of_fmagBits_lt (h : fmagBits x < fmagBits y) : funits x < funits y := by
  rw [funits_eq_magUnits, funits_eq_magUnits]
  exact magUnits_strictMono h

theorem forder_lt_of_flt (h : flt x y = true) : forder x < forder y := by
  rw [flt, Bool.and_eq_true] at h
  obtain ⟨-, hlt⟩ := h
  exact of_decide_eq_true hlt

/-- A pattern before another stands for a smaller value. -/
theorem fvalue_lt_of_forder_lt (h : forder x < forder y) : fvalue x < fvalue y := by
  have hzero : magUnits 0 = 0 := rfl
  have hpos : ∀ {m}, 0 < m → 0 < magUnits m := fun hm => hzero ▸ magUnits_strictMono hm
  rw [forder, forder] at h
  rw [fvalue, fvalue, funits_eq_magUnits, funits_eq_magUnits]
  generalize fmagBits x = a at *
  generalize fmagBits y = b at *
  generalize fsign x = p at *
  generalize fsign y = q at *
  cases p <;> cases q <;> simp only [Bool.false_eq_true, if_true, if_false] at *
  case false.false => exact_mod_cast magUnits_strictMono (by omega : a < b)
  case false.true => omega
  case true.false =>
    rcases Nat.eq_zero_or_pos a with rfl | ha
    · have := hpos (by omega : 0 < b)
      omega
    · have := hpos ha
      omega
  case true.true =>
    have := magUnits_strictMono (by omega : b < a)
    omega

theorem fval_lt_of_flt (h : flt x y = true) : fval x < fval y := by
  have : (fvalue x : ℚ) < fvalue y := by exact_mod_cast fvalue_lt_of_forder_lt (forder_lt_of_flt h)
  rw [fval, fval]
  gcongr

/-- No finite value is above +∞. -/
theorem flt_infMag (hy : isFin y = true) : flt (fpack false infMag) y = false := by
  by_contra h
  have hlt := forder_lt_of_flt (Bool.not_eq_false _ ▸ h)
  have hmag : fmagBits y < infMag := of_decide_eq_true hy
  rw [forder, fsign_fpack _ infMag_lt, fmagBits_fpack _ infMag_lt, if_neg Bool.false_ne_true, forder] at hlt
  split at hlt <;> omega

/-- Of a number that is not negative and not below y, the nearest binary64 is not below y either. -/
theorem flt_of_isNearest {r : ℝ} (h : IsNearest r v) (hr : 0 ≤ r) (hy : isFin y = true) (hyr : (fval y : ℝ) ≤ r) :
    flt v y = false := by
  obtain ⟨hfin, hinf, -⟩ := h
  rcases lt_or_ge r (2 ^ 1024 - 2 ^ 970) with hlt | hge
  · by_contra hc
    have hvy : (fval v : ℝ) < fval y := by exact_mod_cast fval_lt_of_flt (Bool.not_eq_false _ ▸ hc)
    obtain ⟨-, hnear⟩ := hfin (by rwa [abs_of_nonneg hr])
    obtain ⟨hle, -⟩ := hnear y hy
    rw [abs_of_nonpos (by linarith), abs_of_nonpos (by linarith)] at hle
    linarith
  · rw [hinf hge]
    exact flt_infMag hy

/-! ## Signs -/

/-- What comes after the zeros has a clear sign bit and is no zero. -/
theorem positive_of_forder_pos (h : 0 < forder x) : fsign x = false ∧ isZero x = false := by
  rw [forder] at h
  cases hs : fsign x with
  | true =>
    rw [hs, if_pos rfl] at h
    omega
  | false =>
    rw [hs, if_neg Bool.false_ne_true] at h
    exact ⟨rfl, decide_eq_false (by omega)⟩

/-- The frequency test of R147 in the order of patterns. -/
theorem fpos_iff : fpos x = true ↔ isFin x = true ∧ 0 < forder x := by
  have hzero : forder plusZero = 0 := by decide
  have hnan : isNaN plusZero = false := by decide
  cases hx : isFin x with
  | false => simp [fpos, hx]
  | true => simp [fpos, flt, hx, hnan, hzero, isNaN_of_isFin hx]

theorem fval_of_pos (h : fsign x = false) : (fval x : ℝ) = (funits x : ℝ) / 2 ^ 1074 := by
  rw [fval_eq_signed, h, signed_false]

/-! ## Integers as binary64 values -/

/-- An integer with at most 53 significant bits. -/
def Short (i : ℕ) : Prop := ∃ q k, q < 2 ^ 53 ∧ i = q * 2 ^ k

theorem short_of_lt {i : ℕ} (h : i < 2 ^ 53) : Short i := ⟨i, 0, h, by simp⟩

theorem short_two_pow (e : ℕ) : Short (2 ^ e) := ⟨1, e, by norm_num, by simp⟩

/-- Rounding leaves a number of units with at most 53 significant bits alone. -/
theorem RoundsTo.exact {s : ℝ} {k q a b : ℕ} (h : RoundsTo s k q) (hs : s = a * 2 ^ b) (ha : a < 2 ^ 53) :
    (q : ℝ) * 2 ^ k = s := by
  have hk : k ≤ b := by
    rcases h.ge with hk | hge
    · omega
    · have ha' : (a : ℝ) < 2 ^ 53 := by exact_mod_cast ha
      have hlt : (2 : ℝ) ^ (52 + k) < 2 ^ (53 + b) := by
        calc (2 : ℝ) ^ (52 + k) = 2 ^ 52 * 2 ^ k := pow_add 2 52 k
          _ ≤ a * 2 ^ b := hs ▸ hge
          _ < 2 ^ 53 * 2 ^ b := by gcongr
          _ = 2 ^ (53 + b) := (pow_add 2 53 b).symm
      have := (pow_lt_pow_iff_right₀ (one_lt_two (α := ℝ))).1 hlt
      omega
  have hmul : ((a * 2 ^ (b - k) : ℕ) : ℝ) * 2 ^ k = s := by
    push_cast
    rw [hs, mul_assoc, ← pow_add, Nat.sub_add_cancel hk]
  have hnear := (h.nearest_multiple ((a * 2 ^ (b - k) : ℕ) : ℤ)).1
  rw [Int.cast_natCast, hmul, sub_self, abs_zero] at hnear
  exact sub_eq_zero.1 (abs_eq_zero.1 (le_antisymm hnear (abs_nonneg _)))

theorem fofNat_eq {i : ℕ} (h : i ≠ 0) : fofNat i = fpack false (roundUnits (i * 2 ^ 1074) 1) := by
  rw [fofNat, rnq, if_neg (by exact_mod_cast h), Int.natAbs_natCast, decide_eq_false (by omega)]

/-- `b64` of a short integer below the overflow threshold is that integer (R11). -/
theorem fofNat_short {i : ℕ} (h : Short i) (hlt : (i : ℝ) < 2 ^ 1024 - 2 ^ 970) :
    isFin (fofNat i) = true ∧ (fval (fofNat i) : ℝ) = i := by
  rcases eq_or_ne i 0 with rfl | h0
  · have hz : isZero (fofNat 0) = true := rfl
    exact ⟨isFin_of_isZero hz, by rw [fval_of_isZero hz, Rat.cast_zero, Nat.cast_zero]⟩
  obtain ⟨k, q, he, hR⟩ := roundUnits_roundsTo (i * 2 ^ 1074) one_pos
  obtain ⟨a, b, ha, hi⟩ := h
  have hu : (0 : ℝ) < 2 ^ 1074 := by positivity
  rw [Nat.cast_one, div_one, Nat.cast_mul, Nat.cast_pow, Nat.cast_ofNat] at hR
  have hval : (q : ℝ) * 2 ^ k = i * 2 ^ 1074 :=
    hR.exact (b := b + 1074) (by rw [hi, pow_add, Nat.cast_mul, Nat.cast_pow, Nat.cast_ofNat, mul_assoc]) ha
  have hfin := hR.lt_infMag (by rw [← threshold_units]; exact mul_lt_mul_of_pos_right hlt hu)
  obtain ⟨h1, h2, -⟩ := hR.finite hfin
  rw [fofNat_eq h0, he]
  exact ⟨h1, by rw [fval_eq_fvalue, h2, hval, mul_div_cancel_right₀ _ hu.ne']⟩

theorem natCast_lt_threshold {i : ℕ} (h : i ≤ 2 ^ 64) : (i : ℝ) < 2 ^ 1024 - 2 ^ 970 := by
  have h64 : (i : ℝ) ≤ 2 ^ 64 := by exact_mod_cast h
  have h970 : (2 : ℝ) ^ 64 < 2 ^ 970 := pow_lt_pow_right₀ one_lt_two (by norm_num)
  rw [show 1024 = 970 + 54 from rfl, pow_add]
  generalize (2 : ℝ) ^ 970 = u at *
  linarith

/-- From the overflow threshold on `b64` is +∞. -/
theorem fofNat_large {i : ℕ} (h : 2 ^ 1024 - 2 ^ 970 ≤ (i : ℝ)) : fofNat i = fpack false infMag := by
  obtain ⟨-, hinf, -⟩ := isNearest_rnq (i : ℤ) one_pos
  exact hinf (by rwa [Nat.cast_one, div_one, Int.cast_natCast])

end Sys2Proof.Proofs
end

section
/-! The filter length (R142) and the comb (R155) of 42_impulse_response.md: what bounds the rounded ratio, and why the echo loop
stops. -/

namespace Sys2Proof.Proofs

open Sys2Proof.Machine Sys2Proof.Laws

variable {s : State} {x y delay amp : B64} {S : ℕ}

/-! ## The filter length -/

/-- A quotient is the canonical NaN or has the sign of its operands. -/
theorem fdiv_cases (x y : B64) :
    fdiv x y = canonicalNaN ∨ ∃ m, m < 2 ^ 63 ∧ fdiv x y = fpack (fsign x != fsign y) m := by
  unfold fdiv
  split_ifs
  · exact .inl rfl
  · exact .inl rfl
  · exact .inr ⟨_, infMag_lt, rfl⟩
  · exact .inr ⟨_, by norm_num, rfl⟩
  · exact .inl rfl
  · exact .inr ⟨_, infMag_lt, rfl⟩
  · next hy => exact .inr ⟨_, roundUnits_lt _ (funits_pos (Bool.eq_false_iff.2 hy)), rfl⟩

theorem fsign_fdiv (h : isNaN (fdiv x y) = false) : fsign (fdiv x y) = (fsign x != fsign y) := by
  obtain he | ⟨m, hm, he⟩ := fdiv_cases x y
  · rw [he] at h
    exact absurd h (by decide)
  · rw [he, fsign_fpack _ hm]

/-- Where the ratio of R142 is finite it is not negative. -/
theorem fsign_filterRatio {fs delta : B64} (hfs : fpos fs = true) (hdelta : fpos delta = true)
    (hfin : isFin (filterRatio fs delta) = true) : fsign (filterRatio fs delta) = false := by
  obtain ⟨-, hfs⟩ := fpos_iff.1 hfs
  obtain ⟨-, hdelta⟩ := fpos_iff.1 hdelta
  have hq : isNaN (fdiv delta fs) = false := by
    by_contra h
    rw [filterRatio, fdiv_of_isNaN (.inr (Bool.not_eq_false _ ▸ h))] at hfin
    exact absurd hfin (by decide)
  rw [filterRatio, fsign_fdiv (isNaN_of_isFin hfin), fsign_fdiv hq, (positive_of_forder_pos hfs).1,
    (positive_of_forder_pos hdelta).1]
  decide

theorem froundEven_le {b : ℕ} (h : funits x < b * 2 ^ 1074) : froundEven x ≤ b := by
  have hq : funits x / 2 ^ 1074 < b := Nat.div_lt_of_lt_mul (by rwa [mul_comm])
  rw [froundEven, roundHalfEven]
  generalize funits x / 2 ^ 1074 = q at *
  split_ifs <;> omega

/-- A value below 2^63 that is not negative rounds to at most 2^63. -/
theorem froundEven_le_of_flt (hs : fsign x = false) (h : flt x (fofNat (2 ^ 63)) = true) : froundEven x ≤ 2 ^ 63 := by
  obtain ⟨-, hval⟩ := fofNat_short (short_two_pow 63) (natCast_lt_threshold (by norm_num))
  have hlt : (fval x : ℝ) < fval (fofNat (2 ^ 63)) := by exact_mod_cast fval_lt_of_flt h
  rw [hval, fval_of_pos hs, div_lt_iff₀ (by positivity)] at hlt
  exact froundEven_le (by exact_mod_cast hlt)

/-- Settles O36: below 2^63 even the length moved up to even fits RESULT. -/
theorem getFilterSizeResult : Obligations.GetFilterSizeResult := by
  rintro s _ hfs hdelta rfl hfin hlt
  have hle : froundEven (filterRatio (argF s 0) (argF s 1)) ≤ 2 ^ 63 :=
    froundEven_le_of_flt (fsign_filterRatio hfs hdelta hfin) hlt
  have hc : firstFailing (getFilterSizeChecks s) = none := by
    rw [show fofNat (2 ^ 63) = 0x43E0000000000000#64 by decide +kernel] at hlt
    simp [getFilterSizeChecks, filterRatioOk, filterRatio, hfs, hdelta, hfin, hlt]
  rw [exec, execGetFilterSize]
  refine ⟨_, runCommand_result hc rfl, ?_⟩
  change (BitVec.ofNat 64 (filterSize (filterRatio (argF s 0) (argF s 1)))).toNat =
    filterSize (filterRatio (argF s 0) (argF s 1))
  rw [BitVec.toNat_ofNat, Nat.mod_eq_of_lt]
  rw [filterSize]
  split <;> omega

/-! ## The echoes of the comb -/

/-- The test of R155: the position of echo k lies before tap S. -/
def echoInside (S : ℕ) (delay : B64) (k : ℕ) : Bool := flt (fmul (fofNat k) delay) (fofNat S)

/-- One turn of the loop of R155 is one echo. -/
theorem combLoop_succ (S : ℕ) (delay amp : B64) (fuel : ℕ) (x : ℕ × B64 × List B64) :
    combLoop S delay amp (fuel + 1) x.1 x.2.1 x.2.2 =
      if echoInside S delay x.1 then
        combLoop S delay amp fuel (combEcho S delay amp x).1 (combEcho S delay amp x).2.1 (combEcho S delay amp x).2.2
      else x.2.2 := rfl

/-- The loop leaves what the echoes before the first one past the end leave. -/
theorem combLoop_eq_iterate {n fuel : ℕ} (x : ℕ × B64 × List B64) (hfuel : n ≤ fuel)
    (hin : ∀ k, k < n → echoInside S delay (x.1 + k) = true) (hout : echoInside S delay (x.1 + n) = false) :
    combLoop S delay amp fuel x.1 x.2.1 x.2.2 = ((combEcho S delay amp)^[n] x).2.2 := by
  induction n generalizing fuel x with
  | zero =>
    cases fuel with
    | zero => rfl
    | succ fuel => rw [combLoop_succ, if_neg (by simpa using hout), Function.iterate_zero, id]
  | succ n ih =>
    obtain ⟨fuel, rfl⟩ := Nat.exists_eq_succ_of_ne_zero (Nat.ne_zero_of_lt hfuel)
    have hnext : ∀ k, (combEcho S delay amp x).1 + k = x.1 + (k + 1) := fun k => by
      rw [combEcho]
      dsimp only
      omega
    have hfirst : echoInside S delay x.1 = true := hin 0 (Nat.succ_pos n)
    rw [combLoop_succ, if_pos hfirst, Function.iterate_succ_apply]
    exact ih _ (by omega) (fun k hk => by rw [hnext]; exact hin _ (by omega)) (by rw [hnext]; exact hout)

theorem combTaps_eq_iterate {n : ℕ} (hfuel : n ≤ combFuel S delay)
    (hin : ∀ k, k < n → echoInside S delay k = true) (hout : echoInside S delay n = false) :
    combTaps S delay amp = ((combEcho S delay amp)^[n] (0, ONE, List.replicate S plusZero)).2.2 :=
  combLoop_eq_iterate (0, ONE, List.replicate S plusZero) hfuel (by simpa using hin) (by simpa using hout)

/-! ## Where the echoes end -/

section
variable (hfin : isFin delay = true) (hsign : fsign delay = false) (h0 : isZero delay = false)
include hfin hsign h0

/-- An echo whose number is exact and whose exact position is not before tap S is past the end. -/
theorem echoInside_of_le {i : ℕ} (hS : S < 2 ^ 53) (hi : Short i) (h : S * 2 ^ 1074 ≤ i * funits delay) :
    echoInside S delay i = false := by
  have hu : (0 : ℝ) < 2 ^ 1074 := by positivity
  obtain ⟨hSfin, hSval⟩ := fofNat_short (short_of_lt hS) (natCast_lt_threshold (hS.le.trans (by norm_num)))
  rcases lt_or_ge (i : ℝ) (2 ^ 1024 - 2 ^ 970) with hlt | hge
  · obtain ⟨hifin, hival⟩ := fofNat_short hi hlt
    have hpos : (fval (fofNat i) : ℝ) * fval delay = i * funits delay / 2 ^ 1074 := by
      rw [hival, fval_of_pos hsign, mul_div_assoc]
    refine flt_of_isNearest (isNearest_fmul hifin hfin) (hpos ▸ by positivity) hSfin ?_
    rw [hpos, hSval, le_div_iff₀ hu]
    exact_mod_cast h
  · rw [echoInside, fofNat_large hge, fmul_of_isInf_isFin (by decide) hfin, h0, hsign, if_neg Bool.false_ne_true]
    exact flt_infMag hSfin

/-- Some echo the fuel reaches is past the end. -/
theorem exists_echo_outside (hS : S < 2 ^ 53) : ∃ i, i ≤ combFuel S delay ∧ echoInside S delay i = false := by
  have hle : S * 2 ^ 1074 ≤ (S * 2 ^ 1074 / funits delay + 1) * funits delay :=
    (Nat.lt_mul_of_div_lt (Nat.lt_succ_self _) (funits_pos h0)).le
  rw [combFuel]
  generalize S * 2 ^ 1074 / funits delay = Q at *
  have hlow : 2 ^ (Q + 1).log2 ≤ Q + 1 := Nat.log2_self_le Q.succ_ne_zero
  have hupp : Q + 1 < 2 ^ ((Q + 1).log2 + 1) := Nat.lt_log2_self
  refine ⟨2 ^ ((Q + 1).log2 + 1), by rw [pow_succ]; omega, ?_⟩
  exact echoInside_of_le hfin hsign h0 hS (short_two_pow _) (hle.trans (Nat.mul_le_mul_right _ hupp.le))

/-- The first echo past the end, which the fuel reaches. -/
theorem exists_first_echo_outside (hS : S < 2 ^ 53) :
    ∃ n, n ≤ combFuel S delay ∧ (∀ k, k < n → echoInside S delay k = true) ∧ echoInside S delay n = false ∧
      ∀ i, echoInside S delay i = false → n ≤ i := by
  obtain ⟨i, hi, hout⟩ := exists_echo_outside hfin hsign h0 hS
  have hex : ∃ i, echoInside S delay i = false := ⟨i, hout⟩
  exact ⟨Nat.find hex, (Nat.find_min' hex hout).trans hi, fun k hk => Bool.not_eq_false _ ▸ Nat.find_min hex hk,
    Nat.find_spec hex, fun i hi => Nat.find_min' hex hi⟩

/-- Where S/Delay is below 2^53, echo ceil(S/Delay) is past the end. -/
theorem echoInside_ceil (hS : S < 2 ^ 53) (h : S * 2 ^ 1074 < funits delay * 2 ^ 53) :
    echoInside S delay ⌈(S : ℚ) / fval delay⌉₊ = false := by
  have hu : (0 : ℚ) < 2 ^ 1074 := by positivity
  have hpos : (0 : ℚ) < funits delay := by exact_mod_cast funits_pos h0
  have hquot : (S : ℚ) / fval delay = S * 2 ^ 1074 / funits delay := by
    rw [fval, fvalue, hsign, if_neg Bool.false_ne_true, Int.cast_natCast, div_div_eq_mul_div]
  have hshort : Short ⌈(S : ℚ) / fval delay⌉₊ := by
    have hle : ⌈(S : ℚ) / fval delay⌉₊ ≤ 2 ^ 53 := by
      rw [Nat.ceil_le, hquot, div_le_iff₀ hpos, mul_comm _ (funits delay : ℚ)]
      exact_mod_cast h.le
    rcases hle.lt_or_eq with hlt | heq
    · exact short_of_lt hlt
    · exact heq ▸ short_two_pow 53
  refine echoInside_of_le hfin hsign h0 hS hshort ?_
  have hceil := Nat.le_ceil ((S : ℚ) / fval delay)
  generalize ⌈(S : ℚ) / fval delay⌉₊ = N at *
  rw [hquot, div_le_iff₀ hpos] at hceil
  exact_mod_cast hceil

end

/-! ## The comb -/

/-- A delay not below a legal minimum is positive (R6, R155). -/
theorem delay_pos {p : Config.Params} (hp : p.legal = true) (hfin : isFin delay = true)
    (hmin : flt delay p.combDelayMin = false) : fsign delay = false ∧ isZero delay = false := by
  simp only [Config.Params.legal, Bool.and_eq_true, decide_eq_true_eq] at hp
  obtain ⟨⟨-, hlow, hupp⟩, -⟩ := hp
  generalize p.combDelayMin = c at *
  have hmag : fmagBits c = c.toNat := Nat.mod_eq_of_lt (by omega)
  have hsign : fsign c = false := decide_eq_false (by omega)
  have hnan : isNaN c = false := by
    rw [isNaN, hmag, infMag]
    exact decide_eq_false (by omega)
  rw [flt, isNaN_of_isFin hfin, hnan] at hmin
  have horder : forder c ≤ forder delay := not_lt.1 (of_decide_eq_false (by simpa using hmin))
  rw [forder, hsign, if_neg Bool.false_ne_true, hmag] at horder
  exact positive_of_forder_pos (by omega)

/-- A region of DMEM has at most 2^28 words (R6, R66). -/
theorem region_lt {p : Config.Params} (hp : p.legal = true) {b n : ℕ} (hr : b + n ≤ p.dmemWords) : n < 2 ^ 53 := by
  simp only [Config.Params.legal, Bool.and_eq_true, decide_eq_true_eq] at hp
  obtain ⟨⟨⟨⟨⟨-, -, hlog, -⟩, -⟩, -⟩, -⟩, -⟩ := hp
  have hwords : p.dmemWords ≤ 2 ^ 28 := Nat.pow_le_pow_right (by norm_num) hlog
  omega

theorem execIrComb_stores (hc : firstFailing (irCombChecks s) = none) :
    ∃ m, execIrComb s = .next { s with dmem := m, status := completionFlags s.cmd .none } ∧
      stored s.dmem m (argU s 0) (combTaps (argU s 1) (argF s 2) (argF s 3)) :=
  runCommand_stores hc rfl

/-- Settles O40: the fuel reaches the first echo past the end, so the loop ends by its own test. -/
theorem combResult : Obligations.CombResult := by
  intro s hp hfin hmin hr
  obtain ⟨hsign, h0⟩ := delay_pos hp hfin hmin
  have hS := region_lt hp hr
  obtain ⟨n, hfuel, hin, hout, hfirst⟩ := exists_first_echo_outside hfin hsign h0 hS
  have htaps := combTaps_eq_iterate (amp := argF s 3) hfuel hin hout
  have hc : firstFailing (irCombChecks s) = none := by simp [irCombChecks, inRange, hfin, hmin, hr]
  rw [exec]
  obtain ⟨m, hm, hstored⟩ := execIrComb_stores hc
  exact ⟨m, n, hm, hin, hout, htaps ▸ hstored, htaps ▸ combTaps_length _ _ _,
    fun hq => hfirst _ (echoInside_ceil hfin hsign h0 hS hq)⟩

end Sys2Proof.Proofs
end

section
/-! The Bessel-series unit (43_window.md R175, R176): its power terms and partial sums, at zero, at infinity, at a NaN, and under
a change of sign. -/

namespace Sys2Proof.Proofs

open Sys2Proof.Machine Sys2Proof.Laws

variable {x x' y y' : B64}

/-! ## Magnitudes of products and quotients -/

theorem roundUnits_le_infMag (n d : ℕ) : roundUnits n d ≤ infMag := Nat.min_le_right _ _

theorem fmagBits_fpack_roundUnits (neg : Bool) (n d : ℕ) : fmagBits (fpack neg (roundUnits n d)) = roundUnits n d :=
  fmagBits_fpack neg ((roundUnits_le_infMag n d).trans_lt infMag_lt)

theorem isNaN_congr (h : fmagBits x = fmagBits y) : isNaN x = isNaN y := by rw [isNaN, isNaN, h]

theorem isInf_congr (h : fmagBits x = fmagBits y) : isInf x = isInf y := by rw [isInf, isInf, h]

theorem isZero_congr (h : fmagBits x = fmagBits y) : isZero x = isZero y := by rw [isZero, isZero, h]

theorem funits_congr (h : fmagBits x = fmagBits y) : funits x = funits y := by
  rw [funits_eq_magUnits, funits_eq_magUnits, h]

/-- The magnitude of a product is one of the magnitudes of its operands. -/
theorem fmagBits_fmul_congr (hx : fmagBits x = fmagBits x') (hy : fmagBits y = fmagBits y') :
    fmagBits (fmul x y) = fmagBits (fmul x' y') := by
  rw [fmul, fmul, isNaN_congr hx, isNaN_congr hy, isInf_congr hx, isInf_congr hy, isZero_congr hx, isZero_congr hy,
    funits_congr hx, funits_congr hy]
  split_ifs <;> simp only [fmagBits_fpack_roundUnits, fmagBits_fpack _ infMag_lt]

/-- The magnitude of a quotient is one of the magnitudes of its operands. -/
theorem fmagBits_fdiv_congr (hx : fmagBits x = fmagBits x') (hy : fmagBits y = fmagBits y') :
    fmagBits (fdiv x y) = fmagBits (fdiv x' y') := by
  rw [fdiv, fdiv, isNaN_congr hx, isNaN_congr hy, isInf_congr hx, isInf_congr hy, isZero_congr hx, isZero_congr hy,
    funits_congr hx, funits_congr hy]
  split_ifs <;> simp only [fmagBits_fpack_roundUnits, fmagBits_fpack _ infMag_lt, fmagBits_fpack _ (Nat.two_pow_pos 63)]

/-- A square does not see the sign. -/
theorem fmul_self_congr (h : fmagBits x = fmagBits y) : fmul x x = fmul y y := by
  rw [fmul, fmul, isNaN_congr h, isInf_congr h, isZero_congr h, funits_congr h, bne_self_eq_false, bne_self_eq_false]

/-! ## Zeros and infinities in products and quotients -/

theorem isZero_fpack (neg : Bool) : isZero (fpack neg 0) = true := by cases neg <;> decide

theorem isInf_fpack_infMag (neg : Bool) : isInf (fpack neg infMag) = true := by cases neg <;> decide

theorem roundUnits_zero (d : ℕ) : roundUnits 0 d = 0 := by
  simp [roundUnits, roundHalfEven]

theorem fmul_of_isFin_isZero (hx : isFin x = true) (hy : isZero y = true) : fmul x y = fpack (fsign x != fsign y) 0 := by
  rw [fmul_of_isFin hx (isFin_of_isZero hy), funits_of_isZero hy, mul_zero, roundUnits_zero]

theorem isZero_fmul (hx : isFin x = true) (hy : isZero y = true) : isZero (fmul x y) = true := by
  rw [fmul_of_isFin_isZero hx hy, isZero_fpack]

theorem isInf_fmul (hx : isFin x = true) (h0 : isZero x = false) (hy : isInf y = true) : isInf (fmul x y) = true := by
  rw [fmul_of_isFin_isInf hy hx, h0, if_neg Bool.false_ne_true, isInf_fpack_infMag]

theorem fmul_self_of_isZero (h : isZero x = true) : fmul x x = plusZero := by
  rw [fmul_of_isFin_isZero (isFin_of_isZero h) h, bne_self_eq_false]
  rfl

theorem fmul_self_of_isInf (h : isInf x = true) : fmul x x = fpack false infMag := by
  rw [fmul_of_isInf h h, bne_self_eq_false]

/-- The integers below 2^53 other than 0 are finite binary64 values other than 0. -/
theorem fofNat_isFin_nonzero {i : ℕ} (h0 : i ≠ 0) (h : i < 2 ^ 53) :
    isFin (fofNat i) = true ∧ isZero (fofNat i) = false := by
  obtain ⟨hfin, hval⟩ := fofNat_short (short_of_lt h) (natCast_lt_threshold (h.le.trans (by norm_num)))
  refine ⟨hfin, Bool.eq_false_iff.2 fun hz => h0 ?_⟩
  rw [fval_of_isZero hz, Rat.cast_zero] at hval
  exact_mod_cast hval.symm

theorem isZero_fdiv_fofNat {i : ℕ} (hx : isZero x = true) (hi : i + 1 < 2 ^ 53) :
    isZero (fdiv x (fofNat (i + 1))) = true := by
  obtain ⟨hfin, h0⟩ := fofNat_isFin_nonzero (Nat.succ_ne_zero i) hi
  rw [fdiv_of_isFin (isFin_of_isZero hx) hfin h0, funits_of_isZero hx, zero_mul, roundUnits_zero, isZero_fpack]

theorem isInf_fdiv_fofNat {i : ℕ} (hx : isInf x = true) (hi : i + 1 < 2 ^ 53) :
    isInf (fdiv x (fofNat (i + 1))) = true := by
  rw [fdiv_of_isInf_isFin hx (fofNat_isFin_nonzero (Nat.succ_ne_zero i) hi).1, isInf_fpack_infMag]

/-! ## The power terms and the partial sums -/

/-- The power term number i of R175, hxⁱ/i!. -/
def besselTerm (hx : B64) : ℕ → B64
  | 0 => ONE
  | i + 1 => fdiv (fmul (besselTerm hx i) hx) (fofNat (i + 1))

/-- The sum of the squares of the power terms 0..i. -/
def besselSum (hx : B64) : ℕ → B64
  | 0 => ONE
  | i + 1 => fadd (besselSum hx i) (fmul (besselTerm hx (i + 1)) (besselTerm hx (i + 1)))

/-- n turns of the loop of R175 add the next n terms. -/
theorem besselLoop_eq_besselSum (hx : B64) (n i : ℕ) :
    besselLoop hx n (i + 1) (besselTerm hx i) (besselSum hx i) = besselSum hx (i + n) := by
  induction n generalizing i with
  | zero => rfl
  | succ n ih => exact (ih (i + 1)).trans (by rw [Nat.add_right_comm, Nat.add_assoc])

theorem besselSeries_eq_besselSum (n : ℕ) (x : B64) : besselSeries n x = besselSum (fmul x HALF) (n - 1) :=
  (besselLoop_eq_besselSum (fmul x HALF) (n - 1) 0).trans (by rw [Nat.zero_add])

/-- The recursion of R175 has the power terms as its only solution. -/
theorem eq_besselTerm {hx : B64} {t : ℕ → B64} (h0 : t 0 = ONE)
    (hsucc : ∀ i, t (i + 1) = fdiv (fmul (t i) hx) (fofNat (i + 1))) (i : ℕ) : t i = besselTerm hx i := by
  induction i with
  | zero => exact h0
  | succ i ih => rw [hsucc, ih, besselTerm]

theorem eq_besselSum {hx : B64} {sum : ℕ → B64} (h0 : sum 0 = ONE)
    (hsucc : ∀ i, sum (i + 1) = fadd (sum i) (fmul (besselTerm hx (i + 1)) (besselTerm hx (i + 1)))) (i : ℕ) :
    sum i = besselSum hx i := by
  induction i with
  | zero => exact h0
  | succ i ih => rw [hsucc, ih, besselSum]

/-- Settles O42: the loop's power term and sum run through the two sequences. -/
theorem bessel0Result : Obligations.Bessel0Result := by
  intro s t sum ht0 hs0 ht hs
  obtain rfl : t = besselTerm (fmul (argF s 0) HALF) := funext (eq_besselTerm ht0 ht)
  rw [exec, execBessel0, eq_besselSum hs0 hs, ← besselSeries_eq_besselSum]
  exact runCommand_result rfl rfl

/-! ## Special values and evenness -/

section
variable {hx : B64} {i : ℕ}

/-- At a zero every term but the first is a zero. -/
theorem isZero_besselTerm (h : isZero hx = true) (hi : i + 1 < 2 ^ 53) : isZero (besselTerm hx (i + 1)) = true := by
  refine isZero_fdiv_fofNat (isZero_fmul ?_ h) hi
  induction i with
  | zero => exact (by decide : isFin ONE = true)
  | succ i ih =>
    have hi' := Nat.lt_of_succ_lt hi
    exact isFin_of_isZero (isZero_fdiv_fofNat (isZero_fmul (ih hi') h) hi')

theorem besselSum_of_isZero (h : isZero hx = true) (hi : i < 2 ^ 53) : besselSum hx i = ONE := by
  induction i with
  | zero => rfl
  | succ i ih =>
    rw [besselSum, ih (Nat.lt_of_succ_lt hi), fmul_self_of_isZero (isZero_besselTerm h hi)]
    decide +kernel

/-- At an infinity every term but the first is an infinity. -/
theorem isInf_besselTerm (h : isInf hx = true) (hi : i + 1 < 2 ^ 53) : isInf (besselTerm hx (i + 1)) = true := by
  refine isInf_fdiv_fofNat ?_ hi
  induction i with
  | zero => exact isInf_fmul (x := ONE) (by decide) (by decide) h
  | succ i ih =>
    have hi' := Nat.lt_of_succ_lt hi
    rw [besselTerm, fmul_of_isInf (isInf_fdiv_fofNat (ih hi') hi') h, isInf_fpack_infMag]

theorem besselSum_of_isInf (h : isInf hx = true) (hi : i + 1 < 2 ^ 53) : besselSum hx (i + 1) = fpack false infMag := by
  have hinf := isInf_fpack_infMag false
  induction i with
  | zero =>
    rw [besselSum, fmul_self_of_isInf (isInf_besselTerm h hi)]
    exact fadd_of_isFin_isInf hinf (y := ONE) (by decide)
  | succ i ih =>
    rw [besselSum, fmul_self_of_isInf (isInf_besselTerm h hi), ih (Nat.lt_of_succ_lt hi), fadd_of_isInf hinf hinf,
      if_pos rfl]

theorem besselSum_of_isNaN (h : isNaN hx = true) : besselSum hx (i + 1) = canonicalNaN := by
  have hnan : isNaN canonicalNaN = true := by decide
  have hterm : besselTerm hx (i + 1) = canonicalNaN := by
    rw [besselTerm, fmul_of_isNaN (.inr h), fdiv_of_isNaN (.inl hnan)]
  rw [besselSum, hterm, fmul_of_isNaN (.inl hnan), fadd_of_isNaN (.inr hnan)]

/-- The sign of x/2 reaches only the signs of the terms. -/
theorem fmagBits_besselTerm_congr {hx' : B64} (h : fmagBits hx = fmagBits hx') (i : ℕ) :
    fmagBits (besselTerm hx i) = fmagBits (besselTerm hx' i) := by
  induction i with
  | zero => rfl
  | succ i ih => exact fmagBits_fdiv_congr (fmagBits_fmul_congr ih h) rfl

theorem besselSum_congr {hx' : B64} (h : fmagBits hx = fmagBits hx') (i : ℕ) : besselSum hx i = besselSum hx' i := by
  induction i with
  | zero => rfl
  | succ i ih => rw [besselSum, besselSum, ih, fmul_self_congr (fmagBits_besselTerm_congr h (i + 1))]

end

theorem besselSeries_of_isZero {n : ℕ} (hn : n ≤ 255) (h : isZero x = true) : besselSeries n x = ONE := by
  have hhalf : isZero (fmul x HALF) = true := by
    have hx : fmagBits x = fmagBits plusZero := of_decide_eq_true h
    rw [isZero_congr (fmagBits_fmul_congr hx rfl)]
    decide +kernel
  rw [besselSeries_eq_besselSum, besselSum_of_isZero hhalf (by omega)]

theorem besselSeries_fneg (n : ℕ) (x : B64) : besselSeries n (fneg x) = besselSeries n x := by
  rw [besselSeries_eq_besselSum, besselSeries_eq_besselSum, besselSum_congr (fmagBits_fmul_congr (fmagBits_fneg x) rfl)]

theorem besselSeries_of_isInf {n : ℕ} (h2 : 2 ≤ n) (hn : n ≤ 255) (h : isInf x = true) :
    besselSeries n x = fpack false infMag := by
  obtain ⟨k, rfl⟩ := Nat.exists_eq_add_of_le' h2
  have hhalf : isInf (fmul x HALF) = true := by
    rw [fmul_of_isInf_isFin h (by decide), show isZero HALF = false by decide, if_neg Bool.false_ne_true,
      isInf_fpack_infMag]
  rw [besselSeries_eq_besselSum]
  exact besselSum_of_isInf hhalf (by omega)

theorem besselSeries_of_isNaN {n : ℕ} (h2 : 2 ≤ n) (h : isNaN x = true) : besselSeries n x = canonicalNaN := by
  obtain ⟨k, rfl⟩ := Nat.exists_eq_add_of_le' h2
  rw [besselSeries_eq_besselSum, fmul_of_isNaN (.inl h)]
  exact besselSum_of_isNaN (by decide)

/-- Settles O43: the sign of the argument ends in the signs of the terms, which are squared, and a special argument makes every
term but the first a special value. -/
theorem besselProperties : Obligations.BesselProperties := fun n _ hn =>
  ⟨besselSeries_of_isZero hn (by decide), besselSeries_of_isZero hn (by decide), besselSeries_fneg n,
    fun h2 _ => besselSeries_of_isInf h2 hn, fun h2 _ => besselSeries_of_isNaN h2⟩

end Sys2Proof.Proofs
end

section
/-! The windows (43_window.md R170 to R174, R177 to R189): what a window command stores, and that every envelope is the same
at two positions that mirror each other. -/

namespace Sys2Proof.Proofs

open Sys2Proof.Machine Sys2Proof.Laws

variable {s : State} {env : Nat → Nat → B64}

/-! ## The envelopes written out -/

theorem windowValue_eq_valueAt (env : Nat → Nat → B64) (L i : Nat) : windowValue env L i = valueAt env L i := by
  rw [windowValue, valueAt, winNum, winDen]
  split <;> rfl

theorem cosineSum_two (a0 a1 : B64) : cosineSum [a0, a1] = cosSum1 a0 a1 := by
  funext p q
  simp [cosineSum, cosineSumFrom, cosSum1]

theorem cosineSum_three (a0 a1 a2 : B64) : cosineSum [a0, a1, a2] = cosSum2 a0 a1 a2 := by
  funext p q
  simp [cosineSum, cosineSumFrom, cosSum1, cosSum2]

theorem cosineSum_four (a0 a1 a2 a3 : B64) : cosineSum [a0, a1, a2, a3] = cosSum3 a0 a1 a2 a3 := by
  funext p q
  simp [cosineSum, cosineSumFrom, cosSum1, cosSum2, cosSum3]

theorem cosineSum_five (a0 a1 a2 a3 a4 : B64) : cosineSum [a0, a1, a2, a3, a4] = cosSum4 a0 a1 a2 a3 a4 := by
  funext p q
  simp [cosineSum, cosineSumFrom, cosSum1, cosSum2, cosSum3, cosSum4]

theorem bartlett_eq : bartlett = fun p q : Nat => rnq ((q : Int) - |2 * (p : Int) - q|) q := by
  funext p q
  rw [bartlett, Int.natCast_natAbs]

/-- Each window without a parameter tapers by the envelope of its row (R172 to R174). -/
theorem exec_window (s : State) :
    ∀ w ∈ windowTable, exec w.1 s = runCommand (windowChecks s) (taper w.2) s := by
  rw [windowTable, ← bartlett_eq]
  simp only [List.forall_mem_cons, ← cosineSum_two, ← cosineSum_three, ← cosineSum_four, ← cosineSum_five]
  exact ⟨rfl, rfl, rfl, rfl, rfl, rfl, rfl, rfl, rfl, fun _ h => absurd h List.not_mem_nil⟩

/-! ## The commands -/

theorem windowChecks_pass (hr : argU s 0 + argU s 1 ≤ s.params.dmemWords) : firstFailing (windowChecks s) = none := by
  simp [windowChecks, inRange, hr]

/-- The tapering of a written region (R170). -/
theorem taper_of_written (env : Nat → Nat → B64) (hw : written s.dmem (argU s 0) (argU s 1)) :
    taper env s = .ok (setDmem s (writeWords s.dmem (argU s 0)
      ((wordsAt s.dmem (argU s 0) (argU s 1)).mapIdx fun i x => fmul x (valueAt env (argU s 1) i)))) := by
  rw [taper, readWords_written hw]
  simp only [windowValue_eq_valueAt]
  rfl

/-- Settles O44: each command is the tapering by its row's envelope, of a region that reads without a fault. -/
theorem windowResults : Obligations.WindowResults := by
  intro w s hmem hr hw
  rw [exec_window s w hmem]
  exact runCommand_stores (windowChecks_pass hr) (taper_of_written w.2 hw)

/-- Settles O45: only a zero shape leaves the region unread. -/
theorem kaiserResult : Obligations.KaiserResult := by
  intro s hr
  rw [exec, execWinKaiser]
  have hc : firstFailing (winKaiserChecks s) = none := windowChecks_pass hr
  refine ⟨fun hz => runCommand_stores hc (if_pos hz), fun hz hw => runCommand_stores hc ?_⟩
  rw [hz, if_neg Bool.false_ne_true]
  exact taper_of_written (kaiserEnvelope s.params.besselTerms (argF s 2)) hw

/-! ## Symmetry -/

/-- An envelope is the same at x and at 1 - x: at p and at p' of p + p'. -/
def Mirrored (env : Nat → Nat → B64) : Prop := ∀ p p', env p (p + p') = env p' (p + p')

/-- Positions i and L-1-i mirror each other, for both parities of L (R171). -/
theorem Mirrored.valueAt_eq (h : Mirrored env) {L i : Nat} (hi : i < L) : valueAt env L i = valueAt env L (L - 1 - i) := by
  unfold valueAt
  split
  · have := h i (L - 1 - i)
    rwa [show i + (L - 1 - i) = L - 1 by omega] at this
  · have := h (2 * i + 1) (2 * (L - 1 - i) + 1)
    rwa [show 2 * i + 1 + (2 * (L - 1 - i) + 1) = 2 * L by omega] at this

theorem cos2pi_mod (a q : Nat) : cos2pi (a % q) q = cos2pi a q := by rw [cos2pi, cos2pi, Nat.mod_mod]

/-- A fraction in lowest terms below one turn is only folded. -/
theorem cos2pi_of_coprime {n d : Nat} (h : n < d) (hg : Nat.Coprime n d) :
    cos2pi n d = if 2 * n ≤ d then cosTurn n d else cosTurn (d - n) d := by
  rw [cos2pi, Nat.mod_eq_of_lt h, hg, Nat.div_one, Nat.div_one]

/-- Two fractions that make up one turn reduce to two that fold to the same one. -/
theorem cos2pi_mirror {r r' : Nat} (hr : 0 < r) (hr' : 0 < r') : cos2pi r (r + r') = cos2pi r' (r + r') := by
  obtain ⟨n, n', hcop, hn, hn'⟩ := Nat.exists_coprime r r'
  have hg : 0 < Nat.gcd r r' := Nat.gcd_pos_of_pos_left _ hr
  generalize Nat.gcd r r' = g at *
  subst hn hn'
  have hpos := Nat.pos_of_mul_pos_right hr
  have hpos' := Nat.pos_of_mul_pos_right hr'
  rw [← Nat.add_mul, cos2pi_mul_right _ _ hg, cos2pi_mul_right _ _ hg,
    cos2pi_of_coprime (by omega) (Nat.coprime_self_add_right.2 hcop),
    cos2pi_of_coprime (by omega) (Nat.coprime_add_self_right.2 hcop.symm), Nat.add_sub_cancel_left, Nat.add_sub_cancel]
  rcases lt_trichotomy n n' with h | rfl | h
  · rw [if_pos (by omega), if_neg (by omega)]
  · rfl
  · rw [if_neg (by omega), if_pos (by omega)]

/-- Two fractions that make up whole turns have the same cosine (R173). -/
theorem cos2pi_of_dvd_add {a b q : Nat} (h : q ∣ a + b) : cos2pi a q = cos2pi b q := by
  rcases Nat.eq_zero_or_pos q with rfl | hq
  · obtain ⟨rfl, rfl⟩ := Nat.add_eq_zero_iff.1 (Nat.eq_zero_of_zero_dvd h)
    rfl
  have ha := Nat.mod_lt a hq
  have hb := Nat.mod_lt b hq
  have hsum : (a % q + b % q) % q = 0 := by rw [← Nat.add_mod, Nat.mod_eq_zero_of_dvd h]
  rw [← cos2pi_mod a, ← cos2pi_mod b]
  generalize a % q = r at *
  generalize b % q = r' at *
  rcases Nat.lt_or_ge (r + r') q with hlt | hge
  · rw [Nat.mod_eq_of_lt hlt] at hsum
    obtain ⟨rfl, rfl⟩ := Nat.add_eq_zero_iff.1 hsum
    rfl
  · rw [Nat.mod_eq_sub_mod hge, Nat.mod_eq_of_lt (by omega)] at hsum
    obtain rfl : q = r + r' := by omega
    exact cos2pi_mirror (by omega) (by omega)

theorem cos2pi_mul_mirror (m p p' : Nat) : cos2pi (m * p) (p + p') = cos2pi (m * p') (p + p') :=
  cos2pi_of_dvd_add (by rw [← Nat.mul_add]; exact Nat.dvd_mul_left _ m)

theorem mirrored_cosSum1 (a0 a1 : B64) : Mirrored (cosSum1 a0 a1) := fun p p' => by
  rw [cosSum1, cosSum1, cos2pi_of_dvd_add (Nat.dvd_refl (p + p'))]

theorem mirrored_cosSum2 (a0 a1 a2 : B64) : Mirrored (cosSum2 a0 a1 a2) := fun p p' => by
  rw [cosSum2, cosSum2, mirrored_cosSum1, cos2pi_mul_mirror]

theorem mirrored_cosSum3 (a0 a1 a2 a3 : B64) : Mirrored (cosSum3 a0 a1 a2 a3) := fun p p' => by
  rw [cosSum3, cosSum3, mirrored_cosSum2, cos2pi_mul_mirror]

theorem mirrored_cosSum4 (a0 a1 a2 a3 a4 : B64) : Mirrored (cosSum4 a0 a1 a2 a3 a4) := fun p p' => by
  rw [cosSum4, cosSum4, mirrored_cosSum3, cos2pi_mul_mirror]

/-- 2x - 1 changes its sign between mirrored positions. -/
theorem position_mirror (p p' : Nat) : 2 * (p : Int) - (p + p' : Nat) = -(2 * (p' : Int) - (p + p' : Nat)) := by
  omega

theorem mirrored_bartlett : Mirrored fun p q => rnq ((q : Int) - |2 * (p : Int) - q|) q := fun p p' => by
  dsimp only
  rw [position_mirror, abs_neg]

theorem mirrored_welch : Mirrored fun p q => rnq ((q : Int) * q - (2 * (p : Int) - q) * (2 * (p : Int) - q)) (q * q) :=
  fun p p' => by
    dsimp only
    rw [position_mirror, neg_mul_neg]

theorem fmagBits_rnq_neg (n : Int) (d : Nat) : fmagBits (rnq (-n) d) = fmagBits (rnq n d) := by
  rw [rnq, rnq, Int.natAbs_neg]
  by_cases h : n = 0
  · rw [if_pos h, if_pos (neg_eq_zero.2 h)]
  · rw [if_neg h, if_neg (neg_ne_zero.2 h), fmagBits_fpack_roundUnits, fmagBits_fpack_roundUnits]

/-- The Kaiser envelope reads 2x - 1 through its square alone (R177). -/
theorem mirrored_kaiser (terms : Nat) (alpha : B64) : Mirrored (kaiserEnvelope terms alpha) := fun p p' => by
  rw [kaiserEnvelope, kaiserEnvelope, position_mirror, fmul_self_congr (fmagBits_rnq_neg _ _)]

theorem mirrored_window : ∀ w ∈ windowTable, Mirrored w.2 := by
  simp only [windowTable, List.forall_mem_cons]
  exact ⟨mirrored_cosSum1 _ _, mirrored_cosSum1 _ _, mirrored_bartlett, mirrored_cosSum3 _ _ _ _, mirrored_cosSum2 _ _ _,
    mirrored_cosSum3 _ _ _ _, mirrored_cosSum3 _ _ _ _, mirrored_cosSum4 _ _ _ _ _, mirrored_welch,
    fun _ h => absurd h List.not_mem_nil⟩

/-- Settles O46: every envelope is mirrored, and so are the positions. -/
theorem windowSymmetry : Obligations.WindowSymmetry := fun _ _ hi =>
  ⟨fun w hw => (mirrored_window w hw).valueAt_eq hi, fun terms alpha => (mirrored_kaiser terms alpha).valueAt_eq hi⟩

end Sys2Proof.Proofs
end

section
/-! The per-segment loop of the overlap-add engine (44_overlap_add.md R202, R205): the spectral product word by word, one
segment, and how the loop goes over parts of a buffer. -/

namespace Sys2Proof.Proofs

open Sys2Proof.Machine Sys2Proof.Laws

variable {ch : ChanCtx} {F : Nat} {xs X Y H : List B64}

/-! ## The spectral product -/

/-- The bins of `SPMUL(H, X)` (R202): bin 0 packs the two real bins. -/
def productBin (H X : List B64) (k : Nat) : Cplx :=
  if k = 0 then ⟨fmul (fget H 0) (fget X 0), fmul (fget H 1) (fget X 1)⟩ else cmul (binAt H k) (binAt X k)

theorem spmul_eq_interleave (F : Nat) (H X : List B64) :
    spmul F H X = interleave ((List.range (F / 2)).map (productBin H X)) := by
  rw [spmul, interleave, List.flatMap_map]
  congr 1
  funext k
  unfold productBin
  split <;> rfl

theorem fget_ext (hl : X.length = Y.length) (h : ∀ i, i < X.length → fget X i = fget Y i) : X = Y :=
  List.ext_getElem hl fun i hx hy => by
    rw [← List.getD_eq_getElem X plusZero hx, ← List.getD_eq_getElem Y plusZero hy]
    exact h i hx

/-- A list of F words with the bins of the product is the product. -/
theorem eq_spmul (heven : F % 2 = 0) (hY : Y.length = F)
    (hbin : ∀ k, k < F / 2 → fget Y (2 * k) = (productBin H X k).re ∧ fget Y (2 * k + 1) = (productBin H X k).im) :
    Y = spmul F H X := by
  rw [spmul_eq_interleave]
  have hlen : ((List.range (F / 2)).map (productBin H X)).length = F / 2 := by simp
  refine fget_ext (by rw [interleave_length, hlen, hY]; omega) fun i hi => ?_
  have hk : i / 2 < ((List.range (F / 2)).map (productBin H X)).length := by omega
  obtain ⟨hre, him⟩ := fget_interleave hk
  obtain ⟨hre', him'⟩ := hbin (i / 2) (by omega)
  rw [cget_eq_getElem hk, List.getElem_map, List.getElem_range] at hre him
  obtain h | h : i = 2 * (i / 2) ∨ i = 2 * (i / 2) + 1 := by omega
  · rw [h, hre, hre']
  · rw [h, him, him']

/-! ## One segment -/

/-- The segment padded to F words (R205). -/
theorem padTo_take (F seg : Nat) (xs : List B64) :
    padTo F (xs.take seg) = (List.range F).map (fun i => if i < seg then xs.getD i 0#64 else 0#64) := by
  refine List.map_congr_left fun i _ => ?_
  rw [List.getD_eq_getElem?_getD, List.getElem?_take]
  split <;> rfl

section
variable {T : List B64}
  (hT : T = rfftI (Nat.log2 ch.fft)
    (spmul ch.fft ch.spectrum (rfftF (Nat.log2 ch.fft) (padTo ch.fft (xs.take ch.seg)))))
  (hlen : T.length = ch.fft)
include hT hlen

theorem segmentBlock_length : (segmentBlock ch xs).length = ch.fft := by
  rw [segmentBlock, List.length_mapIdx, ← hT, hlen]

/-- Word i of the inverse transform T after the tail is added (R205). -/
theorem segmentBlock_getElem? {i : Nat} (hi : i < ch.fft) :
    (segmentBlock ch xs)[i]? =
      some (if i < ch.fft - ch.seg then fadd (fget T i) (fget ch.tail i) else fget T i) := by
  have hi : i < T.length := hlen.symm ▸ hi
  have hget : fget T i = T[i] := List.getD_eq_getElem T _ hi
  rw [segmentBlock, ← hT, List.getElem?_mapIdx, List.getElem?_eq_getElem hi, hget]
  rfl

/-- The output words of a segment. -/
theorem olaSegment_words (hlt : ch.seg < ch.fft) :
    (olaSegment ch xs).1.length = ch.seg ∧ ∀ i, i < ch.seg → (olaSegment ch xs).1[i]? =
      some (if i < ch.fft - ch.seg then fadd (fget T i) (fget ch.tail i) else fget T i) := by
  refine ⟨?_, fun i hi => ?_⟩
  · rw [olaSegment, List.length_take, segmentBlock_length hT hlen, min_eq_left hlt.le]
  · rw [olaSegment, List.getElem?_take, if_pos hi]
    exact segmentBlock_getElem? hT hlen (hi.trans hlt)

/-- The tail a segment leaves. -/
theorem olaSegment_tail : (olaSegment ch xs).2 = { ch with tail := (List.range (ch.fft - ch.seg)).map (fun i =>
    if ch.seg + i < ch.fft - ch.seg then fadd (fget T (ch.seg + i)) (fget ch.tail (ch.seg + i))
    else fget T (ch.seg + i)) } := by
  refine congrArg (fun t => ({ ch with tail := t } : ChanCtx)) (List.map_congr_left fun i hi => ?_)
  have hi : i < ch.fft - ch.seg := List.mem_range.1 hi
  rw [fget, List.getD_eq_getElem?_getD, segmentBlock_getElem? hT hlen (by omega), Option.getD_some]

end

/-- Settles O50: the product is determined bin by bin, and the loop appends the words of its segments. -/
theorem olaSegmentRule : Obligations.OlaSegmentRule := by
  intro ch n xs X Y T hseg hlt _ hX hY h0 h1 hbins hT hlen
  rw [← padTo_take] at hX
  have heven : ch.fft % 2 = 0 := by
    rw [hT, rfftI_length] at hlen
    omega
  have hprod : Y = spmul ch.fft ch.spectrum X := eq_spmul heven hY fun k hk => by
    by_cases hk0 : k = 0
    · subst hk0
      exact ⟨h0, h1⟩
    · rw [productBin, if_neg hk0]
      exact hbins k (Nat.pos_of_ne_zero hk0) hk
  rw [hprod, hX] at hT
  obtain ⟨hout, hwords⟩ := olaSegment_words hT hlen hlt
  have htail := olaSegment_tail hT hlen
  refine ⟨fun i hi => ?_, _, rfl, ?_, ?_⟩
  · rw [olaRun, List.getElem?_append_left (hout.symm ▸ hi)]
    exact hwords i hi
  · rw [olaRun, htail]
  · rw [olaRun, htail, ← hout, List.drop_left]

/-! ## Parts of a buffer -/

theorem olaRun_seg (n : Nat) (ch : ChanCtx) (xs : List B64) : (olaRun n ch xs).2.seg = ch.seg := by
  obtain ⟨t, ht, -⟩ := olaRun_channel n ch xs
  rw [ht]

/-- The loop over m + n segments is the loop over m of them and then over the next n, with the tail those m leave. -/
theorem olaRun_add (m n : Nat) (ch : ChanCtx) (xs : List B64) :
    olaRun (m + n) ch xs =
      ((olaRun m ch xs).1 ++ (olaRun n (olaRun m ch xs).2 (xs.drop (m * ch.seg))).1,
       (olaRun n (olaRun m ch xs).2 (xs.drop (m * ch.seg))).2) := by
  induction m generalizing ch xs with
  | zero => simp [olaRun]
  | succ m ih =>
    have hdrop : (xs.drop ch.seg).drop (m * ch.seg) = xs.drop ((m + 1) * ch.seg) := by
      rw [List.drop_drop, Nat.succ_mul, Nat.add_comm]
    have hseg : (olaSegment ch xs).2.seg = ch.seg := rfl
    rw [Nat.add_right_comm, olaRun, ih, hseg, hdrop, olaRun, List.append_assoc]

/-- A segment reads its own words alone (R205). -/
theorem olaSegment_take (ch : ChanCtx) (xs : List B64) {k : Nat} (h : ch.seg ≤ k) :
    olaSegment ch (xs.take k) = olaSegment ch xs := by
  rw [olaSegment, olaSegment, segmentBlock, segmentBlock, List.take_take, min_eq_left h]

/-- The loop over n segments reads n·seg words alone. -/
theorem olaRun_take (n : Nat) (ch : ChanCtx) (xs : List B64) : olaRun n ch (xs.take (n * ch.seg)) = olaRun n ch xs := by
  induction n generalizing ch xs with
  | zero => rfl
  | succ n ih =>
    have hle : ch.seg ≤ (n + 1) * ch.seg := Nat.le_mul_of_pos_left _ n.succ_pos
    have hseg : (olaSegment ch xs).2.seg = ch.seg := rfl
    have hdrop : (xs.take ((n + 1) * ch.seg)).drop ch.seg = (xs.drop ch.seg).take (n * (olaSegment ch xs).2.seg) := by
      rw [List.drop_take, hseg, Nat.succ_mul, Nat.add_sub_cancel]
    rw [olaRun, olaRun, olaSegment_take ch xs hle, hdrop, ih]

/-- The buffer size of a channel plays no part in a segment, and so none in the loop (R207). -/
theorem olaRun_buf (n B : Nat) (ch : ChanCtx) (xs : List B64) :
    olaRun n { ch with buf := B } xs = ((olaRun n ch xs).1, { (olaRun n ch xs).2 with buf := B }) := by
  induction n generalizing ch xs with
  | zero => rfl
  | succ n ih =>
    have hseg : olaSegment { ch with buf := B } xs = ((olaSegment ch xs).1, { (olaSegment ch xs).2 with buf := B }) := rfl
    rw [olaRun, olaRun, hseg, ih]

/-- n segments of a channel with a transform size answer n·seg words. -/
theorem olaRun_length_of_transformSize {p : Config.Params} (hF : transformSize p ch.fft = true) (hlt : ch.seg < ch.fft)
    (n : Nat) (xs : List B64) : (olaRun n ch xs).1.length = n * ch.seg := by
  obtain ⟨k, hk, -, hFk⟩ := (transformSize_iff p ch.fft).1 hF
  exact olaRun_length n xs hlt.le (by rw [hFk, Nat.log2_two_pow])
    (by rw [hFk]; exact Nat.mod_eq_zero_of_dvd (dvd_pow_self 2 (by omega)))

end Sys2Proof.Proofs
end

section
/-! The overlap-add commands (44_overlap_add.md R203 to R206): what each leaves when its checks pass, and that it commutes with
any change of another channel. -/

namespace Sys2Proof.Proofs

open Sys2Proof.Machine Sys2Proof.Laws

variable {s : State} {c : Channel} {ch : ChanCtx}

/-! ## Configuration -/

/-- The end of the pipeline by its two registers (R203). -/
theorem endPipeline_eq (c : Nat) (s : State) :
    endPipeline c s = { s with
      pipeMode := if c = 0 ∨ (c = 1 ∧ s.pipeMode = .stereo) then .off else s.pipeMode
      pipeBuf := if c = 0 ∨ (c = 1 ∧ s.pipeMode = .stereo) then 0 else s.pipeBuf } := by
  have huses : pipelineUses s.pipeMode c = true ↔ c = 0 ∨ (c = 1 ∧ s.pipeMode = .stereo) := by simp [pipelineUses]
  simp only [endPipeline, huses]
  split <;> rfl

/-- A triple of R200 passes its checks. -/
theorem configChecks_pass {p : Config.Params} {seg fft buf : Nat} (hF : transformSize p fft = true) (hseg : 1 ≤ seg)
    (hlt : seg < fft) (hbuf : 1 ≤ buf) (hwords : buf ≤ p.dmemWords) (hmod : buf % seg = 0) :
    firstFailing (configChecks p seg fft buf) = none := by
  simp [configChecks, hF, hseg, hlt, hbuf, hwords, hmod]

/-- Settles O47: the checks of R200 pass, and the channel's use by the pipeline does not depend on its context. -/
theorem olaCfgResult : Obligations.OlaCfgResult := by
  intro s c k hc h2 hk hF hseg hlt hbuf hwords hmod
  have hconfig := configChecks_pass ((transformSize_iff _ _).2 ⟨k, h2, hk, hF⟩) hseg hlt hbuf hwords hmod
  have hchecks : firstFailing (olaCfgChecks c s) = none := by simp [olaCfgChecks, channelCheck, hc, hconfig]
  have hexec : exec (.olaCfg c) s =
      .next (complete .none (endPipeline c.val (setChan s c.val (configured (argU s 0) (argU s 1) (argU s 2))))) := by
    rw [exec, execOlaCfg]
    exact runCommand_ok hchecks rfl
  rw [hexec, endPipeline_eq]
  rfl

/-! ## The filter -/

/-- The response padded with +0, or cut, to F words (R204). -/
theorem padTo_wordsAt (m : Memory) (b n F : Nat) :
    padTo F (wordsAt m b (min n F)) =
      (List.range F).map (fun i => if i < n then (readWord m (b + i)).getD 0#64 else 0#64) := by
  refine List.map_congr_left fun i hi => ?_
  have hi : i < F := List.mem_range.1 hi
  by_cases hn : i < n
  · simp [wordsAt, hn, hi]
  · simp [wordsAt, hn, plusZero]

theorem setFilterEffect_of_read {k b n : Nat} {taps : List Word}
    (h : readWords s.dmem b (min n (chan s k).fft) = .ok taps) :
    setFilterEffect k b n s = .ok (setChan (growTwiddle (chan s k).fft s) k (withFilter taps (chan s k))) :=
  bind_eq_ok.2 ⟨taps, h, rfl⟩

/-- Settles O48: the words read are those the channel's transform takes. -/
theorem olaSetfilterResult : Obligations.OlaSetfilterResult := by
  rintro s c ch hc rfl hcfg hr hw
  have hchecks : firstFailing (olaSetfilterChecks c s) = none := by
    simp [olaSetfilterChecks, channelCheck, inRange, hc, hcfg, hr]
  refine (runCommand_ok hchecks (setFilterEffect_of_read (readWords_written hw))).trans ?_
  rw [growTwiddle_eq, ← padTo_wordsAt]
  rfl

/-! ## Streaming a buffer -/

theorem applyEffect_of_read {k b : Nat} {xs : List Word} (h : readWords s.dmem b (chan s k).buf = .ok xs) :
    applyEffect k b s = .ok (setChan (setDmem (growTwiddle (chan s k).fft s)
      (writeWords s.dmem b (olaBuffer (chan s k) xs).1)) k (olaBuffer (chan s k) xs).2) :=
  bind_eq_ok.2 ⟨xs, h, rfl⟩

/-- OLA_APPLY on a channel with a filter and a written region of its length in range (R205). -/
theorem execOlaApply_ok (hc : c.val < s.params.nch) (hch : ch = chan s c.val) (hcfg : ch.cfg = true)
    (hfilt : ch.filt = true) (hn : argU s 1 = ch.buf) (hr : argU s 0 + argU s 1 ≤ s.params.dmemWords)
    (hw : written s.dmem (argU s 0) (argU s 1)) :
    exec (.olaApply c) s = .next { s with
      dmem := writeWords s.dmem (argU s 0) (olaBuffer ch (wordsAt s.dmem (argU s 0) (argU s 1))).1
      twSize := max s.twSize ch.fft
      chans := s.chans.set c.val (olaBuffer ch (wordsAt s.dmem (argU s 0) (argU s 1))).2
      status := completionFlags s.cmd .none } := by
  subst hch
  have hchecks : firstFailing (olaApplyChecks c s) = none := by
    simp [olaApplyChecks, channelCheck, inRange, hc, hcfg, hfilt, ← hn, hr]
  refine (runCommand_ok hchecks (applyEffect_of_read (readWords_written (hn ▸ hw)))).trans ?_
  rw [growTwiddle_eq, hn]
  rfl

/-- Settles O49: the loop changes the channel's tail alone, and its segments fill the buffer. -/
theorem olaApplyResult : Obligations.OlaApplyResult := by
  rintro s c ch hs hc hch hcfg hfilt hn hr hw
  have hwf : ch.wf s.params := hch ▸ chan_wf hs c.val
  obtain ⟨hF, -, hlt, -, -, hmod, -⟩ := hwf.1 hcfg
  obtain ⟨tail, htail, -⟩ := olaRun_channel (ch.buf / ch.seg) ch (wordsAt s.dmem (argU s 0) (argU s 1))
  have hexec := execOlaApply_ok hc hch hcfg hfilt hn hr hw
  rw [olaBuffer, htail] at hexec
  refine ⟨_, tail, hexec, by rw [olaBuffer, htail], stored_writeWords _ _ _, ?_⟩
  rw [olaBuffer, olaRun_length_of_transformSize hF hlt, hn, Nat.div_mul_cancel (Nat.dvd_of_mod_eq_zero hmod)]

/-! ## Independence of the channels -/

section
variable {k k' : Nat} {x y : ChanCtx}

theorem setChan_comm (s : State) (h : k ≠ k') : setChan (setChan s k x) k' y = setChan (setChan s k' y) k x := by
  rw [setChan, setChan, setChan, setChan, List.set_comm _ _ h]

theorem growTwiddle_setChan (n : Nat) (s : State) : growTwiddle n (setChan s k x) = setChan (growTwiddle n s) k x := by
  rw [growTwiddle_eq, growTwiddle_eq]
  rfl

theorem setDmem_setChan (m : Memory) (s : State) : setDmem (setChan s k x) m = setChan (setDmem s m) k x := rfl

theorem endPipeline_setChan (s : State) : endPipeline k (setChan s k' x) = setChan (endPipeline k s) k' x := by
  rw [endPipeline_eq, endPipeline_eq]
  rfl

/-- A channel is configured apart from every other one (R203). -/
theorem configure_setChan (s : State) (h : k ≠ k') :
    endPipeline k (setChan (setChan s k' x) k y) = setChan (endPipeline k (setChan s k y)) k' x := by
  rw [setChan_comm s h.symm, endPipeline_setChan]

/-- A command commutes with a change of a channel that its checks do not read and its effect commutes with. -/
theorem runCommand_setChan {checks checks' : List Check} {effect : State → Except Fault State} (hc : checks' = checks)
    (he : effect (setChan s k x) = (setChan · k x) <$> effect s) :
    runCommand checks' effect (setChan s k x) = onNext (setChan · k x) (runCommand checks effect s) := by
  subst hc
  unfold runCommand
  rw [he]
  cases firstFailing checks' with
  | some code => rfl
  | none => cases effect s <;> rfl

theorem setFilterEffect_setChan (h : k ≠ k') (b n : Nat) :
    setFilterEffect k b n (setChan s k' x) = (setChan · k' x) <$> setFilterEffect k b n s := by
  simp only [setFilterEffect, chan_setChan_other s x h.symm, growTwiddle_setChan, map_bind, setChan_dmem]
  exact bind_congr fun _ => congrArg Except.ok (setChan_comm _ h.symm)

theorem applyEffect_setChan (h : k ≠ k') (b : Nat) :
    applyEffect k b (setChan s k' x) = (setChan · k' x) <$> applyEffect k b s := by
  simp only [applyEffect, chan_setChan_other s x h.symm, growTwiddle_setChan, setDmem_setChan, map_bind,
    setChan_dmem]
  exact bind_congr fun _ => congrArg Except.ok (setChan_comm _ h.symm)

end

/-- Settles O51: neither the checks nor the effect of the command read or write the other channel. -/
theorem channelsIndependent : Obligations.ChannelsIndependent := by
  intro i s c c' x hi h
  have hchan := chan_setChan_other s x h.symm
  cases i with
  | olaCfg d =>
    cases hi
    exact runCommand_setChan (checks := olaCfgChecks c s)
      (effect := fun s => .ok (endPipeline c.val (setChan s c.val (configured (argU s 0) (argU s 1) (argU s 2)))))
      rfl (congrArg Except.ok (configure_setChan s h))
  | olaSetfilter d =>
    cases hi
    refine runCommand_setChan ?_ (setFilterEffect_setChan h _ _)
    rw [olaSetfilterChecks, hchan]
    rfl
  | olaApply d =>
    cases hi
    refine runCommand_setChan ?_ (applyEffect_setChan h _)
    rw [olaApplyChecks, hchan]
    rfl
  | _ => cases hi

end Sys2Proof.Proofs
end

section
/-! Streaming equivalence (44_overlap_add.md R207): the state after j short OLA_APPLY commands holds the first j buffers'
segments of the one long run. -/

namespace Sys2Proof.Proofs

open Sys2Proof.Machine Sys2Proof.Laws

variable {s t : State} {c : Channel} {ch : ChanCtx} {xs : List B64} {b q j k : Nat}

/-! ## Regions -/

/-- A region stored in two parts. -/
theorem writeWords_append (m : Memory) (b : Nat) (vs ws : List Word) :
    writeWords m b (vs ++ ws) = writeWords (writeWords m b vs) (b + vs.length) ws := by
  induction vs generalizing m b with
  | nil => rfl
  | cons v vs ih => rw [List.cons_append, writeWords, ih, writeWords, List.length_cons, Nat.add_right_comm, Nat.add_assoc]

theorem wordsAt_congr {m m' : Memory} {n : Nat} (h : ∀ k, k < n → readWord m' (b + k) = readWord m (b + k)) :
    wordsAt m' b n = wordsAt m b n :=
  List.map_congr_left fun k hk => by rw [h k (List.mem_range.1 hk)]

/-- The words of the last part of a region. -/
theorem wordsAt_drop (m : Memory) (b i n : Nat) : (wordsAt m b (i + n)).drop i = wordsAt m (b + i) n := by
  refine List.ext_getElem (by simp) fun k _ _ => ?_
  simp [wordsAt, Nat.add_assoc]

/-- The words of the first part of a region. -/
theorem wordsAt_take (m : Memory) (b i n : Nat) : (wordsAt m b (i + n)).take i = wordsAt m b i := by
  refine List.ext_getElem (by simp) fun k _ _ => ?_
  simp [wordsAt]

/-! ## Operands -/

/-- The operands a host gives each short command (R207). -/
theorem argU_set (s : State) {x y : Nat} (hx : x < 2 ^ 64) (hy : y < 2 ^ 64) :
    argU { s with args := (s.args.set 0 (BitVec.ofNat 64 x)).set 1 (BitVec.ofNat 64 y) } 0 = x ∧
    argU { s with args := (s.args.set 0 (BitVec.ofNat 64 x)).set 1 (BitVec.ofNat 64 y) } 1 = y := by
  simpa [argU, Vector.get_eq_getElem] using ⟨hx, hy⟩

/-- The words of DMEM are counted by a register (R6). -/
theorem dmemWords_lt {p : Config.Params} (h : p.legal = true) : p.dmemWords < 2 ^ 64 := by
  simp only [Config.Params.legal, Bool.and_eq_true, decide_eq_true_eq] at h
  obtain ⟨⟨⟨⟨⟨-, -, hwords, -⟩, -⟩, -⟩, -⟩, -⟩ := h
  exact Nat.pow_lt_pow_right Nat.one_lt_two (by omega)

/-! ## The short commands -/

/-- A run of q more segments is a run over the channel's next buffer of q segments (R205). -/
theorem olaRun_next_buffer (hbuf : ch.buf = q * ch.seg) (hseg : 1 ≤ ch.seg) (j : Nat) (xs : List B64) :
    olaRun ((j + 1) * q) ch xs =
      ((olaRun (j * q) ch xs).1 ++ (olaBuffer (olaRun (j * q) ch xs).2 ((xs.drop (j * ch.buf)).take ch.buf)).1,
       (olaBuffer (olaRun (j * q) ch xs).2 ((xs.drop (j * ch.buf)).take ch.buf)).2) := by
  obtain ⟨tail, htail, -⟩ := olaRun_channel (j * q) ch xs
  have htake := olaRun_take q { ch with tail := tail } (xs.drop (j * ch.buf))
  rw [← hbuf] at htake
  rw [Nat.succ_mul, olaRun_add, Nat.mul_assoc, ← hbuf, htail, ← htake, olaBuffer, hbuf, Nat.mul_div_cancel _ hseg]

/-- Channel c of s has context ch, with a filter and a buffer of q segments, and k such buffers from word b on are written. -/
structure StreamReady (s : State) (c : Channel) (ch : ChanCtx) (b q k : Nat) : Prop where
  legal : s.params.legal = true
  chanLt : c.val < s.params.nch
  channels : c.val < s.chans.length
  channel : ch = chan s c.val
  cfg : ch.cfg = true
  filt : ch.filt = true
  size : transformSize s.params ch.fft = true
  segPos : 1 ≤ ch.seg
  segLt : ch.seg < ch.fft
  buf : ch.buf = q * ch.seg
  inRange : b + k * ch.buf ≤ s.params.dmemWords
  written : written s.dmem b (k * ch.buf)

/-- What j OLA_APPLY commands over q segments each, on channel c with context ch and the stream xs at word b, make of s. -/
structure Streamed (s : State) (c : Channel) (ch : ChanCtx) (xs : List B64) (b q j : Nat) (t : State) : Prop where
  params : t.params = s.params
  channels : t.chans.length = s.chans.length
  channel : chan t c.val = (olaRun (j * q) ch xs).2
  dmem : t.dmem = writeWords s.dmem b (olaRun (j * q) ch xs).1
  twSize : t.twSize = if j = 0 then s.twSize else max s.twSize ch.fft

theorem streamed_zero (hch : ch = chan s c.val) : Streamed s c ch xs b q 0 s where
  params := rfl
  channels := rfl
  channel := by rw [Nat.zero_mul, olaRun, hch]
  dmem := by rw [Nat.zero_mul, olaRun, writeWords]
  twSize := (if_pos rfl).symm

theorem StreamReady.length_run (hs : StreamReady s c ch b q k) (j : Nat) (xs : List B64) :
    (olaRun (j * q) ch xs).1.length = j * ch.buf := by
  rw [olaRun_length_of_transformSize hs.size hs.segLt, hs.buf, Nat.mul_assoc]

/-- The next buffer is in the written region. -/
theorem StreamReady.buffer_end (hs : StreamReady s c ch b q k) (hj : j < k) :
    j * ch.buf + ch.buf ≤ k * ch.buf ∧ k * ch.buf < 2 ^ 64 - b := by
  have hlt := dmemWords_lt hs.legal
  have hr := hs.inRange
  exact ⟨Nat.succ_mul j ch.buf ▸ Nat.mul_le_mul_right _ hj, by omega⟩

/-- The earlier commands have left the next buffer as it was. -/
theorem Streamed.readWord_buffer (h : Streamed s c ch xs b q j t) (hs : StreamReady s c ch b q k) (i : Nat) :
    readWord t.dmem (b + j * ch.buf + i) = readWord s.dmem (b + j * ch.buf + i) := by
  rw [h.dmem, readWord_writeWords_outside _ _ (.inr (by rw [hs.length_run]; omega))]

/-- The words the next command reads (R207: the same signal). -/
theorem Streamed.buffer (h : Streamed s c ch (wordsAt s.dmem b (k * ch.buf)) b q j t) (hs : StreamReady s c ch b q k)
    (hj : j < k) :
    wordsAt t.dmem (b + j * ch.buf) ch.buf = ((wordsAt s.dmem b (k * ch.buf)).drop (j * ch.buf)).take ch.buf := by
  obtain ⟨r, hr⟩ := Nat.exists_eq_add_of_le (hs.buffer_end hj).1
  rw [wordsAt_congr fun i _ => h.readWord_buffer hs i, hr, Nat.add_assoc, wordsAt_drop, wordsAt_take]

/-- The next short command goes on where the last one stopped. -/
theorem Streamed.apply (h : Streamed s c ch (wordsAt s.dmem b (k * ch.buf)) b q j t) (hs : StreamReady s c ch b q k)
    (hj : j < k) (harg0 : argU t 0 = b + j * ch.buf) (harg1 : argU t 1 = ch.buf) :
    ∃ u, exec (.olaApply c) t = .next u ∧ Streamed s c ch (wordsAt s.dmem b (k * ch.buf)) b q (j + 1) u := by
  have hr := hs.inRange
  have hend := (hs.buffer_end hj).1
  have hrun := olaRun_next_buffer hs.buf hs.segPos j (wordsAt s.dmem b (k * ch.buf))
  have hlen := hs.length_run j (wordsAt s.dmem b (k * ch.buf))
  have hc : c.val < t.chans.length := h.channels.symm ▸ hs.channels
  obtain ⟨tail, htail, -⟩ := olaRun_channel (j * q) ch (wordsAt s.dmem b (k * ch.buf))
  have hchan : { ch with tail := tail } = chan t c.val := htail.symm.trans h.channel.symm
  have hw : written t.dmem (argU t 0) (argU t 1) := fun i hi => by
    rw [harg0, h.readWord_buffer hs, Nat.add_assoc]
    exact hs.written _ (by omega)
  refine ⟨_, execOlaApply_ok (h.params.symm ▸ hs.chanLt) hchan hs.cfg hs.filt harg1
    (by rw [harg0, harg1, h.params]; omega) hw, ?_⟩
  rw [harg0, harg1, h.buffer hs hj, ← htail]
  constructor
  case params => exact h.params
  case channels => rw [List.length_set, h.channels]
  case channel => rw [hrun]; exact chan_setChan_same t _ _ hc
  case dmem => rw [hrun, writeWords_append, ← h.dmem, hlen]
  case twSize =>
    rw [h.twSize, if_neg j.succ_ne_zero]
    split
    · rw [htail]
    · rw [htail, max_assoc, max_self]

/-- Every one of the k short commands completes. -/
theorem streamed_ok (hs : StreamReady s c ch b q k) (hj : j ≤ k) :
    ∃ t, streamed c b ch.buf j s = .next t ∧ Streamed s c ch (wordsAt s.dmem b (k * ch.buf)) b q j t := by
  induction j with
  | zero => exact ⟨s, rfl, streamed_zero hs.channel⟩
  | succ j ih =>
    obtain ⟨t, ht, h⟩ := ih (Nat.le_of_succ_le hj)
    obtain ⟨hle, hlt⟩ := hs.buffer_end hj
    obtain ⟨harg0, harg1⟩ := argU_set t (x := b + j * ch.buf) (y := ch.buf) (by omega) (by omega)
    rw [streamed, ht]
    exact Streamed.apply { h with } hs hj harg0 harg1

/-! ## The obligation -/

/-- A configured channel of a legal state, with its buffer cut into k. -/
theorem streamReady_setChan (hs : s.Inv) (hc : c.val < s.params.nch) (hch : ch = chan s c.val) (hcfg : ch.cfg = true)
    (hfilt : ch.filt = true) {B : Nat} (hbuf : ch.buf = k * B) (hB : B % ch.seg = 0)
    (hr : b + ch.buf ≤ s.params.dmemWords) (hw : written s.dmem b ch.buf) :
    StreamReady (setChan s c.val { ch with buf := B }) c { ch with buf := B } b (B / ch.seg) k := by
  have hwf : ch.wf s.params := hch ▸ chan_wf hs c.val
  obtain ⟨hF, hseg, hlt, -⟩ := hwf.1 hcfg
  have hclen : c.val < s.chans.length := hs.channels.symm ▸ hc
  exact {
    legal := hs.params
    chanLt := hc
    channels := by rwa [setChan_chans, List.length_set]
    channel := (chan_setChan_same s c.val _ hclen).symm
    cfg := hcfg
    filt := hfilt
    size := hF
    segPos := hseg
    segLt := hlt
    buf := (Nat.div_mul_cancel (Nat.dvd_of_mod_eq_zero hB)).symm
    inRange := hbuf ▸ hr
    written := hbuf ▸ hw }

/-- Settles O52: both runs go over the same segments, and the buffer size plays no part in a segment. -/
theorem streamingEquivalence : Obligations.StreamingEquivalence := by
  intro s c ch k B hs hc hch hcfg hfilt hk hbuf hB hn hr hw
  have hready := streamReady_setChan hs hc hch hcfg hfilt hbuf hB (hn ▸ hr) (hn ▸ hw)
  have hclen : c.val < s.chans.length := hs.channels.symm ▸ hc
  obtain ⟨u, hu, h⟩ := streamed_ok hready le_rfl
  have hsegs : ch.buf / ch.seg = k * (B / ch.seg) := by rw [hbuf, Nat.mul_div_assoc _ (Nat.dvd_of_mod_eq_zero hB)]
  refine ⟨_, u, execOlaApply_ok hc hch hcfg hfilt hn hr hw, hu, fun a => ?_, ?_, ?_⟩
  · rw [h.dmem, olaRun_buf, olaBuffer, hsegs, hn, hbuf]
    rfl
  · rw [h.channel, olaRun_buf, olaBuffer, hsegs, hn, hbuf]
    have hlong := chan_setChan_same s c.val (olaRun (k * (B / ch.seg)) ch (wordsAt s.dmem (argU s 0) (k * B))).2 hclen
    exact (congrArg ChanCtx.tail hlong).symm
  · rw [h.twSize, if_neg (Nat.ne_of_gt hk)]
    rfl

end Sys2Proof.Proofs
end

section
/-! The interleaving of the two channels of a buffer (45_pipeline.md R232, R233): its halves and their merge word by word. -/

namespace Sys2Proof.Proofs

open Sys2Proof.Machine Sys2Proof.Laws

/-! ## The halves and their merge -/

theorem evens_getElem? : ∀ (xs : List B64) (k : Nat), (evens xs)[k]? = xs[2 * k]?
  | [], _ => by simp [evens]
  | [_], 0 => rfl
  | [_], _ + 1 => by simp [evens]
  | _ :: _ :: _, 0 => rfl
  | _ :: _ :: rest, k + 1 => evens_getElem? rest k

theorem odds_getElem? : ∀ (xs : List B64) (k : Nat), (odds xs)[k]? = xs[2 * k + 1]?
  | [], _ => by simp [odds]
  | [_], _ => by simp [odds]
  | _ :: _ :: _, 0 => rfl
  | _ :: _ :: rest, k + 1 => odds_getElem? rest k

/-- The merge of two halves of one length holds their words in turn. -/
theorem merge_getElem? : ∀ (xs ys : List B64) (k : Nat), xs.length = ys.length →
    (merge xs ys)[2 * k]? = xs[k]? ∧ (merge xs ys)[2 * k + 1]? = ys[k]?
  | [], [], _, _ => by simp [merge]
  | [], _ :: _, _, h => nomatch h
  | _ :: _, [], _, h => nomatch h
  | _ :: _, _ :: _, 0, _ => ⟨rfl, rfl⟩
  | _ :: xs, _ :: ys, k + 1, h => merge_getElem? xs ys k (Nat.succ.inj h)

theorem merge_evens_odds : ∀ xs : List B64, merge (evens xs) (odds xs) = xs
  | [] => rfl
  | [_] => rfl
  | x :: y :: rest => congrArg (x :: y :: ·) (merge_evens_odds rest)

/-- Settles O57: the halves hold the words of even and odd index, and the merge alternates them again. -/
theorem interleaveRoundTrip : Obligations.InterleaveRoundTrip := fun xs _ =>
  ⟨merge_evens_odds xs, fun k _ => ⟨evens_getElem? xs k, odds_getElem? xs k⟩⟩

/-! ## The words of a channel in DMEM -/

/-- The words of one channel in the interleaved region (b, n): every other word, from word j on (R232). -/
def channelWords (m : Memory) (b n j : Nat) : List Word :=
  (List.range (n / 2)).map (fun k => (readWord m (b + 2 * k + j)).getD 0#64)

theorem getElem?_map_range {α : Type} (f : Nat → α) (n k : Nat) :
    ((List.range n).map f)[k]? = if k < n then some (f k) else none := by
  by_cases h : k < n <;> simp [h]

/-- The left half of an interleaved region. -/
theorem evens_wordsAt (m : Memory) (b : Nat) {n : Nat} (h : n % 2 = 0) :
    evens (wordsAt m b n) = channelWords m b n 0 := by
  refine List.ext_getElem? fun k => ?_
  have hk : 2 * k < n ↔ k < n / 2 := by omega
  rw [evens_getElem?, wordsAt, channelWords, getElem?_map_range, getElem?_map_range, if_congr hk rfl rfl, Nat.add_zero]

/-- The right half of an interleaved region. -/
theorem odds_wordsAt (m : Memory) (b n : Nat) : odds (wordsAt m b n) = channelWords m b n 1 := by
  refine List.ext_getElem? fun k => ?_
  have hk : 2 * k + 1 < n ↔ k < n / 2 := by omega
  rw [odds_getElem?, wordsAt, channelWords, getElem?_map_range, getElem?_map_range, if_congr hk rfl rfl, Nat.add_assoc]

/-- A channel's words are the same in two memories that agree on them. -/
theorem channelWords_congr {m m' : Memory} {b n j : Nat}
    (h : ∀ k, 2 * k < n → readWord m (b + 2 * k + j) = readWord m' (b + 2 * k + j)) :
    channelWords m b n j = channelWords m' b n j := by
  refine List.map_congr_left fun k hk => ?_
  have hk : k < n / 2 := List.mem_range.1 hk
  rw [h k (by omega)]

/-- A merge of two halves of one length stored at b: the words of each channel read back. -/
theorem readWord_merge (m : Memory) (b : Nat) {xs ys : List B64} {n k : Nat} (hxs : xs.length = n) (hys : ys.length = n)
    (hk : k < n) :
    readWord (writeWords m b (merge xs ys)) (b + 2 * k) = xs[k]? ∧
    readWord (writeWords m b (merge xs ys)) (b + 2 * k + 1) = ys[k]? := by
  obtain ⟨hread, -⟩ := stored_writeWords m b (merge xs ys)
  obtain ⟨heven, hodd⟩ := merge_getElem? xs ys k (hxs.trans hys.symm)
  have hlen := merge_length xs ys
  exact ⟨(hread (2 * k) (by omega)).trans heven, (hread (2 * k + 1) (by omega)).trans hodd⟩

end Sys2Proof.Proofs
end

section
/-! The pipeline commands (45_pipeline.md R230 to R232): what each leaves when its checks pass, and that no channel of a stereo
pipeline reaches the other. -/

namespace Sys2Proof.Proofs

open Sys2Proof.Machine Sys2Proof.Laws

variable {s s' t t' : State} {b n j : Nat} {xs taps : List Word}

/-! ## Configuration -/

/-- PIPE_CFG with an even total and a valid configuration on the per-channel size of its mode (R230). -/
theorem execPipeCfg_ok {mode : PipeMode} (harg : argU s 0 ≤ 1) (hmode : pipeModeOf (argU s 0) = mode)
    (heven : argU s 3 % 2 = 0)
    (hconfig : firstFailing (configChecks s.params (argU s 1) (argU s 2) (perChannel mode (argU s 3))) = none)
    {x : ChanCtx} (hx : x = configured (argU s 1) (argU s 2) (perChannel mode (argU s 3))) :
    exec .pipeCfg s = .next { s with
      chans := if mode = .stereo then (s.chans.set 0 x).set 1 x else s.chans.set 0 x
      pipeMode := mode, pipeBuf := argU s 3, status := completionFlags s.cmd .none } := by
  subst hmode hx
  have hchecks : firstFailing (pipeCfgChecks s) = none := by simp [pipeCfgChecks, harg, heven, hconfig]
  simp only [exec, execPipeCfg, runCommand, hchecks]
  split <;> rfl

/-- Settles O53: the configuration checks pass on the per-channel size of either mode. -/
theorem pipeCfgResult : Obligations.PipeCfgResult := by
  intro s k heven h2 hk hF hseg hlt
  have hsize := (transformSize_iff s.params (argU s 2)).2 ⟨k, h2, hk, hF⟩
  refine ⟨fun hmode hbuf hwords hmod => ?_, fun hmode hbuf hwords hmod => ?_⟩
  · have hmono : pipeModeOf (argU s 0) = .mono := if_pos hmode
    exact execPipeCfg_ok (by omega) hmono heven (configChecks_pass hsize hseg hlt hbuf hwords hmod) rfl
  · have hstereo : pipeModeOf (argU s 0) = .stereo := if_neg (by omega)
    exact execPipeCfg_ok (by omega) hstereo heven (configChecks_pass hsize hseg hlt hbuf hwords hmod) rfl

/-! ## The channels of a pipeline -/

/-- A legal state has both channels a pipeline can use. -/
theorem pipeline_channels (hs : s.Inv) : 1 < s.chans.length := by
  have hnch := nch_bounds hs.params
  have hlen := hs.channels
  omega

/-- The buffer of a stereo pipeline is cut into two even halves (R40). -/
theorem pipeline_buf_stereo (hs : pipelineWf s) (h : s.pipeMode = .stereo) :
    s.pipeBuf % 2 = 0 ∧ (chan s 0).buf = s.pipeBuf / 2 ∧ (chan s 1).buf = s.pipeBuf / 2 := by
  unfold pipelineWf at hs
  rw [h] at hs
  obtain ⟨heven, -, -, hleft, hright, -⟩ := hs
  exact ⟨heven, hleft, hright⟩

/-- A pipeline that is on and not stereo is mono (R33). -/
theorem pipeMode_eq_mono (hon : s.pipeMode ≠ .off) (hst : s.pipeMode ≠ .stereo) : s.pipeMode = .mono := by
  cases h : s.pipeMode with
  | off => exact absurd h hon
  | mono => rfl
  | stereo => exact absurd h hst

section
variable {x y : ChanCtx}

theorem chan_setStereo_left (h : 0 < s.chans.length) : chan (setChan (setChan s 0 x) 1 y) 0 = x :=
  (chan_setChan_other _ _ (by decide)).trans (chan_setChan_same s 0 x h)

theorem chan_setStereo_right (h : 1 < s.chans.length) : chan (setChan (setChan s 0 x) 1 y) 1 = y :=
  chan_setChan_same _ _ _ (by rwa [setChan_chans, List.length_set])

theorem chan_setStereo_other {c : Nat} (h : 2 ≤ c) : chan (setChan (setChan s 0 x) 1 y) c = chan s c :=
  (chan_setChan_other _ _ (by omega)).trans (chan_setChan_other _ _ (by omega))

end

/-! ## The filter -/

section
variable (hr : argU s 0 + argU s 1 ≤ s.params.dmemWords)
  (h : readWords s.dmem (argU s 0) (min (argU s 1) (chan s 0).fft) = .ok taps)
include hr h

/-- PIPE_SETFILTER in mono is OLA_SETFILTER on channel 0 (R231). -/
theorem execPipeSetfilter_mono (hm : s.pipeMode = .mono) :
    exec .pipeSetfilter s =
      .next (complete .none (setChan (growTwiddle (chan s 0).fft s) 0 (withFilter taps (chan s 0)))) := by
  have hchecks : firstFailing (pipeSetfilterChecks s) = none := by simp [pipeSetfilterChecks, inRange, hm, hr]
  rw [exec, execPipeSetfilter]
  refine runCommand_ok hchecks (bind_eq_ok.2 ⟨_, setFilterEffect_of_read h, ?_⟩)
  rw [if_neg (by rw [hm]; decide)]

/-- PIPE_SETFILTER in stereo: channel 1 reads the taps channel 0 has read, for its transform has the same size (R40). -/
theorem execPipeSetfilter_stereo (hm : s.pipeMode = .stereo) (hfft : (chan s 0).fft = (chan s 1).fft) :
    exec .pipeSetfilter s = .next (complete .none
      (setChan (setChan (growTwiddle (chan s 0).fft s) 0 (withFilter taps (chan s 0)))
        1 (withFilter taps (chan s 1)))) := by
  have hchecks : firstFailing (pipeSetfilterChecks s) = none := by simp [pipeSetfilterChecks, inRange, hm, hr]
  rw [exec, execPipeSetfilter]
  refine runCommand_ok hchecks (bind_eq_ok.2 ⟨_, setFilterEffect_of_read h, ?_⟩)
  have hright : chan (setChan (growTwiddle (chan s 0).fft s) 0 (withFilter taps (chan s 0))) 1 = chan s 1 := by
    rw [chan_setChan_other _ _ (by decide), chan_growTwiddle]
  rw [if_pos hm, setFilterEffect_of_read (taps := taps) (by rw [hright, ← hfft]; simpa using h), hright, ← hfft,
    growTwiddle_setChan, growTwiddle_eq, growTwiddle_eq, max_assoc, max_self]

end

/-- A filter set on a channel whose transform has F words (R204). -/
theorem withFilter_eq {ch : ChanCtx} {F : Nat} (hF : F = ch.fft) (taps : List B64) :
    withFilter taps ch = { ch with
      filt := true, spectrum := rfftF (Nat.log2 F) (padTo F taps), tail := List.replicate (ch.fft - ch.seg) 0#64 } := by
  subst hF
  rfl

/-- Settles O54: the taps read are those both transforms take, and the two channels have one transform size. -/
theorem pipeSetfilterResult : Obligations.PipeSetfilterResult := by
  rintro s H hs hon hr hw rfl
  rw [← padTo_wordsAt]
  have hread := readWords_written hw
  have hlen := pipeline_channels hs
  by_cases hm : s.pipeMode = .stereo
  · have hfft := pipeline_fft_stereo hs.pipeline hm
    refine ⟨_, execPipeSetfilter_stereo hr hread hm hfft, by rw [growTwiddle_eq]; rfl, ?_, fun _ => ?_,
      fun hmono => ?_, fun c hc => ?_⟩
    · exact chan_setStereo_left (by rw [growTwiddle_chans]; omega)
    · exact (chan_setStereo_right (by rwa [growTwiddle_chans])).trans (withFilter_eq hfft _)
    · exact nomatch hm.symm.trans hmono
    · rw [chan_complete, chan_setStereo_other hc, chan_growTwiddle]
  · refine ⟨_, execPipeSetfilter_mono hr hread (pipeMode_eq_mono hon hm), by rw [growTwiddle_eq]; rfl, ?_,
      fun hst => absurd hst hm, fun _ => ?_, fun c hc => ?_⟩
    · exact chan_setChan_same _ _ _ (by rw [growTwiddle_chans]; omega)
    · rw [chan_complete, chan_setChan_other _ _ (by decide), chan_growTwiddle]
    · rw [chan_complete, chan_setChan_other _ _ (by omega), chan_growTwiddle]

/-! ## The filtered buffer -/

/-- The per-segment loop leaves its channel all but the tail (R205). -/
theorem olaBuffer_channel (ch : ChanCtx) (xs : List B64) :
    (olaBuffer ch xs).2 = { ch with tail := (olaBuffer ch xs).2.tail } := by
  obtain ⟨tail, htail, -⟩ := olaRun_channel (ch.buf / ch.seg) ch xs
  rw [olaBuffer, htail]

/-- The loop over a whole buffer answers as many words as the buffer has (R205). -/
theorem olaBuffer_length {p : Config.Params} {ch : ChanCtx} (h : ch.wf p) (hc : ch.cfg = true) (xs : List B64) :
    (olaBuffer ch xs).1.length = ch.buf := by
  obtain ⟨hF, -, hlt, -, -, hmod, -⟩ := h.1 hc
  rw [olaBuffer, olaRun_length_of_transformSize hF hlt, Nat.div_mul_cancel (Nat.dvd_of_mod_eq_zero hmod)]

theorem written_of_readWords {m : Memory} (h : readWords m b n = .ok xs) : written m b n := fun k hk => by
  rw [readWords_getElem h k (by rwa [readWords_length h])]
  rfl

/-- The length of PIPE_FILTER is the pipeline's, and its region lies in DMEM (R232 checks 3 and 4). -/
abbrev PipeOperandsFit (s : State) : Prop := argU s 1 = s.pipeBuf ∧ argU s 0 + argU s 1 ≤ s.params.dmemWords

/-- With every filter of the pipeline set, the checks are those of the operands. -/
theorem pipeFilterChecks_pass_iff (hon : s.pipeMode ≠ .off) (hleft : (chan s 0).filt = true)
    (hright : s.pipeMode = .stereo → (chan s 1).filt = true) :
    firstFailing (pipeFilterChecks s) = none ↔ PipeOperandsFit s := by
  have hfilt : pipeFiltered s = true := by simpa [pipeFiltered, hleft, imp_iff_not_or] using hright
  simp only [pipeFilterChecks, firstFailing_eq_none, List.forall_mem_cons, hfilt, inRange, decide_eq_true_eq]
  simp [hon]

/-- PIPE_FILTER in mono is OLA_APPLY on channel 0 (R232). -/
theorem execPipeFilter_mono (hs : s.Inv) (hm : s.pipeMode = .mono) (hfilt : (chan s 0).filt = true)
    (hfit : PipeOperandsFit s) (hw : written s.dmem (argU s 0) (argU s 1))
    {r : List B64 × ChanCtx} (hrun : r = olaBuffer (chan s 0) (wordsAt s.dmem (argU s 0) (argU s 1))) :
    exec .pipeFilter s = .next { s with
      dmem := writeWords s.dmem (argU s 0) r.1
      twSize := max s.twSize (chan s 0).fft
      chans := s.chans.set 0 r.2
      status := completionFlags s.cmd .none } := by
  have hst : s.pipeMode ≠ .stereo := by rw [hm]; decide
  have hon : s.pipeMode ≠ .off := by rw [hm]; decide
  have hchecks := (pipeFilterChecks_pass_iff hon hfilt fun h => absurd h hst).2 hfit
  obtain ⟨-, hbuf⟩ := pipeline_mono hs.pipeline hon hst
  obtain ⟨hn, -⟩ := hfit
  have hw0 : written s.dmem (argU s 0) (chan s 0).buf := by rwa [hbuf, ← hn]
  have heffect := applyEffect_of_read (k := 0) (readWords_written hw0)
  rw [exec, execPipeFilter, runCommand_ok hchecks ((if_neg hst).trans heffect), growTwiddle_eq, hbuf, ← hn, ← hrun]
  rfl

/-- A legal state with a stereo pipeline whose two filters are set. -/
structure StereoReady (s : State) : Prop where
  inv : s.Inv
  mode : s.pipeMode = .stereo
  left : (chan s 0).filt = true
  right : (chan s 1).filt = true

/-- The per-segment loop of channel j over its words of the region (R232). -/
def channelRun (s : State) (j : Nat) : List B64 × ChanCtx :=
  olaBuffer (chan s j) (channelWords s.dmem (argU s 0) (argU s 1) j)

theorem channelRun_channel (s : State) (j : Nat) :
    (channelRun s j).2 = { chan s j with tail := (channelRun s j).2.tail } := olaBuffer_channel _ _

section
variable (hs : StereoReady s)
include hs

theorem StereoReady.checks_iff : firstFailing (pipeFilterChecks s) = none ↔ PipeOperandsFit s :=
  pipeFilterChecks_pass_iff (by rw [hs.mode]; decide) hs.left fun _ => hs.right

/-- Both channels answer as many words as they have in the region. -/
theorem StereoReady.channelRun_length (hn : argU s 1 = s.pipeBuf) :
    (channelRun s 0).1.length = argU s 1 / 2 ∧ (channelRun s 1).1.length = argU s 1 / 2 := by
  obtain ⟨hleft, hright⟩ := pipeline_cfg_stereo hs.inv.pipeline hs.mode
  obtain ⟨-, hbuf0, hbuf1⟩ := pipeline_buf_stereo hs.inv.pipeline hs.mode
  rw [channelRun, channelRun, olaBuffer_length (chan_wf hs.inv 0) hleft, olaBuffer_length (chan_wf hs.inv 1) hright, hn]
  exact ⟨hbuf0, hbuf1⟩

/-- The effect of stereo: each channel runs over its own words, and the two outputs are merged (R232). -/
theorem StereoReady.stereoEffect_ok (hn : argU s 1 = s.pipeBuf) (hw : written s.dmem (argU s 0) (argU s 1)) :
    stereoEffect (argU s 0) s = .ok { s with
      dmem := writeWords s.dmem (argU s 0) (merge (channelRun s 0).1 (channelRun s 1).1)
      twSize := max s.twSize (chan s 0).fft
      chans := (s.chans.set 0 (channelRun s 0).2).set 1 (channelRun s 1).2 } := by
  obtain ⟨heven, hbuf0, hbuf1⟩ := pipeline_buf_stereo hs.inv.pipeline hs.mode
  have hfft := pipeline_fft_stereo hs.inv.pipeline hs.mode
  have hleft : olaRun (s.pipeBuf / 2 / (chan s 0).seg) (chan s 0) (evens (wordsAt s.dmem (argU s 0) s.pipeBuf)) =
      channelRun s 0 := by rw [evens_wordsAt _ _ heven, channelRun, olaBuffer, hbuf0, hn]
  have hright : olaRun (s.pipeBuf / 2 / (chan s 1).seg) (chan s 1) (odds (wordsAt s.dmem (argU s 0) s.pipeBuf)) =
      channelRun s 1 := by rw [odds_wordsAt, channelRun, olaBuffer, hbuf1, hn]
  refine bind_eq_ok.2 ⟨_, hn ▸ readWords_written hw, ?_⟩
  simp only [hleft, hright, ← hfft, growTwiddle_eq, max_assoc, max_self]
  rfl

/-- PIPE_FILTER in stereo (R232). -/
theorem StereoReady.execPipeFilter (hfit : PipeOperandsFit s) (hw : written s.dmem (argU s 0) (argU s 1)) :
    exec .pipeFilter s = .next { s with
      dmem := writeWords s.dmem (argU s 0) (merge (channelRun s 0).1 (channelRun s 1).1)
      twSize := max s.twSize (chan s 0).fft
      chans := (s.chans.set 0 (channelRun s 0).2).set 1 (channelRun s 1).2
      status := completionFlags s.cmd .none } := by
  rw [exec, Machine.execPipeFilter,
    runCommand_ok (hs.checks_iff.2 hfit) ((if_pos hs.mode).trans (hs.stereoEffect_ok hfit.1 hw))]
  rfl

end

/-- Settles O55: the outputs of the two channels have one length, so their merge puts each word back in its place. -/
theorem pipeFilterResult : Obligations.PipeFilterResult := by
  intro s hs hon hleft hright hn hr hw
  refine ⟨fun hm r hrun => ?_, fun hm l r hl hr' => ?_⟩
  · obtain ⟨hcfg, hbuf⟩ := pipeline_mono hs.pipeline hon (by rw [hm]; decide)
    have hexec := execPipeFilter_mono hs hm hleft ⟨hn, hr⟩ hw hrun
    rw [hrun, olaBuffer_channel, ← hrun] at hexec
    exact ⟨_, hexec, stored_writeWords _ _ _, by rw [hrun, olaBuffer_length (chan_wf hs 0) hcfg, hbuf, hn]⟩
  · have hready : StereoReady s := ⟨hs, hm, hleft, hright hm⟩
    obtain rfl : l = channelRun s 0 := hl
    obtain rfl : r = channelRun s 1 := hr'
    have hexec := hready.execPipeFilter ⟨hn, hr⟩ hw
    rw [channelRun_channel s 0, channelRun_channel s 1] at hexec
    obtain ⟨hlen0, hlen1⟩ := hready.channelRun_length hn
    obtain ⟨heven, -⟩ := pipeline_buf_stereo hs.pipeline hm
    obtain ⟨-, hout⟩ := stored_writeWords s.dmem (argU s 0) (merge (channelRun s 0).1 (channelRun s 1).1)
    have hlen : (merge (channelRun s 0).1 (channelRun s 1).1).length = argU s 1 := by rw [merge_length]; omega
    exact ⟨_, hexec, fun k hk => readWord_merge _ _ hlen0 hlen1 hk, hlen0, hlen1, hlen ▸ hout⟩

/-! ## No cross-channel coupling -/

/-- Channel j and its words of the region are in t what its run in s gives (R232). -/
def ChannelFiltered (s t : State) (j : Nat) : Prop :=
  chan t j = (channelRun s j).2 ∧
  ∀ k, 2 * k < argU s 1 → readWord t.dmem (argU s 0 + 2 * k + j) = (channelRun s j).1[k]?

/-- A stereo PIPE_FILTER that completes over a written region has filtered both its channels. -/
theorem StereoReady.channelFiltered (hs : StereoReady s) (hfit : PipeOperandsFit s)
    (hw : written s.dmem (argU s 0) (argU s 1)) (h : exec .pipeFilter s = .next t) (hj : j < 2) :
    ChannelFiltered s t j := by
  obtain ⟨hlen0, hlen1⟩ := hs.channelRun_length hfit.1
  have hlen := pipeline_channels hs.inv
  have heven : argU s 1 % 2 = 0 := hfit.1 ▸ (pipeline_buf_stereo hs.inv.pipeline hs.mode).1
  have hwords k (hk : 2 * k < argU s 1) :=
    readWord_merge s.dmem (argU s 0) hlen0 hlen1 (show k < argU s 1 / 2 by omega)
  cases (hs.execPipeFilter hfit hw).symm.trans h
  obtain rfl | rfl : j = 0 ∨ j = 1 := by omega
  · exact ⟨chan_setStereo_left (by omega), fun k hk => (hwords k hk).1⟩
  · exact ⟨chan_setStereo_right hlen, fun k hk => (hwords k hk).2⟩

/-- What PIPE_FILTER leaves of a stereo channel: with operands that fit its run, otherwise what it was (R232, R252). -/
theorem StereoReady.pipeFilter_channel (hs : StereoReady s) (h : exec .pipeFilter s = .next t) (hj : j < 2) :
    (PipeOperandsFit s ∧ ChannelFiltered s t j) ∨
    (¬PipeOperandsFit s ∧ chan t j = chan s j ∧ t.dmem = s.dmem) := by
  obtain ⟨code, hc, e⟩ | ⟨hc, u, hu, -⟩ | ⟨-, f, -, e⟩ := runCommand_spec s (pipeFilterChecks s)
    (fun s => if s.pipeMode = .stereo then stereoEffect (argU s 0) s else applyEffect 0 (argU s 0) s)
  · cases e.symm.trans h
    exact .inr ⟨fun hfit => (nomatch hc.symm.trans (hs.checks_iff.2 hfit)), rfl, rfl⟩
  · have hfit := hs.checks_iff.1 hc
    obtain ⟨xs, hread, -⟩ := bind_eq_ok.1 ((if_pos hs.mode).symm.trans hu)
    exact .inl ⟨hfit, hs.channelFiltered hfit (hfit.1 ▸ written_of_readWords hread) h hj⟩
  · cases e.symm.trans h

/-- Two stereo states with the same operands whose channels j are alike, with the same words in the region, leave channel j
and its words alike. -/
theorem StereoReady.noCoupling (hs : StereoReady s) (hs' : StereoReady s') (hparams : s.params = s'.params)
    (hargs : s.args = s'.args) (hbuf : s.pipeBuf = s'.pipeBuf) (h : exec .pipeFilter s = .next t)
    (h' : exec .pipeFilter s' = .next t') (hj : j < 2) (hchan : chan s j = chan s' j)
    (hwords : ∀ k, 2 * k < argU s 1 →
      readWord s.dmem (argU s 0 + 2 * k + j) = readWord s'.dmem (argU s 0 + 2 * k + j)) :
    chan t j = chan t' j ∧ ∀ k, 2 * k < argU s 1 →
      readWord t.dmem (argU s 0 + 2 * k + j) = readWord t'.dmem (argU s 0 + 2 * k + j) := by
  have harg (i : Fin 8) : argU s i = argU s' i := by rw [argU, argU, hargs]
  have hfit : PipeOperandsFit s ↔ PipeOperandsFit s' := by
    rw [PipeOperandsFit, PipeOperandsFit, harg, harg, hbuf, hparams]
  have hrun : channelRun s j = channelRun s' j := by
    rw [channelRun, channelRun, hchan, channelWords_congr hwords, harg, harg]
  obtain ⟨hfits, hc, hw⟩ | ⟨hfits, hc, hm⟩ := hs.pipeFilter_channel h hj
  · obtain ⟨-, hc', hw'⟩ | ⟨hno, -⟩ := hs'.pipeFilter_channel h' hj
    · refine ⟨by rw [hc, hc', hrun], fun k hk => ?_⟩
      rw [hw k hk, hrun, harg 0, hw' k (harg 1 ▸ hk)]
    · exact absurd (hfit.1 hfits) hno
  · obtain ⟨hyes, -⟩ | ⟨-, hc', hm'⟩ := hs'.pipeFilter_channel h' hj
    · exact absurd (hfit.2 hyes) hfits
    · exact ⟨by rw [hc, hc', hchan], fun k hk => by rw [hm, hm', hwords k hk]⟩

/-- Settles O56: what a stereo channel becomes depends on the operands, its context and its words alone. -/
theorem stereoNoCoupling : Obligations.StereoNoCoupling := by
  intro s s' t t' hs hs' hparams hargs hm hm' hbuf hleft hleft' hright hright' h h'
  have hready : StereoReady s := ⟨hs, hm, hleft, hright⟩
  have hready' : StereoReady s' := ⟨hs', hm', hleft', hright'⟩
  exact ⟨hready.noCoupling hready' hparams hargs hbuf h h' (j := 0) (by decide),
    hready.noCoupling hready' hparams hargs hbuf h h' (j := 1) (by decide)⟩

end Sys2Proof.Proofs
end

section
/-! How a command fails (60_exceptions.md R250 to R253): a word that is no command ends with IllegalCommand, and every command
is its checks and then an effect, the first failing check ending it. -/

namespace Sys2Proof.Proofs

open Sys2Proof.Machine Sys2Proof.Laws

variable {s t : State} {i : Instr} {ok : Bool} {code : ErrCode} {cs : List Check} {v : Word}

/-! ## A word that is no command -/

/-- A CMD write of an illegal word, with no latency asked for, leaves CMD, the answer and the flags of R251. -/
theorem performAccess_write_cmd_illegal (hv : ∀ i, decode v = .ok i → i.wellFormed s.params = false)
    (hd : s.latency.headD 0 = 0) :
    performAccess (.write (s.params.base + 0x020) 8 v) s = .next { s with
      latency := s.latency.tail, resp := .written, cmd := v
      status := ⟨false, true, .illegalCommand, v.extractLsb' 0 8⟩ } := by
  rw [performAccess_write_cmd, startCommand_now (s := { s with resp := .written }) hd]
  exact finishCommand_illegal hv

/-- Settles O10: in each of the three ways the word becomes the running command, its completion writes STATUS alone. -/
theorem illegalWordIsReported : Obligations.IllegalWordIsReported := by
  intro s v hv
  refine ⟨fun rest hb hh hd hin => ?event, fun rest hb hd hh => ?held, fun hb ht hcmd => ?running⟩
  case event =>
    rw [step_event hb hh hin]
    exact performAccess_write_cmd_illegal (s := { s with hostIn := rest }) hv hd
  case held =>
    rw [step_held hb hh]
    exact performAccess_write_cmd_illegal (s := { s with held := rest }) hv hd
  case running =>
    subst hcmd
    rw [step_busy_finish hb ht]
    exact finishCommand_illegal (s := { s with timeLeft := 0 }) hv

/-! ## The checks of a command -/

/-- Every command performs the checks that R254 lists for it, and then its effect (R252). -/
theorem exec_eq_runCommand (i : Instr) (s : State) :
    ∃ effect, exec i s = runCommand (checksOf i s) effect s := by
  unfold exec checksOf
  cases i <;> exact ⟨_, rfl⟩

/-- A command with a failing check ends with the code of the first one (R253). -/
theorem failsWith_of_firstFailing (h : firstFailing (checksOf i s) = some code) : failsWith i s code := by
  obtain ⟨effect, he⟩ := exec_eq_runCommand i s
  exact he.trans (runCommand_fails h)

/-- A command whose checks all pass completes with code 0, where its effect does not fault. -/
theorem err_of_checks_pass (hc : firstFailing (checksOf i s) = none) (h : exec i s = .next t) :
    t.status.err = .none := by
  obtain ⟨effect, he⟩ := exec_eq_runCommand i s
  rw [he] at h
  obtain ⟨code, hfail, -⟩ | ⟨-, u, -, e⟩ | ⟨-, f, -, e⟩ := runCommand_spec s (checksOf i s) effect
  · cases hc.symm.trans hfail
  · cases e.symm.trans h
    rfl
  · cases e.symm.trans h

/-- Settles O21: of the outcomes of `runCommand`, the checks decide between the failure and the effect. -/
theorem checksBeforeEffect : Obligations.ChecksBeforeEffect := fun _ _ =>
  ⟨fun _ => failsWith_of_firstFailing, fun hc _ => err_of_checks_pass hc⟩

/-! ## Which check fails first -/

/-- When some check fails and none fails with another code, that code is the answer. -/
theorem firstFailing_eq_some (hcode : ∀ k ∈ cs, k.1 = false → k.2 = code) (h : firstFailing cs ≠ none) :
    firstFailing cs = some code := by
  induction cs with
  | nil => exact absurd rfl h
  | cons k cs ih =>
    obtain ⟨ok, code'⟩ := k
    obtain ⟨hhead, htail⟩ := List.forall_mem_cons.1 hcode
    cases ok with
    | false => exact congrArg some (hhead rfl)
    | true => exact ih htail h

/-- A first check that fails decides alone. -/
theorem failsWith_of_head (hc : checksOf i s = (ok, code) :: cs) (hok : ok = false) : failsWith i s code :=
  failsWith_of_firstFailing (by rw [hc, hok]; rfl)

/-- A command of whose checks one fails, and none with another code. -/
theorem failsWith_of_checks (hcode : ∀ k ∈ checksOf i s, k.1 = false → k.2 = code)
    (h : firstFailing (checksOf i s) ≠ none) : failsWith i s code :=
  failsWith_of_firstFailing (firstFailing_eq_some hcode h)

end Sys2Proof.Proofs
end

section
/-! When the commands of the FFT engine and the generators fail (60_exceptions.md R254), by the check that each condition fails. -/

namespace Sys2Proof.Proofs

open Sys2Proof.Machine Sys2Proof.Laws

variable {s : State} {i : Instr} {d : Direction} {ok : Bool}

/-! ## The FFT engine -/

/-- R120: the one check is that of the size. -/
theorem fftCfg_fails (h : ¬∃ k, 2 ≤ k ∧ k ≤ s.params.nmaxLog2 ∧ argU s 0 = 2 ^ k) :
    failsWith .fftCfg s .invalidConfiguration :=
  failsWith_of_head (i := .fftCfg) rfl (Bool.eq_false_iff.2 (mt (transformSize_iff _ _).1 h))

/-- A transform with a size set fails with InvalidArgument where its operands do not fit (R121). -/
theorem fftCplx_fails (h0 : s.fftN ≠ 0) (h : argU s 1 ≠ 2 * s.fftN ∨ s.params.dmemWords < argU s 0 + argU s 1) :
    failsWith (.fftCplx d) s .invalidArgument := by
  refine failsWith_of_checks (by simp [checksOf, fftCplxChecks, h0]) fun hc => ?_
  simp only [checksOf, fftCplxChecks, firstFailing_eq_none, List.forall_mem_cons, inRange, decide_eq_true_eq] at hc
  omega

/-- R122: both lengths and both regions are checked. -/
theorem fftCplxSplit_fails (h0 : s.fftN ≠ 0)
    (h : argU s 2 ≠ s.fftN ∨ argU s 3 ≠ s.fftN ∨ s.params.dmemWords < argU s 0 + argU s 2 ∨
      s.params.dmemWords < argU s 1 + argU s 3) :
    failsWith (.fftCplxSplit d) s .invalidArgument := by
  refine failsWith_of_checks (by simp [checksOf, fftCplxSplitChecks, h0]) fun hc => ?_
  simp only [checksOf, fftCplxSplitChecks, firstFailing_eq_none, List.forall_mem_cons, inRange, decide_eq_true_eq] at hc
  omega

/-- R123: a real transform has one word per sample. -/
theorem fftReal_fails (h0 : s.fftN ≠ 0) (h : argU s 1 ≠ s.fftN ∨ s.params.dmemWords < argU s 0 + argU s 1) :
    failsWith (.fftReal d) s .invalidArgument := by
  refine failsWith_of_checks (by simp [checksOf, fftRealChecks, h0]) fun hc => ?_
  simp only [checksOf, fftRealChecks, firstFailing_eq_none, List.forall_mem_cons, inRange, decide_eq_true_eq] at hc
  omega

/-- Settles O22: FFTN is checked first, so that every later failure is of an operand. -/
theorem fftErrors : Obligations.FftErrors := by
  refine fun s d => ⟨fftCfg_fails, fun h0 => ?_, fun h0 => ⟨fftCplx_fails h0, fftCplxSplit_fails h0, fftReal_fails h0⟩⟩
  have hunset : decide (s.fftN ≠ 0) = false := decide_eq_false (not_not_intro h0)
  exact ⟨failsWith_of_head (i := .fftCplx d) rfl hunset, failsWith_of_head (i := .fftCplxSplit d) rfl hunset,
    failsWith_of_head (i := .fftReal d) rfl hunset⟩

/-! ## Scalars, windows and impulse responses -/

/-- The Kaiser window and the impulse-response commands, which write the region of ARG0 and ARG1 (the other windows are those
of `windowTable`). -/
def regionGenerators : List Instr :=
  [.winKaiser, .irLowpass, .irHighpass, .irBandpass, .irBandelim, .irComb, .irResonator]

/-- These commands and the two scalar ones that can fail. -/
def generators : List Instr := .getFilterSize :: .getDelta :: regionGenerators

/-- Every failure of these commands is InvalidArgument (R254). -/
theorem generatorChecks_code (hi : i ∈ generators) : ∀ k ∈ checksOf i s, k.2 = .invalidArgument := by
  unfold generators regionGenerators at hi
  fin_cases hi <;>
    simp [checksOf, getFilterSizeChecks, getDeltaChecks, winKaiserChecks, windowChecks, irLowpassChecks,
      irHighpassChecks, irBandpassChecks, irBandelimChecks, bandChecks, irCombChecks, irResonatorChecks]

/-- Whichever check of a generator fails, the command ends with InvalidArgument. -/
theorem generator_fails (hm : (ok, .invalidArgument) ∈ checksOf i s) (hok : ok = false)
    (hi : i ∈ generators := by decide) : failsWith i s .invalidArgument :=
  failsWith_of_checks (fun k hk _ => generatorChecks_code hi k hk) fun hc =>
    absurd ((passes_of_mem hc hm).symm.trans hok) Bool.noConfusion

/-- The region (b, n) does not fit DMEM (R66). -/
theorem inRange_eq_false {b n : Nat} (h : s.params.dmemWords < b + n) : inRange s b n = false :=
  decide_eq_false (Nat.not_le.2 h)

/-- Each of the commands that write a region checks it (R149, R179). -/
theorem inRange_mem_checksOf (hi : i ∈ regionGenerators) :
    (inRange s (argU s 0) (argU s 1), .invalidArgument) ∈ checksOf i s := by
  unfold regionGenerators at hi
  fin_cases hi <;>
    simp [checksOf, winKaiserChecks, windowChecks, irLowpassChecks, irHighpassChecks, irBandpassChecks, irBandelimChecks,
      bandChecks, irCombChecks, irResonatorChecks]

theorem region_fails (h : s.params.dmemWords < argU s 0 + argU s 1) :
    ∀ i ∈ regionGenerators, failsWith i s .invalidArgument := fun _ hi =>
  generator_fails (inRange_mem_checksOf hi) (inRange_eq_false h) (.tail _ (.tail _ hi))

/-- R142: the ratio is a number below 2^63. -/
theorem filterRatioOk_eq_false {r : B64} (h : isFin r = false ∨ flt r (fofNat (2 ^ 63)) = false) :
    filterRatioOk r = false := by
  rw [show fofNat (2 ^ 63) = 0x43E0000000000000#64 by decide +kernel] at h
  rw [filterRatioOk, Bool.and_eq_false_iff]
  exact h

/-- R142: the two rates, and the ratio that has to fit RESULT. -/
theorem getFilterSize_fails
    (h : fpos (argF s 0) = false ∨ fpos (argF s 1) = false ∨
      isFin (fdiv C31 (fdiv (argF s 1) (argF s 0))) = false ∨
      flt (fdiv C31 (fdiv (argF s 1) (argF s 0))) (fofNat (2 ^ 63)) = false) :
    failsWith .getFilterSize s .invalidArgument := by
  obtain h | h | h := h
  · exact generator_fails (.head _) h
  · exact generator_fails (.tail _ (.head _)) h
  · exact generator_fails (.tail _ (.tail _ (.head _))) (filterRatioOk_eq_false h)

/-- R143: the sample rate and a delayer from 1. -/
theorem getDelta_fails (h : fpos (argF s 0) = false ∨ argU s 1 = 0) : failsWith .getDelta s .invalidArgument := by
  obtain h | h := h
  · exact generator_fails (.head _) h
  · exact generator_fails (.tail _ (.head _)) (decide_eq_false (by omega))

/-- R179: a window checks its region and nothing else. -/
theorem window_fails (h : s.params.dmemWords < argU s 0 + argU s 1) :
    ∀ w ∈ windowTable, failsWith w.1 s .invalidArgument := fun w hw =>
  (exec_window s w hw).trans (runCommand_fails (by rw [windowChecks, inRange_eq_false h]; rfl))

/-- R150 to R153: the sample rate and the frequency, which the four windowed-sinc commands check first. -/
theorem frequency_fails (h : fpos (argF s 2) = false ∨ fpos (argF s 3) = false) :
    failsWith .irLowpass s .invalidArgument ∧ failsWith .irHighpass s .invalidArgument ∧
    failsWith .irBandpass s .invalidArgument ∧ failsWith .irBandelim s .invalidArgument := by
  obtain h | h := h
  · refine ⟨?_, ?_, ?_, ?_⟩ <;> exact generator_fails (.head _) h
  · refine ⟨?_, ?_, ?_, ?_⟩ <;> exact generator_fails (.tail _ (.head _)) h

/-- R148: the bandwidth and the low edge of a band. -/
theorem band_fails (h : fpos (argF s 4) = false ∨ flt (fsub (argF s 3) (fmul (argF s 4) HALF)) plusZero = true) :
    failsWith .irBandpass s .invalidArgument ∧ failsWith .irBandelim s .invalidArgument := by
  obtain h | h := h
  · exact ⟨generator_fails (.tail _ (.tail _ (.head _))) h, generator_fails (.tail _ (.tail _ (.head _))) h⟩
  · have hlow : (!flt (freqLow (argF s 3) (argF s 4)) plusZero) = false := congrArg not h
    exact ⟨generator_fails (.tail _ (.tail _ (.tail _ (.head _)))) hlow,
      generator_fails (.tail _ (.tail _ (.tail _ (.head _)))) hlow⟩

/-- R155: the delay is a number not below its least value. -/
theorem irComb_fails (h : isFin (argF s 2) = false ∨ flt (argF s 2) s.params.combDelayMin = true) :
    failsWith .irComb s .invalidArgument := by
  refine generator_fails (.head _) (Bool.and_eq_false_iff.2 (h.imp_right fun hlt => ?_))
  rw [hlt]
  rfl

/-- R156: the sample rate, the frequencies, their region, and its overlap with the taps. -/
theorem irResonator_fails
    (h : fpos (argF s 2) = false ∨ argU s 5 = 0 ∨ s.params.dmemWords < argU s 4 + argU s 5 ∨
      (1 ≤ argU s 1 ∧ argU s 0 < argU s 4 + argU s 5 ∧ argU s 4 < argU s 0 + argU s 1)) :
    failsWith .irResonator s .invalidArgument := by
  refine failsWith_of_checks (fun k hk _ => generatorChecks_code (by decide) k hk) fun hc => ?_
  simp only [checksOf, irResonatorChecks, firstFailing_eq_none, List.forall_mem_cons, inRange, disjoint,
    Bool.or_eq_true, decide_eq_true_eq] at hc
  obtain ⟨hfs, hF, hr, hq, hd, -⟩ := hc
  rw [hfs] at h
  simp only [Bool.true_eq_false, false_or] at h
  omega

/-- Settles O23, by the check that each condition fails. -/
theorem generatorErrors : Obligations.GeneratorErrors := by
  refine fun s => ⟨getFilterSize_fails, getDelta_fails, fun h => ⟨window_fails h, ?_⟩, frequency_fails, band_fails,
    irComb_fails, irResonator_fails⟩
  simpa [regionGenerators] using region_fails h

end Sys2Proof.Proofs
end

section
/-! When the overlap-add and pipeline commands fail (60_exceptions.md R254). Their checks have more than one code, so that the
order of R253 matters: a check decides where those before it pass. -/

namespace Sys2Proof.Proofs

open Sys2Proof.Machine Sys2Proof.Laws

variable {s : State} {i : Instr} {c : Channel} {cs : List Check}

/-! ## Overlap-add -/

/-- The conditions of R200. -/
theorem configChecks_pass_iff {p : Config.Params} {seg fft buf : Nat} :
    firstFailing (configChecks p seg fft buf) = none ↔
      (∃ k, 2 ≤ k ∧ k ≤ p.nmaxLog2 ∧ fft = 2 ^ k) ∧ (1 ≤ seg ∧ seg < fft) ∧ (1 ≤ buf ∧ buf ≤ p.dmemWords) ∧
        buf % seg = 0 := by
  rw [← transformSize_iff, firstFailing_eq_none]
  simp [configChecks]

theorem configChecks_code {p : Config.Params} {seg fft buf : Nat} :
    ∀ k ∈ configChecks p seg fft buf, k.2 = .invalidConfiguration := by simp [configChecks]

/-- R83: the channel is checked before everything else. -/
theorem failsWith_of_channel (hc : checksOf i s = channelCheck c s :: cs) (h : s.params.nch ≤ c.val) :
    failsWith i s .illegalCommand :=
  failsWith_of_head hc (decide_eq_false (Nat.not_lt.2 h))

/-- Past the channel check the checks that follow decide. -/
theorem checksOf_channel (hc : checksOf i s = channelCheck c s :: cs) (h : c.val < s.params.nch) :
    firstFailing (checksOf i s) = firstFailing cs := by
  rw [hc, channelCheck, firstFailing_cons, decide_eq_true h, if_pos rfl]

/-- R203: all that is checked past the channel is R200. -/
theorem olaCfg_fails (hn : c.val < s.params.nch)
    (h : (¬∃ k, 2 ≤ k ∧ k ≤ s.params.nmaxLog2 ∧ argU s 1 = 2 ^ k) ∨ argU s 0 = 0 ∨ argU s 1 ≤ argU s 0 ∨ argU s 2 = 0 ∨
      s.params.dmemWords < argU s 2 ∨ argU s 2 % argU s 0 ≠ 0) :
    failsWith (.olaCfg c) s .invalidConfiguration := by
  refine failsWith_of_firstFailing ((checksOf_channel rfl hn).trans
    (firstFailing_eq_some (fun k hk _ => configChecks_code k hk) fun hc => ?_))
  obtain ⟨hF, hseg, hbuf, hmod⟩ := configChecks_pass_iff.1 hc
  obtain h | h := h
  · exact h hF
  · omega

/-- R204, R205: no configuration. -/
theorem unconfigured_fails (hn : c.val < s.params.nch) (h : (chan s c.val).cfg = false) :
    failsWith (.olaSetfilter c) s .invalidConfiguration ∧ failsWith (.olaApply c) s .invalidConfiguration :=
  ⟨failsWith_of_firstFailing ((checksOf_channel (i := .olaSetfilter c) rfl hn).trans (by rw [h]; rfl)),
   failsWith_of_firstFailing ((checksOf_channel (i := .olaApply c) rfl hn).trans (by rw [h]; rfl))⟩

/-- R205: no filter, whether the channel is configured or not. -/
theorem olaApply_unfiltered_fails (hn : c.val < s.params.nch) (h : (chan s c.val).filt = false) :
    failsWith (.olaApply c) s .invalidConfiguration := by
  refine failsWith_of_firstFailing ((checksOf_channel rfl hn).trans ?_)
  rw [h]
  cases (chan s c.val).cfg <;> rfl

/-- R204: the region of the response. -/
theorem olaSetfilter_range_fails (hn : c.val < s.params.nch) (hcfg : (chan s c.val).cfg = true)
    (h : s.params.dmemWords < argU s 0 + argU s 1) : failsWith (.olaSetfilter c) s .invalidArgument := by
  refine failsWith_of_firstFailing ((checksOf_channel rfl hn).trans ?_)
  rw [hcfg, inRange_eq_false h]
  rfl

/-- R205: the length and the region of the buffer. -/
theorem olaApply_operand_fails (hn : c.val < s.params.nch) (hcfg : (chan s c.val).cfg = true)
    (hfilt : (chan s c.val).filt = true)
    (h : argU s 1 ≠ (chan s c.val).buf ∨ s.params.dmemWords < argU s 0 + argU s 1) :
    failsWith (.olaApply c) s .invalidArgument := by
  refine failsWith_of_checks (by simp [checksOf, olaApplyChecks, channelCheck, hn, hcfg, hfilt]) fun hc => ?_
  simp only [checksOf, olaApplyChecks, firstFailing_eq_none, List.forall_mem_cons, inRange, decide_eq_true_eq] at hc
  obtain ⟨-, -, -, hlen, hr, -⟩ := hc
  omega

/-! ## Pipeline -/

/-- R230: the mode, the total, and R200 on the per-channel size of the mode. -/
theorem pipeCfg_fails
    (h : 2 ≤ argU s 0 ∨ argU s 3 % 2 = 1 ∨ (¬∃ k, 2 ≤ k ∧ k ≤ s.params.nmaxLog2 ∧ argU s 2 = 2 ^ k) ∨ argU s 1 = 0 ∨
      argU s 2 ≤ argU s 1 ∨ argU s 3 = 0 ∨
      (argU s 0 = 0 ∧ (s.params.dmemWords < argU s 3 ∨ argU s 3 % argU s 1 ≠ 0)) ∨
      (argU s 0 = 1 ∧ (s.params.dmemWords < argU s 3 / 2 ∨ argU s 3 / 2 % argU s 1 ≠ 0))) :
    failsWith .pipeCfg s .invalidConfiguration := by
  refine failsWith_of_checks (by simp [checksOf, pipeCfgChecks, configChecks]) fun hc => ?_
  have hmode : argU s 0 ≤ 1 := of_decide_eq_true (passes_of_mem hc (.head _))
  have heven : argU s 3 % 2 = 0 := of_decide_eq_true (passes_of_mem hc (.tail _ (.head _)))
  obtain ⟨hF, hseg, hbuf, hmod⟩ := configChecks_pass_iff.1 (firstFailing_tail (firstFailing_tail hc))
  simp only [hF, not_true_eq_false, false_or] at h
  by_cases h0 : argU s 0 = 0
  · have hmono : perChannel (pipeModeOf (argU s 0)) (argU s 3) = argU s 3 := by rw [pipeModeOf, if_pos h0]; rfl
    rw [hmono] at hbuf hmod
    omega
  · have hstereo : perChannel (pipeModeOf (argU s 0)) (argU s 3) = argU s 3 / 2 := by rw [pipeModeOf, if_neg h0]; rfl
    rw [hstereo] at hbuf hmod
    omega

/-- R231, R232: no pipeline. -/
theorem pipeOff_fails (h : s.pipeMode = .off) :
    failsWith .pipeSetfilter s .invalidConfiguration ∧ failsWith .pipeFilter s .invalidConfiguration := by
  have hoff : decide (s.pipeMode ≠ .off) = false := decide_eq_false (not_not_intro h)
  exact ⟨failsWith_of_head (i := .pipeSetfilter) rfl hoff, failsWith_of_head (i := .pipeFilter) rfl hoff⟩

/-- R231: the region of the response. -/
theorem pipeSetfilter_range_fails (hon : s.pipeMode ≠ .off) (h : s.params.dmemWords < argU s 0 + argU s 1) :
    failsWith .pipeSetfilter s .invalidArgument :=
  failsWith_of_firstFailing (by simp [checksOf, pipeSetfilterChecks, hon, inRange_eq_false h])

/-- The channels of the pipeline have their filters (R232). -/
theorem pipeFiltered_iff :
    pipeFiltered s = true ↔ (chan s 0).filt = true ∧ (s.pipeMode = .stereo → (chan s 1).filt = true) := by
  simp [pipeFiltered, imp_iff_not_or]

/-- R232: no filter, whether there is a pipeline or not. -/
theorem pipeFilter_unfiltered_fails
    (h : (chan s 0).filt = false ∨ (s.pipeMode = .stereo ∧ (chan s 1).filt = false)) :
    failsWith .pipeFilter s .invalidConfiguration := by
  have hfilt : pipeFiltered s = false := by
    rw [Bool.eq_false_iff, Ne, pipeFiltered_iff]
    rintro ⟨hleft, hright⟩
    obtain h | ⟨hm, h⟩ := h
    · exact Bool.noConfusion (hleft.symm.trans h)
    · exact Bool.noConfusion ((hright hm).symm.trans h)
  exact failsWith_of_firstFailing (by simp [checksOf, pipeFilterChecks, hfilt])

/-- R232: the length and the region of the buffer. -/
theorem pipeFilter_operand_fails (hon : s.pipeMode ≠ .off) (hfilt : pipeFiltered s = true)
    (h : argU s 1 ≠ s.pipeBuf ∨ s.params.dmemWords < argU s 0 + argU s 1) :
    failsWith .pipeFilter s .invalidArgument := by
  refine failsWith_of_checks (by simp [checksOf, pipeFilterChecks, hon, hfilt]) fun hc => ?_
  simp only [checksOf, pipeFilterChecks, firstFailing_eq_none, List.forall_mem_cons, inRange, decide_eq_true_eq] at hc
  obtain ⟨-, -, hlen, hr, -⟩ := hc
  omega

/-- Settles O24, by the check that each condition fails where the checks before it pass. -/
theorem filterErrors : Obligations.FilterErrors := fun _ c =>
  ⟨fun h => ⟨failsWith_of_channel (i := .olaCfg c) rfl h, failsWith_of_channel (i := .olaSetfilter c) rfl h,
      failsWith_of_channel (i := .olaApply c) rfl h⟩,
    fun hn => ⟨olaCfg_fails hn, unconfigured_fails hn, olaApply_unfiltered_fails hn, olaSetfilter_range_fails hn,
      olaApply_operand_fails hn⟩,
    pipeCfg_fails, pipeOff_fails, pipeSetfilter_range_fails, pipeFilter_unfiltered_fails,
    fun hon hleft hright => pipeFilter_operand_fails hon (pipeFiltered_iff.2 ⟨hleft, hright⟩)⟩

end Sys2Proof.Proofs
end

section
/-! The interrupt output (60_exceptions.md R262, R263): raised by a completion, dropped by the acknowledgement of DONE. -/

namespace Sys2Proof.Proofs

open Sys2Proof.Machine Sys2Proof.Laws

variable {s t : State} {v : Word}

/-- irq after a completion is IE, which no command changes (R262, R99). -/
theorem Completes.irq (h : Completes s t) : irq t = s.ie := by
  obtain ⟨code, u, hu, rfl⟩ := h
  exact (Bool.true_and u.ie).trans hu.frame.ie

/-- An acknowledging STATUS write drops irq (R263). -/
theorem irq_of_acknowledge (hv : v.getLsbD 1 = true)
    (h : performAccess (.write (s.params.base + 0x018) 8 v) s = .next t) : irq t = false := by
  rw [performAccess_write_register (locate_status _) rfl (by decide), writeTarget, ackFlags, if_pos hv] at h
  cases h
  rfl

/-- Settles O18: every command that completes sets DONE, and only DONE is acknowledged. -/
theorem interruptOutput : Obligations.InterruptOutput :=
  ⟨fun _ _ _ h => (exec_keeps h).irq, fun _ _ _ => irq_of_acknowledge, fun _ => rfl⟩

end Sys2Proof.Proofs
end

section
/-! Resets (70_reset_and_hazards.md R290 to R293): the reset input, the soft reset of an idle CORE, and the soft reset that aborts
a running command. -/

namespace Sys2Proof.Proofs

open Sys2Proof.Machine Sys2Proof.Laws

variable {s : State} {v : Word} {i : Instr} {k : Nat} {r : Nat × Nat}

/-! ## The regions an abort forgets -/

/-- A command past its checks may have written any word of its output regions (R293). -/
theorem abortRegions_of_passes (hi : decode s.cmd = .ok i) (hw : i.wellFormed s.params = true)
    (hc : firstFailing (checksOf i s) = none) : abortRegions s = outputRegions i s := by
  simp only [abortRegions, hi, hw, hc, decide_true, Bool.and_self, if_true]

/-- A word that is no command, or a command that fails a check, has written nothing (R251, R252). -/
theorem abortRegions_of_fails
    (h : ∀ i, decode s.cmd = .ok i → i.wellFormed s.params = true → firstFailing (checksOf i s) ≠ none) :
    abortRegions s = [] := by
  unfold abortRegions
  cases hi : decode s.cmd with
  | error e => rfl
  | ok i =>
    refine if_neg fun hpass => ?_
    obtain ⟨hw, hc⟩ := (Bool.and_eq_true _ _).mp hpass
    exact h i hi hw (of_decide_eq_true hc)

/-! ## DMEM after an abort -/

theorem KeepsOutside.forget {rs : List (Nat × Nat)} {m m' : Memory} (h : KeepsOutside rs m m') (hr : r ∈ rs) :
    KeepsOutside rs m (forgetWords m' r.1 r.2) := by
  intro a ha
  have hout := ha r hr
  rw [readByte_forgetWords, if_neg (by omega)]
  exact h a ha

theorem KeepsOutside.mono {rs rs' : List (Nat × Nat)} {m m' : Memory} (h : KeepsOutside rs m m')
    (hsub : ∀ r ∈ rs, r ∈ rs') : KeepsOutside rs' m m' :=
  fun a ha => h a fun r hr => ha r (hsub r hr)

/-- An abort changes no byte outside its regions. -/
theorem abortDmem_keepsOutside (s : State) : KeepsOutside (abortRegions s) s.dmem (abortDmem s) := by
  unfold abortDmem
  induction abortRegions s using List.reverseRecOn with
  | nil => exact .refl _ _
  | append_singleton rs r ih =>
    rw [List.foldl_concat]
    exact (ih.mono fun _ => List.mem_append_left _).forget List.mem_concat_self

/-- An abort makes every word of its regions never written: forgetting a later region brings no word back. -/
theorem readWord_abortDmem (hr : r ∈ abortRegions s) (hk : k < r.2) : readWord (abortDmem s) (r.1 + k) = none := by
  unfold abortDmem
  generalize abortRegions s = rs at hr ⊢
  induction rs using List.reverseRecOn with
  | nil => cases hr
  | append_singleton rs last ih =>
    rw [List.foldl_concat, readWord_forgetWords]
    split
    · rfl
    · next hout =>
      obtain hr | hr := List.mem_append.mp hr
      · exact ih hr
      · cases List.mem_singleton.mp hr
        omega

/-! ## The soft reset -/

/-- While no command runs, the soft reset keeps DMEM (R292). -/
theorem softReset_idle (hb : s.status.busy = false) :
    softReset s = { State.initial s.params with
      dmem := s.dmem, held := s.held, hostIn := s.hostIn, latency := s.latency, resp := s.resp } := by
  simp only [softReset, hb, Bool.false_eq_true, if_false]

/-- While a command runs, the soft reset aborts it (R292). -/
theorem softReset_busy (hb : s.status.busy = true) :
    softReset s = { State.initial s.params with
      dmem := abortDmem s, held := s.held, hostIn := s.hostIn, latency := s.latency, resp := s.resp } := by
  simp only [softReset, hb, if_true]

/-- A CTRL write with bit 1 set is a soft reset, answered first (R28). -/
theorem performAccess_softReset (s : State) (hv : v.getLsbD 1 = true) :
    performAccess (.write (s.params.base + 0x010) 8 v) s = .next (softReset { s with resp := .written }) := by
  rw [performAccess_write_register (locate_ctrl _) rfl (by decide), writeTarget, if_pos hv]

/-! ## The obligations -/

/-- Settles O6: the reset input is the next event of an idle CORE, or arrives while a command runs. -/
theorem resetInput : Obligations.ResetInput := by
  refine fun s rest hin => ⟨fun hb hh => ?idle, fun hb ht => ?running⟩
  case idle => exact step_event hb hh hin
  case running =>
    obtain ⟨n, hn⟩ := Nat.exists_eq_succ_of_ne_zero ht
    exact step_busy_event hb hn hin

/-- Settles O19, by the soft reset of an idle CORE. -/
theorem softResetIdle : Obligations.SoftResetIdle := fun s _ hb hv =>
  (performAccess_softReset s hv).trans (congrArg _ (softReset_idle (s := { s with resp := .written }) hb))

/-- Settles O20: DMEM afterwards is that of the abort, whose regions are the output regions of a command past its checks and
none otherwise. -/
theorem softResetAborts : Obligations.SoftResetAborts := by
  intro s v hb hv
  refine ⟨abortDmem s, ?_, fun i hi hw hc => ?passes, fun hfail => ?fails⟩
  · exact (performAccess_softReset s hv).trans (congrArg _ (softReset_busy (s := { s with resp := .written }) hb))
  case passes =>
    rw [← abortRegions_of_passes hi hw hc]
    exact ⟨fun r hr k hk => readWord_abortDmem hr hk, abortDmem_keepsOutside s⟩
  case fails => rw [abortDmem, abortRegions_of_fails hfail, List.foldl_nil]

end Sys2Proof.Proofs
end
